-- ==== Sys2Proof/Word.lean ====
section
/-! DEFINITION. The word types of the Lubran 480: the link and the disk carry bytes, two-byte fields
are sent most significant byte first (R165, section 5.4), and both disk formats carry a 32-bit check. -/

namespace Sys2Proof

/-- One byte of a frame, a block ID, a header or a block. -/
abbrev Byte := BitVec 8

/-- A two-byte field of a block ID. -/
abbrev Word16 := BitVec 16

/-- The 32-bit cyclic check of section 5.4. -/
abbrev Word32 := BitVec 32

/-- The byte that carries the number `n` (its low eight bits). -/
def byteOf (n : Nat) : Byte := BitVec.ofNat 8 n

/-- The two bytes that carry the number `n`, most significant first (R165). -/
def bytesOf16 (n : Nat) : List Byte := [byteOf (n / 256), byteOf n]

/-- The number two bytes carry, most significant first (R165). -/
def natOf16 (hi lo : Byte) : Nat := hi.toNat * 256 + lo.toNat

end Sys2Proof
end

