-- ==== Sys2Proof/Config.lean ====
section
/-! DEFINITION. What is fixed for the machine: the geometry of section "Disk Geometry" (00_scope), the
capacities the chapters give, the loads of the two timers that run on CLOCK, and the values the manual
leaves open. -/

namespace Sys2Proof.Config

/-- Physical cylinders of a spindle, numbered 0 to 559. -/
abbrev cylinders : Nat := 560
/-- Heads of a spindle, numbered 0 to 11. -/
abbrev heads : Nat := 12
/-- Home cylinders of a spindle: logical cylinders 0 to 543. -/
abbrev homeCylinders : Nat := 544
/-- Blocks on a track, numbered 0 to 14. -/
abbrev blocksPerTrack : Nat := 15
/-- Slots of a revolution, numbered 0 to 95. -/
abbrev slotsPerRev : Nat := 96
/-- Alternate tracks of a spindle (R98). -/
abbrev alternates : Nat := 192
/-- Entries the Spare Map can hold (R95). -/
abbrev mapCapacity : Nat := 384
/-- Tracks the suspect list can hold (R120). -/
abbrev suspectCapacity : Nat := 32
/-- Tracks the pending reassignment list can hold (R125). -/
abbrev pendingCapacity : Nat := 8
/-- Host entries one spindle queue can hold (R42). -/
abbrev queueCapacity : Nat := 8
/-- Rejects that may wait in a transmitter (R180). -/
abbrev rejectCapacity : Nat := 4
/-- The longest payload of a non-data frame (R165). -/
abbrev maxPayload : Nat := 48
/-- 60 s of the 24 MHz CLOCK: the load of the spin-up timer (R5, R6). -/
abbrev spinUpLoad : Nat := 1440000000
/-- 200 ms of the 24 MHz CLOCK: the load of the link timer (R177). -/
abbrev linkLoad : Nat := 4800000
/-- The recalibration limit, in slots (R21). -/
abbrev recalLimit : Nat := 1536
/-- What the seek deadline allows beyond the estimate, in slots (R14). -/
abbrev deadlineAllowance : Nat := 96
/-- The need of an entry for staging slots is at most this (R76). -/
abbrev slotsPerEntry : Nat := 4
/-- The most retries of a block that is read or written without write-verify (R80, R87). -/
abbrev maxRetries : Nat := 8
/-- The most failed attempts of a block written with write-verify (R87). -/
abbrev maxVerifyRetries : Nat := 2
/-- New alternates one reassignment may try (R133). -/
abbrev maxAlternatesTried : Nat := 3
/-- How many internal consequences one step may have before the model gives it up (a bound of the
model's own, far above any the part can reach; log entry 4). -/
abbrev settleFuel : Nat := 1024

/-- FREE VALUE. The residual count in the BAD FIELD ending of a READ, WRITE or VERIFY whose payload is
too short to carry a count: R170 makes the residual of a refused command "its count", and there is
none (DESIGN CHOICE, log entry 23). -/
opaque shortResidual : List Byte → Byte

/-- FREE VALUE. The bytes that the slot of a copied block holds when the block is carried LOST because its ninth attempt
was cut short: R131 and R132 write "the bytes read at its last attempt", and the manual does not say what a cut attempt
leaves. A function of the slot's bytes before, the spindle, the block and the revolution counter (DESIGN CHOICE, log
entry 44). -/
opaque cutBytes : List Byte → Nat → Nat → Nat → Vector Byte 1024

end Sys2Proof.Config
end

