-- ==== Sys2Proof/Syntax.lean ====
section
/-! DEFINITION. The commands of the Lubran 480: one constructor of `Instr` for each row of
spec/opcode_table.json, with the row's operands. A frame of a host carries its address, its payload and
its check byte; a drive event names its spindle; an event of the one read/write path carries what READ
DATA brought. -/

namespace Sys2Proof

/-- A Link Port, A to D, coded 0 to 3 (R165). -/
abbrev Port := Fin 4

/-- A spindle position, 0 to 7. -/
abbrev Spindle := Fin 8

/-- A command tag, 0 to 3 (R167). -/
abbrev Tag := Fin 4

/-- The strap pins (00_scope, "Signals and Straps"): `true` is a set strap. -/
structure Straps where
  address   : BitVec 5
  authority : Vector Bool 4
  autostart : Vector Bool 8
  present   : Vector Bool 8
  deriving DecidableEq, Repr

/-- A non-data frame as a receiver takes it: address byte, payload and check byte (R165). Its kind code is
given by the row, and its length byte is the length of the payload. -/
structure HostFrame where
  addr    : Byte
  payload : List Byte
  check   : Byte
  deriving DecidableEq, Repr

/-- A DATA frame as a receiver takes it (R165): address, tag, sequence, 256 data bytes, check. -/
structure DataFrame where
  addr  : Byte
  tag   : Byte
  seq   : Byte
  bytes : Vector Byte 256
  check : Byte
  deriving DecidableEq, Repr

/-- How a DATA frame is damaged: its check byte is bad (R179), or a START cuts it after the bytes given,
the address byte first (R180). -/
inductive DamagedData where
  | badCheck (f : DataFrame)
  | cut (bytes : List Byte)
  deriving DecidableEq, Repr

/-- What a frame whose length is refused brought after its kind byte (R179): a length byte above 48, and the rest is
ignored; or, for a RESET PORT, its payload and its check byte, since it is refused when it has come whole and its check
has passed. -/
inductive RefusedLength where
  | long (len : Byte)
  | whole (payload : List Byte) (check : Byte)
  deriving DecidableEq, Repr

/-- What a receiver takes off the line other than a HOLD (10.1). -/
inductive LinkSymbol where
  | start
  | idle
  | byte (b : Byte)
  deriving DecidableEq, Repr

/-- A block ID as read off the disk (section 5.4). -/
structure BlockId where
  cyl   : Word16
  head  : Byte
  block : Byte
  flags : Byte
  deriving DecidableEq, Repr

/-- The drive status lines that have fallen since the spindle's last mark. The table has no row for the
fall of ON TRACK, GUARD or FAULT, whose falls do nothing by themselves; a mark brings them
(DESIGN CHOICE, log entry 6). -/
structure Falls where
  onTrack : Bool
  guard   : Bool
  fault   : Bool
  deriving DecidableEq, Repr

/-- The commands: one constructor for each row of spec/opcode_table.json, in the table's order. -/
inductive Instr where
  | powerOnReset (straps : Straps)
  | pinReset (straps : Straps)
  | read (p : Port) (f : HostFrame)
  | write (p : Port) (f : HostFrame)
  | verify (p : Port) (f : HostFrame)
  | guardedWrite (p : Port) (f : HostFrame)
  | recalibrate (p : Port) (f : HostFrame)
  | reserve (p : Port) (f : HostFrame)
  | stopSpindle (p : Port) (f : HostFrame)
  | startSpindle (p : Port) (f : HostFrame)
  | release (p : Port) (f : HostFrame)
  | breakReservation (p : Port) (f : HostFrame)
  | querySpindle (p : Port) (f : HostFrame)
  | cancel (p : Port) (f : HostFrame)
  | sense (p : Port) (f : HostFrame)
  | resetString (p : Port) (f : HostFrame)
  | spareTrack (p : Port) (f : HostFrame)
  | notify (p : Port) (f : HostFrame)
  | queryString (p : Port) (f : HostFrame)
  | readSpareMap (p : Port) (f : HostFrame)
  | readSuspects (p : Port) (f : HostFrame)
  | setString (p : Port) (f : HostFrame)
  | setPort (p : Port) (f : HostFrame)
  | data (p : Port) (f : DataFrame)
  | dataFrameCheck (p : Port) (d : DamagedData)
  | resetPort (p : Port) (f : HostFrame)
  | unknownKind (p : Port) (addr kind : Byte)
  | frameLength (p : Port) (addr kind : Byte) (len : RefusedLength)
  | frameCheck (p : Port) (kind : Byte) (f : HostFrame)
  | frameCut (p : Port) (bytes : List Byte)
  | linkSymbolReceived (p : Port) (sym : LinkSymbol)
  | hold (p : Port)
  | linkTimerExpiry (p : Port)
  | frameSent (p : Port)
  | dataFrameSent (p : Port)
  | attentionFrameSent (p : Port)
  | spinUpTimerExpiry (sp : Spindle)
  | speedOkAsserted (sp : Spindle)
  | speedOkDeasserted (sp : Spindle)
  | indexMark (sp : Spindle) (falls : Falls)
  | sectorMark (sp : Spindle) (falls : Falls)
  | crossing (sp : Spindle) (falls : Falls)
  | guardAsserted (sp : Spindle)
  | faultAsserted (sp : Spindle)
  | onTrackAsserted (sp : Spindle)
  | settleCountExpiry (sp : Spindle)
  | seekDeadlineExpiry (sp : Spindle)
  | recalLimitExpiry (sp : Spindle)
  | allegianceExpiry (sp : Spindle)
  | blockIdRead (id : BlockId)
  | fieldEnd (bytes : Vector Byte 1024) (check : Word32)
  | headerFieldEnd (bytes : Vector Byte 13) (written : Bool)
  deriving DecidableEq, Repr

end Sys2Proof
end

