-- ==== Sys2Proof/Machine/State.lean ====
section
/-! DEFINITION. Every piece of state the manual gives the Lubran 480, as plain data. The manual calls the
whole chip "the part"; `Lubran` is the part, and `State` is the part with the queue of commands waiting
for it. Fields that no rule names, but that a rule needs kept, are marked MODEL. -/

namespace Sys2Proof.Machine

/-! ## Positioning Unit (chapter 1) -/

/-- The life-cycle state of a spindle position (R3); the order is that of the codes of R172. -/
inductive Life where
  | absent | stopped | spinningUp | recalibrating | buildingMap | ready | faulted
  deriving DecidableEq, Repr

/-- Why a spindle is FAULTED (R11); the order is that of the codes of R171. -/
inductive FaultReason where
  | none | spinUpTimeout | speedLost | recalFailed | missingIndex | mapFull | seekFailed | spareMismatch
  deriving DecidableEq, Repr

/-- The phase of an actuator channel (R13). -/
inductive ActState where
  | idle | seeking | settling | onTrack | recal
  deriving DecidableEq, Repr

/-- Whether the present motion of a channel is a seek or a recalibration (R13). -/
inductive Purpose where
  | normal | recal
  deriving DecidableEq, Repr

/-- INWARD is toward higher cylinders, OUTWARD toward cylinder 0 (R13). -/
inductive Direction where
  | inward | outward
  deriving DecidableEq, Repr

/-- A track: physical cylinder and head. -/
structure Track where
  cyl  : Nat
  head : Nat
  deriving DecidableEq, Repr

/-- A seek request the channel holds until its recalibration completes (R14): its track, and whether it
is a seek started again, which keeps the reissued flag (R14, R20). -/
structure HeldSeek where
  track : Track
  again : Bool
  deriving DecidableEq, Repr

/-- The actuator channel record (R13). -/
structure Channel where
  state      : ActState
  purpose    : Purpose
  cyl        : Nat
  posKnown   : Bool
  head       : Nat
  target     : Option Track
  remaining  : Nat
  direction  : Direction
  demand     : Nat
  overshoots : Nat
  settle     : Nat
  deadline   : Nat
  recalLimit : Nat
  reissued   : Bool
  sAcc       : Nat
  sVmax      : Nat
  sSettle    : Nat
  /-- MODEL: the request held behind a recalibration (R14). -/
  held       : Option HeldSeek
  /-- MODEL: the seek outstanding belongs to an entry that has left the queue, so its report is dropped
  (R26 preamble, R53). -/
  orphan     : Bool
  deriving DecidableEq, Repr

/-- The drive's status lines as they stand (00_scope, "Signals and Straps"). -/
structure Lines where
  onTrack : Bool
  guard   : Bool
  speedOk : Bool
  fault   : Bool
  deriving DecidableEq, Repr

/-! ## Work Queue Unit (chapter 3) -/

/-- The kind of an entry (R43). -/
inductive EntryKind where
  | read | write | verify | guardedWrite | recalibrate | reserve | stopSpindle | reassign
  deriving DecidableEq, Repr

/-- The state of an entry (R44). -/
inductive EntryState where
  | queued | seeking | settling | rotating | transferring | ending
  deriving DecidableEq, Repr

/-- Whose an entry is: a host command, named by its port and tag, which no other outstanding command of
the string bears (R42, R167); or the internal entry of the reassignment sequencer. -/
inductive Owner where
  | host (p : Port) (t : Tag)
  | internal
  deriving DecidableEq, Repr

/-- The ending codes (R169). -/
inductive EndCode where
  | good | conditionNotMet | cancelled | notCancellable
  | badField | tagInUse | addressOutOfRange | notAuthorized | extentViolation | reservedElsewhere
  | notReady | queueFull | busy | notHolder
  | dataCheck | dataLost | seekError | writeFault | overrun | spindleFault | spareMismatch
  | unrequestedData | dataFrameCheck
  deriving DecidableEq, Repr

/-- An ending that has been decided and not yet handed over (R89): its code and its reply bytes. -/
structure Ending where
  code  : EndCode
  reply : List Byte
  deriving DecidableEq, Repr

/-- An entry of a spindle queue (R43). -/
structure Entry where
  owner       : Owner
  kind        : EntryKind
  cyl         : Nat
  head        : Nat
  first       : Nat
  count       : Nat
  writeVerify : Bool
  cmpOffset   : Nat
  cmpBytes    : List Byte
  arrival     : Nat
  state       : EntryState
  track       : Option Track
  blocksDone  : Nat
  retries     : Nat
  lost        : Nat
  /-- MODEL: the ending decided and not yet handed over (R89). -/
  decided     : Option Ending
  /-- MODEL: its port was torn down while it was TRANSFERRING (R64), and it leaves at the next block boundary. -/
  abandoned   : Bool
  /-- MODEL: the compare of a GUARDED WRITE has been made equal (R76, R91). -/
  compared    : Bool
  deriving DecidableEq, Repr

/-- A motion the Work Queue Unit holds until the motion running on the channel ends (R53, R59). -/
inductive MotionReq where
  | seek (t : Track)
  | recal
  deriving DecidableEq, Repr

/-! ## Data Path (chapter 4) -/

/-- A field of a track that the path can carry (R68). -/
inductive FieldRef where
  | block (b : Nat)
  | header
  deriving DecidableEq, Repr

/-- What the path is doing (R68). -/
inductive PathState where
  | idle | reading | writing | verifying | header
  deriving DecidableEq, Repr

/-- The actions of a transfer record (R69). -/
inductive Action where
  | read | verify | write | reread | compareRead | headerRead | headerWrite
  deriving DecidableEq, Repr

/-- MODEL: an ENDING entry that left its queue at teardown while a block of it was passing the heads (R64, R89; log
entry 22): the entry as it left, what the path does with the block, and the bytes of the slot it is written from. -/
structure Departed where
  entry  : Entry
  action : Action
  bytes  : List Byte
  deriving DecidableEq, Repr

/-- Who the path is granted to (R68). MODEL: an entry that has left while the path carries its block on to the
block's end. -/
inductive Holder where
  | entry (o : Owner)
  | build
  | departed (d : Departed)
  deriving DecidableEq, Repr

/-- The path record (R68). -/
structure PathRec where
  state   : PathState
  holder  : Option Holder
  spindle : Option Spindle
  field   : Option FieldRef
  /-- MODEL: the block ID taken at the start of the block being carried, when it matched (R79). -/
  id      : Option BlockId
  /-- MODEL: FAULT asserted during the header field being carried (R92, R108). -/
  faulted : Bool
  deriving DecidableEq, Repr

/-- The next field of a transfer record (R69). -/
structure NextField where
  action : Action
  field  : FieldRef
  deriving DecidableEq, Repr

/-- The transfer record of a spindle (R69). -/
structure XferRec where
  next     : Option NextField
  bind     : Nat
  mismatch : Bool
  cont     : Option FieldRef
  deriving DecidableEq, Repr

/-- The state of a staging slot (R74). -/
inductive SlotState where
  | free | reserved | filling | full | draining
  deriving DecidableEq, Repr

/-- Where a staging slot's block comes from (R74). -/
inductive SlotSource where
  | disk | host
  deriving DecidableEq, Repr

/-- A staging slot (R74) with its 1024 bytes. -/
structure StagingSlot where
  state  : SlotState
  /-- Absent when FREE, and in a DRAINING slot whose entry has left, which becomes FREE when its current
  frame ends (R89). -/
  owner  : Option Owner
  block  : Option Nat
  source : Option SlotSource
  frags  : Nat
  lost   : Bool
  bytes  : List Byte
  /-- MODEL: DATA frames of a DRAINING slot that have ended (R81). -/
  sent   : Nat
  deriving DecidableEq, Repr

/-- MODEL: what WRITE DATA last carried: the bytes of one field, and whether the field was written whole. -/
structure DiskWrite where
  spindle : Spindle
  track   : Track
  field   : FieldRef
  bytes   : List Byte
  whole   : Bool
  deriving DecidableEq, Repr

/-! ## Spare Map Unit (chapter 5) -/

/-- A Spare Map entry (R95). -/
structure MapEntry where
  spindle : Spindle
  home    : Track
  alt     : Track
  deriving DecidableEq, Repr

/-- The map state of a spindle (R97). -/
inductive MapState where
  | notBuilt | building | built
  deriving DecidableEq, Repr

/-- A pool record (R98). -/
inductive PoolRec where
  | free
  | inUse (partner : Track) (gen : Nat)
  | retired
  deriving DecidableEq, Repr

/-- A build record (R106). -/
structure BuildRec where
  next     : Nat
  failed   : Nat
  mismatch : Bool
  highest  : Option Nat
  deriving DecidableEq, Repr

/-! ## The record of a spindle position, gathered from the units that hold its parts -/

/-- All that the part holds for one spindle position. -/
structure SpindleUnit where
  life        : Life
  faultReason : FaultReason
  /-- The SPIN output (R3). -/
  spin        : Bool
  /-- The spin-up timer in periods of CLOCK, or stopped (R5, R6). -/
  spinTimer   : Option Nat
  lines       : Lines
  chan        : Channel
  /-- The angular tracker (R23). -/
  slot        : Nat
  missing     : Nat
  /-- The READ GATE and WRITE GATE outputs (R70, R86). -/
  readGate    : Bool
  writeGate   : Bool
  /-- The host entries in arrival order, and the internal place (R42). -/
  queue       : List Entry
  internal    : Option Entry
  /-- The spindle record (R45). -/
  reservation : Option Port
  allegiance  : Option (Port × Nat)
  autoSpare   : Bool
  revs        : Nat
  /-- MODEL: the motion the Work Queue Unit holds back (R53, R59). -/
  waitReq     : Option MotionReq
  /-- MODEL: a selection event of this step that has not been taken yet (R48). -/
  selectDue   : Bool
  xfer        : XferRec
  mapState    : MapState
  pool        : List PoolRec
  generation  : Nat
  build       : Option BuildRec
  /-- The routing mask, one flag a port (R159). -/
  mask        : Vector Bool 4
  deriving DecidableEq, Repr

/-! ## Error Watch and Reassignment Unit (chapter 6) -/

/-- A suspect list entry (R120). -/
structure Suspect where
  spindle   : Spindle
  track     : Track
  soft      : Nat
  hard      : Nat
  lastSeen  : Nat
  candidate : Bool
  advised   : Bool
  deriving DecidableEq, Repr

/-- What put a track on the pending list (R125). -/
inductive Trigger where
  | automatic
  | requested (p : Port)
  deriving DecidableEq, Repr

/-- A pending reassignment list entry (R125). -/
structure SpareReq where
  spindle : Spindle
  home    : Track
  trigger : Trigger
  deriving DecidableEq, Repr

/-- The state of the reassignment sequencer (R128). -/
inductive SeqState where
  | idle | select | copy | header | commit
  deriving DecidableEq, Repr

/-- The copy step of a round (R128). -/
inductive CopyStep where
  | sourceSeek | read | targetSeek | write | verify
  deriving DecidableEq, Repr

/-- MODEL: which header the sequencer is waiting to write: the claim of the new alternate (R134), the
retirement of a failed alternate (R133), of the old alternate or of a refused one (R135). -/
inductive HeaderUse where
  | claim | retireFailed | retireOld | retireRefused
  deriving DecidableEq, Repr

/-- The sequencer's record (R128). In IDLE every field but the state is absent or 0. -/
structure Sequencer where
  state      : SeqState
  spindle    : Option Spindle
  home       : Option Track
  trigger    : Option Trigger
  source     : Option Track
  oldAlt     : Option Track
  newAlt     : Option Track
  tried      : Nat
  roundFirst : Nat
  roundSize  : Nat
  step       : CopyStep
  copied     : Nat
  lostCount  : Nat
  generation : Option Nat
  /-- MODEL: the need of the REASSIGN entry at the slot arbiter (R76, R131). -/
  need       : Nat
  /-- MODEL: the header write in hand (R133 to R135). -/
  hdr        : Option HeaderUse
  /-- MODEL: the last new alternate chosen, which a SPARE FAILED notice carries (R137). -/
  lastAlt    : Option Track
  deriving DecidableEq, Repr

/-! ## Attention Unit (chapter 8) -/

/-- Why a spindle became READY (R157). -/
inductive ReadyCause where
  | built | returned
  deriving DecidableEq, Repr

/-- The reasons of SPARE FAILED (R137); the order is that of the codes of R171. -/
inductive SpareReason where
  | notReady | generationLimit | mapFull | poolExhausted | alternatesFailed | seekFailed | spareMismatch
  deriving DecidableEq, Repr

/-- The kinds of notice (R157), in the order of the codes of R171. -/
inductive NoticeKind where
  | spindleReady | spindleFault | spareAdvised | spareDone | spareFailed | poolLow
  | reservationBroken | notify | stringReset
  deriving DecidableEq, Repr

/-- The key of a notice (R157). -/
inductive NoticeKey where
  | spindle (sp : Spindle)
  | port (p : Port)
  | nothing
  deriving DecidableEq, Repr

/-- The kind of a notice with the detail it carries (R157, R171). Home tracks are logical. -/
inductive Detail where
  | spindleReady (cause : ReadyCause)
  | spindleFault (reason : FaultReason)
  | spareAdvised (cyl head soft hard : Nat) (onAlternate : Bool)
  | spareDone (cyl head altIndex lostCount lostRevs : Nat) (trigger : Trigger)
  | spareFailed (reason : SpareReason) (cyl head tried : Nat) (altIndex : Option Nat) (trigger : Trigger)
  | poolLow (free retired : Nat)
  | reservationBroken (by_ : Port)
  | notify (bytes : List Byte)
  | stringReset (sender : Port)
  deriving DecidableEq, Repr

/-- A pending notice (R157). -/
structure Notice where
  key     : NoticeKey
  detail  : Detail
  sending : Bool
  follow  : Option Detail
  deriving DecidableEq, Repr

/-- The logical address of a command in a sense record (R163). -/
structure LogicalAddr where
  cyl   : Nat
  head  : Nat
  first : Nat
  count : Nat
  deriving DecidableEq, Repr

/-- A sense record that is not empty (R163). -/
structure SenseRec where
  tag      : Tag
  code     : EndCode
  spindle  : Spindle
  logical  : Option LogicalAddr
  physical : Option Track
  endBlock : Option Nat
  retries  : Nat
  lost     : Nat
  fault    : Bool
  speedOk  : Bool
  pending  : Bool
  deriving DecidableEq, Repr

/-! ## Link Ports (chapter 10) -/

/-- The link state of a port (R177), in the order of the codes of R172. -/
inductive LinkState where
  | down | sync | up | lost
  deriving DecidableEq, Repr

/-- What a fence permits (R152), coded 1 to 3 (R175). -/
inductive Permit where
  | read | write | both
  deriving DecidableEq, Repr

/-- An extent fence (R152). -/
structure Fence where
  spindle : Nat
  low     : Nat
  high    : Nat
  permit  : Permit
  deriving DecidableEq, Repr

/-- Why a frame was rejected (R171). -/
inductive RejectReason where
  | frameCut | frameCheck | unknownKind | frameLength
  deriving DecidableEq, Repr

/-- A frame of the first transmit class (R182). `rateAfter` is MODEL: the divisor that the next frame takes
after this one, in the ENDING of a SET PORT that set its own port (R175). -/
inductive ReplyFrame where
  | ending (tag kind : Byte) (code : EndCode) (residual : Byte) (reply : List Byte) (rateAfter : Option Nat)
  | reject (reason : RejectReason) (kind tag : Byte)
  deriving DecidableEq, Repr

/-- A DATA REQUEST (R75, R171). -/
structure DataRequest where
  tag   : Tag
  block : Nat
  deriving DecidableEq, Repr

/-- The frame a transmitter is sending (R182). A DATA frame names the staging slot it drains, unless that
slot has become FREE since. -/
inductive OutFrame where
  | reply (f : ReplyFrame)
  | request (r : DataRequest)
  | data (tag : Tag) (block frag : Nat) (bytes : List Byte) (slot : Option (Fin 8))
  | attention (key : NoticeKey) (detail : Detail)
  deriving DecidableEq, Repr

/-- All that the part holds for one port: its link (R177), its port record (chapter 10), its tags (R167), its
sense record (R163), its attention table (R157) and its transmitter (R181, R182). -/
structure LinkPort where
  link      : LinkState
  /-- IDLE symbols taken in SYNC (R177). -/
  idleCount : Nat
  /-- The link timer in periods of CLOCK, or stopped (R177). -/
  timer     : Option Nat
  primary   : Nat
  /-- The second link address of the port, 0 for none (R175). -/
  second    : Nat
  priority  : Nat
  authority : Bool
  divisor   : Nat
  fences    : List Fence
  fencesOn  : Bool
  /-- The tags in use, one flag a tag (R167). -/
  tags      : Vector Bool 4
  sense     : Option SenseRec
  notices   : List Notice
  /-- Transmit class 1: ENDING and REJECT frames waiting (R182). -/
  replies   : List ReplyFrame
  /-- Transmit class 2: DATA REQUEST frames waiting (R182). -/
  requests  : List DataRequest
  /-- Transmit class 3: the commands with slots to drain, in the order of their first offer (R182). -/
  drains    : List Tag
  sending   : Option OutFrame
  /-- The transmitter is held (R181). -/
  paused    : Bool
  /-- The rate divisor of the frame being sent, and of the next frame begun (R175, R181). -/
  rateNow   : Nat
  rateNext  : Nat
  deriving DecidableEq, Repr

/-! ## Command Intake's string parameters (R174) -/

/-- ARB_MODE (R78). -/
inductive ArbMode where
  | priority | fair
  deriving DecidableEq, Repr

/-- The string parameters that Command Intake holds. -/
structure Params where
  acc            : Nat
  vmax           : Nat
  settle         : Nat
  ageLimit       : Nat
  lostRevLimit   : Nat
  softLimit      : Nat
  poolLow        : Nat
  allegianceTime : Nat
  arbMode        : ArbMode
  deriving DecidableEq, Repr

/-! ## The part, and the machine -/

/-- The part: everything the Lubran 480 holds. -/
structure Lubran where
  /-- The strap pins as they were last read (00_scope). -/
  straps   : Straps
  params   : Params
  spindles : Vector SpindleUnit 8
  ports    : Vector LinkPort 4
  path     : PathRec
  slots    : Vector StagingSlot 8
  /-- The slot arbiter's waiting list, oldest first, and its served set (R76, R78). -/
  waiting  : List Owner
  served   : List Port
  spareMap : List MapEntry
  suspects : List Suspect
  sparing  : List SpareReq
  seq      : Sequencer
  /-- MODEL: the last field put on WRITE DATA. -/
  writeOut : Option DiskWrite
  deriving DecidableEq, Repr

/-- The machine: the part, and the commands waiting for it, first in, first out. -/
structure State where
  part    : Lubran
  pending : List Instr
  deriving DecidableEq, Repr

/-- Why a step stops without a next state. -/
inductive Fault where
  /-- Raised by `Lubran.finish` alone, when the internal consequences of one step have not come to rest
  after `Config.settleFuel` of them. Safe: the model stops where the part goes on (log entry 4). -/
  | unsettled
  deriving DecidableEq, Repr

/-- Why a command has no meaning. -/
inductive Refusal where
  /-- Raised by an arm of `exec` for a command that has no meaning yet; no arm of this model does. Safe. -/
  | notModelled (mnemonic : String)
  deriving DecidableEq, Repr

/-! ## Reset values -/

/-- The string parameters after power-on reset and pin reset (R174). -/
def Params.default : Params :=
  { acc := 110, vmax := 48, settle := 16, ageLimit := 12, lostRevLimit := 32, softLimit := 4,
    poolLow := 8, allegianceTime := 120, arbMode := .fair }

/-- The actuator channel after power-on reset and pin reset (R13). -/
def Channel.initial : Channel :=
  { state := .idle, purpose := .normal, cyl := 0, posKnown := false, head := 0, target := none,
    remaining := 0, direction := .outward, demand := 0, overshoots := 0, settle := 0, deadline := 0,
    recalLimit := 0, reissued := false, sAcc := 110, sVmax := 48, sSettle := 16, held := none,
    orphan := false }

/-- A cleared transfer record (R69). -/
def XferRec.clear : XferRec := { next := none, bind := 0, mismatch := false, cont := none }

/-- The path IDLE: holder, spindle and field absent (R68). -/
def PathRec.idle : PathRec :=
  { state := .idle, holder := none, spindle := none, field := none, id := none, faulted := false }

/-- A staging slot after reset: FREE (R74). Its bytes are zeros (DESIGN CHOICE, log entry 2). -/
def StagingSlot.initial : StagingSlot :=
  { state := .free, owner := none, block := none, source := none, frags := 0, lost := false,
    bytes := List.replicate 1024 0, sent := 0 }

/-- The sequencer IDLE (R128). -/
def Sequencer.initial : Sequencer :=
  { state := .idle, spindle := none, home := none, trigger := none, source := none, oldAlt := none,
    newAlt := none, tried := 0, roundFirst := 0, roundSize := 0, step := .sourceSeek, copied := 0,
    lostCount := 0, generation := none, need := 0, hdr := none, lastAlt := none }

/-- A spindle position as its straps set it at power-on reset and pin reset (R4, R5, R13, R23, R45, R117,
R159). The drive's lines are inputs and keep their levels. -/
def SpindleUnit.initial (present autostart : Bool) (lines : Lines) : SpindleUnit :=
  { life := if present then (if autostart then .spinningUp else .stopped) else .absent
    faultReason := .none
    spin := present && autostart
    spinTimer := if present && autostart then some Config.spinUpLoad else none
    lines := lines, chan := Channel.initial, slot := 0, missing := 0, readGate := false,
    writeGate := false, queue := [], internal := none, reservation := none, allegiance := none,
    autoSpare := false, revs := 0, waitReq := none, selectDue := false, xfer := XferRec.clear,
    mapState := .notBuilt, pool := [], generation := 0, build := none, mask := Vector.replicate 4 true }

/-- The primary address a STRING ADDRESS strap gives: 0 and 31 are taken as 1 (00_scope). -/
def primaryOf (s : Straps) : Nat :=
  if s.address = 0 || s.address = 31 then 1 else s.address.toNat

/-- A port after power-on reset and pin reset (chapter 10, R167, R164, R157). -/
def LinkPort.initial (primary : Nat) (authority : Bool) : LinkPort :=
  { link := .down, idleCount := 0, timer := none, primary := primary, second := 0, priority := 0,
    authority := authority, divisor := 1, fences := [], fencesOn := false,
    tags := Vector.replicate 4 false, sense := none, notices := [], replies := [], requests := [],
    drains := [], sending := none, paused := false, rateNow := 1, rateNext := 1 }

/-- The part as power-on reset and pin reset leave it, from the straps and the levels of the drives'
lines, before SPEED-OK is tested on the entry to SPINNING_UP (R4 to R6). -/
def Lubran.initial (straps : Straps) (lines : Vector Lines 8) : Lubran :=
  { straps := straps
    params := Params.default
    spindles := Vector.ofFn fun i =>
      SpindleUnit.initial (straps.present.get i) (straps.autostart.get i) (lines.get i)
    ports := Vector.ofFn fun p => LinkPort.initial (primaryOf straps) (straps.authority.get p)
    path := PathRec.idle
    slots := Vector.replicate 8 StagingSlot.initial
    waiting := [], served := [], spareMap := [], suspects := [], sparing := []
    seq := Sequencer.initial
    writeOut := none }

/-- The straps with nothing strapped: they are pulled high on the board, so every strap reads as set
(00_scope, Electrical Summary). DESIGN CHOICE, log entry 1. -/
def unstrapped : Straps :=
  { address := 31, authority := Vector.replicate 4 true, autostart := Vector.replicate 8 true,
    present := Vector.replicate 8 true }

/-- A drive with every status line deasserted (DESIGN CHOICE, log entry 1). -/
def Lines.quiet : Lines := { onTrack := false, guard := false, speedOk := false, fault := false }

/-- The machine right after power-on reset with nothing strapped: every spindle SPINNING_UP, every link
DOWN, no command waiting. -/
def State.reset : State :=
  { part := Lubran.initial unstrapped (Vector.replicate 8 Lines.quiet), pending := [] }

end Sys2Proof.Machine
end

