-- ==== Sys2Proof/Machine/Flags.lean ====
section
/-! DEFINITION. The codes and the check computations: the code of each state, ending, kind, notice and
reason (R165, R166, R169, R171, R172), the check byte of a frame (R165) and the 32-bit check of the two
disk formats (section 5.4). -/

namespace Sys2Proof.Machine

/-! ## Check computations -/

/-- One bit of the frame check: polynomial x⁸ + x⁷ + x⁴ + x³ + x + 1, most significant bit first (R165). -/
def crc8Bit (r : Byte) : Byte := if r.msb then (r <<< 1) ^^^ 0x9B#8 else r <<< 1

/-- One byte of the frame check. -/
def crc8Byte (r b : Byte) : Byte :=
  crc8Bit (crc8Bit (crc8Bit (crc8Bit (crc8Bit (crc8Bit (crc8Bit (crc8Bit (r ^^^ b))))))))

/-- The check byte over `bytes`, from all ones, with no final inversion (R165). -/
def crc8 (bytes : List Byte) : Byte := bytes.foldl crc8Byte 0xFF#8

/-- One bit of the disk check, most significant bit first (section 5.4). -/
def crc32Bit (r : Word32) : Word32 := if r.msb then (r <<< 1) ^^^ 0x04C11DB7#32 else r <<< 1

/-- One byte of the disk check. -/
def crc32Byte (r : Word32) (b : Byte) : Word32 :=
  crc32Bit (crc32Bit (crc32Bit (crc32Bit (crc32Bit (crc32Bit (crc32Bit (crc32Bit
    (r ^^^ (b.setWidth 32 <<< 24)))))))))

/-- The 32-bit check over `bytes`, from all ones, stored as computed (section 5.4). -/
def crc32 (bytes : List Byte) : Word32 := bytes.foldl crc32Byte 0xFFFFFFFF#32

/-- A 32-bit check as four bytes, most significant first (section 5.4). -/
def bytesOf32 (w : Word32) : List Byte :=
  [(w >>> 24).setWidth 8, (w >>> 16).setWidth 8, (w >>> 8).setWidth 8, w.setWidth 8]

/-- The check byte of a non-data frame: over the address, kind, length and payload (R165). -/
def frameCheck (addr kind : Byte) (payload : List Byte) : Byte :=
  crc8 (addr :: kind :: byteOf payload.length :: payload)

/-- The check byte of a DATA frame: over the address, kind 64, tag, sequence and data (R165). -/
def dataCheck (addr tag seq : Byte) (bytes : List Byte) : Byte :=
  crc8 (addr :: 64 :: tag :: seq :: bytes)

/-- The check of a DATA frame passes (R165). -/
def dataGood (f : DataFrame) : Bool := decide (f.check = dataCheck f.addr f.tag f.seq f.bytes.toList)

/-! ## Ending codes and their classes (R169) -/

/-- The code of an ending (R169). -/
def endCode : EndCode → Nat
  | .good => 0 | .conditionNotMet => 1 | .cancelled => 2 | .notCancellable => 3
  | .badField => 16 | .tagInUse => 17 | .addressOutOfRange => 18 | .notAuthorized => 19
  | .extentViolation => 20 | .reservedElsewhere => 21 | .notReady => 22 | .queueFull => 23
  | .busy => 24 | .notHolder => 25
  | .dataCheck => 32 | .dataLost => 33 | .seekError => 34 | .writeFault => 35 | .overrun => 36
  | .spindleFault => 37 | .spareMismatch => 38 | .unrequestedData => 39 | .dataFrameCheck => 40

/-- The check class (R146, R169). -/
def isCheck : EndCode → Bool
  | .dataCheck | .dataLost | .seekError | .writeFault | .overrun | .spindleFault | .spareMismatch
  | .unrequestedData | .dataFrameCheck => true
  | _ => false

/-- The endings under which the FULL slots of a READ are drained before the hand-over (R89). -/
def drainsFirst : EndCode → Bool
  | .good | .dataCheck | .dataLost | .seekError | .overrun => true
  | _ => false

/-! ## Kind codes (R166) -/

/-- The kind code of an entry, with 8 for REASSIGN (R166). -/
def kindCode : EntryKind → Nat
  | .read => 1 | .write => 2 | .verify => 3 | .guardedWrite => 4 | .recalibrate => 5 | .reserve => 6
  | .stopSpindle => 7 | .reassign => 8

/-- The kind codes a host may send (R166). -/
def isHostKind (k : Nat) : Bool :=
  decide (k ∈ [1, 2, 3, 4, 5, 6, 7, 16, 17, 18, 19, 20, 21, 22, 32, 33, 34, 35, 48, 49, 50, 64, 80])

/-- The kind code of DATA. -/
abbrev kindData : Nat := 64
/-- The kind code of RESET PORT. -/
abbrev kindResetPort : Nat := 80
/-- The kind code of QUERY SPINDLE. -/
abbrev kindQuerySpindle : Nat := 32
/-- The kind code of QUERY STRING. -/
abbrev kindQueryString : Nat := 33

/-! ## State codes (R171, R172) -/

def lifeCode : Life → Nat
  | .absent => 0 | .stopped => 1 | .spinningUp => 2 | .recalibrating => 3 | .buildingMap => 4
  | .ready => 5 | .faulted => 6

def faultCode : FaultReason → Nat
  | .none => 0 | .spinUpTimeout => 1 | .speedLost => 2 | .recalFailed => 3 | .missingIndex => 4
  | .mapFull => 5 | .seekFailed => 6 | .spareMismatch => 7

def actCode : ActState → Nat
  | .idle => 0 | .seeking => 1 | .settling => 2 | .onTrack => 3 | .recal => 4

def entryStateCode : EntryState → Nat
  | .queued => 0 | .seeking => 1 | .settling => 2 | .rotating => 3 | .transferring => 4 | .ending => 5

def mapStateCode : MapState → Nat
  | .notBuilt => 0 | .building => 1 | .built => 2

def seqStateCode : SeqState → Nat
  | .idle => 0 | .select => 1 | .copy => 2 | .header => 3 | .commit => 4

def copyStepCode : CopyStep → Nat
  | .sourceSeek => 0 | .read => 1 | .targetSeek => 2 | .write => 3 | .verify => 4

def linkCode : LinkState → Nat
  | .down => 0 | .sync => 1 | .up => 2 | .lost => 3

def permitCode : Permit → Nat
  | .read => 1 | .write => 2 | .both => 3

def arbCode : ArbMode → Nat
  | .priority => 0 | .fair => 1

def spareReasonCode : SpareReason → Nat
  | .notReady => 1 | .generationLimit => 2 | .mapFull => 3 | .poolExhausted => 4
  | .alternatesFailed => 5 | .seekFailed => 6 | .spareMismatch => 7

def rejectCode : RejectReason → Nat
  | .frameCut => 1 | .frameCheck => 2 | .unknownKind => 3 | .frameLength => 4

/-- A trigger is 0 for AUTOMATIC and 1 to 4 for REQUESTED by port A to D (R171). -/
def triggerCode : Trigger → Nat
  | .automatic => 0
  | .requested p => p.val + 1

/-- The kind of a notice from its detail (R157). -/
def Detail.kind : Detail → NoticeKind
  | .spindleReady _ => .spindleReady
  | .spindleFault _ => .spindleFault
  | .spareAdvised .. => .spareAdvised
  | .spareDone .. => .spareDone
  | .spareFailed .. => .spareFailed
  | .poolLow .. => .poolLow
  | .reservationBroken _ => .reservationBroken
  | .notify _ => .notify
  | .stringReset _ => .stringReset

def noticeCode : NoticeKind → Nat
  | .spindleReady => 1 | .spindleFault => 2 | .spareAdvised => 3 | .spareDone => 4 | .spareFailed => 5
  | .poolLow => 6 | .reservationBroken => 7 | .notify => 8 | .stringReset => 9

/-- The detail of a notice in its ATTENTION frame (R171). -/
def Detail.bytes : Detail → List Byte
  | .spindleReady c => [byteOf (match c with | .built => 0 | .returned => 1)]
  | .spindleFault r => [byteOf (faultCode r)]
  | .spareAdvised c h s k _ => bytesOf16 c ++ [byteOf h, byteOf s, byteOf k]
  | .spareDone c h a l v t => bytesOf16 c ++ [byteOf h, byteOf a, byteOf l, byteOf v, byteOf (triggerCode t)]
  | .spareFailed r c h n a t =>
      byteOf (spareReasonCode r) :: bytesOf16 c ++
        [byteOf h, byteOf n, byteOf (a.getD 255), byteOf (triggerCode t)]
  | .poolLow f r => [byteOf f, byteOf r]
  | .reservationBroken p => [byteOf p.val]
  | .notify bs => bs
  | .stringReset p => [byteOf p.val]

/-- The key of a notice in its ATTENTION frame: 255 for none (R171). -/
def NoticeKey.byte : NoticeKey → Byte
  | .spindle sp => byteOf sp.val
  | .port p => byteOf p.val
  | .nothing => 255

/-- A port in a byte field, 255 for absent (R165). -/
def portByte : Option Port → Byte
  | some p => byteOf p.val
  | none => 255

/-- A bit of a byte, for the sets and flags of R165 and R166. -/
def bitOf (b : Byte) (n : Nat) : Bool := b.getLsbD n

/-- A set of ports from one byte: bit n for port n, bits 4 to 7 ignored (R165). -/
def portSet (b : Byte) : Vector Bool 4 := Vector.ofFn fun p => bitOf b p.val

/-- A set of ports as one byte, bits 4 to 7 written 0 (R165). -/
def portSetByte (v : Vector Bool 4) : Byte :=
  byteOf ((if v.get 0 then 1 else 0) + (if v.get 1 then 2 else 0) + (if v.get 2 then 4 else 0) +
    (if v.get 3 then 8 else 0))

/-! ## The frames a transmitter sends, as bytes (R165, R170, R171) -/

/-- The kind code and payload of a non-data frame of the part. -/
def OutFrame.payload : OutFrame → Nat × List Byte
  | .reply (.ending tag kind code residual rep _) =>
      (128, tag :: kind :: byteOf (endCode code) :: residual :: rep)
  | .reply (.reject reason kind tag) => (132, [byteOf (rejectCode reason), kind, tag])
  | .request r => (130, [byteOf r.tag.val, byteOf r.block])
  | .attention key detail => (131, byteOf (noticeCode detail.kind) :: key.byte :: detail.bytes)
  | .data .. => (64, [])

/-- The bytes a transmitter puts on the line after START for a frame, with the port's primary address in
byte 0 (R165). -/
def OutFrame.line (primary : Nat) : OutFrame → List Byte
  | .data tag block frag bytes _ =>
      let addr := byteOf primary
      let tag := byteOf tag.val
      let seq := byteOf (block * 4 + frag)
      addr :: 64 :: tag :: seq :: bytes ++ [dataCheck addr tag seq bytes]
  | f =>
      let (kind, payload) := f.payload
      let addr := byteOf primary
      addr :: byteOf kind :: byteOf payload.length :: payload ++
        [frameCheck addr (byteOf kind) payload]

/-! ## The disk formats (section 5.4) -/

/-- A block ID as its five bytes. -/
def idBytes (id : BlockId) : List Byte :=
  [(id.cyl >>> 8).setWidth 8, id.cyl.setWidth 8, id.head, id.block, id.flags]

/-- The LOST flag of a block ID: bit 7 of the flags byte. -/
def idLost (id : BlockId) : Bool := bitOf id.flags 7

/-- A block ID written whole, as a copy write does (R104). -/
def blockIdOf (t : Track) (block : Nat) (lost : Bool) : BlockId :=
  { cyl := BitVec.ofNat 16 t.cyl, head := byteOf t.head, block := byteOf block,
    flags := if lost then 0x80 else 0 }

/-- A block ID names a block of a track (R79): bits 6 to 0 of the flags are not compared (R104). -/
def idNames (id : BlockId) (t : Track) (block : Nat) : Bool :=
  id.cyl.toNat == t.cyl && id.head.toNat == t.head && id.block.toNat == block

/-- A block as it stands on the disk: ID, 1024 data bytes and the check over both. -/
def blockBytes (id : BlockId) (bytes : List Byte) : List Byte :=
  idBytes id ++ bytes ++ bytesOf32 (crc32 (idBytes id ++ bytes))

/-- A header field: role, own track, partner home track and generation, with its check (section 5.4). -/
def headerBytes (role : Nat) (own : Track) (partner : Option Track) (gen : Nat) : List Byte :=
  let body := byteOf role :: bytesOf16 own.cyl ++ [byteOf own.head] ++
    (match partner with
      | some h => bytesOf16 h.cyl ++ [byteOf h.head]
      | none => [0, 0, 0]) ++ bytesOf16 gen
  body ++ bytesOf32 (crc32 body)

end Sys2Proof.Machine
end

