-- ==== Sys2Proof/Machine/Geometry.lean ====
section
/-! DEFINITION. Positions on the disk: the mapping between logical and physical cylinders (R1), the slots of
a track (R2) and the order of the alternate tracks (R98). -/

namespace Sys2Proof.Machine

/-- The physical home cylinder of a logical cylinder (R1). -/
def physicalCyl (c : Nat) : Nat := c + 2 * (c / 68)

/-- A physical cylinder is a home cylinder (R1). -/
def isHomeCyl (p : Nat) : Bool := decide (p % 70 < 68)

/-- The logical number of a physical home cylinder (R1). -/
def logicalCyl (p : Nat) : Nat := p - 2 * (p / 70)

/-- The lead slot of a field: 1 + 6b for block b, slot 95 for the header (R2). -/
def leadSlot : FieldRef → Nat
  | .block b => 1 + 6 * b
  | .header => 95

/-- The first slot of a field (R2). -/
def firstSlot : FieldRef → Nat
  | .block b => 2 + 6 * b
  | .header => 0

/-- The last slot of a field (R2). -/
def lastSlot : FieldRef → Nat
  | .block b => 7 + 6 * b
  | .header => 1

/-- Spare cylinder number j, 0 to 15 (R98). -/
def spareCyl (j : Nat) : Nat := 70 * (j / 2) + 68 + j % 2

/-- The alternate track of pool record i, 0 to 191 (R98). -/
def altTrack (i : Nat) : Track := { cyl := spareCyl (i / 12), head := i % 12 }

/-- The pool record of an alternate track (R98). -/
def altIndex (t : Track) : Nat := 12 * (2 * (t.cyl / 70) + (t.cyl % 70 - 68)) + t.head

/-- The distance between two cylinders. -/
def distance (a b : Nat) : Nat := (a - b) + (b - a)

end Sys2Proof.Machine
end

