-- ==== Sys2Proof/Machine/Ops.lean ====
section
/-! DEFINITION. The named operations that read and change one record of the part: a spindle position, a
port, a staging slot, an entry. Every other operation reaches a record through these. -/

namespace Sys2Proof.Machine

/-- The eight spindle positions, lowest first. -/
def allSpindles : List Spindle := [0, 1, 2, 3, 4, 5, 6, 7]

/-- The four ports, A first. -/
def allPorts : List Port := [0, 1, 2, 3]

/-- The eight staging slots. -/
def allSlots : List (Fin 8) := [0, 1, 2, 3, 4, 5, 6, 7]

/-- The record of a spindle position. -/
def Lubran.sp (q : Lubran) (i : Spindle) : SpindleUnit := q.spindles.get i

/-- The record of a port. -/
def Lubran.port (q : Lubran) (p : Port) : LinkPort := q.ports.get p

/-- A staging slot. -/
def Lubran.slot (q : Lubran) (i : Fin 8) : StagingSlot := q.slots.get i

/-- Changes the record of one spindle position. -/
def Lubran.modSp (q : Lubran) (i : Spindle) (f : SpindleUnit → SpindleUnit) : Lubran :=
  { q with spindles := q.spindles.set i (f (q.sp i)) }

/-- Changes the record of one port. -/
def Lubran.modPort (q : Lubran) (p : Port) (f : LinkPort → LinkPort) : Lubran :=
  { q with ports := q.ports.set p (f (q.port p)) }

/-- Changes one staging slot. -/
def Lubran.modSlot (q : Lubran) (i : Fin 8) (f : StagingSlot → StagingSlot) : Lubran :=
  { q with slots := q.slots.set i (f (q.slot i)) }

/-- Changes the actuator channel of one spindle. -/
def Lubran.modChan (q : Lubran) (i : Spindle) (f : Channel → Channel) : Lubran :=
  q.modSp i fun u => { u with chan := f u.chan }

/-- The transfer record after a change made for the in-service entry (R69, R89). While the spindle is BUILDING_MAP the
record describes the work of the map build (R69, R107), and an ENDING entry that a fault has left there does not change
it (DEDUCED, log entry 48). -/
def SpindleUnit.entryXfer (u : SpindleUnit) (f : XferRec → XferRec) : XferRec :=
  if u.life = .buildingMap then u.xfer else f u.xfer

/-- Changes the transfer record of one spindle. -/
def Lubran.modXfer (q : Lubran) (i : Spindle) (f : XferRec → XferRec) : Lubran :=
  q.modSp i fun u => { u with xfer := f u.xfer }

/-! ## Entries -/

/-- An entry in any state other than QUEUED is in service (R44). -/
def Entry.inService (e : Entry) : Bool := decide (e.state ≠ .queued)

/-- The in-service entry of a spindle, if it has one (R42). -/
def SpindleUnit.current (u : SpindleUnit) : Option Entry :=
  match u.internal with
  | some e => if e.inService then some e else u.queue.find? Entry.inService
  | none => u.queue.find? Entry.inService

/-- The in-service entry of a spindle. -/
def Lubran.current (q : Lubran) (i : Spindle) : Option Entry := (q.sp i).current

/-- Changes the entry of a given owner on one spindle. -/
def SpindleUnit.modEntry (u : SpindleUnit) (o : Owner) (f : Entry → Entry) : SpindleUnit :=
  match o with
  | .internal => { u with internal := u.internal.map f }
  | .host _ _ => { u with queue := u.queue.map fun e => if e.owner = o then f e else e }

/-- Changes the entry of a given owner on one spindle. -/
def Lubran.modEntry (q : Lubran) (i : Spindle) (o : Owner) (f : Entry → Entry) : Lubran :=
  q.modSp i fun u => u.modEntry o f

/-- Takes the entry of a given owner off one spindle's queue; those behind it keep their order (R42). -/
def SpindleUnit.dropEntry (u : SpindleUnit) (o : Owner) : SpindleUnit :=
  match o with
  | .internal => { u with internal := none }
  | .host _ _ => { u with queue := u.queue.filter fun e => decide (e.owner ≠ o) }

/-- The entry of a given owner on one spindle. -/
def SpindleUnit.findEntry (u : SpindleUnit) (o : Owner) : Option Entry :=
  match o with
  | .internal => u.internal
  | .host _ _ => u.queue.find? fun e => decide (e.owner = o)

/-- The entry of a given owner, with the spindle whose queue holds it (R42: no two entries of the string
share port and tag). -/
def Lubran.findEntry (q : Lubran) (o : Owner) : Option (Spindle × Entry) :=
  allSpindles.findSome? fun i => ((q.sp i).findEntry o).map fun e => (i, e)

/-- READ, WRITE, VERIFY and GUARDED WRITE name a track (R43). -/
def EntryKind.hasTrack : EntryKind → Bool
  | .read | .write | .verify | .guardedWrite => true
  | _ => false

/-- READ, WRITE and VERIFY carry a residual count (R170). -/
def EntryKind.hasResidual : EntryKind → Bool
  | .read | .write | .verify => true
  | _ => false

/-- The residual count of an entry's ending (R54, R170). -/
def Entry.residual (e : Entry) : Nat :=
  if e.kind.hasResidual then e.count - e.blocksDone else 0

/-- A host entry as Command Intake places it (R43). -/
def newEntry (o : Owner) (kind : EntryKind) (cyl head first count : Nat) (writeVerify : Bool)
    (cmpOffset : Nat) (cmpBytes : List Byte) (arrival : Nat) : Entry :=
  { owner := o, kind := kind, cyl := cyl, head := head, first := first, count := count,
    writeVerify := writeVerify, cmpOffset := cmpOffset, cmpBytes := cmpBytes, arrival := arrival,
    state := .queued, track := none, blocksDone := 0, retries := 0, lost := 0, decided := none,
    abandoned := false, compared := false }

/-! ## Selection events, tags and the path -/

/-- A spindle has a selection event when it is READY and has no entry in service (R48). The event is taken
before the step ends. -/
def Lubran.selectionEvent (q : Lubran) (i : Spindle) : Lubran :=
  if (q.sp i).life = .ready ∧ q.current i = none then q.modSp i fun u => { u with selectDue := true }
  else q

/-- Takes or frees a tag of a port (R167). -/
def Lubran.setTag (q : Lubran) (p : Port) (t : Tag) (used : Bool) : Lubran :=
  q.modPort p fun r => { r with tags := r.tags.set t used }

/-- The path is held on a spindle for an entry. -/
def Lubran.pathHeldBy (q : Lubran) (i : Spindle) (h : Holder) : Bool :=
  decide (q.path.holder = some h ∧ q.path.spindle = some i)

/-- The path is carrying a field that has begun (R68): a granted field has not begun until its lead slot
ends (R70). -/
def Lubran.pathBegun (q : Lubran) : Bool := decide (q.path.state ≠ .idle)

/-- Releases the path: it becomes IDLE, and its spindle's gates are deasserted (R68, R72). -/
def Lubran.releasePath (q : Lubran) : Lubran :=
  let q' := match q.path.spindle with
    | some i => q.modSp i fun u => { u with readGate := false, writeGate := false }
    | none => q
  { q' with path := PathRec.idle }

/-- Ends an allegiance (R149, R150): a selection event when the spindle is READY with none in service. -/
def Lubran.endAllegiance (q : Lubran) (i : Spindle) : Lubran :=
  (q.modSp i fun u => { u with allegiance := none }).selectionEvent i

end Sys2Proof.Machine
end

