-- ==== Sys2Proof/Machine/Cost.lean ====
section
/-! DEFINITION. Seek profile and positioning cost (chapter 2): the estimate E (R29 to R31), the demand code
D (R34), and the position, target, wait and cost of a costed entry (R35 to R39). All of it is exact
arithmetic on natural numbers. -/

namespace Sys2Proof.Machine

/-- The least `t` at or after `from_` with t²·acc ≥ need, looked for in `fuel` steps. -/
def leastRoot (acc need : Nat) : Nat → Nat → Nat
  | 0, from_ => from_
  | fuel + 1, from_ => if need ≤ from_ * from_ * acc then from_ else leastRoot acc need fuel (from_ + 1)

/-- The triangular travel time: the smallest integer with t²·ACC ≥ 16384·d (R30). No clamped ACC needs a t
above 757 (R33). -/
def triangularTime (acc d : Nat) : Nat := leastRoot acc (16384 * d) 1024 0

/-- The coasting travel time: the ceiling of (256·VMAX² + 16·d·ACC) / (ACC·VMAX) (R31). -/
def coastingTime (acc vmax d : Nat) : Nat :=
  (256 * vmax * vmax + 16 * d * acc + (acc * vmax - 1)) / (acc * vmax)

/-- The travel time of a seek of one cylinder or more: the profile is chosen by d·ACC ≤ 16·VMAX² (R29). -/
def travelTime (acc vmax d : Nat) : Nat :=
  if d * acc ≤ 16 * vmax * vmax then triangularTime acc d else coastingTime acc vmax d

/-- The estimated seek time E, in slots (R29). -/
def estimate (acc vmax settle d h0 h : Nat) : Nat :=
  if d = 0 then (if h = h0 then 0 else 1) else travelTime acc vmax d + settle

/-- The largest k of at most the given bound with 8·k² ≤ ACC·r. -/
def largestCode (acc r : Nat) : Nat → Nat
  | 0 => 0
  | k + 1 => if 8 * (k + 1) * (k + 1) ≤ acc * r then k + 1 else largestCode acc r k

/-- The demand code D(r): the smaller of VMAX and the largest k with 8·k² ≤ ACC·r (R34). -/
def demandCode (acc vmax r : Nat) : Nat := largestCode acc r vmax

/-- The cylinder and head a cost is measured from (R35). A recalibration that is settling counts as RECAL:
its next seek starts from cylinder 0. -/
def Channel.costPosition (c : Channel) : Nat × Nat :=
  if c.state = .recal ∨ c.purpose = .recal ∨ c.posKnown = false then (0, c.head)
  else
    match c.state, c.target with
    | .seeking, some t => (t.cyl, t.head)
    | .settling, some t => (t.cyl, t.head)
    | _, _ => (c.cyl, c.head)

/-- The forward lookup of the Spare Map (R96). -/
def Lubran.forward (q : Lubran) (i : Spindle) (home : Track) : Option Track :=
  (q.spareMap.find? fun m => decide (m.spindle = i ∧ m.home = home)).map MapEntry.alt

/-- The home track a command names (R1). -/
def Entry.homeTrack (e : Entry) : Track := { cyl := physicalCyl e.cyl, head := e.head }

/-- The track an entry would use as the Spare Map stands: the alternate of its home track, or the home track
(R36, R53). -/
def Lubran.targetOf (q : Lubran) (i : Spindle) (e : Entry) : Track :=
  (q.forward i e.homeTrack).getD e.homeTrack

/-- The rotational wait W = (L − a) mod 96, where a = (s + E) mod 96 (R37). -/
def rotationalWait (slot e lead : Nat) : Nat := (lead + 96 - (slot + e) % 96) % 96

/-- The cost of an entry: C = E + W, and 0 for RESERVE, STOP SPINDLE and RECALIBRATE (R38, R39). -/
def Lubran.cost (q : Lubran) (i : Spindle) (e : Entry) : Nat :=
  if e.kind.hasTrack then
    let target := q.targetOf i e
    let (p, h0) := (q.sp i).chan.costPosition
    let est := estimate q.params.acc q.params.vmax q.params.settle (distance target.cyl p) h0 target.head
    est + rotationalWait (q.sp i).slot est (leadSlot (.block e.first))
  else 0

/-- The age of an entry in revolutions (R46). -/
def Lubran.age (q : Lubran) (i : Spindle) (e : Entry) : Nat :=
  ((q.sp i).revs + 65536 - e.arrival) % 65536

end Sys2Proof.Machine
end

