-- ==== Sys2Proof/Machine/Attention.lean ====
section
/-! DEFINITION. The Attention Unit (chapter 8): raising a notice at a port (R158), the routing masks (R159)
and what the end of an ATTENTION frame does to its notice (R161). -/

namespace Sys2Proof.Machine

/-- A notice is the one of a given pair of kind and key (R157). -/
def Notice.isFor (n : Notice) (kind : NoticeKind) (key : NoticeKey) : Bool :=
  decide (n.detail.kind = kind ∧ n.key = key)

/-- A notice that takes a new raise of its pair (R158). -/
def Notice.retake (n : Notice) (detail : Detail) : Notice :=
  if n.sending then { n with follow := some detail } else { n with detail := detail }

/-- A raise taken into a table (R158): a new notice at the tail, or the pending notice of the pair takes the
detail. -/
def raiseInto (table : List Notice) (key : NoticeKey) (detail : Detail) : List Notice :=
  if table.any fun n => n.isFor detail.kind key then
    table.map fun n => if n.isFor detail.kind key then n.retake detail else n
  else table ++ [{ key := key, detail := detail, sending := false, follow := none }]

/-- Raises a notice at a port; a port whose link is not UP drops it (R158). -/
def Lubran.raiseAt (q : Lubran) (p : Port) (key : NoticeKey) (detail : Detail) : Lubran :=
  if (q.port p).link = .up then
    q.modPort p fun r => { r with notices := raiseInto r.notices key detail }
  else q

/-- Raises a notice at each port of a list. -/
def Lubran.raiseEach (q : Lubran) (ports : List Port) (key : NoticeKey) (detail : Detail) : Lubran :=
  ports.foldl (fun q p => q.raiseAt p key detail) q

/-- Raises a spindle's notice at each port in its routing mask (R159). -/
def Lubran.raiseMasked (q : Lubran) (i : Spindle) (detail : Detail) : Lubran :=
  q.raiseEach (allPorts.filter fun p => (q.sp i).mask.get p) (.spindle i) detail

/-- A notice whose ATTENTION frame ends: it leaves the table, or takes its follow-on detail and moves to the
tail (R161). -/
def settleNotice (table : List Notice) : List Notice :=
  match table.find? Notice.sending with
  | none => table
  | some n =>
      let rest := table.filter fun m => !m.sending
      match n.follow with
      | none => rest
      | some d => rest ++ [{ key := n.key, detail := d, sending := false, follow := none }]

end Sys2Proof.Machine
end

