-- ==== Sys2Proof/Machine/Transmit.lean ====
section
/-! DEFINITION. A port's transmitter (R75, R81, R170, R180 to R182): handing frames to it, withdrawing data
requests, and its choice of the next frame. -/

namespace Sys2Proof.Machine

/-- Hands a frame of class 1 to a port's transmitter (R182). -/
def Lubran.pushReply (q : Lubran) (p : Port) (f : ReplyFrame) : Lubran :=
  q.modPort p fun r => { r with replies := r.replies ++ [f] }

/-- Hands over an ENDING frame (R170). -/
def Lubran.pushEnding (q : Lubran) (p : Port) (tag kind : Byte) (code : EndCode) (residual : Byte)
    (reply : List Byte) : Lubran :=
  q.pushReply p (.ending tag kind code residual reply none)

/-- A frame of class 1 is a REJECT. -/
def ReplyFrame.isReject : ReplyFrame → Bool
  | .reject .. => true
  | .ending .. => false

/-- Queues a REJECT, unless four are waiting (R180). -/
def Lubran.pushReject (q : Lubran) (p : Port) (reason : RejectReason) (kind tag : Byte) : Lubran :=
  if ((q.port p).replies.filter ReplyFrame.isReject).length < Config.rejectCapacity then
    q.pushReply p (.reject reason kind tag)
  else q

/-- Hands over a DATA REQUEST (R75). -/
def Lubran.pushRequest (q : Lubran) (p : Port) (r : DataRequest) : Lubran :=
  q.modPort p fun s => { s with requests := s.requests ++ [r] }

/-- Withdraws a DATA REQUEST that is still waiting (R75, R89). -/
def Lubran.withdrawRequest (q : Lubran) (p : Port) (t : Tag) (b : Nat) : Lubran :=
  q.modPort p fun s => { s with requests := s.requests.filter fun r => decide (¬ (r.tag = t ∧ r.block = b)) }

/-- The staging slot of a READ that has its next DATA frame ready: the slot of its lowest block not yet
drained, when that slot is FULL or DRAINING (R81, R182). An entry abandoned at teardown offers none (R178). -/
def Lubran.offeredSlot (q : Lubran) (p : Port) (t : Tag) : Option (Fin 8) :=
  match q.findEntry (.host p t) with
  | none => none
  | some (_, e) =>
      if e.kind = .read ∧ e.abandoned = false then
        allSlots.find? fun i =>
          decide ((q.slot i).owner = some (.host p t) ∧ (q.slot i).block = some (e.first + e.blocksDone) ∧
            ((q.slot i).state = .full ∨ (q.slot i).state = .draining))
      else none

/-- Puts a READ among the commands with slots to drain, when it first has a slot offered (R81, R182). -/
def Lubran.offer (q : Lubran) (p : Port) (t : Tag) : Lubran :=
  if (q.offeredSlot p t).isSome ∧ t ∉ (q.port p).drains then
    q.modPort p fun r => { r with drains := r.drains ++ [t] }
  else q

/-- Begins a frame: it takes the rate divisor in force, and the divisor that follows it is settled (R175,
R181). -/
def LinkPort.begin (r : LinkPort) (f : OutFrame) : LinkPort :=
  { r with
    sending := some f
    rateNow := r.rateNext
    rateNext := match f with
      | .reply (.ending _ _ _ _ _ (some d)) => d
      | _ => r.rateNext }

/-- The 256 bytes of one fragment of a block (R165). -/
def fragmentOf (bytes : List Byte) (frag : Nat) : List Byte := (bytes.drop (256 * frag)).take 256

/-- The first command of class 3 that has a frame ready, with its slot (R182). -/
def Lubran.readyDrain (q : Lubran) (p : Port) : Option (Tag × Fin 8) :=
  (q.port p).drains.findSome? fun t => (q.offeredSlot p t).map fun i => (t, i)

/-- Marks the oldest notice that is not sending as sending (R161). -/
def markSending : List Notice → List Notice
  | [] => []
  | n :: ns => if n.sending then n :: markSending ns else { n with sending := true } :: ns

/-- The transmitter's choice of the next frame, from the first class that holds one (R182). It sends one
frame at a time, in UP only, and begins none while it is held (R177, R181). -/
def Lubran.kick (q : Lubran) (p : Port) : Lubran :=
  let r := q.port p
  if r.link = .up ∧ r.paused = false ∧ r.sending = none then
    match r.replies with
    | f :: fs => q.modPort p fun r => { r.begin (.reply f) with replies := fs }
    | [] =>
      match r.requests with
      | d :: ds => q.modPort p fun r => { r.begin (.request d) with requests := ds }
      | [] =>
        match q.readyDrain p with
        | some (t, i) =>
            let sl := q.slot i
            (q.modPort p fun r =>
              r.begin (.data t (sl.block.getD 0) sl.sent (fragmentOf sl.bytes sl.sent) (some i))).modSlot i
              fun sl => { sl with state := .draining }
        | none =>
          match r.notices.find? fun n => !n.sending with
          | some n =>
              q.modPort p fun r =>
                { r.begin (.attention n.key n.detail) with notices := markSending r.notices }
          | none => q
  else q

/-- Each idle transmitter with a frame waiting begins it (R182). -/
def Lubran.kickAll (q : Lubran) : Lubran := allPorts.foldl Lubran.kick q

/-- Discards what waits in a transmitter and was not begun (R178); a hold ends with the teardown (R181). The
attention table is emptied by its own rule (R162). A divisor held back for the ENDING of its SET PORT, which goes too, is used
from the next frame (DESIGN CHOICE, log entry 52). -/
def LinkPort.discardWaiting (r : LinkPort) : LinkPort :=
  { r with replies := [], requests := [], drains := [], paused := false, rateNext := r.divisor }

end Sys2Proof.Machine
end

