-- ==== Sys2Proof/Machine/Staging.lean ====
section
/-! DEFINITION. The staging buffer and the slot arbiter (section 4.2): freeing a slot (R74), the needs of the
entries and the waiting list (R76), the choice of a winner (R77, R78) and the grant (R75). -/

namespace Sys2Proof.Machine

/-- The slots an entry holds in a state other than FREE. -/
def Lubran.slotsOf (q : Lubran) (o : Owner) : List (Fin 8) :=
  allSlots.filter fun i => decide ((q.slot i).owner = some o)

/-- The slot of an entry bound to a block and filled from a source. -/
def Lubran.slotFor (q : Lubran) (o : Owner) (b : Nat) (src : SlotSource) : Option (Fin 8) :=
  allSlots.find? fun i =>
    decide ((q.slot i).owner = some o ∧ (q.slot i).block = some b ∧ (q.slot i).source = some src)

/-- The need of an entry (R76). An entry in ENDING, one abandoned at teardown, and one that is not in service
need none. -/
def Lubran.need (q : Lubran) (o : Owner) : Nat :=
  match q.findEntry o with
  | none => 0
  | some (_, e) =>
      if e.inService ∧ e.state ≠ .ending ∧ e.abandoned = false then
        match e.kind with
        | .read | .write | .verify => min Config.slotsPerEntry (e.count - e.blocksDone)
        | .guardedWrite => if e.compared then 0 else 2
        | .reassign => q.seq.need
        | .recalibrate | .reserve | .stopSpindle => 0
      else 0

/-- An entry whose holdings are below its need joins the tail of the waiting list, once (R76). -/
def Lubran.joinIfShort (q : Lubran) (o : Owner) : Lubran :=
  if (q.slotsOf o).length < q.need o ∧ o ∉ q.waiting then { q with waiting := q.waiting ++ [o] } else q

/-- An entry leaves the waiting list (R76). -/
def Lubran.leaveWaiting (q : Lubran) (o : Owner) : Lubran :=
  { q with waiting := q.waiting.filter fun w => decide (w ≠ o) }

/-- A FREE slot: owner, block, source, fragment count and LOST mark cleared (R74). Its bytes stay. -/
def StagingSlot.clear (s : StagingSlot) : StagingSlot :=
  { s with state := .free, owner := none, block := none, source := none, frags := 0, lost := false, sent := 0 }

/-- A DATA frame already begun is finished by its transmitter without its slot (R94, R178). -/
def LinkPort.detach (r : LinkPort) (i : Fin 8) : LinkPort :=
  match r.sending with
  | some (.data t b k bytes (some j)) =>
      if j = i then { r with sending := some (.data t b k bytes none) } else r
  | _ => r

/-- A slot becomes FREE (R74): a DATA REQUEST for it that still waits is withdrawn (R75), and its entry waits
again when it is now short (R76). -/
def Lubran.freeSlot (q : Lubran) (i : Fin 8) : Lubran :=
  let sl := q.slot i
  let q := { q.modSlot i StagingSlot.clear with ports := q.ports.map fun r => r.detach i }
  match sl.owner with
  | none => q
  | some o =>
      let q := match o, sl.source, sl.block with
        | .host p t, some .host, some b => q.withdrawRequest p t b
        | _, _, _ => q
      q.joinIfShort o

/-- Every slot of an entry becomes FREE. -/
def Lubran.freeSlotsOf (q : Lubran) (o : Owner) : Lubran := (q.slotsOf o).foldl Lubran.freeSlot q

/-! ## The arbiter -/

/-- The port of a waiting host entry. -/
def Owner.port : Owner → Option Port
  | .host p _ => some p
  | .internal => none

/-- Whether one host entry goes before another under PRIORITY: the higher port priority, then the lower
letter; entries of one port keep their order (R77). -/
def Lubran.outranks (q : Lubran) (a b : Owner) : Bool :=
  match a.port, b.port with
  | some p, some r =>
      decide ((q.port p).priority > (q.port r).priority ∨
        ((q.port p).priority = (q.port r).priority ∧ p.val < r.val))
  | _, _ => false

/-- The best of a list under PRIORITY: an earlier entry stands unless a later one outranks it. -/
def Lubran.bestOf (q : Lubran) : Owner → List Owner → Owner
  | best, [] => best
  | best, w :: ws => if q.outranks w best then q.bestOf w ws else q.bestOf best ws

/-- The served set that a FAIR grant starts from: emptied when every waiting port is in it (R78). -/
def Lubran.servedNow (q : Lubran) : List Port :=
  if q.waiting.all fun w => (w.port.map fun p => decide (p ∈ q.served)).getD true then [] else q.served

/-- The arbiter's winner and the served set after the grant (R77, R78). -/
def Lubran.winner (q : Lubran) : Option (Owner × List Port) :=
  if .internal ∈ q.waiting then some (.internal, q.served)
  else
    match q.params.arbMode with
    | .priority =>
        match q.waiting with
        | [] => none
        | w :: ws => some (q.bestOf w ws, q.served)
    | .fair =>
        (q.waiting.find? fun w => (w.port.map fun p => decide (p ∉ q.servedNow)).getD false).map fun w =>
          (w, match w.port with
            | some p => q.servedNow ++ [p]
            | none => q.servedNow)

/-- The FREE slot a grant takes: the lowest numbered (DESIGN CHOICE, log entry 7). -/
def Lubran.freeIndex (q : Lubran) : Option (Fin 8) :=
  allSlots.find? fun i => decide ((q.slot i).state = .free)

/-- A slot RESERVED for an entry and bound to a block (R75). -/
def StagingSlot.reserve (s : StagingSlot) (o : Owner) (b : Nat) (src : SlotSource) : StagingSlot :=
  { s with state := .reserved, owner := some o, block := some b, source := some src, frags := 0,
           lost := false, sent := 0 }

/-- Binds a FREE slot to its winner (R75): READ, VERIFY and REASSIGN to the next block to bind from the disk,
WRITE to the next block to bind from the host, a GUARDED WRITE first to its new data and then to its
compare read. A slot filled from the host sends its DATA REQUEST. The next block to bind rises by 1, but for a GUARDED
WRITE, whose record keeps the named block (R75 over R69; DEDUCED, log entry 55). -/
def Lubran.bindSlot (q : Lubran) (i : Fin 8) (sp : Spindle) (e : Entry) : Lubran :=
  let next := (q.sp sp).xfer.bind
  let raise (q : Lubran) := q.modXfer sp fun x => { x with bind := x.bind + 1 }
  let ask (q : Lubran) (b : Nat) := match e.owner with
    | .host p t => q.pushRequest p { tag := t, block := b }
    | .internal => q
  match e.kind with
  | .write => ask (raise (q.modSlot i fun s => s.reserve e.owner next .host)) next
  | .guardedWrite =>
      if (q.slotFor e.owner e.first .host).isNone then
        ask (q.modSlot i fun s => s.reserve e.owner e.first .host) e.first
      else q.modSlot i fun s => s.reserve e.owner e.first .disk
  | _ => raise (q.modSlot i fun s => s.reserve e.owner next .disk)

/-- A grant can be made (R77). -/
def Lubran.canGrant (q : Lubran) : Bool := q.freeIndex.isSome && q.winner.isSome

/-- One grant (R75 to R78): the winner receives a FREE slot, and leaves the list when its need is met. -/
def Lubran.grantOne (q : Lubran) : Lubran :=
  match q.freeIndex, q.winner with
  | some i, some (o, served) =>
      let q := { q with served := served }
      match q.findEntry o with
      | none => q.leaveWaiting o
      | some (sp, e) =>
          if (q.slotsOf o).length < q.need o then
            let q := q.bindSlot i sp e
            if (q.slotsOf o).length < q.need o then q else q.leaveWaiting o
          else q.leaveWaiting o
  | _, _ => q

end Sys2Proof.Machine
end

