-- ==== Sys2Proof/Machine/SpareMap.lean ====
section
/-! DEFINITION. The Spare Map Unit (chapter 5): the order of the map (R95), the reverse lookup (R96), allocation
(R99), retirement (R100), commit (R101), the POOL LOW test (R102), the generation counter (R103), the
classification of headers (R105) and the removal of a spindle's part (R115). The forward lookup stands
with the cost, in `Lubran.forward`. -/

namespace Sys2Proof.Machine

/-- The order of the Spare Map: spindle, then home cylinder, then home head (R95). -/
def MapEntry.before (a b : MapEntry) : Bool :=
  decide (a.spindle.val < b.spindle.val ∨
    (a.spindle = b.spindle ∧ (a.home.cyl < b.home.cyl ∨ (a.home.cyl = b.home.cyl ∧ a.home.head < b.home.head))))

/-- Adds an entry at its place; the entries after it move up by one index (R95). -/
def insertEntry (m : MapEntry) : List MapEntry → List MapEntry
  | [] => [m]
  | e :: es => if m.before e then m :: e :: es else e :: insertEntry m es

/-- Retargets the entry of a home track to another alternate (R101, R110). -/
def retargetEntry (i : Spindle) (home alt : Track) (map : List MapEntry) : List MapEntry :=
  map.map fun m => if m.spindle = i ∧ m.home = home then { m with alt := alt } else m

/-- The home track of an alternate whose pool record is IN_USE (R96). -/
def Lubran.reverse (q : Lubran) (i : Spindle) (alt : Track) : Option Track :=
  match (q.sp i).pool[altIndex alt]? with
  | some (.inUse partner _) => some partner
  | _ => none

def PoolRec.isFree : PoolRec → Bool
  | .free => true
  | _ => false

def PoolRec.isInUse : PoolRec → Bool
  | .inUse .. => true
  | _ => false

def PoolRec.isRetired : PoolRec → Bool
  | .retired => true
  | _ => false

/-- The FREE, IN_USE and RETIRED counts of a pool, 0 for an empty pool (R98, R118). -/
def SpindleUnit.freeCount (u : SpindleUnit) : Nat := (u.pool.filter PoolRec.isFree).length
def SpindleUnit.inUseCount (u : SpindleUnit) : Nat := (u.pool.filter PoolRec.isInUse).length
def SpindleUnit.retiredCount (u : SpindleUnit) : Nat := (u.pool.filter PoolRec.isRetired).length

/-- The best FREE record from index `i` on: the nearest cylinder; records are in order of cylinder and head, so
the first of the nearest is on the lower cylinder and the lower head (R99). -/
def nearestFree (p : Nat) : Nat → List PoolRec → Option Nat → Option Nat
  | _, [], best => best
  | i, r :: rs, best =>
      nearestFree p (i + 1) rs <|
        if r.isFree then
          match best with
          | none => some i
          | some b => if distance (altTrack i).cyl p < distance (altTrack b).cyl p then some i else best
        else best

/-- An allocation request: the FREE alternate nearest to a home cylinder of a BUILT spindle (R99). -/
def Lubran.allocate (q : Lubran) (i : Spindle) (homeCyl : Nat) : Option Track :=
  if (q.sp i).mapState = .built then (nearestFree homeCyl 0 (q.sp i).pool none).map altTrack else none

/-- The POOL LOW test (R102). -/
def Lubran.poolLowTest (q : Lubran) (i : Spindle) : Lubran :=
  let u := q.sp i
  if u.freeCount ≤ q.params.poolLow then q.raiseMasked i (.poolLow u.freeCount u.retiredCount) else q

/-- Sets one pool record. -/
def Lubran.setPool (q : Lubran) (i : Spindle) (alt : Track) (r : PoolRec) : Lubran :=
  q.modSp i fun u => { u with pool := u.pool.set (altIndex alt) r }

/-- A retirement request: a FREE record becomes RETIRED, and the POOL LOW test follows; a RETIRED one stays as
it is (R100). -/
def Lubran.retire (q : Lubran) (i : Spindle) (alt : Track) : Lubran :=
  match (q.sp i).pool[altIndex alt]? with
  | some .free => (q.setPool i alt .retired).poolLowTest i
  | _ => q

/-- The answer to a commit request (R101). -/
inductive CommitAnswer where
  | committed
  | retargeted (old : Track)
  | mapFull
  deriving DecidableEq, Repr

/-- A commit request (R101): the map and the pool change as one, and the POOL LOW test follows. -/
def Lubran.commit (q : Lubran) (i : Spindle) (home alt : Track) (gen : Nat) : Lubran × CommitAnswer :=
  match q.forward i home with
  | some old =>
      let q := { q with spareMap := retargetEntry i home alt q.spareMap }
      (((q.setPool i alt (.inUse home gen)).setPool i old .retired).poolLowTest i, .retargeted old)
  | none =>
      if q.spareMap.length < Config.mapCapacity then
        let q := { q with spareMap := insertEntry { spindle := i, home := home, alt := alt } q.spareMap }
        ((q.setPool i alt (.inUse home gen)).poolLowTest i, .committed)
      else ((q.setPool i alt .retired).poolLowTest i, .mapFull)

/-- A generation request (R103): the counter's value, and the counter rises; at 65535 GENERATION LIMIT. -/
def Lubran.takeGeneration (q : Lubran) (i : Spindle) : Option (Nat × Lubran) :=
  if (q.sp i).generation < 65535 then
    some ((q.sp i).generation, q.modSp i fun u => { u with generation := u.generation + 1 })
  else none

/-- Removes a spindle's part of the map, its pool, its counter and its build record; its map is then NOT BUILT
(R111, R115, R116). -/
def Lubran.dropMap (q : Lubran) (i : Spindle) : Lubran :=
  let q := q.modSp i fun u =>
    { u with pool := [], generation := 0, mapState := .notBuilt, build := none }
  { q with spareMap := q.spareMap.filter fun m => decide (m.spindle ≠ i) }

/-! ## Headers -/

/-- What a header whose check passes says (R105). -/
inductive HeaderClass where
  | free
  | inUse (partner : Track) (gen : Nat)
  | retired
  | invalid
  deriving DecidableEq, Repr

/-- The contents of a header (section 5.4): own track, class and generation. -/
structure Header where
  own  : Track
  cls  : HeaderClass
  gen  : Nat
  deriving DecidableEq, Repr

/-- Classifies role, partner and generation (R105). -/
def classify (role : Nat) (partner : Track) (gen : Nat) : HeaderClass :=
  if role = 1 then .free
  else if role = 2 then
    if partner.cyl < Config.cylinders ∧ isHomeCyl partner.cyl ∧ partner.head < Config.heads then
      .inUse partner gen
    else .invalid
  else if role = 3 then .retired
  else .invalid

/-- A header field as read: none when its check fails (R92, section 5.4). -/
def parseHeader (bytes : List Byte) : Option Header :=
  match bytes with
  | [role, c1, c0, h, p1, p0, ph, g1, g0, k3, k2, k1, k0] =>
      if bytesOf32 (crc32 [role, c1, c0, h, p1, p0, ph, g1, g0]) = [k3, k2, k1, k0] then
        some
          { own := { cyl := natOf16 c1 c0, head := h.toNat }
            cls := classify role.toNat { cyl := natOf16 p1 p0, head := ph.toNat } (natOf16 g1 g0)
            gen := natOf16 g1 g0 }
      else none
  | _ => none

end Sys2Proof.Machine
end

