-- ==== Sys2Proof/Machine/ErrorWatch.lean ====
section
/-! DEFINITION. Error Watch (sections 6.1 to 6.3): the block outcome reports (R119), the suspect list (R120 to
R122), candidacy (R124), the pending reassignment list (R125, R126) and how the sequencer takes its next
work from it (R129). -/

namespace Sys2Proof.Machine

/-- A SPARE FAILED notice of a home track (R137). -/
def spareFailedDetail (reason : SpareReason) (home : Track) (tried : Nat) (lastAlt : Option Track)
    (trigger : Trigger) : Detail :=
  .spareFailed reason (logicalCyl home.cyl) home.head tried (lastAlt.map altIndex) trigger

/-- Places the REASSIGN entry in the internal place of a spindle (R43, R49). -/
def Lubran.placeReassign (q : Lubran) (i : Spindle) : Lubran :=
  (q.modSp i fun u =>
    { u with internal := some (newEntry .internal .reassign 0 0 0 0 false 0 [] u.revs) }).selectionEvent i

/-- The IDLE sequencer takes the head of the pending list (R129): for a READY spindle it enters SELECT and
places a REASSIGN entry; for any other the reassignment fails NOT READY and the sequencer stays IDLE. -/
def Lubran.takeWork (q : Lubran) : Lubran :=
  match q.sparing with
  | [] => q
  | r :: rest =>
      let q := { q with sparing := rest }
      if (q.sp r.spindle).life = .ready then
        let q := { q with
          seq := { Sequencer.initial with
            state := .select, spindle := some r.spindle, home := some r.home, trigger := some r.trigger } }
        q.placeReassign r.spindle
      else
        q.raiseMasked r.spindle (spareFailedDetail .notReady r.home 0 none r.trigger)

/-- The sequencer is working on a home track. -/
def Sequencer.worksOn (s : Sequencer) (i : Spindle) (home : Track) : Bool :=
  decide (s.state ≠ .idle ∧ s.spindle = some i ∧ s.home = some home)

/-- A home track is on the pending list or in the sequencer's hands (R124, R126). -/
def Lubran.isSparing (q : Lubran) (i : Spindle) (home : Track) : Bool :=
  q.sparing.any (fun r => decide (r.spindle = i ∧ r.home = home)) || q.seq.worksOn i home

/-- A home track joins the tail of the pending list; an IDLE sequencer takes it at once (R125, R129). -/
def Lubran.admitSpare (q : Lubran) (r : SpareReq) : Lubran :=
  let q := { q with sparing := q.sparing ++ [r] }
  if q.seq.state = .idle then q.takeWork else q

/-- The home track of a suspect: itself, or what the reverse lookup gives for an alternate (R124). -/
def Lubran.homeOf (q : Lubran) (i : Spindle) (t : Track) : Option Track :=
  if isHomeCyl t.cyl then some t else q.reverse i t

/-- The candidate action (R124). -/
def Lubran.candidateAction (q : Lubran) (s : Suspect) : Lubran :=
  match q.homeOf s.spindle s.track with
  | none => q
  | some home =>
      if q.isSparing s.spindle home then q
      else if (q.sp s.spindle).autoSpare ∧ q.sparing.length < Config.pendingCapacity then
        q.admitSpare { spindle := s.spindle, home := home, trigger := .automatic }
      else if s.advised then q
      else
        let q := q.raiseMasked s.spindle
          (.spareAdvised (logicalCyl home.cyl) home.head s.soft s.hard (!isHomeCyl s.track.cyl))
        { q with suspects := q.suspects.map fun m =>
            if m.spindle = s.spindle ∧ m.track = s.track then { m with advised := true } else m }

/-- The suspect is a candidate as SOFT_LIMIT stands (R123, R124). -/
def Lubran.isCandidate (q : Lubran) (s : Suspect) : Bool :=
  decide (q.params.softLimit ≤ s.soft ∨ 1 ≤ s.hard)

/-- Puts a suspect that has just taken a report at the tail of a list and makes the candidacy test on it
(R121, R122, R124). -/
def Lubran.enterSuspect (q : Lubran) (others : List Suspect) (s : Suspect) : Lubran :=
  if q.isCandidate s then
    let s := { s with candidate := true }
    { q with suspects := others ++ [s] }.candidateAction s
  else { q with suspects := others ++ [s] }

/-- The kinds of report, WRITE FAULT being counted as a hard error (R119, R121). -/
inductive ReportKind where
  | soft
  | hard
  deriving DecidableEq, Repr

/-- The counts of a suspect after a report; a count of 15 stays (R121). -/
def Suspect.count (s : Suspect) (k : ReportKind) (rev : Nat) : Suspect :=
  match k with
  | .soft => { s with soft := min 15 (s.soft + 1), lastSeen := rev }
  | .hard => { s with hard := min 15 (s.hard + 1), lastSeen := rev }

/-- The suspect is the one of a track. -/
def Suspect.isOf (s : Suspect) (i : Spindle) (t : Track) : Bool := decide (s.spindle = i ∧ s.track = t)

/-- Removes the entry nearest the head that is not a candidate; none when all are (R122). -/
def evictOldest : List Suspect → Option (List Suspect)
  | [] => none
  | s :: ss => if s.candidate then (evictOldest ss).map fun r => s :: r else some ss

/-- Error Watch takes a report (R119 to R122). -/
def Lubran.report (q : Lubran) (i : Spindle) (t : Track) (k : ReportKind) : Lubran :=
  if isHomeCyl t.cyl ∧ (q.forward i t).isSome then q
  else
    let rev := (q.sp i).revs
    match q.suspects.find? fun s => s.isOf i t with
    | some s => q.enterSuspect (q.suspects.filter fun m => !m.isOf i t) (s.count k rev)
    | none =>
        let s : Suspect := { spindle := i, track := t, soft := 0, hard := 0, lastSeen := rev,
                             candidate := false, advised := false }
        if q.suspects.length < Config.suspectCapacity then q.enterSuspect q.suspects (s.count k rev)
        else
          match evictOldest q.suspects with
          | some others => q.enterSuspect others (s.count k rev)
          | none => q

/-- A spindle's history is forgotten (R127). -/
def Lubran.forgetSuspects (q : Lubran) (i : Spindle) : Lubran :=
  { q with suspects := q.suspects.filter fun s => decide (s.spindle ≠ i) }

/-- Removes the suspect of one track (R135). -/
def Lubran.forgetTrack (q : Lubran) (i : Spindle) (t : Track) : Lubran :=
  { q with suspects := q.suspects.filter fun s => !s.isOf i t }

/-- A faulted spindle's pending reassignments fail NOT READY, in list order (R127). -/
def Lubran.failPending (q : Lubran) (i : Spindle) : Lubran :=
  let gone := q.sparing.filter fun r => decide (r.spindle = i)
  let q := { q with sparing := q.sparing.filter fun r => decide (r.spindle ≠ i) }
  gone.foldl (fun q r => q.raiseMasked i (spareFailedDetail .notReady r.home 0 none r.trigger)) q

end Sys2Proof.Machine
end

