-- ==== Sys2Proof/Machine/Endings.lean ====
section
/-! DEFINITION. How an entry ends: the hand-over of an ending with its sense record and allegiance (R56, R146,
R163), the departure from the queue (R42, R56, R64), the disposal of the staging slots (R89), the end of a
reassignment (R137) and a spindle's entry into FAULTED (R11, R65, R138). -/

namespace Sys2Proof.Machine

/-- The block an entry had reached: first block plus blocks done, 14 at most; absent for kinds with no track
(R163). -/
def Entry.endBlock (e : Entry) : Option Nat :=
  if e.kind.hasTrack then some (min 14 (e.first + e.blocksDone)) else none

/-- The sense record of a check ending (R163). -/
def senseOf (i : Spindle) (u : SpindleUnit) (e : Entry) (t : Tag) (code : EndCode) : SenseRec :=
  { tag := t, code := code, spindle := i
    logical := if e.kind.hasTrack then
        some { cyl := e.cyl, head := e.head, first := e.first, count := e.count } else none
    physical := e.track, endBlock := e.endBlock, retries := e.retries, lost := e.lost
    fault := u.lines.fault, speedOk := u.lines.speedOk, pending := true }

/-- A check ending writes the port's sense record and sets the spindle's allegiance to the port, with the timer
loaded from ALLEGIANCE_TIME (R146, R147, R163). -/
def Lubran.holdFor (q : Lubran) (i : Spindle) (e : Entry) (p : Port) (t : Tag) (code : EndCode) : Lubran :=
  let rec_ := senseOf i (q.sp i) e t code
  (q.modPort p fun r => { r with sense := some rec_ }).modSp i
    fun u => { u with allegiance := some (p, q.params.allegianceTime) }

/-- Hands an entry's ENDING to its port's transmitter and frees its tag (R56, R167). -/
def Lubran.giveEnding (q : Lubran) (e : Entry) (code : EndCode) (reply : List Byte) : Lubran :=
  match e.owner with
  | .internal => q
  | .host p t =>
      (q.pushEnding p (byteOf t.val) (byteOf (kindCode e.kind)) code (byteOf e.residual) reply).setTag p t false

/-- Hands over an ending that, in the check class, writes sense and sets allegiance (R56, R146). -/
def Lubran.handOver (q : Lubran) (i : Spindle) (e : Entry) (code : EndCode) (reply : List Byte) : Lubran :=
  let q := q.giveEnding e code reply
  match e.owner with
  | .internal => q
  | .host p t => if isCheck code then q.holdFor i e p t code else q

/-- The path is released if it is held for an entry of this spindle. -/
def Lubran.releaseHeld (q : Lubran) (i : Spindle) (o : Owner) : Lubran :=
  if q.pathHeldBy i (.entry o) then q.releasePath else q

/-- The transmitter's part of an entry's departure: its drains and data requests are dropped (R64, R89). -/
def Lubran.dropTransmit (q : Lubran) (o : Owner) : Lubran :=
  match o with
  | .internal => q
  | .host p t =>
      q.modPort p fun r =>
        { r with drains := r.drains.filter (fun d => decide (d ≠ t)),
                 requests := r.requests.filter fun d => decide (d.tag ≠ t) }

/-- The in-service entry of a spindle leaves the queue (R42, R56, R64): the path and its staging slots are given
back, its transfer record is cleared, and its departure is a selection event. A seek of its own that it leaves
running is an orphan, whose report will be dropped (R53). On a spindle that is not READY the seek outstanding is the
map build's, and stays its own. -/
def Lubran.leaveQueue (q : Lubran) (i : Spindle) (o : Owner) : Lubran :=
  let q := (q.releaseHeld i o).modSp i fun u =>
    { u.dropEntry o with
      xfer := u.entryXfer fun _ => XferRec.clear, waitReq := none,
      chan := { u.chan with
        orphan := decide (u.life = .ready) && (u.chan.target.isSome || u.chan.held.isSome) } }
  (((q.leaveWaiting o).dropTransmit o).freeSlotsOf o).selectionEvent i

/-! ## Disposal of staging slots (R89) -/

/-- A port is sending a DATA frame of this slot. -/
def LinkPort.isSendingSlot (r : LinkPort) (i : Fin 8) : Bool :=
  match r.sending with
  | some (.data _ _ _ _ (some j)) => decide (j = i)
  | _ => false

/-- A DRAINING slot whose entry leaves while its frame is on the link: it becomes FREE at the frame's end. -/
def StagingSlot.depart (s : StagingSlot) : StagingSlot := { s with owner := none }

/-- What becomes of one slot of an entry that ends (R89). -/
def Lubran.disposeSlot (q : Lubran) (p : Port) (kind : EntryKind) (code : EndCode) (i : Fin 8) : Lubran :=
  let sl := q.slot i
  let drains := decide (kind = .read ∧ (sl.state = .full ∨ sl.state = .draining)) && drainsFirst code
  if drains then q
  else if sl.state = .draining ∧ (q.port p).isSendingSlot i then q.modSlot i StagingSlot.depart
  else q.freeSlot i

/-- The staging slots of an ending entry are disposed of by its code (R89). -/
def Lubran.disposeSlots (q : Lubran) (p : Port) (t : Tag) (kind : EntryKind) (code : EndCode) : Lubran :=
  (q.slotsOf (.host p t)).foldl (fun q i => q.disposeSlot p kind code i) q

/-- The disk work of an ENDING entry is over: the path is released, the slots are disposed of, and the ending is
handed over unless slots of a READ are still to drain (R89). Where an ending waits for a passing block, its DATA
REQUESTs are withdrawn and its slots disposed of here, at the block's end (DEDUCED, log entry 39). -/
def Lubran.conclude (q : Lubran) (i : Spindle) : Lubran :=
  match q.current i with
  | none => q
  | some e =>
      match e.owner, e.decided with
      | .host p t, some d =>
          let q := (q.releaseHeld i e.owner).modSp i fun u =>
            { u with xfer := u.entryXfer fun x => { x with next := none, cont := none } }
          let q := (q.modPort p fun r => { r with requests := r.requests.filter fun d => decide (d.tag ≠ t) })
          let q := q.disposeSlots p t e.kind d.code
          if q.slotsOf (.host p t) = [] then
            (q.handOver i e d.code d.reply).leaveQueue i e.owner
          else q
      | _, _ => q

/-- A block of the entry is passing the heads: the path carries a field of it that has begun. -/
def Lubran.carrying (q : Lubran) (i : Spindle) (o : Owner) : Bool :=
  q.pathHeldBy i (.entry o) && q.pathBegun

/-- Decides an ending for the in-service host entry of a spindle (R89). One already decided stands, and an
entry abandoned at teardown takes none (R64). An ending decided while a block of the entry is passing the
heads waits for that block's end. -/
def Lubran.decideEnding (q : Lubran) (i : Spindle) (code : EndCode) (reply : List Byte := []) : Lubran :=
  match q.current i with
  | none => q
  | some e =>
      if e.owner = .internal ∨ e.decided.isSome ∨ e.abandoned then q
      else
        let q := (q.modEntry i e.owner fun e =>
          { e with state := .ending, decided := some { code := code, reply := reply } }).leaveWaiting e.owner
        if q.carrying i e.owner then q else q.conclude i

/-- The entry of a spindle whose port was torn down while it was TRANSFERRING leaves at the block boundary, and
its tag is freed then (R64, R167). -/
def Lubran.leaveAbandoned (q : Lubran) (i : Spindle) (e : Entry) : Lubran :=
  let q := q.leaveQueue i e.owner
  match e.owner with
  | .host p t => q.setTag p t false
  | .internal => q

/-! ## The reassignment's end -/

/-- The REASSIGN entry leaves its spindle, whether in service or waiting in the internal place (R56, R65). -/
def Lubran.removeReassign (q : Lubran) (i : Spindle) : Lubran :=
  match (q.sp i).internal with
  | none => q
  | some e =>
      if e.inService then q.leaveQueue i .internal
      else q.modSp i fun u => { u with internal := none }

/-- The lost-revolution count of the REASSIGN entry, for the SPARE DONE notice (R137). -/
def Lubran.reassignLost (q : Lubran) (i : Spindle) : Nat :=
  match (q.sp i).internal with
  | some e => e.lost
  | none => 0

/-- A reassignment ends SPARE DONE (R135, R137). -/
def Lubran.spareDone (q : Lubran) (i : Spindle) : Lubran :=
  let s := q.seq
  let lost := q.reassignLost i
  let q := q.removeReassign i
  let q := match s.home, s.newAlt, s.trigger with
    | some home, some alt, some trigger =>
        q.raiseMasked i
          (.spareDone (logicalCyl home.cyl) home.head (altIndex alt) s.lostCount lost trigger)
    | _, _, _ => q
  { q with seq := Sequencer.initial }

/-- The SPARE FAILED notice of the present reassignment (R137). -/
def Lubran.raiseSpareFailed (q : Lubran) (s : Sequencer) (i : Spindle) (reason : SpareReason) : Lubran :=
  match s.home, s.trigger with
  | some home, some trigger => q.raiseMasked i (spareFailedDetail reason home s.tried s.lastAlt trigger)
  | _, _ => q

/-- A reassignment ends SPARE FAILED (R137). -/
def Lubran.spareFailed (q : Lubran) (i : Spindle) (reason : SpareReason) : Lubran :=
  let s := q.seq
  let q := (q.removeReassign i).raiseSpareFailed s i reason
  { q with seq := Sequencer.initial }

/-! ## FAULTED -/

/-- The channel of a spindle that stops turning: IDLE, position unknown, no target, and any motion abandoned
without a report (R10, R11). Its Purpose becomes NORMAL, which R10 and R11 do not list (DESIGN CHOICE, log
entry 38). -/
def Channel.stop (c : Channel) : Channel :=
  { c with state := .idle, purpose := .normal, posKnown := false, target := none, demand := 0,
           overshoots := 0, reissued := false, held := none, orphan := false }

/-- Notes on WRITE DATA that the field being written is left partial on the disk (R83, R88, R94). -/
def Lubran.noteCutWrite (q : Lubran) : Lubran :=
  match q.path.spindle, q.path.field, q.path.holder with
  | some i, some f, some h =>
      if (q.sp i).writeGate then
        let track := match h with
          | .entry o => ((q.sp i).findEntry o).bind Entry.track
          | .departed d => d.entry.track
          | .build => none
        let cut : DiskWrite :=
          { spindle := i, field := f, bytes := [], whole := false
            track := track.getD { cyl := (q.sp i).chan.cyl, head := (q.sp i).chan.head } }
        { q with writeOut := some cut }
      else q
  | _, _, _ => q

/-- The path is released from whatever it carries on a spindle. -/
def Lubran.dropPathOn (q : Lubran) (i : Spindle) : Lubran :=
  if q.path.spindle = some i then q.noteCutWrite.releasePath else q

/-- The in-service host entry of a spindle that enters FAULTED (R65, R89): it ends SPINDLE FAULT; one whose ending
is decided keeps it and waits no longer for its block; one abandoned leaves without an ending (R64). -/
def Lubran.faultCurrent (q : Lubran) (i : Spindle) : Lubran :=
  match q.current i with
  | none => q
  | some e =>
      if e.owner = .internal then q
      else if e.abandoned then q.leaveAbandoned i e
      else if e.decided.isSome then q.conclude i
      else q.decideEnding i .spindleFault

/-- Every QUEUED host entry of a spindle ends with a code, in arrival order, without sense or allegiance (R58,
R65). -/
def Lubran.endQueued (q : Lubran) (i : Spindle) (code : EndCode) : Lubran :=
  let gone := (q.sp i).queue.filter fun e => !e.inService
  let q := q.modSp i fun u => { u with queue := u.queue.filter Entry.inService }
  gone.foldl (fun q e => q.giveEnding e code []) q

/-- A spindle enters FAULTED (R11, R65, R127, R138). A spindle that is ABSENT, STOPPED or already FAULTED does
not change. -/
def Lubran.faultSpindle (q : Lubran) (i : Spindle) (reason : FaultReason) : Lubran :=
  match (q.sp i).life with
  | .absent | .stopped | .faulted => q
  | .spinningUp | .recalibrating | .buildingMap | .ready =>
      let q := q.dropPathOn i
      let q := q.modSp i fun u =>
        { u with life := .faulted, faultReason := reason, spin := false, spinTimer := none,
                 chan := u.chan.stop, waitReq := none }
      let q := (q.faultCurrent i).endQueued i .spindleFault
      let s := q.seq
      let mine := decide (s.state ≠ .idle ∧ s.spindle = some i)
      let q := if mine then { q.removeReassign i with seq := Sequencer.initial } else q
      let q := (q.dropMap i).forgetSuspects i
      let q := q.modSp i fun u =>
        { u with selectDue := false, xfer := { u.xfer with next := none, cont := none } }
      let q := q.raiseMasked i (.spindleFault reason)
      let q := if mine then q.raiseSpareFailed s i .notReady else q
      q.failPending i

end Sys2Proof.Machine
end

