-- ==== Sys2Proof/Machine/Positioning.lean ====
section
/-! DEFINITION. The Positioning Unit (chapter 1): seeks (R14 to R18), seek checks (R19, R20), recalibrations (R21),
their completion and reports, the entry into READY (R9) and the start of a map build (R106). A settle that
can complete is completed before the step ends (`Lubran.settledSpindle`), which is the test R16 makes at
each boundary, at each assertion of ON TRACK and on entry to SETTLING. -/

namespace Sys2Proof.Machine

/-! ## The channel alone -/

/-- The heads are at cylinder 0: DEMAND drops and the settle of the recalibration starts, or starts over (R21). The
remaining distance becomes 0, which R21 does not say (DESIGN CHOICE, log entry 49). -/
def Channel.atZero (c : Channel) : Channel :=
  { c with cyl := 0, demand := 0, remaining := 0, state := .settling, settle := c.sSettle }

/-- A recalibration starts (R21). With GUARD already asserted the heads are at cylinder 0 at once. The remaining distance
is kept until then (DESIGN CHOICE, log entry 49). -/
def Channel.beginRecal (c : Channel) (vmax settle : Nat) (guard : Bool) : Channel :=
  let c := { c with sVmax := vmax, sSettle := settle, purpose := .recal, state := .recal,
                    recalLimit := Config.recalLimit, direction := .outward, demand := min 8 vmax }
  if guard then c.atZero else c

/-- The record of a channel at the start of a seek, before its case is taken (R14). Its deadline is 96 for a seek to the
track the heads are on, whose estimate is 0 (R14 and R29 over the range of R33, log entry 46). -/
def Channel.beginSeek (c : Channel) (p : Params) (t : Track) (again : Bool) : Channel :=
  { c with
    sAcc := p.acc, sVmax := p.vmax, sSettle := p.settle, target := some t, purpose := .normal
    overshoots := 0, reissued := c.reissued && again, head := t.head, held := none
    deadline := estimate p.acc p.vmax p.settle (distance t.cyl c.cyl) c.head t.head
      + Config.deadlineAllowance }

/-- The channel is moving or settling. -/
def Channel.moving (c : Channel) : Bool :=
  match c.state with
  | .seeking | .settling | .recal => true
  | .idle | .onTrack => false

/-- The channel is running a seek, and not a recalibration. -/
def Channel.seekRunning (c : Channel) : Bool :=
  match c.state, c.purpose with
  | .seeking, .normal | .settling, .normal => true
  | _, _ => false

/-- One step in the direction of travel would leave 0 to 559 (R15, R17). -/
def Channel.atEdge (c : Channel) : Bool :=
  match c.direction with
  | .outward => decide (c.cyl = 0)
  | .inward => decide (Config.cylinders - 1 ≤ c.cyl)

/-- One step in the direction of travel. -/
def Channel.stepCyl (c : Channel) : Nat :=
  match c.direction with
  | .outward => c.cyl - 1
  | .inward => c.cyl + 1

def Direction.reverse : Direction → Direction
  | .outward => .inward
  | .inward => .outward

/-- A crossing taken while SEEKING (R15): one step, r lowered, DEMAND updated, or the arrival. -/
def Channel.cross (c : Channel) : Channel :=
  let r := c.remaining - 1
  if 0 < r then
    { c with cyl := c.stepCyl, remaining := r, demand := demandCode c.sAcc c.sVmax r }
  else
    { c with cyl := c.stepCyl, remaining := 0, demand := 0, state := .settling, settle := c.sSettle }

/-- An overshoot (R17): one step, and the seek back of one cylinder. -/
def Channel.overshoot (c : Channel) : Channel :=
  { c with cyl := c.stepCyl, remaining := 1, direction := c.direction.reverse, state := .seeking,
           demand := demandCode c.sAcc c.sVmax 1 }

/-- The settle of a channel can complete (R16). -/
def SpindleUnit.settleReady (u : SpindleUnit) : Bool :=
  decide (u.chan.state = .settling ∧ u.chan.settle = 0) && u.lines.onTrack

/-! ## The entry in service follows the channel (R44) -/

/-- The motion of the channel is the entry's own: its own recalibration for a RECALIBRATE (R59), its own seek for
any other. -/
def SpindleUnit.ownMotion (u : SpindleUnit) (e : Entry) : Bool :=
  if e.kind = .recalibrate then decide (u.chan.purpose = .recal ∧ u.waitReq = none)
  else decide (u.chan.purpose = .normal) && !u.chan.orphan

/-- An entry that seeks is SETTLING while the channel settles on its own target, and SEEKING otherwise (R44). -/
def Lubran.syncEntry (q : Lubran) (i : Spindle) : Lubran :=
  match q.current i with
  | none => q
  | some e =>
      match e.state with
      | .seeking | .settling =>
          let state := if (q.sp i).chan.state = .settling ∧ (q.sp i).ownMotion e then
              EntryState.settling else .seeking
          q.modEntry i e.owner fun e => { e with state := state }
      | _ => q

/-- A recalibration starts on a spindle's channel (R21, R28). -/
def Lubran.startRecal (q : Lubran) (i : Spindle) : Lubran :=
  (q.modSp i fun u =>
    { u with chan := u.chan.beginRecal q.params.vmax q.params.settle u.lines.guard }).syncEntry i

/-! ## Reports -/

/-- The transfer record of a spindle is loaded with its next field. -/
def Lubran.setNext (q : Lubran) (i : Spindle) (a : Action) (f : FieldRef) : Lubran :=
  q.modXfer i fun x => { x with next := some { action := a, field := f } }

/-- SEEK DONE reaches the sequencer (R131 to R135): it loads the transfer record for its step. A step that a
reissued seek interrupted goes on with the field it had reached (R136). -/
def Lubran.seqSeekDone (q : Lubran) (i : Spindle) : Lubran :=
  let q := q.modEntry i .internal fun e => { e with state := .rotating }
  if q.seq.hdr.isSome then q.setNext i .headerWrite .header
  else
    match q.seq.step with
    | .sourceSeek =>
        { q with seq := { q.seq with step := .read } }.setNext i .read (.block q.seq.roundFirst)
    | .targetSeek =>
        { q with seq := { q.seq with step := .write } }.setNext i .write (.block q.seq.roundFirst)
    | .read | .write | .verify => q

/-- SEEK DONE is reported to the requester (R16): the map-build sequencer loads HEADER READ (R107), the
sequencer goes on with its step, a host entry becomes ROTATING (R54); the report of an orphan is dropped
(R53). -/
def Lubran.seekDone (q : Lubran) (i : Spindle) : Lubran :=
  if (q.sp i).chan.orphan then q.modChan i fun c => { c with orphan := false }
  else if (q.sp i).life = .buildingMap then q.setNext i .headerRead .header
  else
    match q.current i with
    | none => q
    | some e =>
        match e.state with
        | .seeking | .settling =>
            if e.owner = .internal then q.seqSeekDone i
            else q.modEntry i e.owner fun e => { e with state := .rotating }
        | _ => q

/-- SEEK FAILED reaches the sequencer (R135, R136): the commit stands when it was on its way to retire the old
alternate. -/
def Lubran.seqSeekFailed (q : Lubran) (i : Spindle) : Lubran :=
  if q.seq.hdr = some .retireOld then q.spareDone i else q.spareFailed i .seekFailed

/-- SEEK FAILED is reported to the requester (R20): it faults a building spindle (R8), goes to the sequencer (R60),
or ends a host entry SEEK ERROR (R54); the report of an orphan is dropped (R53). -/
def Lubran.seekFailed (q : Lubran) (i : Spindle) : Lubran :=
  if (q.sp i).chan.orphan then q.modChan i fun c => { c with orphan := false }
  else if (q.sp i).life = .buildingMap then q.faultSpindle i .seekFailed
  else
    match q.current i with
    | none => q
    | some e => if e.owner = .internal then q.seqSeekFailed i else q.decideEnding i .seekError

/-! ## Requests -/

/-- A seek starts (R14): by its case it is done at once, is a head switch, or moves. -/
def Lubran.startSeek (q : Lubran) (i : Spindle) (t : Track) (again : Bool) : Lubran :=
  let c := (q.sp i).chan
  let c' := c.beginSeek q.params t again
  let d := distance t.cyl c.cyl
  if d = 0 then
    if t.head = c.head then
      (q.modChan i fun _ => { c' with target := none, state := .onTrack }).seekDone i
    else (q.modChan i fun _ => { c' with state := .settling, settle := 1 }).syncEntry i
  else
    (q.modChan i fun _ =>
      { c' with state := .seeking, remaining := d
                direction := if c.cyl < t.cyl then .inward else .outward
                demand := demandCode c'.sAcc c'.sVmax d }).syncEntry i

/-- A seek request reaches the channel (R14). Behind a running seek it is held by the Work Queue Unit (R53). -/
def Lubran.seekRequest (q : Lubran) (i : Spindle) (t : Track) (again : Bool) : Lubran :=
  let c := (q.sp i).chan
  if c.state = .onTrack ∧ c.posKnown then q.startSeek i t again
  else if c.seekRunning then q.modSp i fun u => { u with waitReq := some (.seek t) }
  else
    let q := q.modChan i fun c => { c with held := some { track := t, again := again } }
    if c.moving then q else q.startRecal i

/-- The Work Queue Unit's seek request for the in-service entry: held while the seek of an entry that has left
is outstanding (R53). -/
def Lubran.queueSeek (q : Lubran) (i : Spindle) (t : Track) : Lubran :=
  if (q.sp i).chan.orphan then q.modSp i fun u => { u with waitReq := some (.seek t) }
  else q.seekRequest i t false

/-- A recalibration, after which the seek is requested anew as a seek started again: for an ID mismatch, an
off-track event and a header mismatch (R20). -/
def Lubran.recalAndReseek (q : Lubran) (i : Spindle) (t : Track) : Lubran :=
  (q.modChan i fun c => { c with held := some { track := t, again := true } }).startRecal i

/-- A RECALIBRATE entry asks for its recalibration, held until a motion already running ends (R59). -/
def Lubran.requestRecal (q : Lubran) (i : Spindle) : Lubran :=
  if (q.sp i).chan.moving then q.modSp i fun u => { u with waitReq := some .recal } else q.startRecal i

/-- The motion the Work Queue Unit holds back can go to the channel (R53, R59). -/
def SpindleUnit.waitReady (u : SpindleUnit) : Bool :=
  match u.waitReq with
  | some (.seek _) => !u.chan.orphan && !u.chan.seekRunning
  | some .recal => !u.chan.moving
  | none => false

/-- The motion held back goes to the channel (R53, R59). -/
def Lubran.dispatchWait (q : Lubran) (i : Spindle) : Lubran :=
  let req := (q.sp i).waitReq
  let q := q.modSp i fun u => { u with waitReq := none }
  match req with
  | some (.seek t) => q.seekRequest i t false
  | some .recal => q.startRecal i
  | none => q

/-- A seek check (R19, R20): the first keeps the seek, which starts again after the recalibration; the second
reports SEEK FAILED and drops the target. -/
def Lubran.seekCheck (q : Lubran) (i : Spindle) : Lubran :=
  let again := (q.sp i).chan.reissued
  let q := q.modChan i fun c =>
    { c with demand := 0, posKnown := false, overshoots := 0, reissued := true,
             target := if again then none else c.target }
  let q := q.startRecal i
  if again then q.seekFailed i else q

/-! ## Life cycle -/

/-- A spindle enters READY (R9): SPINDLE READY attention, and a selection event. -/
def Lubran.enterReady (q : Lubran) (i : Spindle) (cause : ReadyCause) : Lubran :=
  ((q.modSp i fun u => { u with life := .ready }).raiseMasked i (.spindleReady cause)).selectionEvent i

/-- The map-build sequencer asks for the seek to a record's track (R107). -/
def Lubran.buildSeek (q : Lubran) (i : Spindle) (n : Nat) : Lubran :=
  (q.modXfer i fun x => { x with next := none }).seekRequest i (altTrack n) false

/-- A spindle enters BUILDING_MAP (R106). -/
def Lubran.startBuild (q : Lubran) (i : Spindle) : Lubran :=
  let q := (q.dropMap i).modSp i fun u =>
    { u with life := .buildingMap, mapState := .building, xfer := XferRec.clear
             build := some { next := 0, failed := 0, mismatch := false, highest := none } }
  q.buildSeek i 0

/-- A spindle enters RECALIBRATING (R6, R26). -/
def Lubran.enterRecalibrating (q : Lubran) (i : Spindle) : Lubran :=
  (q.modSp i fun u => { u with life := .recalibrating, spinTimer := none }).startRecal i

/-- SPEED-OK is asserted on a SPINNING_UP spindle (R6): the timer stops, the missing-index count is cleared, and a
recalibration begins. -/
def Lubran.spunUp (q : Lubran) (i : Spindle) : Lubran :=
  (q.modSp i fun u => { u with missing := 0 }).enterRecalibrating i

/-- A recalibration completes (R16, R7): the life cycle goes on, a RECALIBRATE ends GOOD (R59), and a seek kept or
held behind it starts (R14, R20). -/
def Lubran.recalDone (q : Lubran) (i : Spindle) : Lubran :=
  let own : Bool := match q.current i with
    | some e => decide (e.kind = .recalibrate) && (q.sp i).ownMotion e
    | none => false
  let q := q.modChan i fun c =>
    { c with state := .onTrack, overshoots := 0, posKnown := true, purpose := .normal }
  match (q.sp i).life with
  | .recalibrating =>
      if (q.sp i).mapState = .built then q.enterReady i .returned else q.startBuild i
  | _ =>
      let q := if own then q.decideEnding i .good else q
      match (q.sp i).chan.target, (q.sp i).chan.held with
      | some t, _ => q.startSeek i t true
      | none, some h => q.startSeek i h.track h.again
      | none, none => q

/-- The settle of a channel completes (R16): the seek is done, or the recalibration. -/
def Lubran.completeSettle (q : Lubran) (i : Spindle) : Lubran :=
  match (q.sp i).chan.purpose with
  | .normal =>
      (q.modChan i fun c => { c with state := .onTrack, overshoots := 0, target := none }).seekDone i
  | .recal => q.recalDone i

/-- What a slot boundary does to the channel (R16, R18, R21): the settle count, the seek deadline and the
recalibration limit are lowered. A motion that completes at this boundary is not failed by it. -/
def Lubran.countSlot (q : Lubran) (i : Spindle) : Lubran :=
  let c := (q.sp i).chan
  if c.moving then
    let q := q.modChan i fun c =>
      { c with
        settle := if c.state = .settling then c.settle - 1 else c.settle
        deadline := if c.purpose = .normal then c.deadline - 1 else c.deadline
        recalLimit := if c.purpose = .recal then c.recalLimit - 1 else c.recalLimit }
    if (q.sp i).settleReady then q
    else
      match c.purpose with
      | .normal => if (q.sp i).chan.deadline = 0 then q.seekCheck i else q
      | .recal => if (q.sp i).chan.recalLimit = 0 then q.faultSpindle i .recalFailed else q
  else q

/-- A CROSSING taken while SEEKING (R15): a step, or past the edge a seek check; in the short seek back of a
recalibration the cylinder stays 0 and the settle starts over (R21). -/
def Lubran.crossSeeking (q : Lubran) (i : Spindle) : Lubran :=
  let c := (q.sp i).chan
  if c.atEdge then
    match c.purpose with
    | .normal => q.seekCheck i
    | .recal => (q.modChan i Channel.atZero).syncEntry i
  else (q.modChan i Channel.cross).syncEntry i

/-- A CROSSING taken while SETTLING: an overshoot (R17), the third or one past the edge a seek check; in a
recalibration it is not counted, and below cylinder 0 the settle starts over (R21). The third overshoot leaves the
physical cylinder where it was, as one past the edge does (DESIGN CHOICE, log entry 47). The short seek back in a
recalibration has the demand D(1), with the ACC an earlier motion sampled (R17, R21 over R34; DESIGN CHOICE, log entry
53). -/
def Lubran.crossSettling (q : Lubran) (i : Spindle) : Lubran :=
  let c := (q.sp i).chan
  match c.purpose with
  | .normal =>
      if 2 ≤ c.overshoots ∨ c.atEdge then q.seekCheck i
      else (q.modChan i fun c => { c.overshoot with overshoots := c.overshoots + 1 }).syncEntry i
  | .recal =>
      if c.atEdge then (q.modChan i Channel.atZero).syncEntry i
      else (q.modChan i Channel.overshoot).syncEntry i

end Sys2Proof.Machine
end

