-- ==== Sys2Proof/Machine/Build.lean ====
section
/-! DEFINITION. The map-build sequencer (section 5.5): what a header read makes of its pool record (R108 to
R111), the next record and the completion of the build (R112). -/

namespace Sys2Proof.Machine

/-- Changes the build record of a spindle. -/
def Lubran.modBuild (q : Lubran) (i : Spindle) (f : BuildRec → BuildRec) : Lubran :=
  q.modSp i fun u => { u with build := u.build.map f }

/-- The generation counter after a build (R103). -/
def builtGeneration : Option Nat → Nat
  | none => 0
  | some g => min 65535 (g + 1)

/-- The build completes (R112): the counter, BUILT, the POOL LOW test, and READY. -/
def Lubran.buildComplete (q : Lubran) (i : Spindle) (highest : Option Nat) : Lubran :=
  let q := q.modSp i fun u =>
    { u with generation := builtGeneration highest, mapState := .built, build := none, xfer := XferRec.clear }
  (q.poolLowTest i).enterReady i .built

/-- The record in hand takes its state, and the build goes on to the next record or completes (R112). -/
def Lubran.recordDone (q : Lubran) (i : Spindle) (r : PoolRec) : Lubran :=
  match (q.sp i).build with
  | none => q
  | some b =>
      let next := b.next + 1
      let q := q.modSp i fun u =>
        { u with pool := u.pool ++ [r]
                 build := some { next := next, failed := 0, mismatch := false, highest := b.highest } }
      if next < Config.alternates then q.buildSeek i next else q.buildComplete i b.highest

/-- HEADER FAILED (R108): up to eight failed attempts are read again, the ninth withdraws the record. -/
def Lubran.buildHeaderFailed (q : Lubran) (i : Spindle) : Lubran :=
  match (q.sp i).build with
  | none => q
  | some b =>
      if b.failed < Config.maxRetries then q.modBuild i fun b => { b with failed := b.failed + 1 }
      else q.recordDone i .retired

/-- An accepted IN_USE header claims a home track (R110, R111). -/
def Lubran.buildClaim (q : Lubran) (i : Spindle) (n : Nat) (home : Track) (gen : Nat) : Lubran :=
  match q.forward i home with
  | none =>
      if q.spareMap.length < Config.mapCapacity then
        { q with spareMap := insertEntry { spindle := i, home := home, alt := altTrack n } q.spareMap }.recordDone
          i (.inUse home gen)
      else q.faultSpindle i .mapFull
  | some old =>
      match (q.sp i).pool[altIndex old]? with
      | some (.inUse _ g) =>
          if g < gen then
            { q.setPool i old .retired with
                spareMap := retargetEntry i home (altTrack n) q.spareMap }.recordDone i (.inUse home gen)
          else q.recordDone i .retired
      | _ => q.recordDone i .retired

/-- The highest generation after an accepted header (R109): an INVALID header gives none. -/
def BuildRec.accept (b : BuildRec) (h : Header) : BuildRec :=
  match h.cls with
  | .invalid => b
  | _ => { b with highest := some (max h.gen (b.highest.getD 0)) }

/-- HEADER GOOD (R109): the header's own track is compared with the one asked for, and a match is accepted and
classified. -/
def Lubran.buildHeaderGood (q : Lubran) (i : Spindle) (h : Header) : Lubran :=
  match (q.sp i).build with
  | none => q
  | some b =>
      if h.own = altTrack b.next then
        let q := q.modBuild i fun b => b.accept h
        match h.cls with
        | .free => q.recordDone i .free
        | .retired | .invalid => q.recordDone i .retired
        | .inUse home gen => q.buildClaim i b.next home gen
      else if b.mismatch then q.recordDone i .retired
      else
        ((q.modBuild i fun b => { b with mismatch := true }).modXfer i fun x => { x with next := none }).recalAndReseek
          i (altTrack b.next)

end Sys2Proof.Machine
end

