-- ==== Sys2Proof/Machine/Sequencer.lean ====
section
/-! DEFINITION. The reassignment sequencer (section 6.4): SELECT (R130), the rounds of COPY (R131, R132), an
alternate failure (R133), HEADER (R134) and COMMIT (R135). How its seeks are reported stands with the
channel (`Lubran.seqSeekDone`, `Lubran.seqSeekFailed`), and its outcomes with the endings. -/

namespace Sys2Proof.Machine

/-- The size of the round that begins at a block: up to four blocks, 14 the last (R131). -/
def roundSizeFrom (first : Nat) : Nat := min 4 (Config.blocksPerTrack - first)

/-- The last block of the present round. -/
def Sequencer.roundLast (s : Sequencer) : Nat := s.roundFirst + s.roundSize - 1

/-- The REASSIGN entry seeks to a track: it is SEEKING and has no next field until SEEK DONE (R60). -/
def Lubran.seqSeek (q : Lubran) (i : Spindle) (t : Track) : Lubran :=
  ((q.modXfer i fun x => { x with next := none, cont := none }).modEntry i .internal
    fun e => { e with state := .seeking }).queueSeek i t

/-- A round of COPY begins at SOURCE SEEK, with its need set and its blocks bound in ascending order (R131). -/
def Lubran.startRound (q : Lubran) (i : Spindle) (first : Nat) : Lubran :=
  match q.seq.source with
  | none => q
  | some source =>
      let size := roundSizeFrom first
      let q := { q with seq := { q.seq with
        state := .copy, roundFirst := first, roundSize := size, step := .sourceSeek, need := size } }
      ((q.modXfer i fun x => { x with bind := first }).joinIfShort .internal).seqSeek i source

/-- Steps 3 and 4 of SELECT (R130): map space for a first failure, then the allocation; COPY begins at block 0. -/
def Lubran.selectAlternate (q : Lubran) (i : Spindle) : Lubran :=
  match q.seq.home with
  | none => q
  | some home =>
      if q.seq.oldAlt = none ∧ Config.mapCapacity ≤ q.spareMap.length then q.spareFailed i .mapFull
      else
        match q.allocate i home.cyl with
        | none => q.spareFailed i .poolExhausted
        | some alt =>
            { q with seq := { q.seq with
                newAlt := some alt, lastAlt := some alt, tried := q.seq.tried + 1
                copied := 0, lostCount := 0 } }.startRound i 0

/-- SELECT at the service start of the REASSIGN entry (R130): the source, the generation, and steps 3 and 4. -/
def Lubran.startReassign (q : Lubran) (i : Spindle) : Lubran :=
  match q.seq.home with
  | none => q
  | some home =>
      let alt := q.forward i home
      let q := { q with seq := { q.seq with source := some (alt.getD home), oldAlt := alt } }
      if (q.sp i).generation = 65535 then q.spareFailed i .generationLimit else q.selectAlternate i

/-- An alternate failure (R133): the round ends, its slots become FREE, the new alternate is retired, and its
ALT_RETIRED header is to be written at its next header window, after a seek that is still under way. -/
def Lubran.alternateFailure (q : Lubran) (i : Spindle) : Lubran :=
  match q.seq.newAlt with
  | none => q
  | some alt =>
      let q := { q with seq := { q.seq with need := 0, hdr := some .retireFailed } }
      let q := ((q.leaveWaiting .internal).freeSlotsOf .internal).modXfer i
        fun x => { x with next := none, cont := none }
      let q := q.retire i alt
      match (q.sp i).internal with
      | some e =>
          match e.state with
          | .rotating | .transferring => q.setNext i .headerWrite .header
          | _ => q
      | none => q

/-- The contents of the header the sequencer writes (R105, R133 to R135): ALT_IN_USE with the generation handed
out, or ALT_RETIRED with the counter's present value. -/
def Lubran.seqHeaderBytes (q : Lubran) (i : Spindle) : List Byte :=
  let s := q.seq
  let own (t : Option Track) := t.getD { cyl := 0, head := 0 }
  match s.hdr with
  | some .claim => headerBytes 2 (own s.newAlt) s.home (s.generation.getD 0)
  | some .retireOld => headerBytes 3 (own s.oldAlt) none (q.sp i).generation
  | _ => headerBytes 3 (own s.newAlt) none (q.sp i).generation

/-- HEADER (R134): a generation is asked for, and the ALT_IN_USE header is to be written. -/
def Lubran.enterHeader (q : Lubran) (i : Spindle) : Lubran :=
  let q := { q with seq := { q.seq with state := .header } }
  match q.takeGeneration i with
  | none => q.spareFailed i .generationLimit
  | some (g, q) =>
      { q with seq := { q.seq with generation := some g, hdr := some .claim } }.setNext i .headerWrite .header

/-- COMMIT (R135): the commit request, and by its answer the outcome or the header write that follows. -/
def Lubran.enterCommit (q : Lubran) (i : Spindle) : Lubran :=
  match q.seq.home, q.seq.newAlt, q.seq.generation with
  | some home, some alt, some gen =>
      let q := { q with seq := { q.seq with state := .commit } }
      match q.commit i home alt gen with
      | (q, .committed) => (q.forgetTrack i home).spareDone i
      | (q, .retargeted old) =>
          let q := (q.forgetTrack i home).forgetTrack i old
          { q with seq := { q.seq with hdr := some .retireOld } }.seqSeek i old
      | (q, .mapFull) =>
          { q with seq := { q.seq with hdr := some .retireRefused } }.setNext i .headerWrite .header
  | _, _, _ => q

/-- SELECT runs again after a failed alternate with fewer than three tried (R133, step 4). -/
def Lubran.reselect (q : Lubran) (i : Spindle) : Lubran :=
  { q with seq := { q.seq with
      state := .select, newAlt := none, copied := 0, lostCount := 0, generation := none
      hdr := none } }.selectAlternate i

/-- The outcome of a header write reaches the sequencer (R133 to R135). -/
def Lubran.seqHeaderDone (q : Lubran) (i : Spindle) (good : Bool) : Lubran :=
  match q.seq.hdr with
  | none => q
  | some .claim => if good then q.enterCommit i else q.alternateFailure i
  | some .retireFailed =>
      if Config.maxAlternatesTried ≤ q.seq.tried then q.spareFailed i .alternatesFailed else q.reselect i
  | some .retireOld => q.spareDone i
  | some .retireRefused => q.spareFailed i .mapFull

/-- A block of the read step is FULL, with its own data or carried LOST (R131). -/
def Lubran.seqReadDone (q : Lubran) (i : Spindle) (b : Nat) : Lubran :=
  if b = q.seq.roundLast then
    match q.seq.newAlt with
    | none => q
    | some alt => { q with seq := { q.seq with need := 0, step := .targetSeek } }.seqSeek i alt
  else q.setNext i .read (.block (b + 1))

/-- A block of the write step has been written whole (R132). -/
def Lubran.seqWriteDone (q : Lubran) (i : Spindle) (b : Nat) : Lubran :=
  if b = q.seq.roundLast then
    { q with seq := { q.seq with step := .verify } }.setNext i .reread (.block q.seq.roundFirst)
  else q.setNext i .write (.block (b + 1))

/-- A block of the verify step has passed, and its slot is FREE (R132): the next block, the next round, or
HEADER when all fifteen are copied. -/
def Lubran.seqVerifyDone (q : Lubran) (i : Spindle) (b : Nat) : Lubran :=
  let q := { q with seq := { q.seq with copied := q.seq.copied + 1 } }
  if b = q.seq.roundLast then
    if b + 1 < Config.blocksPerTrack then q.startRound i (b + 1) else q.enterHeader i
  else q.setNext i .reread (.block (b + 1))

/-- The track the sequencer has the heads on, or is seeking to, in its present step (R20, R79, R136). -/
def Sequencer.track (s : Sequencer) : Option Track :=
  match s.hdr with
  | some .retireOld => s.oldAlt
  | some _ => s.newAlt
  | none =>
      match s.step with
      | .sourceSeek | .read => s.source
      | .targetSeek | .write | .verify => s.newAlt

end Sys2Proof.Machine
end

