-- ==== Sys2Proof/Machine/DataPath.lean ====
section
/-! DEFINITION. The Data Path (chapter 4): windows and their misses (R70, R73), the start of a field (R70), the
last block of an entry that has left (R64, R89), the block ID (R79, R86), the end of a block field (R72, R80, R82, R86,
R87, R91, R93), a field cut short (R83), an off-track event (R22), a FAULT (R88) and the end of a header field (R92). -/

namespace Sys2Proof.Machine

/-! ## Windows -/

/-- The state of the path while it carries a field of an action (R68). -/
def pathStateFor : Action → PathState
  | .read | .compareRead => .reading
  | .verify | .reread => .verifying
  | .write => .writing
  | .headerRead | .headerWrite => .header

/-- Where the FULL slot of a write or reread was filled from: the disk for a copy, the host for any other. -/
def writeSource (k : EntryKind) : SlotSource := if k = .reassign then .disk else .host

/-- The last block an entry has to transfer, or that the present round has. -/
def Lubran.lastBlock (q : Lubran) (e : Entry) : Nat :=
  match e.owner with
  | .internal => q.seq.roundLast
  | .host _ _ => e.first + e.count - 1

/-- The field that follows a field of an entry without a break, when the field ends well (R72). -/
def Lubran.follower (q : Lubran) (e : Entry) (nx : NextField) : Option NextField :=
  match nx.field with
  | .header => none
  | .block b =>
      if b < q.lastBlock e then
        match nx.action with
        | .read => some { action := .read, field := .block (b + 1) }
        | .verify => some { action := .verify, field := .block (b + 1) }
        | .write =>
            if e.writeVerify then none else some { action := .write, field := .block (b + 1) }
        | .reread =>
            let a : Action := if e.kind = .reassign then .reread else .write
            some { action := a, field := .block (b + 1) }
        | _ => none
      else none

/-- The staging condition of a window (R70). -/
def Lubran.staged (q : Lubran) (e : Entry) (nx : NextField) : Bool :=
  match nx.field with
  | .header => true
  | .block b =>
      match nx.action with
      | .read | .verify | .compareRead =>
          (q.slotFor e.owner b .disk).any fun i => decide ((q.slot i).state = .reserved)
      | .write | .reread =>
          (q.slotFor e.owner b (writeSource e.kind)).any fun i => decide ((q.slot i).state = .full)
      | .headerRead | .headerWrite => true

/-- A window that opens on a spindle: for the next field of an entry that waits, for the field that follows the
one an entry is transferring, or for the header of a map build. -/
inductive Window where
  | waiting (e : Entry) (nx : NextField)
  | continuing (e : Entry) (nx : NextField)
  | build (nx : NextField)
  deriving DecidableEq, Repr

/-- The window that opens at a slot boundary, if one does (R70, R92). -/
def Lubran.windowAt (q : Lubran) (i : Spindle) : Option Window :=
  let u := q.sp i
  let due (nx : NextField) : Bool := decide (leadSlot nx.field = u.slot)
  match u.life, u.xfer.next with
  | .buildingMap, some nx => if due nx then some (.build nx) else none
  | _, some nx =>
      match u.current with
      | none => none
      | some e =>
          match e.state with
          | .rotating => if due nx then some (.waiting e nx) else none
          | .transferring =>
              if e.abandoned = false ∧ q.carrying i e.owner ∧ q.path.field = some nx.field then
                match q.follower e nx with
                | some fx => if due fx then some (.continuing e fx) else none
                | none => none
              else none
          | _ => none
  | _, none => none

/-- A window is missed (R73): the lost-revolution count rises, 64 at most, and a host entry past LOST_REV_LIMIT
ends OVERRUN. -/
def Lubran.missed (q : Lubran) (i : Spindle) (e : Entry) : Lubran :=
  let lost := min 64 (e.lost + 1)
  let q := q.modEntry i e.owner fun e => { e with lost := lost }
  if e.owner ≠ .internal ∧ q.params.lostRevLimit < lost then q.decideEnding i .overrun else q

/-- The path is granted (R70): its state changes when the field begins. -/
def Lubran.grantPath (q : Lubran) (i : Spindle) (h : Holder) (f : FieldRef) : Lubran :=
  { q with path :=
      { state := .idle, holder := some h, spindle := some i, field := some f, id := none, faulted := false } }

/-- The window of a slot boundary is taken (R70, R71, R73). -/
def Lubran.takeWindow (q : Lubran) (i : Spindle) : Lubran :=
  match q.windowAt i with
  | none => q
  | some (.build nx) => if q.path.holder = none then q.grantPath i .build nx.field else q
  | some (.waiting e nx) =>
      if q.path.holder = none ∧ q.staged e nx then
        (q.grantPath i (.entry e.owner) nx.field).modEntry i e.owner fun e => { e with state := .transferring }
      else q.missed i e
  | some (.continuing e nx) =>
      if q.staged e nx then q.modXfer i fun x => { x with cont := some nx.field } else q.missed i e

/-- The gates at the start of a field (R70, R92): READ GATE, or WRITE GATE for a header write. -/
def SpindleUnit.openGate (u : SpindleUnit) (a : Action) : SpindleUnit :=
  if a = .headerWrite then { u with writeGate := true } else { u with readGate := true }

/-- The in-service entry of a spindle, when it was abandoned while it was TRANSFERRING (R64). -/
def Lubran.abandonedEntry (q : Lubran) (i : Spindle) : Option Entry := (q.current i).filter Entry.abandoned

/-- A granted field begins at the end of its lead slot (R70). An entry that was abandoned in that slot leaves at this
block boundary, before its field has begun (R64, R156; DEDUCED, log entry 13). -/
def Lubran.beginField (q : Lubran) (i : Spindle) : Lubran :=
  match q.path.spindle, q.path.field, (q.sp i).xfer.next with
  | some j, some f, some nx =>
      if j = i ∧ q.path.state = .idle ∧ (q.sp i).slot = firstSlot f then
        match q.abandonedEntry i with
        | some e => q.leaveAbandoned i e
        | none =>
            { q.modSp i fun u => u.openGate nx.action with
                path := { q.path with state := pathStateFor nx.action } }
      else q
  | _, _, _ => q

/-! ## What a field's end leaves to do for its entry -/

/-- The entry whose field has just ended goes on (R64, R72, R89): an abandoned one leaves, one whose ending is
decided concludes, and any other goes on with `more`. -/
def Lubran.afterField (q : Lubran) (i : Spindle) (e : Entry) (more : Lubran → Lubran) : Lubran :=
  if e.abandoned then q.leaveAbandoned i e
  else if e.decided.isSome then q.conclude i
  else more q

/-- The path is released from an entry, which returns to ROTATING (R72). -/
def Lubran.releaseEntry (q : Lubran) (i : Spindle) (o : Owner) : Lubran :=
  (q.releasePath.modXfer i fun x => { x with cont := none }).modEntry i o
    fun e => if e.state = .transferring then { e with state := .rotating } else e

/-- The path after a field's end (R72): a field that ended well goes on into its continuing grant, with READ GATE
asserted; in every other case the path is released. -/
def Lubran.pathAfter (q : Lubran) (i : Spindle) (e : Entry) (ok : Bool) (fx : Option NextField) : Lubran :=
  match (q.sp i).xfer.cont, fx with
  | some f, some nx =>
      if ok ∧ e.decided = none ∧ e.abandoned = false then
        { q.modSp i fun u =>
            { u with readGate := true, writeGate := false, xfer := { u.xfer with cont := none } } with
            path := { q.path with state := pathStateFor nx.action, field := some f, id := none } }
      else q.releaseEntry i e.owner
  | _, _ => q.releaseEntry i e.owner

/-- The next field of an entry becomes `nx`, or none. -/
def Lubran.loadNext (q : Lubran) (i : Spindle) (nx : Option NextField) : Lubran :=
  q.modXfer i fun x => { x with next := nx }

/-- Sets the retry count of an entry. -/
def Lubran.setRetries (q : Lubran) (i : Spindle) (o : Owner) (n : Nat) : Lubran :=
  q.modEntry i o fun e => { e with retries := n }

/-- One more block of an entry is done. -/
def Lubran.blockDone (q : Lubran) (i : Spindle) (o : Owner) : Lubran :=
  q.modEntry i o fun e => { e with blocksDone := e.blocksDone + 1 }

/-- Reports the track of an entry to Error Watch (R119). -/
def Lubran.reportEntry (q : Lubran) (i : Spindle) (e : Entry) (k : ReportKind) : Lubran :=
  match e.track with
  | some t => q.report i t k
  | none => q

/-- A block of a host entry passed after `e.retries` failed attempts (R80, R87): SOFT when there were any, and the
retry count returns to 0. -/
def Lubran.passed (q : Lubran) (i : Spindle) (e : Entry) : Lubran :=
  let q := if 0 < e.retries then q.reportEntry i e .soft else q
  q.setRetries i e.owner 0

/-- Changes the slot of an entry that is bound to a block. -/
def Lubran.modBlockSlot (q : Lubran) (o : Owner) (b : Nat) (src : SlotSource) (f : StagingSlot → StagingSlot) :
    Lubran :=
  match q.slotFor o b src with
  | some i => q.modSlot i f
  | none => q

/-- Frees the slot of an entry that is bound to a block (R74). -/
def Lubran.freeBlockSlot (q : Lubran) (o : Owner) (b : Nat) (src : SlotSource) : Lubran :=
  match q.slotFor o b src with
  | some i => q.freeSlot i
  | none => q

/-- A FILLING slot returns to RESERVED (R79, R83). -/
def StagingSlot.refill (s : StagingSlot) : StagingSlot := if s.state = .filling then { s with state := .reserved } else s

/-- The bytes of the slot of an entry that is bound to a block. -/
def Lubran.slotBytes (q : Lubran) (o : Owner) (b : Nat) (src : SlotSource) : List Byte :=
  match q.slotFor o b src with
  | some i => (q.slot i).bytes
  | none => []

/-- The LOST mark of the slot of an entry that is bound to a block. -/
def Lubran.slotLost (q : Lubran) (o : Owner) (b : Nat) (src : SlotSource) : Bool :=
  match q.slotFor o b src with
  | some i => (q.slot i).lost
  | none => false

/-- The failed attempts an entry's block may have before the next one ends it (R80, R87). -/
def Entry.retryLimit (e : Entry) : Nat :=
  if e.kind = .write ∧ e.writeVerify then Config.maxVerifyRetries else Config.maxRetries

/-- A host entry's block that has failed past its limit (R80, R87): a HARD report, and DATA CHECK. -/
def Lubran.hardError (q : Lubran) (i : Spindle) (e : Entry) : Lubran :=
  (q.reportEntry i e .hard).decideEnding i .dataCheck

/-! ## The last block of an entry that has left (R64, R89) -/

/-- An ENDING entry leaves at once although its block still passes the heads (R64): the path carries that block on to
its end, with what it needs of the entry (R68, R89; DEDUCED, log entry 22). -/
def Lubran.depart (q : Lubran) (i : Spindle) (e : Entry) : Lubran :=
  match (q.sp i).xfer.next, q.path.field with
  | some nx, some (.block b) =>
      let d : Departed :=
        { entry := e, action := nx.action, bytes := q.slotBytes e.owner b (writeSource e.kind) }
      { q with path := { q.path with holder := some (.departed d) } }.leaveQueue i e.owner
  | _, _ => q.leaveQueue i e.owner

/-- The block the path carries for an entry that has left: its spindle, what is kept of the entry, and its number. -/
def Lubran.departedBlock (q : Lubran) : Option (Spindle × Departed × Nat) :=
  match q.path.state, q.path.spindle, q.path.holder, q.path.field with
  | .idle, _, _, _ => none
  | _, some i, some (.departed d), some (.block b) => some (i, d, b)
  | _, _, _, _ => none

/-- The last block of an entry that has left is over: its outcome is reported as any other (R64, R80, R87, R119), and
the path is released. -/
def Lubran.departedDone (q : Lubran) (i : Spindle) (d : Departed) (passed : Bool) : Lubran :=
  let e := d.entry
  let q :=
    if passed then (if 0 < e.retries ∧ d.action ≠ .write then q.reportEntry i e .soft else q)
    else if e.retries < e.retryLimit then q else q.reportEntry i e .hard
  q.releasePath

/-- The block ID of a block whose entry has left (R79, R86): a wrong one, or a LOST one that is read, ends the block
without a report; a write asserts WRITE GATE. -/
def Lubran.departedId (q : Lubran) (i : Spindle) (d : Departed) (b : Nat) (id : BlockId) : Lubran :=
  let named := (d.entry.track.map fun t => idNames id t b).getD false
  let q' := { q with path := { q.path with id := some id } }
  match d.action with
  | .read | .verify | .compareRead => if named && !idLost id then q' else q.releasePath
  | .write => if named then q'.modSp i fun u => { u with writeGate := true } else q.releasePath
  | .reread | .headerRead | .headerWrite => if named then q' else q.releasePath

/-- A block as it is put on WRITE DATA: its ID, its bytes and a new check (section 5.4). -/
def diskBlock (i : Spindle) (t : Track) (b : Nat) (id : BlockId) (bytes : List Byte) : DiskWrite :=
  { spindle := i, track := t, field := .block b, whole := true, bytes := blockBytes id bytes }

/-- The end of the block of an entry that has left (R64, R86, R87): a block being written is written whole, and one
being read is discarded. -/
def Lubran.departedEnd (q : Lubran) (i : Spindle) (d : Departed) (b : Nat) (id : BlockId) (bytes : List Byte)
    (check : Word32) : Lubran :=
  let good := decide (crc32 (idBytes id ++ bytes) = check)
  match d.action with
  | .write =>
      let t := d.entry.track.getD { cyl := 0, head := 0 }
      { q with writeOut := some (diskBlock i t b { id with flags := 0 } d.bytes) }.departedDone i d true
  | .reread => q.departedDone i d (good && decide (bytes = d.bytes))
  | _ => q.departedDone i d good

/-! ## The block ID (R79, R86) -/

/-- The track whose block IDs an entry expects (R79). -/
def Lubran.expectedTrack (q : Lubran) (e : Entry) : Option Track :=
  match e.owner with
  | .internal => q.seq.track
  | .host _ _ => e.track

/-- A second mismatch (R79, R136): on a home cylinder the entry ends SEEK ERROR; on a spare cylinder it ends SPARE
MISMATCH and leaves, and then the spindle is faulted. -/
def Lubran.secondMismatch (q : Lubran) (i : Spindle) (e : Entry) (t : Track) : Lubran :=
  if isHomeCyl t.cyl then
    match e.owner with
    | .internal => q.spareFailed i .seekFailed
    | .host _ _ => q.decideEnding i .seekError
  else
    let q := match e.owner with
      | .internal => q.spareFailed i .spareMismatch
      | .host _ _ => q.decideEnding i .spareMismatch
    q.faultSpindle i .spareMismatch

/-- A block ID that does not name the expected block (R79). A block of the copy verify fails its alternate
(R136). -/
def Lubran.idMismatch (q : Lubran) (i : Spindle) (e : Entry) (nx : NextField) (t : Track) : Lubran :=
  let q := q.releaseEntry i e.owner
  q.afterField i e fun q =>
    if e.owner = .internal ∧ nx.action = .reread then q.alternateFailure i
    else if (q.sp i).xfer.mismatch then q.secondMismatch i e t
    else
      ((q.modXfer i fun x => { x with mismatch := true }).modEntry i e.owner
        fun e => { e with state := .seeking }).recalAndReseek i t

/-- A block ID that names the expected block (R79, R86, R93, R132). -/
def Lubran.idMatch (q : Lubran) (i : Spindle) (e : Entry) (nx : NextField) (b : Nat) (id : BlockId) : Lubran :=
  let q := { q with path := { q.path with id := some id } }
  match nx.action with
  | .read | .verify | .compareRead =>
      if e.owner = .internal then
        q.modBlockSlot e.owner b .disk fun s => { s with state := .filling, lost := idLost id }
      else if idLost id then
        (q.releaseEntry i e.owner).afterField i e fun q => q.decideEnding i .dataLost
      else q.modBlockSlot e.owner b .disk fun s => { s with state := .filling }
  | .write => q.modSp i fun u => { u with writeGate := true }
  | .reread =>
      if e.owner = .internal ∧ idLost id ≠ q.slotLost e.owner b .disk then
        (q.releaseEntry i e.owner).alternateFailure i
      else q
  | .headerRead | .headerWrite => q

/-- The block the path carries: its spindle, entry, next field and number. -/
def Lubran.pathBlock (q : Lubran) : Option (Spindle × Entry × NextField × Nat) :=
  match q.path.state, q.path.spindle, q.path.holder, q.path.field with
  | .idle, _, _, _ => none
  | _, some i, some (.entry o), some (.block b) =>
      match (q.sp i).findEntry o, (q.sp i).xfer.next with
      | some e, some nx => if nx.field = .block b then some (i, e, nx, b) else none
      | _, _ => none
  | _, _, _, _ => none

/-- The block ID at the start of the block being carried is taken (R79). It is taken once for each block. -/
def Lubran.takeId (q : Lubran) (id : BlockId) : Lubran :=
  if q.path.id.isSome then q
  else
    match q.departedBlock, q.pathBlock with
    | some (i, d, b), _ => q.departedId i d b id
    | none, none => q
    | none, some (i, e, nx, b) =>
        match q.expectedTrack e with
        | none => q
        | some t => if idNames id t b then q.idMatch i e nx b id else q.idMismatch i e nx t

/-! ## The end of a block field -/

/-- A failed read of a host entry (R80): the slot returns to RESERVED and the block is tried again, or the ninth
failure makes it a hard error. -/
def Lubran.readFailed (q : Lubran) (i : Spindle) (e : Entry) (b : Nat) : Lubran :=
  if e.retries < Config.maxRetries then
    (((q.modBlockSlot e.owner b .disk fun s => { s with state := .reserved }).setRetries i e.owner
      (e.retries + 1)).releaseEntry i e.owner).afterField i e id
  else
    let q := ((q.freeBlockSlot e.owner b .disk).releaseEntry i e.owner).loadNext i none
    if e.decided.isSome ∨ e.abandoned then (q.reportEntry i e .hard).afterField i e id
    else q.hardError i e

/-- A block of a READ passes its check (R80, R81). -/
def Lubran.readPassed (q : Lubran) (i : Spindle) (e : Entry) (b : Nat) (fx : Option NextField) : Lubran :=
  let next : Option NextField :=
    if b < q.lastBlock e then some { action := .read, field := .block (b + 1) } else none
  let q := (q.modBlockSlot e.owner b .disk fun s => { s with state := .full }).passed i e
  let q := match e.owner with
    | .host p t => q.offer p t
    | .internal => q
  ((q.pathAfter i e true fx).loadNext i next).afterField i e fun q =>
    if next = none then q.decideEnding i .good else q

/-- A block of a VERIFY passes its check (R82). -/
def Lubran.verifyPassed (q : Lubran) (i : Spindle) (e : Entry) (b : Nat) (fx : Option NextField) : Lubran :=
  let next : Option NextField :=
    if b < q.lastBlock e then some { action := .verify, field := .block (b + 1) } else none
  let q := (((q.passed i e).blockDone i e.owner).freeBlockSlot e.owner b .disk).pathAfter i e true fx
  (q.loadNext i next).afterField i e fun q => if next = none then q.decideEnding i .good else q

/-- The compare of a GUARDED WRITE (R91). -/
def Lubran.comparePassed (q : Lubran) (i : Spindle) (e : Entry) (b : Nat) : Lubran :=
  let found := ((q.slotBytes e.owner b .disk).drop e.cmpOffset).take e.cmpBytes.length
  let q := (q.passed i e).modEntry i e.owner fun e => { e with compared := true }
  let q := (q.freeBlockSlot e.owner b .disk).releaseEntry i e.owner
  let q := q.loadNext i (some { action := .write, field := .block b })
  q.afterField i e fun q =>
    if found = e.cmpBytes then q
    else q.decideEnding i .conditionNotMet (byteOf e.cmpBytes.length :: found)

/-- A host block is written whole (R86): with write-verify it is reread next; otherwise it is done. -/
def Lubran.hostWritten (q : Lubran) (i : Spindle) (e : Entry) (b : Nat) (fx : Option NextField) : Lubran :=
  if e.kind = .write ∧ e.writeVerify then
    let reread : NextField := { action := .reread, field := .block b }
    ((q.releaseEntry i e.owner).loadNext i (some reread)).afterField i e id
  else
    let next : Option NextField :=
      if b < q.lastBlock e then some { action := .write, field := .block (b + 1) } else none
    let q := ((q.blockDone i e.owner).setRetries i e.owner 0).freeBlockSlot e.owner b .host
    ((q.pathAfter i e true fx).loadNext i next).afterField i e fun q =>
      if next = none then q.decideEnding i .good else q

/-- A reread of a host block passes (R87). -/
def Lubran.rereadPassed (q : Lubran) (i : Spindle) (e : Entry) (b : Nat) (fx : Option NextField) : Lubran :=
  let next : Option NextField :=
    if b < q.lastBlock e then some { action := .write, field := .block (b + 1) } else none
  let q := ((q.passed i e).blockDone i e.owner).freeBlockSlot e.owner b .host
  ((q.pathAfter i e true fx).loadNext i next).afterField i e fun q =>
    if next = none then q.decideEnding i .good else q

/-- A reread of a host block fails (R87): the block is rewritten, or the third failure is a hard error. -/
def Lubran.rereadFailed (q : Lubran) (i : Spindle) (e : Entry) (b : Nat) : Lubran :=
  let rewrite : NextField := { action := .write, field := .block b }
  let q := ((q.setRetries i e.owner (e.retries + 1)).releaseEntry i e.owner).loadNext i (some rewrite)
  if e.retries < Config.maxVerifyRetries then q.afterField i e id
  else if e.decided.isSome ∨ e.abandoned then (q.reportEntry i e .hard).afterField i e id
  else q.hardError i { e with retries := e.retries + 1 }

/-- A block of the copy read ends (R93, R131): with its own data, to be tried again, or carried LOST. A block whose ID
carries LOST is carried LOST at once, though its check fails too (DESIGN CHOICE, log entry 40). -/
def Lubran.copyReadEnd (q : Lubran) (i : Spindle) (e : Entry) (b : Nat) (good : Bool) (fx : Option NextField) :
    Lubran :=
  let lost := q.slotLost e.owner b .disk
  if good ∨ lost ∨ Config.maxRetries ≤ e.retries then
    let carried := lost || !good
    let q := (q.modBlockSlot e.owner b .disk fun s => { s with state := .full, lost := carried }).setRetries i
      e.owner 0
    let q := if carried then { q with seq := { q.seq with lostCount := q.seq.lostCount + 1 } } else q
    (q.pathAfter i e true fx).seqReadDone i b
  else
    ((q.modBlockSlot e.owner b .disk fun s => { s with state := .reserved, lost := false }).setRetries i e.owner
      (e.retries + 1)).releaseEntry i e.owner

/-- What a block field put on WRITE DATA (R86, R93): the ID on the disk with LOST clear, or for a copy the
alternate's own ID with LOST as carried; then the slot's bytes and a new check. -/
def Lubran.writtenBlock (q : Lubran) (i : Spindle) (e : Entry) (b : Nat) (id : BlockId) (t : Track) : DiskWrite :=
  let src := writeSource e.kind
  let out := if e.kind = .reassign then blockIdOf t b (q.slotLost e.owner b src) else { id with flags := 0 }
  diskBlock i t b out (q.slotBytes e.owner b src)

/-- The end of the block field that the path carries for an entry (R72). `bytes` and `check` are what READ DATA
brought; a written block takes neither. -/
def Lubran.endBlock (q : Lubran) (bytes : List Byte) (check : Word32) : Lubran :=
  match q.pathBlock, q.path.id with
  | some (i, e, nx, b), some id =>
      let good := decide (crc32 (idBytes id ++ bytes) = check)
      let fx := q.follower e nx
      match nx.action with
      | .read | .verify | .compareRead =>
          let q := q.modBlockSlot e.owner b .disk fun s => { s with bytes := bytes }
          if e.owner = .internal then q.copyReadEnd i e b good fx
          else if good then
            match nx.action with
            | .verify => q.verifyPassed i e b fx
            | .compareRead => q.comparePassed i e b
            | _ => q.readPassed i e b fx
          else q.readFailed i e b
      | .write =>
          let t := (q.expectedTrack e).getD { cyl := 0, head := 0 }
          let q := { q with writeOut := some (q.writtenBlock i e b id t) }
          if e.owner = .internal then (q.pathAfter i e true fx).seqWriteDone i b else q.hostWritten i e b fx
      | .reread =>
          let src := writeSource e.kind
          let same := good && decide (bytes = q.slotBytes e.owner b src)
          if e.owner = .internal then
            if same then ((q.freeBlockSlot e.owner b src).pathAfter i e true fx).seqVerifyDone i b
            else (q.releaseEntry i e.owner).alternateFailure i
          else if same then q.rereadPassed i e b fx
          else q.rereadFailed i e b
      | .headerRead | .headerWrite => q
  | _, _ => q

/-- The end of the block field being carried (R72). -/
def Lubran.endField (q : Lubran) (bytes : List Byte) (check : Word32) : Lubran :=
  match q.departedBlock, q.path.id with
  | some (i, d, b), some id => q.departedEnd i d b id bytes check
  | some _, none => q
  | none, _ => q.endBlock bytes check

/-! ## A field cut short (R83) -/

/-- A block of a host entry is cut while the path carries it (R83): it fails, and past its limit it is a hard
error. A cut REREAD stays the next field, as R83 says, where R87 returns a failed reread to WRITE (DESIGN CHOICE, log
entry 41); the ninth cut write of a GUARDED WRITE ends DATA CHECK with a partial block (R83, R87 over R155, log
entry 42); and a written block is reported whatever its ID carries (R87, R88 over R79, R119, log entry 43). -/
def Lubran.hostCut (q : Lubran) (i : Spindle) (e : Entry) (nx : NextField) (b : Nat) : Lubran :=
  let q := q.modBlockSlot e.owner b .disk StagingSlot.refill
  if e.retries < e.retryLimit then (q.setRetries i e.owner (e.retries + 1)).afterField i e id
  else
    let n := if nx.action = .write ∨ nx.action = .reread then e.retries + 1 else e.retries
    let q := q.setRetries i e.owner (min 8 n)
    let q := match nx.action with
      | .write | .reread => q
      | _ => q.freeBlockSlot e.owner b .disk
    if e.decided.isSome ∨ e.abandoned then (q.reportEntry i e .hard).afterField i e id
    else q.hardError i e

/-- A block of the REASSIGN entry is cut (R83, R93): a copy read is a failed attempt, a write or a verify an
alternate failure. What the slot of a block carried LOST holds when its ninth attempt was cut is a free value
(`Config.cutBytes`, log entry 44). -/
def Lubran.copyCut (q : Lubran) (i : Spindle) (e : Entry) (nx : NextField) (b : Nat) : Lubran :=
  match nx.action with
  | .read =>
      if e.retries < Config.maxRetries then
        (q.modBlockSlot e.owner b .disk fun s => { s.refill with lost := false }).setRetries i e.owner (e.retries + 1)
      else
        let left (s : StagingSlot) : List Byte := (Config.cutBytes s.bytes i.val b (q.sp i).revs).toList
        let q := (q.modBlockSlot e.owner b .disk fun s =>
          { s with state := .full, lost := true, bytes := left s }).setRetries i e.owner 0
        { q with seq := { q.seq with lostCount := q.seq.lostCount + 1 } }.seqReadDone i b
  | _ => q.alternateFailure i

/-- The field the path carries for an entry is cut short (R83). -/
def Lubran.cutEntry (q : Lubran) (i : Spindle) (o : Owner) : Lubran :=
  match (q.sp i).findEntry o, (q.sp i).xfer.next with
  | some e, some nx =>
      let begun := q.pathBegun
      let q := q.noteCutWrite.releaseEntry i o
      if begun = false then q.afterField i e id
      else
        match nx.field with
        | .header => q.seqHeaderDone i false
        | .block b => if o = .internal then q.copyCut i e nx b else q.hostCut i e nx b
  | _, _ => q.noteCutWrite.releasePath

/-- A field carried on a spindle is cut short (R83). A grant whose field has not begun is withdrawn; an entry abandoned
in that slot then leaves (R64). -/
def Lubran.cutField (q : Lubran) (i : Spindle) : Lubran :=
  if q.path.spindle = some i then
    match q.path.holder with
    | none => q
    | some .build => if q.pathBegun then q.releasePath.buildHeaderFailed i else q.releasePath
    | some (.entry o) => q.cutEntry i o
    | some (.departed d) => q.noteCutWrite.departedDone i d false
  else q

/-! ## Off-track events (R22) -/

/-- The track whose completed seek an off-track event takes away: of a map build that waits for its header, or of
an entry that is on its track with work left (R22). -/
def Lubran.keptTrack (q : Lubran) (i : Spindle) : Option Track :=
  match (q.sp i).life, (q.sp i).build, (q.sp i).xfer.next with
  | .buildingMap, some b, some _ => some (altTrack b.next)
  | .buildingMap, _, _ => none
  | _, _, _ =>
      match q.current i with
      | none => none
      | some e =>
          match e.state with
          | .rotating | .transferring => q.expectedTrack e
          | _ => none

/-- The requester of a seek that is started again waits for the new SEEK DONE (R22). -/
def Lubran.backToSeek (q : Lubran) (i : Spindle) : Lubran :=
  match (q.sp i).life with
  | .buildingMap => q.loadNext i none
  | _ =>
      match q.current i with
      | some e => q.modEntry i e.owner fun e => { e with state := .seeking }
      | none => q

/-- An off-track event (R22): the position is lost, the field in transfer is cut, the channel recalibrates, and a
completed seek starts again once. The cut is taken first, so that an attempt that passes its limit by it decides the
outcome before the kept seek does: DATA CHECK for a block (R83), a RETIRED record for a header of a map build, whose
next seek is a new one (R108) (DESIGN CHOICE, log entry 45). A GUARDED WRITE whose reissued flag is set already ends SEEK
ERROR, also after an equal compare and with the partial block of a cut write (R22, R54, R83 over R155, log entry 42). -/
def Lubran.offTrack (q : Lubran) (i : Spindle) : Lubran :=
  let q := (q.modChan i fun c => { c with posKnown := false, demand := 0 }).cutField i
  match q.keptTrack i with
  | none => if (q.sp i).chan.moving then q else q.startRecal i
  | some t =>
      if (q.sp i).chan.reissued then (q.startRecal i).seekFailed i
      else ((q.modChan i fun c => { c with reissued := true }).backToSeek i).recalAndReseek i t

/-! ## FAULT (R88, R92) -/

/-- FAULT asserts while the path is WRITING for an entry of its spindle (R88, R93). A host block is reported whatever its
ID carries (R88 over R79, R119, log entry 43). -/
def Lubran.faultWrite (q : Lubran) (i : Spindle) (o : Owner) : Lubran :=
  match (q.sp i).findEntry o with
  | none => q
  | some e =>
      let q := q.noteCutWrite.releaseEntry i o
      if o = .internal then q.alternateFailure i
      else (q.reportEntry i e .hard).afterField i e fun q => q.decideEnding i .writeFault

/-- What the Data Path makes of FAULT asserting on a spindle (R88, R92): a write ends at once, a header field will
report HEADER FAILED. -/
def Lubran.pathFault (q : Lubran) (i : Spindle) : Lubran :=
  if q.path.spindle = some i then
    match q.path.state, q.path.holder with
    | .writing, some (.entry o) => q.faultWrite i o
    | .writing, some (.departed d) => (q.noteCutWrite.reportEntry i d.entry .hard).releasePath
    | .header, _ => { q with path := { q.path with faulted := true } }
    | _, _ => q
  else q

/-! ## The end of a header field (R92) -/

/-- A header field ends (R92): the path is released and the outcome goes to its requester. -/
def Lubran.endHeader (q : Lubran) (bytes : List Byte) (written : Bool) : Lubran :=
  match q.path.state, q.path.spindle, q.path.holder with
  | .header, some i, some .build =>
      let faulted := q.path.faulted
      let q := q.releasePath
      match faulted, parseHeader bytes with
      | false, some h => q.buildHeaderGood i h
      | _, _ => q.buildHeaderFailed i
  | .header, some i, some (.entry o) =>
      let good := written && !q.path.faulted
      let track := q.seq.track.getD { cyl := 0, head := 0 }
      let out : DiskWrite :=
        { spindle := i, track := track, field := .header, bytes := q.seqHeaderBytes i, whole := written }
      let q := { q with writeOut := some out }.releaseEntry i o
      (q.loadNext i none).seqHeaderDone i good
  | _, _, _ => q

end Sys2Proof.Machine
end

