-- ==== Sys2Proof/Machine/Selector.lean ====
section
/-! DEFINITION. The service selector (R51, R52) and service start (R53, R57 to R60). -/

namespace Sys2Proof.Machine

/-- An entry may be selected: the spindle has no allegiance to another port (R51). -/
def SpindleUnit.eligible (u : SpindleUnit) (e : Entry) : Bool :=
  match u.allegiance, e.owner with
  | some (p, _), .host r _ => decide (r = p)
  | _, _ => true

/-- The entry of least cost, the earliest of those that share it (R52). -/
def Lubran.leastCost (q : Lubran) (i : Spindle) : Entry → List Entry → Entry
  | best, [] => best
  | best, e :: es => if q.cost i e < q.cost i best then q.leastCost i e es else q.leastCost i best es

/-- The entry a selection event chooses (R52): the internal entry, the earliest aged, or the one of least
cost. -/
def Lubran.choose (q : Lubran) (i : Spindle) : Option Entry :=
  match (q.sp i).internal with
  | some e => some e
  | none =>
      let es := (q.sp i).queue.filter (q.sp i).eligible
      match es.find? fun e => decide (q.params.ageLimit < q.age i e) with
      | some e => some e
      | none =>
          match es with
          | [] => none
          | e :: es => some (q.leastCost i e es)

/-- The action an entry's first field takes (R69). -/
def firstAction : EntryKind → Action
  | .verify => .verify
  | .write => .write
  | .guardedWrite => .compareRead
  | _ => .read

/-- Service start of an entry that names a track (R53, R69): its track is resolved, it asks for slots, and its
seek is requested. -/
def Lubran.serveTrack (q : Lubran) (i : Spindle) (e : Entry) : Lubran :=
  let t := q.targetOf i e
  let x : XferRec :=
    { next := some { action := firstAction e.kind, field := .block e.first }
      bind := e.first, mismatch := false, cont := none }
  (((q.modEntry i e.owner fun e => { e with state := .seeking, track := some t }).modXfer i fun _ => x).joinIfShort
    e.owner).queueSeek i t

/-- Service start of a RECALIBRATE (R59). -/
def Lubran.serveRecalibrate (q : Lubran) (i : Spindle) (e : Entry) : Lubran :=
  (q.modEntry i e.owner fun e => { e with state := .seeking }).requestRecal i

/-- A reservation takes effect (R57): the QUEUED entries of other ports end RESERVED ELSEWHERE in arrival order,
and the holder is set. -/
def Lubran.takeReservation (q : Lubran) (i : Spindle) (p : Port) : Lubran :=
  let other (e : Entry) : Bool :=
    !e.inService && (match e.owner with | .host r _ => decide (r ≠ p) | .internal => false)
  let gone := (q.sp i).queue.filter other
  let q := q.modSp i fun u =>
    { u with queue := u.queue.filter (fun e => !other e), reservation := some p }
  gone.foldl (fun q e => q.giveEnding e .reservedElsewhere []) q

/-- Service start of a RESERVE (R57). -/
def Lubran.serveReserve (q : Lubran) (i : Spindle) (e : Entry) : Lubran :=
  let q := q.modEntry i e.owner fun e => { e with state := .ending }
  let q := match e.owner, (q.sp i).reservation with
    | .host p _, none => q.takeReservation i p
    | _, _ => q
  q.decideEnding i .good

/-- Service start of a STOP SPINDLE (R10, R58, R115, R127). A block of an entry that has left, still passing the heads,
is cut off with the spindle (log entry 22). -/
def Lubran.serveStop (q : Lubran) (i : Spindle) (e : Entry) : Lubran :=
  let q := ((q.dropPathOn i).modEntry i e.owner fun e => { e with state := .ending }).modSp i fun u =>
    { u with life := .stopped, spin := false, spinTimer := none, chan := u.chan.stop, waitReq := none }
  (((q.dropMap i).forgetSuspects i).endQueued i .notReady).decideEnding i .good

/-- Service start of the REASSIGN entry (R53, R130). -/
def Lubran.serveReassign (q : Lubran) (i : Spindle) : Lubran :=
  ((q.modEntry i .internal fun e => { e with state := .seeking }).modXfer i fun _ => XferRec.clear).startReassign i

/-- A selection event is taken (R48, R52, R53): the chosen entry's service starts at once. -/
def Lubran.select (q : Lubran) (i : Spindle) : Lubran :=
  let q := q.modSp i fun u => { u with selectDue := false }
  if (q.sp i).life = .ready ∧ q.current i = none then
    match q.choose i with
    | none => q
    | some e =>
        match e.kind with
        | .read | .write | .verify | .guardedWrite => q.serveTrack i e
        | .recalibrate => q.serveRecalibrate i e
        | .reserve => q.serveReserve i e
        | .stopSpindle => q.serveStop i e
        | .reassign => q.serveReassign i
  else q

end Sys2Proof.Machine
end

