-- ==== Sys2Proof/Machine/Settle.lean ====
section
/-! DEFINITION. How a step comes to rest. A command or event has consequences that the manual takes within the
same step (95_what_each_step_holds): a settle that can complete (R16), a motion held back that can go (R53,
R59), a staging slot that can be granted (R77), a selection event (R48) and new work for the sequencer
(R129). They are taken one after another, in the order below, until none is left; then each idle transmitter
chooses its next frame (R182). -/

namespace Sys2Proof.Machine

/-- The first consequence that is still to be taken, carried out; none when the part is at rest. -/
def Lubran.nextTask (q : Lubran) : Option Lubran :=
  match allSpindles.find? fun i => (q.sp i).settleReady with
  | some i => some (q.completeSettle i)
  | none =>
      match allSpindles.find? fun i => (q.sp i).waitReady with
      | some i => some (q.dispatchWait i)
      | none =>
          if q.canGrant then some q.grantOne
          else
            match allSpindles.find? fun i => (q.sp i).selectDue with
            | some i => some (q.select i)
            | none => if q.seq.state = .idle ∧ q.sparing ≠ [] then some q.takeWork else none

/-- Nothing is left to be taken in the present step. -/
def Lubran.atRest (q : Lubran) : Bool := q.nextTask.isNone

/-- Takes consequences until none is left; none when the bound is reached first (log entry 4). -/
def Lubran.drain : Nat → Lubran → Option Lubran
  | 0, q => if q.atRest then some q else none
  | fuel + 1, q =>
      match q.nextTask with
      | none => some q
      | some q => Lubran.drain fuel q

/-- A step comes to rest, and each idle transmitter chooses its next frame (R182). -/
def Lubran.finish (q : Lubran) : Option Lubran := (Lubran.drain Config.settleFuel q).map Lubran.kickAll

/-- Carries a command's effect on the part to its end. The queue of waiting commands is left as it is. -/
def State.run (s : State) (effect : Lubran → Lubran) : Host.Outcome State Fault Refusal :=
  match (effect s.part).finish with
  | some q => .next { s with part := q }
  | none => .fault .unsettled

end Sys2Proof.Machine
end

