-- ==== Sys2Proof/Machine/Drive.lean ====
section
/-! DEFINITION. The drive events: the marks of the angular tracker (R23 to R25), the drive's pulses and lines (R6,
R12, R15 to R22, R88) and the expiries of the counts that run on marks or on CLOCK (R6, R16, R18, R21, R148). -/

namespace Sys2Proof.Machine

/-- The tracker and the lines of a spindle are followed by the other blocks: it is RECALIBRATING, BUILDING_MAP or
READY (R12, R23, R46). -/
def SpindleUnit.atSpeed (u : SpindleUnit) : Bool :=
  match u.life with
  | .recalibrating | .buildingMap | .ready => true
  | .absent | .stopped | .spinningUp | .faulted => false

/-- The status lines that fell before a mark or pulse (log entry 6). -/
def Lines.fall (l : Lines) (f : Falls) : Lines :=
  { l with onTrack := l.onTrack && !f.onTrack, guard := l.guard && !f.guard, fault := l.fault && !f.fault }

/-- Takes the falls a mark or pulse brings. -/
def Lubran.takeFalls (q : Lubran) (i : Spindle) (f : Falls) : Lubran :=
  q.modSp i fun u => { u with lines := u.lines.fall f }

/-- Changes the lines of a spindle. -/
def Lubran.modLines (q : Lubran) (i : Spindle) (f : Lines → Lines) : Lubran :=
  q.modSp i fun u => { u with lines := f u.lines }

/-! ## The angular tracker -/

/-- A revolution event (R46, R148): the revolution counter rises, and the allegiance timer is lowered and may
expire. -/
def Lubran.revolution (q : Lubran) (i : Spindle) : Lubran :=
  let q := q.modSp i fun u => { u with revs := (u.revs + 1) % 65536 }
  match (q.sp i).allegiance with
  | none => q
  | some (p, n) =>
      if n ≤ 1 then q.endAllegiance i else q.modSp i fun u => { u with allegiance := some (p, n - 1) }

/-- A slot boundary (R23): a granted field begins, a window may open (R70), and the channel counts the slot
(R16, R18, R21). -/
def Lubran.boundary (q : Lubran) (i : Spindle) : Lubran := ((q.beginField i).takeWindow i).countSlot i

/-- The slot number changes, and nothing else follows. -/
def Lubran.setSlot (q : Lubran) (i : Spindle) (n : Nat) : Lubran := q.modSp i fun u => { u with slot := n }

/-- Sets the missing-index count. -/
def Lubran.setMissing (q : Lubran) (i : Spindle) (n : Nat) : Lubran := q.modSp i fun u => { u with missing := n }

/-- A SECTOR mark on a spindle at speed (R23, R25): the next slot, or a missing index at slot 95, the second in
succession a fault. -/
def Lubran.sector (q : Lubran) (i : Spindle) : Lubran :=
  let u := q.sp i
  if u.slot < Config.slotsPerRev - 1 then (q.setSlot i (u.slot + 1)).boundary i
  else
    let q := (q.setSlot i 0).revolution i
    if 1 ≤ u.missing then q.faultSpindle i .missingIndex else (q.setMissing i 1).boundary i

/-- An INDEX mark on a spindle at speed (R23, R24): slot 0 and a revolution event; away from slot 95 it is an
early index, which cuts the field in transfer (R83). The cut is taken last, after the revolution event and the slot
boundary of the same mark, to which R24 gives it no order (DEDUCED, log entry 11). -/
def Lubran.index (q : Lubran) (i : Spindle) : Lubran :=
  let slot := (q.sp i).slot
  let q := (q.setSlot i 0).setMissing i 0
  let q := if slot = 0 then q else (q.revolution i).boundary i
  if slot = Config.slotsPerRev - 1 then q else q.cutField i

/-- SECTOR_MARK (R23, R25). A SPINNING_UP spindle only moves its slot number (R6). -/
def Lubran.sectorMark (q : Lubran) (i : Spindle) (falls : Falls) : Lubran :=
  let q := q.takeFalls i falls
  if (q.sp i).atSpeed then q.sector i
  else if (q.sp i).life = .spinningUp then
    q.setSlot i (if (q.sp i).slot < Config.slotsPerRev - 1 then (q.sp i).slot + 1 else 0)
  else q

/-- INDEX_MARK (R23, R24). A SPINNING_UP spindle only moves its slot number (R6). -/
def Lubran.indexMark (q : Lubran) (i : Spindle) (falls : Falls) : Lubran :=
  let q := q.takeFalls i falls
  if (q.sp i).atSpeed then q.index i
  else if (q.sp i).life = .spinningUp then q.setSlot i 0
  else q

/-! ## Pulses and lines -/

/-- CROSSING: a step of a seek (R15), an overshoot (R17), an off-track event (R22); nothing in RECAL and IDLE. -/
def Lubran.crossingPulse (q : Lubran) (i : Spindle) (falls : Falls) : Lubran :=
  let q := q.takeFalls i falls
  if (q.sp i).atSpeed then
    match (q.sp i).chan.state with
    | .seeking => q.crossSeeking i
    | .settling => q.crossSettling i
    | .onTrack => q.offTrack i
    | .recal | .idle => q
  else q

/-- GUARD asserts (R19, R21): a recalibration is at cylinder 0; a seek above cylinder 0 takes a seek check. -/
def Lubran.guardRise (q : Lubran) (i : Spindle) : Lubran :=
  let q := q.modLines i fun l => { l with guard := true }
  let c := (q.sp i).chan
  if (q.sp i).atSpeed ∧ c.moving then
    match c.purpose with
    | .recal => (q.modChan i Channel.atZero).syncEntry i
    | .normal => if 0 < c.cyl then q.seekCheck i else q
  else q

/-- FAULT asserts (R19, R88, R92): a write ends, a header field fails, a seek takes a seek check. -/
def Lubran.faultRise (q : Lubran) (i : Spindle) : Lubran :=
  let q := q.modLines i fun l => { l with fault := true }
  if (q.sp i).atSpeed then
    let q := q.pathFault i
    if (q.sp i).chan.seekRunning then q.seekCheck i else q
  else q

/-- ON TRACK asserts (R16): a settle whose count is 0 completes before the step ends. -/
def Lubran.onTrackRise (q : Lubran) (i : Spindle) : Lubran := q.modLines i fun l => { l with onTrack := true }

/-- SPEED-OK asserts (R6): a SPINNING_UP spindle is RECALIBRATING. -/
def Lubran.speedRise (q : Lubran) (i : Spindle) : Lubran :=
  let q := q.modLines i fun l => { l with speedOk := true }
  if (q.sp i).life = .spinningUp then q.spunUp i else q

/-- SPEED-OK falls (R12): a spindle at speed is FAULTED. -/
def Lubran.speedFall (q : Lubran) (i : Spindle) : Lubran :=
  let q := q.modLines i fun l => { l with speedOk := false }
  if (q.sp i).atSpeed then q.faultSpindle i .speedLost else q

/-! ## Expiries -/

/-- The spin-up timer of a SPINNING_UP spindle reaches 0 (R6). -/
def Lubran.spinUpExpiry (q : Lubran) (i : Spindle) : Lubran :=
  if (q.sp i).life = .spinningUp ∧ (q.sp i).spinTimer.isSome then q.faultSpindle i .spinUpTimeout else q

/-- The settle count of a channel reaches 0 at a slot boundary (R16). -/
def Lubran.settleExpiry (q : Lubran) (i : Spindle) : Lubran :=
  if (q.sp i).chan.state = .settling ∧ (q.sp i).chan.settle ≤ 1 then
    q.modChan i fun c => { c with settle := 0 }
  else q

/-- The seek deadline of a channel reaches 0 (R18). -/
def Lubran.deadlineExpiry (q : Lubran) (i : Spindle) : Lubran :=
  if (q.sp i).chan.seekRunning ∧ (q.sp i).chan.deadline ≤ 1 then
    (q.modChan i fun c => { c with deadline := 0 }).seekCheck i
  else q

/-- The recalibration limit of a channel reaches 0 (R21). -/
def Lubran.recalExpiry (q : Lubran) (i : Spindle) : Lubran :=
  let c := (q.sp i).chan
  if c.moving ∧ c.purpose = .recal ∧ c.recalLimit ≤ 1 then
    (q.modChan i fun c => { c with recalLimit := 0 }).faultSpindle i .recalFailed
  else q

/-- The allegiance timer of a spindle reaches 0 at a revolution event (R148). -/
def Lubran.allegianceEnd (q : Lubran) (i : Spindle) : Lubran :=
  match (q.sp i).allegiance with
  | some (_, n) => if (q.sp i).atSpeed ∧ n ≤ 1 then q.endAllegiance i else q
  | none => q

/-! ## The commands -/

/-- SPIN_UP_TIMER_EXPIRY (R6). -/
def execSpinUpTimerExpiry (sp : Spindle) (s : State) : Host.Outcome State Fault Refusal :=
  s.run fun q => q.spinUpExpiry sp

/-- SPEED_OK_ASSERTED (R6). -/
def execSpeedOkAsserted (sp : Spindle) (s : State) : Host.Outcome State Fault Refusal :=
  s.run fun q => q.speedRise sp

/-- SPEED_OK_DEASSERTED (R12). -/
def execSpeedOkDeasserted (sp : Spindle) (s : State) : Host.Outcome State Fault Refusal :=
  s.run fun q => q.speedFall sp

/-- INDEX_MARK (R23, R24). -/
def execIndexMark (sp : Spindle) (falls : Falls) (s : State) : Host.Outcome State Fault Refusal :=
  s.run fun q => q.indexMark sp falls

/-- SECTOR_MARK (R23, R25). -/
def execSectorMark (sp : Spindle) (falls : Falls) (s : State) : Host.Outcome State Fault Refusal :=
  s.run fun q => q.sectorMark sp falls

/-- CROSSING (R15, R17, R22). -/
def execCrossing (sp : Spindle) (falls : Falls) (s : State) : Host.Outcome State Fault Refusal :=
  s.run fun q => q.crossingPulse sp falls

/-- GUARD_ASSERTED (R19, R21). -/
def execGuardAsserted (sp : Spindle) (s : State) : Host.Outcome State Fault Refusal :=
  s.run fun q => q.guardRise sp

/-- FAULT_ASSERTED (R19, R88). -/
def execFaultAsserted (sp : Spindle) (s : State) : Host.Outcome State Fault Refusal :=
  s.run fun q => q.faultRise sp

/-- ON_TRACK_ASSERTED (R16). -/
def execOnTrackAsserted (sp : Spindle) (s : State) : Host.Outcome State Fault Refusal :=
  s.run fun q => q.onTrackRise sp

/-- SETTLE_COUNT_EXPIRY (R16). -/
def execSettleCountExpiry (sp : Spindle) (s : State) : Host.Outcome State Fault Refusal :=
  s.run fun q => q.settleExpiry sp

/-- SEEK_DEADLINE_EXPIRY (R18, R19). -/
def execSeekDeadlineExpiry (sp : Spindle) (s : State) : Host.Outcome State Fault Refusal :=
  s.run fun q => q.deadlineExpiry sp

/-- RECAL_LIMIT_EXPIRY (R21). -/
def execRecalLimitExpiry (sp : Spindle) (s : State) : Host.Outcome State Fault Refusal :=
  s.run fun q => q.recalExpiry sp

/-- ALLEGIANCE_EXPIRY (R148, R150). -/
def execAllegianceExpiry (sp : Spindle) (s : State) : Host.Outcome State Fault Refusal :=
  s.run fun q => q.allegianceEnd sp

/-- BLOCK_ID_READ (R79). -/
def execBlockIdRead (id : BlockId) (s : State) : Host.Outcome State Fault Refusal :=
  s.run fun q => q.takeId id

/-- FIELD_END (R72). -/
def execFieldEnd (bytes : Vector Byte 1024) (check : Word32) (s : State) : Host.Outcome State Fault Refusal :=
  s.run fun q => q.endField bytes.toList check

/-- HEADER_FIELD_END (R92). -/
def execHeaderFieldEnd (bytes : Vector Byte 13) (written : Bool) (s : State) :
    Host.Outcome State Fault Refusal :=
  s.run fun q => q.endHeader bytes.toList written

end Sys2Proof.Machine
end

