-- ==== Sys2Proof/Machine/Link.lean ====
section
/-! DEFINITION. The link of a port (R177), its teardown (R63, R64, R178), its transmitter's frame ends (R81, R161,
R182), and the commands of those. -/

namespace Sys2Proof.Machine

/-! ## Teardown (R178) -/

/-- An entry is a QUEUED entry of a port. -/
def Entry.queuedOf (e : Entry) (p : Port) : Bool :=
  !e.inService && (match e.owner with | .host r _ => decide (r = p) | .internal => false)

/-- The QUEUED entries of a port leave every queue without an ending (R63). -/
def Lubran.dropQueued (q : Lubran) (p : Port) (i : Spindle) : Lubran :=
  q.modSp i fun u => { u with queue := u.queue.filter fun e => !e.queuedOf p }

/-- The in-service entry of a torn-down port is abandoned (R64). One that is TRANSFERRING stays to the next block
boundary, which for a grant whose field has not begun is the end of its lead slot (log entry 13); any other leaves at
once, and a block of an ENDING entry that still passes is carried to its end without it (log entry 22). -/
def Lubran.abandon (q : Lubran) (p : Port) (i : Spindle) : Lubran :=
  match q.current i with
  | none => q
  | some e =>
      match e.owner with
      | .internal => q
      | .host r _ =>
          if r = p then
            match e.state with
            | .transferring => (q.modEntry i e.owner fun e => { e with abandoned := true }).leaveWaiting e.owner
            | .ending => if q.carrying i e.owner then q.depart i e else q.leaveQueue i e.owner
            | .queued | .seeking | .settling | .rotating => q.leaveQueue i e.owner
          else q

/-- The allegiance of a spindle ends if a port holds it (R149, R150). -/
def Lubran.endAllegianceOf (q : Lubran) (p : Port) (i : Spindle) : Lubran :=
  match (q.sp i).allegiance with
  | some (r, _) => if r = p then q.endAllegiance i else q
  | none => q

/-- The tags of a port that stay in use through teardown: those of entries abandoned while TRANSFERRING (R167). -/
def Lubran.heldTags (q : Lubran) (p : Port) : Vector Bool 4 :=
  Vector.ofFn fun t => (q.findEntry (.host p t)).isSome

/-- Port teardown (R178), but for the link state. -/
def Lubran.teardown (q : Lubran) (p : Port) : Lubran :=
  let q := allSpindles.foldl (fun q i => q.dropQueued p i) q
  let q := allSpindles.foldl (fun q i => q.abandon p i) q
  let q := allSpindles.foldl (fun q i => q.endAllegianceOf p i) q
  let q := { q with
    waiting := q.waiting.filter fun w => decide (w.port ≠ some p)
    served := q.served.filter fun r => decide (r ≠ p) }
  let tags := q.heldTags p
  q.modPort p fun r => { r.discardWaiting with tags := tags, notices := [], sense := none }

/-! ## The link state (R177) -/

/-- The link timer is loaded with 200 ms (R177). -/
def LinkPort.reload (r : LinkPort) : LinkPort := { r with timer := some Config.linkLoad }

/-- A symbol or byte other than HOLD is received (R177, R181). -/
def LinkPort.hear (r : LinkPort) (sym : LinkSymbol) : LinkPort :=
  match r.link with
  | .down | .lost => { r.reload with link := .sync, idleCount := 0 }
  | .sync =>
      match sym with
      | .idle =>
          if r.idleCount + 1 < 16 then { r.reload with idleCount := r.idleCount + 1 }
          else { r.reload with link := .up, idleCount := 0 }
      | .start | .byte _ => { r.reload with idleCount := 0 }
  | .up =>
      match sym with
      | .idle | .start => { r.reload with paused := false }
      | .byte _ => r.reload

/-- A HOLD is received (R177, R181). -/
def LinkPort.hearHold (r : LinkPort) : LinkPort :=
  match r.link with
  | .down | .lost => { r.reload with link := .sync, idleCount := 0 }
  | .sync => { r.reload with idleCount := 0 }
  | .up => { r.reload with paused := true }

/-- The link timer of a port reaches 0 (R177). -/
def Lubran.linkExpiry (q : Lubran) (p : Port) : Lubran :=
  match (q.port p).link, (q.port p).timer with
  | .sync, some _ => q.modPort p fun r => { r with link := .lost, timer := none, idleCount := 0 }
  | .up, some _ => (q.teardown p).modPort p fun r => { r with link := .lost, timer := none }
  | _, _ => q

/-! ## The transmitter's frame ends -/

/-- An ENDING, REJECT or DATA REQUEST frame ends (R182). -/
def LinkPort.frameEnds (r : LinkPort) : LinkPort :=
  match r.sending with
  | some (.reply _) | some (.request _) => { r with sending := none }
  | _ => r

/-- An ATTENTION frame ends (R161). -/
def LinkPort.attentionEnds (r : LinkPort) : LinkPort :=
  match r.sending with
  | some (.attention _ _) => { r with sending := none, notices := settleNotice r.notices }
  | _ => r

/-- The fourth DATA frame of a slot has ended (R81): blocks done rises, the slot becomes FREE, the next FULL slot
is offered, and an ENDING entry whose last slot has drained hands its ending over (R89). -/
def Lubran.slotDrained (q : Lubran) (i : Fin 8) (o : Owner) : Lubran :=
  match q.findEntry o, o with
  | some (sp, _), .host p t =>
      let q := q.modEntry sp o fun e => { e with blocksDone := e.blocksDone + 1 }
      let q := (q.freeSlot i).offer p t
      match (q.sp sp).findEntry o with
      | some e => if e.decided.isSome ∧ q.carrying sp o = false ∧ e.abandoned = false then q.conclude sp else q
      | none => q
  | _, _ => q.freeSlot i

/-- A DATA frame of a staging slot ends (R81, R89). -/
def Lubran.dataEnds (q : Lubran) (p : Port) : Lubran :=
  match (q.port p).sending with
  | some (.data _ _ _ _ slot) =>
      let q := q.modPort p fun r => { r with sending := none }
      match slot with
      | none => q
      | some i =>
          match (q.slot i).owner with
          | none => q.freeSlot i
          | some o =>
              if (q.slot i).sent + 1 < 4 then q.modSlot i fun s => { s with sent := s.sent + 1 }
              else q.slotDrained i o
  | _ => q

/-! ## The commands -/

/-- LINK_SYMBOL_RECEIVED (R177, R181). -/
def execLinkSymbolReceived (p : Port) (sym : LinkSymbol) (s : State) : Host.Outcome State Fault Refusal :=
  s.run fun q => q.modPort p fun r => r.hear sym

/-- HOLD (R177, R181). -/
def execHold (p : Port) (s : State) : Host.Outcome State Fault Refusal :=
  s.run fun q => q.modPort p LinkPort.hearHold

/-- LINK_TIMER_EXPIRY (R177, R178). -/
def execLinkTimerExpiry (p : Port) (s : State) : Host.Outcome State Fault Refusal :=
  s.run fun q => q.linkExpiry p

/-- FRAME_SENT (R182). -/
def execFrameSent (p : Port) (s : State) : Host.Outcome State Fault Refusal :=
  s.run fun q => q.modPort p LinkPort.frameEnds

/-- DATA_FRAME_SENT (R81). -/
def execDataFrameSent (p : Port) (s : State) : Host.Outcome State Fault Refusal :=
  s.run fun q => q.dataEnds p

/-- ATTENTION_FRAME_SENT (R161). -/
def execAttentionFrameSent (p : Port) (s : State) : Host.Outcome State Fault Refusal :=
  s.run fun q => q.modPort p LinkPort.attentionEnds

end Sys2Proof.Machine
end

