-- ==== Sys2Proof/Machine/Clock.lean ====
section
/-! DEFINITION. One period of CLOCK, in which nothing is commanded (DESIGN CHOICE, log entry 8): the link timers
(R177) and the spin-up timers (R6) count down, and one that reaches 0 has the effect of its expiry. -/

namespace Sys2Proof.Machine

/-- A running timer of a port counts down in SYNC and UP, and at 0 expires (R177). -/
def Lubran.tickLink (q : Lubran) (p : Port) : Lubran :=
  match (q.port p).timer with
  | none => q
  | some n => if n ≤ 1 then q.linkExpiry p else q.modPort p fun r => { r with timer := some (n - 1) }

/-- The running spin-up timer of a SPINNING_UP spindle counts down, and at 0 expires (R6). -/
def Lubran.tickSpindle (q : Lubran) (i : Spindle) : Lubran :=
  match (q.sp i).spinTimer with
  | none => q
  | some n => if n ≤ 1 then q.spinUpExpiry i else q.modSp i fun u => { u with spinTimer := some (n - 1) }

/-- One period of CLOCK: the ports in letter order, then the spindles in order. -/
def Lubran.tick (q : Lubran) : Lubran :=
  allSpindles.foldl Lubran.tickSpindle (allPorts.foldl Lubran.tickLink q)

end Sys2Proof.Machine
end

