-- ==== Sys2Proof/Machine/Operands.lean ====
section
/-! DEFINITION. The operands of the commands: the fields of each command's payload with the ranges of the
field check (R166, R168 check 1, R174, R175), and what the later acceptance checks need of a command. -/

namespace Sys2Proof.Machine

/-- The fence a command needs (R153): one that contains a cylinder and gives a permit, or one that names the
spindle and permits WRITE. -/
inductive FenceNeed where
  | cylinder (cyl : Nat) (permit : Permit)
  | spindleWrite
  deriving DecidableEq, Repr

/-- What the acceptance checks 2 to 8 of R168 look at: the tag, what the command names, and which checks
apply to its kind. -/
structure Ask where
  tag       : Tag
  spindle   : Option Nat := none
  track     : Option (Nat × Nat) := none
  blocks    : Option (Nat × Nat) := none
  authority : Bool := false
  fence     : Option FenceNeed := none
  reserved  : Bool := false
  queued    : Bool := false
  deriving DecidableEq, Repr

/-- A tag field, 0 to 3 (R168 check 1). -/
def tagOf (b : Byte) : Option Tag := if h : b.toNat < 4 then some ⟨b.toNat, h⟩ else none

/-- A port field, 0 to 3. -/
def portOf (b : Byte) : Option Port := if h : b.toNat < 4 then some ⟨b.toNat, h⟩ else none

/-- A spindle number within 0 to 7. -/
def spindleOf (n : Nat) : Option Spindle := if h : n < 8 then some ⟨n, h⟩ else none

/-- The tag byte an ending carries: as received, or 255 for a payload that holds none (R168, R170). -/
def tagByte (payload : List Byte) : Byte := payload.headD 255

/-- The residual count of a refused command (R170): for READ, WRITE and VERIFY its count as received, which
is byte 6 of the payload; for every other kind 0. A payload with no such byte states no count. -/
def refusedResidual (kind : Nat) (payload : List Byte) : Byte :=
  if kind = 1 ∨ kind = 2 ∨ kind = 3 then
    match payload[6]? with
    | some n => n
    | none => Config.shortResidual payload
  else 0

/-- The fields of a positioning command that names blocks (R43, R166). -/
structure TrackCmd where
  spindle     : Nat
  cyl         : Nat
  head        : Nat
  first       : Nat
  count       : Nat
  writeVerify : Bool
  cmpOffset   : Nat
  cmpBytes    : List Byte
  deriving DecidableEq, Repr

/-- The permit a fence must give for a READ, WRITE, VERIFY or GUARDED WRITE (R153). -/
def permitFor : EntryKind → Permit
  | .read | .verify => .read
  | .guardedWrite => .both
  | _ => .write

/-- What the checks need of a positioning command with a track. -/
def trackAsk (kind : EntryKind) (t : Tag) (c : TrackCmd) : Ask :=
  { tag := t, spindle := some c.spindle, track := some (c.cyl, c.head),
    blocks := some (c.first, c.count), fence := some (.cylinder c.cyl (permitFor kind)),
    reserved := true, queued := true }

/-- READ, WRITE and VERIFY: eight bytes, a tag of 0 to 3 and a count of 1 to 15 (R166, R168). The
write-verify flag is taken for WRITE only. -/
def parseTransfer (kind : EntryKind) (payload : List Byte) : Option (Ask × TrackCmd) :=
  match payload with
  | [t, sp, c1, c0, h, b, n, fl] =>
      match tagOf t with
      | none => none
      | some tag =>
          if 1 ≤ n.toNat ∧ n.toNat ≤ 15 then
            let c : TrackCmd :=
              { spindle := sp.toNat, cyl := natOf16 c1 c0, head := h.toNat, first := b.toNat,
                count := n.toNat, writeVerify := kind == .write && bitOf fl 0, cmpOffset := 0,
                cmpBytes := [] }
            some (trackAsk kind tag c, c)
          else none
  | _ => none

/-- GUARDED WRITE: nine bytes and n expected bytes, n of 1 to 16, the compare field within the block
(R166, R168). -/
def parseGuarded (payload : List Byte) : Option (Ask × TrackCmd) :=
  match payload with
  | t :: sp :: c1 :: c0 :: h :: b :: o1 :: o0 :: n :: expected =>
      match tagOf t with
      | none => none
      | some tag =>
          if 1 ≤ n.toNat ∧ n.toNat ≤ 16 ∧ expected.length = n.toNat ∧ natOf16 o1 o0 ≤ 1023 ∧
              natOf16 o1 o0 + n.toNat ≤ 1024 then
            let c : TrackCmd :=
              { spindle := sp.toNat, cyl := natOf16 c1 c0, head := h.toNat, first := b.toNat,
                count := 1, writeVerify := false, cmpOffset := natOf16 o1 o0, cmpBytes := expected }
            some (trackAsk .guardedWrite tag c, c)
          else none
  | _ => none

/-- The kinds whose payload is a tag and a spindle (R166). -/
def parseSpindle (payload : List Byte) : Option (Tag × Nat) :=
  match payload with
  | [t, sp] => (tagOf t).map fun tag => (tag, sp.toNat)
  | _ => none

/-- RECALIBRATE, RESERVE and STOP SPINDLE: queued, fenced for the spindle, tested for reservation. -/
def parseQueuedSpindle (payload : List Byte) : Option (Ask × Nat) :=
  (parseSpindle payload).map fun (t, sp) =>
    ({ tag := t, spindle := some sp, fence := some .spindleWrite, reserved := true, queued := true }, sp)

/-- START SPINDLE: immediate, fenced for the spindle, tested for reservation (R5, R153). -/
def parseStart (payload : List Byte) : Option (Ask × Nat) :=
  (parseSpindle payload).map fun (t, sp) =>
    ({ tag := t, spindle := some sp, fence := some .spindleWrite, reserved := true }, sp)

/-- RELEASE and QUERY SPINDLE: immediate, neither fenced nor tested for reservation. -/
def parsePlainSpindle (payload : List Byte) : Option (Ask × Nat) :=
  (parseSpindle payload).map fun (t, sp) => ({ tag := t, spindle := some sp }, sp)

/-- BREAK RESERVATION: immediate, and needs control authority (R144). -/
def parseBreak (payload : List Byte) : Option (Ask × Nat) :=
  (parseSpindle payload).map fun (t, sp) => ({ tag := t, spindle := some sp, authority := true }, sp)

/-- CANCEL: a tag of its own and the tag to cancel (R61). -/
def parseCancel (payload : List Byte) : Option (Ask × Tag) :=
  match payload with
  | [t, c] =>
      match tagOf t, tagOf c with
      | some tag, some named => some ({ tag := tag }, named)
      | _, _ => none
  | _ => none

/-- SENSE: a tag alone. -/
def parseSense (payload : List Byte) : Option (Ask × Unit) :=
  match payload with
  | [t] => (tagOf t).map fun tag => ({ tag := tag }, ())
  | _ => none

/-- RESET STRING: a tag alone; needs control authority (R176). -/
def parseReset (payload : List Byte) : Option (Ask × Unit) :=
  match payload with
  | [t] => (tagOf t).map fun tag => ({ tag := tag, authority := true }, ())
  | _ => none

/-- SPARE TRACK: spindle, logical cylinder and head (R126). -/
def parseSpare (payload : List Byte) : Option (Ask × Nat × Nat × Nat) :=
  match payload with
  | [t, sp, c1, c0, h] =>
      (tagOf t).map fun tag =>
        ({ tag := tag, spindle := some sp.toNat, track := some (natOf16 c1 c0, h.toNat),
           fence := some (.cylinder (natOf16 c1 c0) .write), reserved := true },
          sp.toNat, natOf16 c1 c0, h.toNat)
  | _ => none

/-- NOTIFY: a set of target ports and four bytes (R160). -/
def parseNotify (payload : List Byte) : Option (Ask × Vector Bool 4 × List Byte) :=
  match payload with
  | [t, set, a, b, c, d] => (tagOf t).map fun tag => ({ tag := tag }, portSet set, [a, b, c, d])
  | _ => none

/-- QUERY STRING: a page, 0 to 5 (R168, R172). -/
def parseQueryString (payload : List Byte) : Option (Ask × Nat) :=
  match payload with
  | [t, page] =>
      match tagOf t with
      | some tag => if page.toNat ≤ 5 then some ({ tag := tag }, page.toNat) else none
      | none => none
  | _ => none

/-- READ SPARE MAP: a two-byte starting index. -/
def parseReadMap (payload : List Byte) : Option (Ask × Nat) :=
  match payload with
  | [t, i1, i0] => (tagOf t).map fun tag => ({ tag := tag }, natOf16 i1 i0)
  | _ => none

/-- READ SUSPECTS: a one-byte starting index. -/
def parseReadSuspects (payload : List Byte) : Option (Ask × Nat) :=
  match payload with
  | [t, i] => (tagOf t).map fun tag => ({ tag := tag }, i.toNat)
  | _ => none

/-- A value brought to the nearest end of its range (00_scope, Conventions). -/
def clamp (lo hi n : Nat) : Nat := max lo (min hi n)

/-- The settings a SET STRING carries (R174). -/
structure StringSettings where
  params    : Params
  autoSpare : Byte
  masks     : Vector Byte 8
  deriving DecidableEq, Repr

/-- SET STRING: twenty bytes, every parameter clamped into its range (R27, R174). -/
def parseSetString (payload : List Byte) : Option (Ask × StringSettings) :=
  match payload with
  | [t, a1, a0, v, s, age, lrl, soft, low, al, arb, auto, m0, m1, m2, m3, m4, m5, m6, m7] =>
      (tagOf t).map fun tag =>
        ({ tag := tag, authority := true },
         { params :=
             { acc := clamp 16 1023 (natOf16 a1 a0), vmax := clamp 1 255 v.toNat,
               settle := clamp 0 31 s.toNat, ageLimit := clamp 1 63 age.toNat,
               lostRevLimit := clamp 1 63 lrl.toNat, softLimit := clamp 1 15 soft.toNat,
               poolLow := clamp 0 32 low.toNat, allegianceTime := clamp 6 240 al.toNat,
               arbMode := if bitOf arb 0 then .fair else .priority },
           autoSpare := auto, masks := #v[m0, m1, m2, m3, m4, m5, m6, m7] })
  | _ => none

/-- The settings a SET PORT carries (R175). -/
structure PortSettings where
  target   : Port
  second   : Nat
  priority : Nat
  divisor  : Nat
  fencesOn : Bool
  fences   : List Fence
  deriving DecidableEq, Repr

/-- A permit field, 1 to 3 (R175). -/
def permitOf (b : Byte) : Option Permit :=
  if b = 1 then some .read else if b = 2 then some .write else if b = 3 then some .both else none

/-- `n` fences of six bytes each, and nothing after them (R175). -/
def parseFences : Nat → List Byte → Option (List Fence)
  | 0, [] => some []
  | n + 1, sp :: l1 :: l0 :: h1 :: h0 :: pm :: rest =>
      match permitOf pm, parseFences n rest with
      | some permit, some fences =>
          if sp.toNat ≤ 7 ∧ natOf16 h1 h0 ≤ 543 ∧ natOf16 l1 l0 ≤ natOf16 h1 h0 then
            some ({ spindle := sp.toNat, low := natOf16 l1 l0, high := natOf16 h1 h0,
                    permit := permit } :: fences)
          else none
      | _, _ => none
  | _, _ => none

/-- SET PORT: the field check of R175, with the priority held as 7 at most and the divisor as 63 at
most. -/
def parseSetPort (payload : List Byte) : Option (Ask × PortSettings) :=
  match payload with
  | t :: target :: second :: priority :: divisor :: on :: count :: rest =>
      match tagOf t, portOf target, parseFences count.toNat rest with
      | some tag, some port, some fences =>
          if second.toNat ≤ 30 ∧ count.toNat ≤ 4 then
            some ({ tag := tag, authority := true },
              { target := port, second := second.toNat, priority := min 7 priority.toNat,
                divisor := min 63 divisor.toNat, fencesOn := bitOf on 0, fences := fences })
          else none
      | _, _, _ => none
  | _ => none

end Sys2Proof.Machine
end

