-- ==== Sys2Proof/Machine/Intake.lean ====
section
/-! DEFINITION. Receiving a frame (R179) and taking a command (R165 to R168): what a receiver does before it hands a
frame on, the acceptance checks in their order, refusals, and the placement of a queued command (R42, R43). -/

namespace Sys2Proof.Machine

/-! ## The receiver (R179) -/

/-- How a frame's address names a port (R179). -/
inductive Recognised where
  | no | own | broadcast
  deriving DecidableEq, Repr

/-- The address check of the receiver (R179, step 1). -/
def LinkPort.recognise (r : LinkPort) (addr : Byte) : Recognised :=
  if addr.toNat = r.primary ∨ (r.second ≠ 0 ∧ addr.toNat = r.second) then .own
  else if addr = 31 then .broadcast
  else .no

/-- A frame of a kind is kept (R179, steps 1 and 2): a broadcast only when it is a query. -/
def LinkPort.keeps (r : LinkPort) (addr : Byte) (kind : Nat) : Bool :=
  match r.recognise addr with
  | .no => false
  | .own => true
  | .broadcast => decide (kind = kindQuerySpindle ∨ kind = kindQueryString)

/-- A frame comes in on an UP link (R177): its bytes reload the timer. In any other state no frame is received. -/
def Lubran.onUp (q : Lubran) (p : Port) (f : Lubran → Lubran) : Lubran :=
  if (q.port p).link = .up then f (q.modPort p LinkPort.reload) else q

/-- Takes a non-data frame of a known host kind (R179, steps 1, 2, 4 and 5), and with a good check does `act`. -/
def Lubran.receive (q : Lubran) (p : Port) (kind : Nat) (f : HostFrame) (act : Lubran → Lubran) : Lubran :=
  q.onUp p fun q =>
    if (q.port p).keeps f.addr kind then
      if Config.maxPayload < f.payload.length then q.pushReject p .frameLength (byteOf kind) 255
      else if f.check = frameCheck f.addr (byteOf kind) f.payload then act q
      else q.pushReject p .frameCheck (byteOf kind) 255
    else q

/-! ## The acceptance checks (R168) -/

/-- A fence gives a permit (R153). -/
def Permit.gives : Permit → Permit → Bool
  | .both, _ => true
  | .read, .read => true
  | .write, .write => true
  | _, _ => false

/-- A fence admits a need on a spindle (R153). -/
def Fence.admits (f : Fence) (spindle : Nat) : FenceNeed → Bool
  | .cylinder c permit => decide (f.spindle = spindle ∧ f.low ≤ c ∧ c ≤ f.high) && f.permit.gives permit
  | .spindleWrite => decide (f.spindle = spindle) && f.permit.gives .write

/-- Check 3 (R168): the spindle is 0 to 7 and not ABSENT, and cylinder, head and blocks lie on it. -/
def Lubran.addressOk (q : Lubran) (a : Ask) : Bool :=
  (match a.spindle with
    | none => true
    | some n => match spindleOf n with
      | none => false
      | some i => decide ((q.sp i).life ≠ .absent)) &&
  (match a.track with
    | none => true
    | some (c, h) => decide (c < Config.homeCylinders ∧ h < Config.heads)) &&
  (match a.blocks with
    | none => true
    | some (b, n) => decide (b < Config.blocksPerTrack ∧ b + n ≤ Config.blocksPerTrack))

/-- Check 5 (R153, R168): some fence admits the command, when fences are enabled. -/
def LinkPort.fenceOk (r : LinkPort) (a : Ask) : Bool :=
  match r.fencesOn, a.fence, a.spindle with
  | true, some need, some n => r.fences.any fun f => f.admits n need
  | _, _, _ => true

/-- The spindle a command names, when it exists. -/
def Ask.unit (a : Ask) : Option Spindle := a.spindle.bind spindleOf

/-- Check 6 (R141, R168): no other port holds the spindle. -/
def Lubran.reservationOk (q : Lubran) (p : Port) (a : Ask) : Bool :=
  match a.reserved, a.unit with
  | true, some i => match (q.sp i).reservation with
    | none => true
    | some r => decide (r = p)
  | _, _ => true

/-- Check 7 (R168): the spindle takes queued commands. -/
def Lubran.stateOk (q : Lubran) (a : Ask) : Bool :=
  match a.queued, a.unit with
  | true, some i => match (q.sp i).life with
    | .ready | .recalibrating | .buildingMap => true
    | _ => false
  | _, _ => true

/-- Check 8 (R42, R168): the queue has room for a host entry. -/
def Lubran.roomOk (q : Lubran) (a : Ask) : Bool :=
  match a.queued, a.unit with
  | true, some i => decide ((q.sp i).queue.length < Config.queueCapacity)
  | _, _ => true

/-- Checks 2 to 8 in their order (R168): the code of the first that fails. -/
def Lubran.refusal (q : Lubran) (p : Port) (a : Ask) : Option EndCode :=
  if (q.port p).tags.get a.tag then some .tagInUse
  else if q.addressOk a = false then some .addressOutOfRange
  else if a.authority ∧ (q.port p).authority = false then some .notAuthorized
  else if (q.port p).fenceOk a = false then some .extentViolation
  else if q.reservationOk p a = false then some .reservedElsewhere
  else if q.stateOk a = false then some .notReady
  else if q.roomOk a = false then some .queueFull
  else none

/-- A refused command gets its ending at once (R167, R170). -/
def Lubran.refuse (q : Lubran) (p : Port) (kind : Nat) (payload : List Byte) (code : EndCode) : Lubran :=
  q.pushEnding p (tagByte payload) (byteOf kind) code (refusedResidual kind payload) []

/-- A command of the allegiant port that passes the field check ends the allegiance of the spindle it names
(R149). -/
def Lubran.endNamedAllegiance (q : Lubran) (p : Port) (a : Ask) : Lubran :=
  match a.unit with
  | some i => q.endAllegianceOf p i
  | none => q

/-- Takes a command (R168): the field check, the end of its own allegiance, checks 2 to 8, and its effect. -/
def Lubran.intake {α : Type} (q : Lubran) (p : Port) (kind : Nat) (payload : List Byte)
    (fields : Option (Ask × α)) (effect : Ask → α → Lubran → Lubran) : Lubran :=
  match fields with
  | none => q.refuse p kind payload .badField
  | some (a, x) =>
      let q := q.endNamedAllegiance p a
      match q.refusal p a with
      | some code => q.refuse p kind payload code
      | none => effect a x q

/-- Receives a command frame and takes its command. -/
def Lubran.command {α : Type} (q : Lubran) (p : Port) (kind : Nat) (f : HostFrame)
    (fields : Option (Ask × α)) (effect : Ask → α → Lubran → Lubran) : Lubran :=
  q.receive p kind f fun q => q.intake p kind f.payload fields effect

/-- The ENDING of an immediate command (R167, R170). -/
def Lubran.answer (q : Lubran) (p : Port) (a : Ask) (kind : Nat) (code : EndCode) (reply : List Byte := []) :
    Lubran :=
  q.pushEnding p (byteOf a.tag.val) (byteOf kind) code 0 reply

/-- Places a queued command at the tail of its spindle's queue (R42, R43): its tag is in use, and its placement may
be a selection event (R48). -/
def Lubran.place (q : Lubran) (p : Port) (i : Spindle) (t : Tag) (kind : EntryKind) (c : TrackCmd) : Lubran :=
  ((q.setTag p t true).modSp i fun u =>
    { u with queue := u.queue ++ [newEntry (.host p t) kind c.cyl c.head c.first c.count c.writeVerify
                                    c.cmpOffset c.cmpBytes u.revs] }).selectionEvent i

/-- Places a queued command on the spindle it names. -/
def Lubran.placeFor (q : Lubran) (p : Port) (a : Ask) (kind : EntryKind) (c : TrackCmd) : Lubran :=
  match a.unit with
  | some i => q.place p i a.tag kind c
  | none => q

/-- The fields of a queued command that names no track (R43). -/
def TrackCmd.bare (n : Nat) : TrackCmd :=
  { spindle := n, cyl := 0, head := 0, first := 0, count := 0, writeVerify := false, cmpOffset := 0, cmpBytes := [] }

end Sys2Proof.Machine
end

