-- ==== Sys2Proof/Machine/Frames.lean ====
section
/-! DEFINITION. The frames that are no commands: DATA (R84, R85), RESET PORT (R178), and the frames a receiver
rejects or drops (R179, R180). -/

namespace Sys2Proof.Machine

/-! ## DATA (R84, R85) -/

/-- Places 256 bytes in a block at a fragment's offset (R84). -/
def spliceFragment (block : List Byte) (frag : Nat) (bytes : List Byte) : List Byte :=
  block.take (256 * frag) ++ bytes ++ block.drop (256 * (frag + 1))

/-- A slot takes its next fragment (R84). -/
def StagingSlot.take (s : StagingSlot) (frag : Nat) (bytes : List Byte) : StagingSlot :=
  { s with bytes := spliceFragment s.bytes frag bytes, frags := s.frags + 1
           state := if s.frags + 1 < 4 then .filling else .full }

/-- The HOST slot that a fragment goes into (R84). -/
def Lubran.fragmentSlot (q : Lubran) (e : Entry) (block frag : Nat) : Option (Fin 8) :=
  if e.inService ∧ (e.kind = .write ∨ e.kind = .guardedWrite) then
    match q.slotFor e.owner block .host with
    | some i =>
        let sl := q.slot i
        if (sl.state = .reserved ∨ sl.state = .filling) ∧ sl.frags = frag then some i else none
    | none => none
  else none

/-- A command ends UNREQUESTED DATA (R85): one that is QUEUED is removed at once, with sense and allegiance. -/
def Lubran.unrequested (q : Lubran) (i : Spindle) (e : Entry) : Lubran :=
  if e.inService then q.decideEnding i .unrequestedData
  else (q.handOver i e .unrequestedData []).modSp i fun u => u.dropEntry e.owner

/-- A DATA frame with a good check reaches the Data Path (R84, R85). -/
def Lubran.takeData (q : Lubran) (p : Port) (f : DataFrame) : Lubran :=
  match tagOf f.tag with
  | none => q
  | some t =>
      match q.findEntry (.host p t) with
      | none => q
      | some (i, e) =>
          if e.abandoned then q
          else
            match q.fragmentSlot e (f.seq.toNat / 4) (f.seq.toNat % 4) with
            | some j => q.modSlot j fun s => s.take (f.seq.toNat % 4) f.bytes.toList
            | none => q.unrequested i e

/-- DATA FRAME CHECK is reported with a tag as received (R85). -/
def Lubran.dataFrameBad (q : Lubran) (p : Port) (tag : Byte) : Lubran :=
  match tagOf tag with
  | none => q
  | some t =>
      match q.findEntry (.host p t) with
      | none => q
      | some (i, e) =>
          if e.inService ∧ (e.kind = .write ∨ e.kind = .guardedWrite) then q.decideEnding i .dataFrameCheck else q

/-- DATA (R84, R85, R179): a frame for this port; one whose check fails is DATA FRAME CHECK. -/
def execData (p : Port) (f : DataFrame) (s : State) : Host.Outcome State Fault Refusal :=
  s.run fun q => q.onUp p fun q =>
    if (q.port p).keeps f.addr kindData then
      if dataGood f then q.takeData p f else q.dataFrameBad p f.tag
    else q

/-- A START ends a hold (R181). -/
def Lubran.resume (q : Lubran) (p : Port) : Lubran := q.modPort p fun r => { r with paused := false }

/-- DATA_FRAME_CHECK (R85, R179, R180): a DATA frame for this port with a bad check, or one that a START cuts. -/
def execDataFrameCheck (p : Port) (d : DamagedData) (s : State) : Host.Outcome State Fault Refusal :=
  s.run fun q => q.onUp p fun q =>
    match d with
    | .badCheck f =>
        if (q.port p).keeps f.addr kindData ∧ dataGood f = false then q.dataFrameBad p f.tag else q
    | .cut bytes =>
        let q := q.resume p
        match bytes with
        | addr :: kind :: rest =>
            if kind.toNat = kindData ∧ (q.port p).keeps addr kindData then q.dataFrameBad p (rest.headD 255)
            else q
        | _ => q

/-! ## RESET PORT (R178) -/

/-- RESET_PORT (R178, R179): with no payload it tears the port down and leaves the link UP. -/
def execResetPort (p : Port) (f : HostFrame) (s : State) : Host.Outcome State Fault Refusal :=
  s.run fun q => q.receive p kindResetPort f fun q =>
    match f.payload with
    | [] => q.teardown p
    | _ :: _ => q.pushReject p .frameLength (byteOf kindResetPort) 255

/-! ## Frames that are rejected or dropped (R179, R180) -/

/-- UNKNOWN_KIND (R179). A broadcast frame of such a kind is ignored. -/
def execUnknownKind (p : Port) (addr kind : Byte) (s : State) : Host.Outcome State Fault Refusal :=
  s.run fun q => q.onUp p fun q =>
    if (q.port p).keeps addr kind.toNat ∧ isHostKind kind.toNat = false then q.pushReject p .unknownKind kind 255
    else q

/-- A frame whose length is refused (R179): step 4 refuses a length byte above 48, and step 5, after the check, a RESET
PORT with a payload. -/
def Lubran.refuseLength (q : Lubran) (p : Port) (addr kind : Byte) : RefusedLength → Lubran
  | .long len => q.onUp p fun q =>
      if (q.port p).keeps addr kind.toNat ∧ isHostKind kind.toNat ∧ kind.toNat ≠ kindData ∧
          Config.maxPayload < len.toNat then
        q.pushReject p .frameLength kind 255
      else q
  | .whole payload check =>
      if kind.toNat = kindResetPort then
        q.receive p kindResetPort { addr := addr, payload := payload, check := check } fun q =>
          if payload = [] then q else q.pushReject p .frameLength (byteOf kindResetPort) 255
      else q.onUp p id

/-- FRAME_LENGTH (R179). -/
def execFrameLength (p : Port) (addr kind : Byte) (len : RefusedLength) (s : State) :
    Host.Outcome State Fault Refusal :=
  s.run fun q => q.refuseLength p addr kind len

/-- FRAME_CHECK (R179). -/
def execFrameCheck (p : Port) (kind : Byte) (f : HostFrame) (s : State) : Host.Outcome State Fault Refusal :=
  s.run fun q => q.onUp p fun q =>
    if (q.port p).keeps f.addr kind.toNat ∧ isHostKind kind.toNat ∧ kind.toNat ≠ kindData ∧
        f.payload.length ≤ Config.maxPayload ∧ f.check ≠ frameCheck f.addr kind f.payload then
      q.pushReject p .frameCheck kind 255
    else q

/-- The kind and the tag that a cut non-data frame's REJECT carries, or none when the frame is not for this port,
is a DATA frame, or is being ignored (R180). A frame cut before its address byte has come counts as one for this port
(DESIGN CHOICE, log entry 51). -/
def LinkPort.cutReject (r : LinkPort) : List Byte → Option (Byte × Byte)
  | [] => some (255, 255)
  | [addr] => if r.recognise addr = .no then none else some (255, 255)
  | addr :: kind :: rest =>
      if r.keeps addr kind.toNat ∧ isHostKind kind.toNat ∧ kind.toNat ≠ kindData then
        match rest with
        | [] => some (kind, 255)
        | len :: payload =>
            if Config.maxPayload < len.toNat then none
            else if len = 0 ∨ kind.toNat = kindResetPort then some (kind, 255)
            else some (kind, payload.headD 255)
      else none

/-- FRAME_CUT (R180): a START inside a frame; the bytes taken of the frame, the address first. -/
def execFrameCut (p : Port) (bytes : List Byte) (s : State) : Host.Outcome State Fault Refusal :=
  s.run fun q => q.onUp p fun q =>
    let q := q.resume p
    match (q.port p).cutReject bytes with
    | some (kind, tag) => q.pushReject p .frameCut kind tag
    | none => q

end Sys2Proof.Machine
end

