-- ==== Sys2Proof/Machine/Immediate.lean ====
section
/-! DEFINITION. The immediate commands that change state: START SPINDLE (R5), RELEASE (R143), BREAK RESERVATION
(R144), CANCEL (R61), SENSE (R164), SPARE TRACK (R126), NOTIFY (R160), SET STRING (R174) and SET PORT (R175). -/

namespace Sys2Proof.Machine

/-! ## START SPINDLE (R5) -/

/-- A spindle enters SPINNING_UP (R5), and SPEED-OK is tested on that entry (R6). -/
def Lubran.spinUp (q : Lubran) (i : Spindle) : Lubran :=
  let q := q.modSp i fun u =>
    { u with life := .spinningUp, faultReason := .none, spin := true, spinTimer := some Config.spinUpLoad }
  if (q.sp i).lines.speedOk then q.spunUp i else q

/-- START SPINDLE takes effect in STOPPED and FAULTED alone (R5). -/
def Lubran.startSpindle (q : Lubran) (i : Spindle) : Lubran :=
  match (q.sp i).life with
  | .stopped | .faulted => q.spinUp i
  | .absent | .spinningUp | .recalibrating | .buildingMap | .ready => q

/-- START_SPINDLE (R5). -/
def execStartSpindle (p : Port) (f : HostFrame) (s : State) : Host.Outcome State Fault Refusal :=
  s.run fun q => q.command p 16 f (parseStart f.payload) fun a _ q =>
    match a.unit with
    | some i => (q.startSpindle i).answer p a 16 .good
    | none => q

/-! ## RELEASE and BREAK RESERVATION (R143, R144) -/

/-- The reservation of a spindle is cleared. -/
def Lubran.clearReservation (q : Lubran) (i : Spindle) : Lubran := q.modSp i fun u => { u with reservation := none }

/-- RELEASE (R143). -/
def execRelease (p : Port) (f : HostFrame) (s : State) : Host.Outcome State Fault Refusal :=
  s.run fun q => q.command p 17 f (parsePlainSpindle f.payload) fun a _ q =>
    match a.unit with
    | some i =>
        if (q.sp i).reservation = some p then (q.clearReservation i).answer p a 17 .good
        else q.answer p a 17 .notHolder
    | none => q

/-- BREAK_RESERVATION (R144): the former holder is told, whatever the routing mask. -/
def execBreakReservation (p : Port) (f : HostFrame) (s : State) : Host.Outcome State Fault Refusal :=
  s.run fun q => q.command p 18 f (parseBreak f.payload) fun a _ q =>
    match a.unit with
    | some i =>
        let q := match (q.sp i).reservation with
          | some r => (q.clearReservation i).raiseAt r (.spindle i) (.reservationBroken p)
          | none => q
        q.answer p a 18 .good
    | none => q

/-! ## CANCEL (R61, R62) -/

/-- CANCEL (R61): a QUEUED entry leaves with CANCELLED, handed over first; anything else goes on. -/
def execCancel (p : Port) (f : HostFrame) (s : State) : Host.Outcome State Fault Refusal :=
  s.run fun q => q.command p 19 f (parseCancel f.payload) fun a t q =>
    match q.findEntry (.host p t) with
    | some (i, e) =>
        if e.inService then q.answer p a 19 .notCancellable
        else ((q.modSp i fun u => u.dropEntry e.owner).giveEnding e .cancelled []).answer p a 19 .good
    | none => q.answer p a 19 .notCancellable

/-! ## SENSE (R164) -/

/-- A byte field that may be absent: 255 (R170). -/
def optByte (n : Option Nat) : Byte := byteOf (n.getD 255)

/-- A field of two bytes that may be absent: 65535 (R170). -/
def optBytes16 (n : Option Nat) : List Byte := bytesOf16 (n.getD 65535)

/-- The reply of SENSE, 17 bytes (R170). The byte of sense pending is 1 where it is set and 0 where it is clear (PRESUMED, log
entry 56), and 0 with an empty record (DEDUCED, log entry 50). -/
def senseReply : Option SenseRec → List Byte
  | none => 0 :: 0 :: List.replicate 15 255
  | some r =>
      let addr (g : LogicalAddr → Nat) : Byte := optByte (r.logical.map g)
      [1, if r.pending then 1 else 0, byteOf r.tag.val, byteOf (endCode r.code), byteOf r.spindle.val] ++
        optBytes16 (r.logical.map LogicalAddr.cyl) ++ [addr LogicalAddr.head, addr LogicalAddr.first,
          addr LogicalAddr.count] ++ optBytes16 (r.physical.map Track.cyl) ++
        [optByte (r.physical.map Track.head), optByte r.endBlock, byteOf r.retries, byteOf r.lost,
          byteOf ((if r.fault then 1 else 0) + (if r.speedOk then 2 else 0))]

/-- Sense pending of a port's record is cleared (R164). -/
def LinkPort.senseTaken (r : LinkPort) : LinkPort := { r with sense := r.sense.map fun x => { x with pending := false } }

/-- SENSE (R149, R164). -/
def execSense (p : Port) (f : HostFrame) (s : State) : Host.Outcome State Fault Refusal :=
  s.run fun q => q.command p 20 f (parseSense f.payload) fun a _ q =>
    let q := allSpindles.foldl (fun q i => q.endAllegianceOf p i) q
    (q.answer p a 20 .good (senseReply (q.port p).sense)).modPort p LinkPort.senseTaken

/-! ## SPARE TRACK (R126) -/

/-- SPARE_TRACK (R126): the admission tests in their order; the ending is handed over when they are decided. -/
def execSpareTrack (p : Port) (f : HostFrame) (s : State) : Host.Outcome State Fault Refusal :=
  s.run fun q => q.command p 21 f (parseSpare f.payload) fun a x q =>
    match a.unit with
    | none => q
    | some i =>
        let home : Track := { cyl := physicalCyl x.2.1, head := x.2.2 }
        if q.isSparing i home then q.answer p a 21 .good
        else if q.sparing.length < Config.pendingCapacity then
          (q.answer p a 21 .good).admitSpare { spindle := i, home := home, trigger := .requested p }
        else q.answer p a 21 .busy

/-! ## NOTIFY (R160) -/

/-- The ports at which a NOTIFY is taken: its targets, but for the sender and the ports not UP (R160). -/
def Lubran.notifyTakers (q : Lubran) (p : Port) (targets : Vector Bool 4) : List Port :=
  allPorts.filter fun r => targets.get r && decide (r ≠ p ∧ (q.port r).link = .up)

/-- NOTIFY (R160). -/
def execNotify (p : Port) (f : HostFrame) (s : State) : Host.Outcome State Fault Refusal :=
  s.run fun q => q.command p 22 f (parseNotify f.payload) fun a x q =>
    let takers := q.notifyTakers p x.1
    (q.raiseEach takers (.port p) (.notify x.2)).answer p a 22 .good
      [portSetByte (Vector.ofFn fun r => decide (r ∈ takers))]

/-! ## Settings (R174, R175) -/

/-- SET STRING replaces the parameters, the auto-spare flags and the routing masks, and empties the served set
(R78, R174). -/
def Lubran.setString (q : Lubran) (x : StringSettings) : Lubran :=
  { q with
    params := x.params, served := []
    spindles := Vector.ofFn fun i =>
      { q.sp i with autoSpare := bitOf x.autoSpare i.val, mask := portSet (x.masks.get i) } }

/-- SET_STRING (R174). -/
def execSetString (p : Port) (f : HostFrame) (s : State) : Host.Outcome State Fault Refusal :=
  s.run fun q => q.command p 48 f (parseSetString f.payload) fun a x q => (q.setString x).answer p a 48 .good

/-- An ENDING that waits no longer changes the divisor: a later SET PORT of its port has. -/
def ReplyFrame.plain : ReplyFrame → ReplyFrame
  | .ending t k c r b _ => .ending t k c r b none
  | .reject r k t => .reject r k t

/-- The settable part of a port record is replaced (R175). -/
def LinkPort.configure (r : LinkPort) (x : PortSettings) : LinkPort :=
  { r with second := x.second, priority := x.priority, divisor := x.divisor, fences := x.fences,
           fencesOn := x.fencesOn }

/-- SET PORT takes effect on its target; the target's divisor is used from the next frame it begins, which for the
sender's own port is the one after this command's ENDING (R175, R181). -/
def Lubran.setPort (q : Lubran) (p : Port) (a : Ask) (x : PortSettings) : Lubran :=
  let q := q.modPort x.target fun r => r.configure x
  if x.target = p then q.pushReply p (.ending (byteOf a.tag.val) 49 .good 0 [] (some x.divisor))
  else
    (q.modPort x.target fun r =>
      { r with rateNext := x.divisor, replies := r.replies.map ReplyFrame.plain }).answer p a 49 .good

/-- SET_PORT (R175). -/
def execSetPort (p : Port) (f : HostFrame) (s : State) : Host.Outcome State Fault Refusal :=
  s.run fun q => q.command p 49 f (parseSetPort f.payload) fun a x q => q.setPort p a x

end Sys2Proof.Machine
end

