-- ==== Sys2Proof/Machine/Queries.lean ====
section
/-! DEFINITION. The queries (R67, R118, R140, R172, R173): QUERY SPINDLE, QUERY STRING, READ SPARE MAP and READ
SUSPECTS, with their replies. -/

namespace Sys2Proof.Machine

/-- The in-service entry in the reply of QUERY SPINDLE: origin, tag, kind and state, each 255 when there is none
(R172). -/
def currentBytes : Option Entry → List Byte
  | none => [255, 255, 255, 255]
  | some e =>
      let (origin, tag) : Nat × Nat := match e.owner with
        | .host p t => (p.val, t.val)
        | .internal => (4, 255)
      [byteOf origin, byteOf tag, byteOf (kindCode e.kind), byteOf (entryStateCode e.state)]

/-- The reply of QUERY SPINDLE, 23 bytes (R172). -/
def SpindleUnit.queryReply (u : SpindleUnit) : List Byte :=
  [byteOf (lifeCode u.life), byteOf (faultCode u.faultReason), byteOf (actCode u.chan.state),
    byteOf ((if u.chan.posKnown then 1 else 0) + (if u.internal.isSome then 2 else 0))] ++
  bytesOf16 u.chan.cyl ++ [byteOf u.chan.head, byteOf u.queue.length] ++ currentBytes u.current ++
  [portByte u.reservation, portByte (u.allegiance.map Prod.fst)] ++ bytesOf16 u.revs ++
  [byteOf (mapStateCode u.mapState), byteOf u.freeCount, byteOf u.inUseCount, byteOf u.retiredCount] ++
  bytesOf16 u.generation ++ [optByte (u.build.map BuildRec.next)]

/-- QUERY_SPINDLE (R172). -/
def execQuerySpindle (p : Port) (f : HostFrame) (s : State) : Host.Outcome State Fault Refusal :=
  s.run fun q => q.command p kindQuerySpindle f (parsePlainSpindle f.payload) fun a _ q =>
    match a.unit with
    | some i => q.answer p a kindQuerySpindle .good (q.sp i).queryReply
    | none => q

/-- Flags of the eight spindles as one byte, bit n for spindle n (R174). -/
def Lubran.autoSpareByte (q : Lubran) : Byte :=
  byteOf ((allSpindles.map fun i => if (q.sp i).autoSpare then 2 ^ i.val else 0).sum)

/-- Page 0 of QUERY STRING: the layout of bytes 1 to 19 of SET STRING (R172, R174). -/
def Lubran.pageParams (q : Lubran) : List Byte :=
  let r := q.params
  bytesOf16 r.acc ++ [byteOf r.vmax, byteOf r.settle, byteOf r.ageLimit, byteOf r.lostRevLimit, byteOf r.softLimit,
    byteOf r.poolLow, byteOf r.allegianceTime, byteOf (arbCode r.arbMode), q.autoSpareByte] ++
  allSpindles.map fun i => portSetByte (q.sp i).mask

/-- The sequencer in page 1: its fields after the state are 255 while it is IDLE (R140, R172). In a state that has no
round, its copy step is the one the record last held, and SOURCE SEEK in a SELECT before the first round (DESIGN CHOICE,
log entry 54). -/
def Sequencer.queryBytes (s : Sequencer) : List Byte :=
  if s.state = .idle then [0, 255, 255, 255, 255, 255, 255]
  else
    [byteOf (seqStateCode s.state), optByte (s.spindle.map Fin.val)] ++ optBytes16 (s.home.map Track.cyl) ++
      [optByte (s.home.map Track.head), byteOf (copyStepCode s.step), byteOf s.copied]

/-- Page 1 of QUERY STRING: the status page (R172). -/
def Lubran.pageStatus (q : Lubran) : List Byte :=
  bytesOf16 q.spareMap.length ++ [byteOf q.suspects.length, byteOf q.sparing.length] ++ q.seq.queryBytes ++
    [portSetByte (Vector.ofFn fun p => (q.port p).authority)] ++
    allPorts.map fun p => byteOf (linkCode (q.port p).link)

/-- A fence in the layout of SET PORT (R175). -/
def Fence.bytes (f : Fence) : List Byte :=
  byteOf f.spindle :: bytesOf16 f.low ++ bytesOf16 f.high ++ [byteOf (permitCode f.permit)]

/-- Pages 2 to 5 of QUERY STRING: a port record (R172). Its two flags, authority and fences enabled, are 1 where set and 0
where clear (PRESUMED, log entry 56). -/
def LinkPort.page (r : LinkPort) : List Byte :=
  [byteOf r.primary, byteOf r.second, byteOf r.priority, byteOf r.divisor, if r.authority then 1 else 0,
    if r.fencesOn then 1 else 0, byteOf r.fences.length] ++ r.fences.flatMap Fence.bytes

/-- The page a QUERY STRING names (R172). -/
def Lubran.page (q : Lubran) : Nat → List Byte
  | 0 => q.pageParams
  | 1 => q.pageStatus
  | 2 => (q.port 0).page
  | 3 => (q.port 1).page
  | 4 => (q.port 2).page
  | _ => (q.port 3).page

/-- QUERY_STRING (R172). -/
def execQueryString (p : Port) (f : HostFrame) (s : State) : Host.Outcome State Fault Refusal :=
  s.run fun q => q.command p kindQueryString f (parseQueryString f.payload) fun a page q =>
    q.answer p a kindQueryString .good (q.page page)

/-- The generation of an alternate's pool record (R173). -/
def SpindleUnit.poolGeneration (u : SpindleUnit) (alt : Track) : Nat :=
  match u.pool[altIndex alt]? with
  | some (.inUse _ g) => g
  | _ => 0

/-- One Spare Map entry of a reply, 9 bytes (R173). -/
def Lubran.mapEntryBytes (q : Lubran) (m : MapEntry) : List Byte :=
  byteOf m.spindle.val :: bytesOf16 m.home.cyl ++ [byteOf m.home.head] ++ bytesOf16 m.alt.cyl ++
    [byteOf m.alt.head] ++ bytesOf16 ((q.sp m.spindle).poolGeneration m.alt)

/-- The reply of READ SPARE MAP (R118, R173). -/
def Lubran.mapReply (q : Lubran) (start : Nat) : List Byte :=
  let shown := (q.spareMap.drop start).take 4
  bytesOf16 q.spareMap.length ++ bytesOf16 start ++ [byteOf shown.length] ++ shown.flatMap q.mapEntryBytes

/-- READ_SPARE_MAP (R173). -/
def execReadSpareMap (p : Port) (f : HostFrame) (s : State) : Host.Outcome State Fault Refusal :=
  s.run fun q => q.command p 34 f (parseReadMap f.payload) fun a start q => q.answer p a 34 .good (q.mapReply start)

/-- One suspect of a reply, 9 bytes (R173). -/
def Suspect.bytes (s : Suspect) : List Byte :=
  byteOf s.spindle.val :: bytesOf16 s.track.cyl ++ [byteOf s.track.head, byteOf s.soft, byteOf s.hard] ++
    bytesOf16 s.lastSeen ++ [byteOf ((if s.candidate then 1 else 0) + (if s.advised then 2 else 0))]

/-- The reply of READ SUSPECTS (R140, R173). -/
def Lubran.suspectsReply (q : Lubran) (start : Nat) : List Byte :=
  let shown := (q.suspects.drop start).take 4
  [byteOf q.suspects.length, byteOf start, byteOf shown.length] ++ shown.flatMap Suspect.bytes

/-- READ_SUSPECTS (R173). -/
def execReadSuspects (p : Port) (f : HostFrame) (s : State) : Host.Outcome State Fault Refusal :=
  s.run fun q => q.command p 35 f (parseReadSuspects f.payload) fun a start q =>
    q.answer p a 35 .good (q.suspectsReply start)

end Sys2Proof.Machine
end

