-- ==== Sys2Proof/Machine/Queued.lean ====
section
/-! DEFINITION. The positioning commands (R166, R168): each is received, checked and placed on its spindle's queue.
What each does in service stands with the selector, the channel and the Data Path. -/

namespace Sys2Proof.Machine

/-- READ (R166, R168). -/
def execRead (p : Port) (f : HostFrame) (s : State) : Host.Outcome State Fault Refusal :=
  s.run fun q => q.command p (kindCode .read) f (parseTransfer .read f.payload) fun a c q => q.placeFor p a .read c

/-- WRITE (R166, R168). -/
def execWrite (p : Port) (f : HostFrame) (s : State) : Host.Outcome State Fault Refusal :=
  s.run fun q => q.command p (kindCode .write) f (parseTransfer .write f.payload) fun a c q => q.placeFor p a .write c

/-- VERIFY (R166, R168). -/
def execVerify (p : Port) (f : HostFrame) (s : State) : Host.Outcome State Fault Refusal :=
  s.run fun q =>
    q.command p (kindCode .verify) f (parseTransfer .verify f.payload) fun a c q => q.placeFor p a .verify c

/-- GUARDED_WRITE (R166, R168). -/
def execGuardedWrite (p : Port) (f : HostFrame) (s : State) : Host.Outcome State Fault Refusal :=
  s.run fun q =>
    q.command p (kindCode .guardedWrite) f (parseGuarded f.payload) fun a c q => q.placeFor p a .guardedWrite c

/-- RECALIBRATE (R59, R168). -/
def execRecalibrate (p : Port) (f : HostFrame) (s : State) : Host.Outcome State Fault Refusal :=
  s.run fun q =>
    q.command p (kindCode .recalibrate) f (parseQueuedSpindle f.payload) fun a n q =>
      q.placeFor p a .recalibrate (.bare n)

/-- RESERVE (R142, R168). -/
def execReserve (p : Port) (f : HostFrame) (s : State) : Host.Outcome State Fault Refusal :=
  s.run fun q =>
    q.command p (kindCode .reserve) f (parseQueuedSpindle f.payload) fun a n q =>
      q.placeFor p a .reserve (.bare n)

/-- STOP_SPINDLE (R10, R168). -/
def execStopSpindle (p : Port) (f : HostFrame) (s : State) : Host.Outcome State Fault Refusal :=
  s.run fun q =>
    q.command p (kindCode .stopSpindle) f (parseQueuedSpindle f.payload) fun a n q =>
      q.placeFor p a .stopSpindle (.bare n)

end Sys2Proof.Machine
end

