-- ==== Sys2Proof/Machine/Resets.lean ====
section
/-! DEFINITION. The resets: power-on reset and pin reset (R4), and the string reset that RESET STRING makes (R176). -/

namespace Sys2Proof.Machine

/-! ## Power-on reset and pin reset (R4) -/

/-- The part after power-on or pin reset (R4, R5, R6): every field at its reset value, the straps read again, and
SPEED-OK tested on each spindle that enters SPINNING_UP. The drives' lines are inputs and keep their levels. -/
def Lubran.hardReset (q : Lubran) (straps : Straps) : Lubran :=
  let q := Lubran.initial straps (Vector.ofFn fun i => (q.sp i).lines)
  allSpindles.foldl
    (fun q i => if (q.sp i).life = .spinningUp ∧ (q.sp i).lines.speedOk then q.spunUp i else q) q

/-- POWER_ON_RESET (R4). -/
def execPowerOnReset (straps : Straps) (s : State) : Host.Outcome State Fault Refusal :=
  s.run fun q => q.hardReset straps

/-- PIN_RESET (R4): the same values as at power-on reset. -/
def execPinReset (straps : Straps) (s : State) : Host.Outcome State Fault Refusal :=
  s.run fun q => q.hardReset straps

/-! ## String reset (R176) -/

/-- String reset takes every entry, reservation, allegiance and transfer off a spindle (R26, R66, R94). -/
def SpindleUnit.dropWork (u : SpindleUnit) : SpindleUnit :=
  { u with queue := [], internal := none, reservation := none, allegiance := none, waitReq := none,
           selectDue := false, xfer := XferRec.clear, readGate := false, writeGate := false }

/-- String reset makes a spindle at speed RECALIBRATING, its motion abandoned (R26). -/
def SpindleUnit.toRecal (u : SpindleUnit) : SpindleUnit :=
  if u.atSpeed then { u with life := .recalibrating, chan := u.chan.stop } else u

/-- String reset abandons a map build, and that spindle's map is NOT BUILT; a BUILT map stays (R116). -/
def SpindleUnit.dropBuild (u : SpindleUnit) : SpindleUnit :=
  match u.mapState with
  | .building => { u with mapState := .notBuilt, pool := [], generation := 0, build := none }
  | .notBuilt | .built => u

/-- What string reset leaves of a spindle position, before its recalibration starts (R26, R66, R94, R116). -/
def SpindleUnit.stringReset (u : SpindleUnit) : SpindleUnit := u.dropWork.toRecal.dropBuild

/-- What string reset leaves of a port: no tag, no sense, no notice, and nothing waiting in its transmitter (R94,
R162, R164, R167, R176). A frame already begun is finished, and a hold goes on. A divisor held back for the ENDING of its
SET PORT is used from the next frame (DESIGN CHOICE, log entry 52). -/
def LinkPort.stringReset (r : LinkPort) : LinkPort :=
  { r with tags := Vector.replicate 4 false, sense := none, notices := [], replies := [], requests := [],
           drains := [], rateNext := r.divisor
           sending := match r.sending with
             | some (.data t b k bytes _) => some (.data t b k bytes none)
             | f => f }

/-- The part after every block has been reset (R176), before the recalibrations start. -/
def Lubran.clearString (q : Lubran) : Lubran :=
  let building (i : Spindle) : Bool := decide ((q.sp i).mapState = .building)
  { q.noteCutWrite with
    spindles := q.spindles.map SpindleUnit.stringReset
    ports := q.ports.map LinkPort.stringReset
    path := PathRec.idle
    slots := q.slots.map StagingSlot.clear
    waiting := [], served := []
    spareMap := q.spareMap.filter fun m => !building m.spindle
    suspects := [], sparing := []
    seq := Sequencer.initial }

/-- String reset (R26, R176): every block is reset, STRING RESET is raised at each port that is UP, and the
spindles at speed recalibrate. -/
def Lubran.stringReset (q : Lubran) (sender : Port) : Lubran :=
  let q := q.clearString.raiseEach allPorts .nothing (.stringReset sender)
  allSpindles.foldl (fun q i => if (q.sp i).life = .recalibrating then q.startRecal i else q) q

/-- RESET_STRING (R176). -/
def execResetString (p : Port) (f : HostFrame) (s : State) : Host.Outcome State Fault Refusal :=
  s.run fun q => q.command p 50 f (parseReset f.payload) fun a _ q => (q.stringReset p).answer p a 50 .good

end Sys2Proof.Machine
end

