-- ==== Sys2Proof/Machine/Dispatch.lean ====
section
/-! DEFINITION. The dispatch: one arm for each command, each a call of its meaning. -/

namespace Sys2Proof.Machine

/-- The effect of a command on everything but the queue of waiting commands. -/
def exec (i : Instr) (s : State) : Host.Outcome State Fault Refusal :=
  match i with
  | .powerOnReset straps => Sys2Proof.Machine.execPowerOnReset straps s
  | .pinReset straps => Sys2Proof.Machine.execPinReset straps s
  | .read p f => Sys2Proof.Machine.execRead p f s
  | .write p f => Sys2Proof.Machine.execWrite p f s
  | .verify p f => Sys2Proof.Machine.execVerify p f s
  | .guardedWrite p f => Sys2Proof.Machine.execGuardedWrite p f s
  | .recalibrate p f => Sys2Proof.Machine.execRecalibrate p f s
  | .reserve p f => Sys2Proof.Machine.execReserve p f s
  | .stopSpindle p f => Sys2Proof.Machine.execStopSpindle p f s
  | .startSpindle p f => Sys2Proof.Machine.execStartSpindle p f s
  | .release p f => Sys2Proof.Machine.execRelease p f s
  | .breakReservation p f => Sys2Proof.Machine.execBreakReservation p f s
  | .querySpindle p f => Sys2Proof.Machine.execQuerySpindle p f s
  | .cancel p f => Sys2Proof.Machine.execCancel p f s
  | .sense p f => Sys2Proof.Machine.execSense p f s
  | .resetString p f => Sys2Proof.Machine.execResetString p f s
  | .spareTrack p f => Sys2Proof.Machine.execSpareTrack p f s
  | .notify p f => Sys2Proof.Machine.execNotify p f s
  | .queryString p f => Sys2Proof.Machine.execQueryString p f s
  | .readSpareMap p f => Sys2Proof.Machine.execReadSpareMap p f s
  | .readSuspects p f => Sys2Proof.Machine.execReadSuspects p f s
  | .setString p f => Sys2Proof.Machine.execSetString p f s
  | .setPort p f => Sys2Proof.Machine.execSetPort p f s
  | .data p f => Sys2Proof.Machine.execData p f s
  | .dataFrameCheck p d => Sys2Proof.Machine.execDataFrameCheck p d s
  | .resetPort p f => Sys2Proof.Machine.execResetPort p f s
  | .unknownKind p addr kind => Sys2Proof.Machine.execUnknownKind p addr kind s
  | .frameLength p addr kind len => Sys2Proof.Machine.execFrameLength p addr kind len s
  | .frameCheck p kind f => Sys2Proof.Machine.execFrameCheck p kind f s
  | .frameCut p bytes => Sys2Proof.Machine.execFrameCut p bytes s
  | .linkSymbolReceived p sym => Sys2Proof.Machine.execLinkSymbolReceived p sym s
  | .hold p => Sys2Proof.Machine.execHold p s
  | .linkTimerExpiry p => Sys2Proof.Machine.execLinkTimerExpiry p s
  | .frameSent p => Sys2Proof.Machine.execFrameSent p s
  | .dataFrameSent p => Sys2Proof.Machine.execDataFrameSent p s
  | .attentionFrameSent p => Sys2Proof.Machine.execAttentionFrameSent p s
  | .spinUpTimerExpiry sp => Sys2Proof.Machine.execSpinUpTimerExpiry sp s
  | .speedOkAsserted sp => Sys2Proof.Machine.execSpeedOkAsserted sp s
  | .speedOkDeasserted sp => Sys2Proof.Machine.execSpeedOkDeasserted sp s
  | .indexMark sp falls => Sys2Proof.Machine.execIndexMark sp falls s
  | .sectorMark sp falls => Sys2Proof.Machine.execSectorMark sp falls s
  | .crossing sp falls => Sys2Proof.Machine.execCrossing sp falls s
  | .guardAsserted sp => Sys2Proof.Machine.execGuardAsserted sp s
  | .faultAsserted sp => Sys2Proof.Machine.execFaultAsserted sp s
  | .onTrackAsserted sp => Sys2Proof.Machine.execOnTrackAsserted sp s
  | .settleCountExpiry sp => Sys2Proof.Machine.execSettleCountExpiry sp s
  | .seekDeadlineExpiry sp => Sys2Proof.Machine.execSeekDeadlineExpiry sp s
  | .recalLimitExpiry sp => Sys2Proof.Machine.execRecalLimitExpiry sp s
  | .allegianceExpiry sp => Sys2Proof.Machine.execAllegianceExpiry sp s
  | .blockIdRead id => Sys2Proof.Machine.execBlockIdRead id s
  | .fieldEnd bytes check => Sys2Proof.Machine.execFieldEnd bytes check s
  | .headerFieldEnd bytes written => Sys2Proof.Machine.execHeaderFieldEnd bytes written s

end Sys2Proof.Machine
end

