-- ==== Sys2Proof/Safety.lean ====
section
/-! DEFINITION. What counts as a sound state and a sound step, in the terms the statements use: a part that has
come to rest, the ranges and capacities the manual gives its records, what a command frame must be to be
taken, and what a command row asks for. -/

namespace Sys2Proof.Machine

/-- The part has come to rest: no consequence is left to be taken (R16, R48, R77, R129), and no idle
transmitter has a frame it could begin (R182). -/
abbrev Lubran.Settled (q : Lubran) : Prop := q.atRest = true ∧ q.kickAll = q

/-- A spindle position keeps within the ranges of its records: slots 0 to 95 (R23), one missing index at most
(R25), cylinders 0 to 559 (R13), a 16-bit revolution counter (R46), a generation of 65535 at most (R103) and
eight host entries at most (R42). -/
abbrev SpindleUnit.Bounded (u : SpindleUnit) : Prop :=
  u.slot < Config.slotsPerRev ∧ u.missing ≤ 1 ∧ u.chan.cyl < Config.cylinders ∧ u.revs < 65536 ∧
    u.generation ≤ 65535 ∧ u.queue.length ≤ Config.queueCapacity

/-- The rejects that wait in a transmitter (R180). -/
def LinkPort.rejects (r : LinkPort) : Nat := (r.replies.filter ReplyFrame.isReject).length

/-- The part keeps within the ranges and the capacities of its lists: each spindle position, four rejects a
port (R180), 384 map entries (R95), 32 suspects (R120) and 8 pending reassignments (R125). -/
abbrev Lubran.Bounded (q : Lubran) : Prop :=
  (∀ i, (q.sp i).Bounded) ∧ (∀ p, (q.port p).rejects ≤ Config.rejectCapacity) ∧
    q.spareMap.length ≤ Config.mapCapacity ∧ q.suspects.length ≤ Config.suspectCapacity ∧
    q.sparing.length ≤ Config.pendingCapacity

/-- The string parameters are within their ranges (R27, R174). -/
abbrev Params.InRange (r : Params) : Prop :=
  16 ≤ r.acc ∧ r.acc ≤ 1023 ∧ 1 ≤ r.vmax ∧ r.vmax ≤ 255 ∧ r.settle ≤ 31 ∧ 1 ≤ r.ageLimit ∧ r.ageLimit ≤ 63 ∧
    1 ≤ r.lostRevLimit ∧ r.lostRevLimit ≤ 63 ∧ 1 ≤ r.softLimit ∧ r.softLimit ≤ 15 ∧ r.poolLow ≤ 32 ∧
    6 ≤ r.allegianceTime ∧ r.allegianceTime ≤ 240

/-! ## Command frames -/

/-- A port takes a command frame of a kind: its link is UP, the frame is for it, short, and its check passes
(R177, R179). -/
abbrev Lubran.Hears (q : Lubran) (p : Port) (kind : Nat) (f : HostFrame) : Prop :=
  (q.port p).link = .up ∧ (q.port p).keeps f.addr kind = true ∧ f.payload.length ≤ Config.maxPayload ∧
    f.check = frameCheck f.addr (byteOf kind) f.payload

/-- The part when the acceptance checks are made: the frame has reloaded the link timer (R177), and the
allegiance of the port to the spindle named has ended (R149). -/
def Lubran.taking (q : Lubran) (p : Port) (a : Ask) : Lubran :=
  (q.modPort p LinkPort.reload).endNamedAllegiance p a

/-- No selection event comes of taking a command: where the port has the allegiance of the spindle it names, that
spindle has an entry in service or is not READY (R48, R149). -/
abbrev Lubran.NoEvent (q : Lubran) (p : Port) (a : Ask) : Prop :=
  ∀ i, a.unit = some i → (q.sp i).allegiance.map Prod.fst = some p → (q.sp i).life ≠ .ready ∨ q.current i ≠ none

/-- A spindle has an entry in service or is not READY, so that nothing is selected on it (R48). -/
abbrev Lubran.Engaged (q : Lubran) (i : Spindle) : Prop := (q.sp i).life ≠ .ready ∨ q.current i ≠ none

/-- What a command row asks: its port and frame, its kind code, and what the field check makes of the payload (R166,
R168); none for a row that is no command. -/
def request : Instr → Option (Port × HostFrame × Nat × Option Ask)
  | .read p f => some (p, f, 1, (parseTransfer .read f.payload).map Prod.fst)
  | .write p f => some (p, f, 2, (parseTransfer .write f.payload).map Prod.fst)
  | .verify p f => some (p, f, 3, (parseTransfer .verify f.payload).map Prod.fst)
  | .guardedWrite p f => some (p, f, 4, (parseGuarded f.payload).map Prod.fst)
  | .recalibrate p f => some (p, f, 5, (parseQueuedSpindle f.payload).map Prod.fst)
  | .reserve p f => some (p, f, 6, (parseQueuedSpindle f.payload).map Prod.fst)
  | .stopSpindle p f => some (p, f, 7, (parseQueuedSpindle f.payload).map Prod.fst)
  | .startSpindle p f => some (p, f, 16, (parseStart f.payload).map Prod.fst)
  | .release p f => some (p, f, 17, (parsePlainSpindle f.payload).map Prod.fst)
  | .breakReservation p f => some (p, f, 18, (parseBreak f.payload).map Prod.fst)
  | .cancel p f => some (p, f, 19, (parseCancel f.payload).map Prod.fst)
  | .sense p f => some (p, f, 20, (parseSense f.payload).map Prod.fst)
  | .spareTrack p f => some (p, f, 21, (parseSpare f.payload).map Prod.fst)
  | .notify p f => some (p, f, 22, (parseNotify f.payload).map Prod.fst)
  | .querySpindle p f => some (p, f, 32, (parsePlainSpindle f.payload).map Prod.fst)
  | .queryString p f => some (p, f, 33, (parseQueryString f.payload).map Prod.fst)
  | .readSpareMap p f => some (p, f, 34, (parseReadMap f.payload).map Prod.fst)
  | .readSuspects p f => some (p, f, 35, (parseReadSuspects f.payload).map Prod.fst)
  | .setString p f => some (p, f, 48, (parseSetString f.payload).map Prod.fst)
  | .setPort p f => some (p, f, 49, (parseSetPort f.payload).map Prod.fst)
  | .resetString p f => some (p, f, 50, (parseReset f.payload).map Prod.fst)
  | .powerOnReset _ | .pinReset _ | .data .. | .dataFrameCheck .. | .resetPort .. | .unknownKind ..
  | .frameLength .. | .frameCheck .. | .frameCut .. | .linkSymbolReceived .. | .hold _ | .linkTimerExpiry _
  | .frameSent _ | .dataFrameSent _ | .attentionFrameSent _ | .spinUpTimerExpiry _ | .speedOkAsserted _
  | .speedOkDeasserted _ | .indexMark .. | .sectorMark .. | .crossing .. | .guardAsserted _ | .faultAsserted _
  | .onTrackAsserted _ | .settleCountExpiry _ | .seekDeadlineExpiry _ | .recalLimitExpiry _
  | .allegianceExpiry _ | .blockIdRead _ | .fieldEnd .. | .headerFieldEnd .. => none

/-- A port takes a command: it hears the frame, the command passes the acceptance checks 2 to 8 (R168), the part is
at rest, and taking it makes no selection event. -/
abbrev Lubran.Accepts (q : Lubran) (p : Port) (kind : Nat) (f : HostFrame) (a : Ask) : Prop :=
  q.atRest = true ∧ q.Hears p kind f ∧ q.NoEvent p a ∧ (q.taking p a).refusal p a = none

/-- An ENDING of an immediate command, handed to its port's transmitter (R167, R170). -/
def Lubran.withEnding (q : Lubran) (p : Port) (tag : Tag) (kind : Nat) (code : EndCode) (reply : List Byte) : Lubran :=
  q.modPort p fun r =>
    { r with replies := r.replies ++ [.ending (byteOf tag.val) (byteOf kind) code 0 reply none] }

/-! ## Ports and frames -/

/-- No entry of a port is in service: each of its entries is QUEUED (R44). -/
abbrev Lubran.Unserved (q : Lubran) (p : Port) : Prop :=
  ∀ i e, (e ∈ (q.sp i).queue ∨ (q.sp i).internal = some e) → e.inService = true → ∀ t, e.owner ≠ .host p t

/-- What teardown leaves when no entry of the port is in service (R178): its QUEUED entries, allegiances, places in
the slot arbiter, tags, notices, sense and waiting frames are gone, and a hold is over. -/
def Lubran.withoutPort (q : Lubran) (p : Port) : Lubran :=
  { q.modPort p fun r =>
      { r with tags := Vector.replicate 4 false, notices := [], sense := none, replies := [], requests := [],
               drains := [], paused := false, rateNext := r.divisor } with
    spindles := q.spindles.map fun (u : SpindleUnit) =>
      { u with queue := u.queue.filter fun e => !e.queuedOf p
               allegiance := if u.allegiance.map Prod.fst = some p then none else u.allegiance }
    waiting := q.waiting.filter fun w => decide (w.port ≠ some p)
    served := q.served.filter fun r => decide (r ≠ p) }

/-- The port on which a row's frame comes in; none for a row that is no frame. -/
def framePort : Instr → Option Port
  | .read p _ | .write p _ | .verify p _ | .guardedWrite p _ | .recalibrate p _ | .reserve p _ | .stopSpindle p _
  | .startSpindle p _ | .release p _ | .breakReservation p _ | .querySpindle p _ | .cancel p _ | .sense p _
  | .resetString p _ | .spareTrack p _ | .notify p _ | .queryString p _ | .readSpareMap p _ | .readSuspects p _
  | .setString p _ | .setPort p _ | .data p _ | .dataFrameCheck p _ | .resetPort p _ | .unknownKind p _ _
  | .frameLength p _ _ _ | .frameCheck p _ _ | .frameCut p _ => some p
  | .powerOnReset _ | .pinReset _ | .linkSymbolReceived .. | .hold _ | .linkTimerExpiry _ | .frameSent _
  | .dataFrameSent _ | .attentionFrameSent _ | .spinUpTimerExpiry _ | .speedOkAsserted _ | .speedOkDeasserted _
  | .indexMark .. | .sectorMark .. | .crossing .. | .guardAsserted _ | .faultAsserted _ | .onTrackAsserted _
  | .settleCountExpiry _ | .seekDeadlineExpiry _ | .recalLimitExpiry _ | .allegianceExpiry _ | .blockIdRead _
  | .fieldEnd .. | .headerFieldEnd .. => none

/-- A row's frame ends at a START that cuts it (R180). -/
def isCut : Instr → Bool
  | .frameCut .. | .dataFrameCheck _ (.cut _) => true
  | _ => false

/-- A quiet string: the path is idle, no staging slot is held, no entry is anywhere, and no transmitter has block data
to ask for or to send. -/
abbrev Lubran.Quiet (q : Lubran) : Prop :=
  q.path = PathRec.idle ∧ q.waiting = [] ∧ (∀ k, (q.slot k).state = .free ∧ (q.slot k).owner = none) ∧
    (∀ i, (q.sp i).queue = [] ∧ (q.sp i).internal = none) ∧ q.seq = Sequencer.initial ∧ q.sparing = [] ∧
    ∀ p, (q.port p).requests = [] ∧ (q.port p).drains = []

end Sys2Proof.Machine
end

