-- ==== Sys2Proof/WellFormed.lean ====
section
/-! DEFINITION. When a command is what its row says it is (R165, R178 to R180): a command frame is short and its check
passes, a rejected frame is one that the receiver rejects for the row's reason, a damaged DATA frame is damaged, a
cut frame is cut. `exec` answers for every command all the same: a frame that comes under the wrong row is
handled as the receiver handles it. -/

namespace Sys2Proof

open Machine

/-- The kind code of the frame a row carries, for the rows of one kind (R166). -/
def Instr.kind : Instr → Option Nat
  | .read .. => some 1
  | .write .. => some 2
  | .verify .. => some 3
  | .guardedWrite .. => some 4
  | .recalibrate .. => some 5
  | .reserve .. => some 6
  | .stopSpindle .. => some 7
  | .startSpindle .. => some 16
  | .release .. => some 17
  | .breakReservation .. => some 18
  | .cancel .. => some 19
  | .sense .. => some 20
  | .spareTrack .. => some 21
  | .notify .. => some 22
  | .querySpindle .. => some 32
  | .queryString .. => some 33
  | .readSpareMap .. => some 34
  | .readSuspects .. => some 35
  | .setString .. => some 48
  | .setPort .. => some 49
  | .resetString .. => some 50
  | .data .. => some 64
  | .resetPort .. => some 80
  | .powerOnReset _ | .pinReset _ | .dataFrameCheck .. | .unknownKind .. | .frameLength .. | .frameCheck ..
  | .frameCut .. | .linkSymbolReceived .. | .hold _ | .linkTimerExpiry _ | .frameSent _ | .dataFrameSent _
  | .attentionFrameSent _ | .spinUpTimerExpiry _ | .speedOkAsserted _ | .speedOkDeasserted _ | .indexMark ..
  | .sectorMark .. | .crossing .. | .guardAsserted _ | .faultAsserted _ | .onTrackAsserted _
  | .settleCountExpiry _ | .seekDeadlineExpiry _ | .recalLimitExpiry _ | .allegianceExpiry _ | .blockIdRead _
  | .fieldEnd .. | .headerFieldEnd .. => none

/-- The bytes of a non-data frame on the line, after START (R165). -/
def HostFrame.line (kind : Byte) (f : HostFrame) : List Byte :=
  f.addr :: kind :: byteOf f.payload.length :: f.payload ++ [f.check]

/-- The bytes of a DATA frame on the line, after START (R165). -/
def DataFrame.line (f : DataFrame) : List Byte := f.addr :: 64 :: f.tag :: f.seq :: f.bytes.toList ++ [f.check]

/-- A command frame of a kind: at most 48 bytes of payload, and a check that passes (R165, R179). -/
def HostFrame.sound (kind : Nat) (f : HostFrame) : Bool :=
  decide (f.payload.length ≤ Config.maxPayload ∧ f.check = frameCheck f.addr (byteOf kind) f.payload)

/-- The bytes taken of a DATA frame before a START cut it: its kind byte came, and its check byte did not (R180). -/
def cutsData : List Byte → Bool
  | addr :: kind :: rest => decide (kind = 64 ∧ (addr :: kind :: rest).length < 261)
  | _ => false

/-- The bytes taken of a non-data frame before a START cut it: its check byte did not come (R180). -/
def cutsFrame : List Byte → Bool
  | addr :: kind :: len :: payload =>
      decide (kind ≠ 64 ∧ (addr :: kind :: len :: payload).length < len.toNat + 4)
  | _ :: kind :: _ => decide (kind ≠ 64)
  | _ => true

/-- A command is what its row says it is. -/
def Instr.wellFormed : Instr → Bool
  | .read _ f => f.sound 1
  | .write _ f => f.sound 2
  | .verify _ f => f.sound 3
  | .guardedWrite _ f => f.sound 4
  | .recalibrate _ f => f.sound 5
  | .reserve _ f => f.sound 6
  | .stopSpindle _ f => f.sound 7
  | .startSpindle _ f => f.sound 16
  | .release _ f => f.sound 17
  | .breakReservation _ f => f.sound 18
  | .cancel _ f => f.sound 19
  | .sense _ f => f.sound 20
  | .spareTrack _ f => f.sound 21
  | .notify _ f => f.sound 22
  | .querySpindle _ f => f.sound 32
  | .queryString _ f => f.sound 33
  | .readSpareMap _ f => f.sound 34
  | .readSuspects _ f => f.sound 35
  | .setString _ f => f.sound 48
  | .setPort _ f => f.sound 49
  | .resetString _ f => f.sound 50
  | .data _ f => dataGood f
  | .resetPort _ f => f.sound 80 && f.payload.isEmpty
  | .dataFrameCheck _ (.badCheck f) => !dataGood f
  | .dataFrameCheck _ (.cut bytes) => cutsData bytes
  | .unknownKind _ _ kind => !isHostKind kind.toNat
  | .frameLength _ _ kind (.long len) =>
      isHostKind kind.toNat && decide (kind ≠ 64 ∧ Config.maxPayload < len.toNat)
  | .frameLength _ addr kind (.whole payload check) =>
      let f : HostFrame := { addr := addr, payload := payload, check := check }
      decide (kind = 80) && f.sound 80 && !payload.isEmpty
  | .frameCheck _ kind f =>
      decide (isHostKind kind.toNat ∧ kind ≠ 64 ∧ f.payload.length ≤ Config.maxPayload ∧
        f.check ≠ Machine.frameCheck f.addr kind f.payload)
  | .frameCut _ bytes => cutsFrame bytes
  | .powerOnReset _ | .pinReset _ | .linkSymbolReceived .. | .hold _ | .linkTimerExpiry _ | .frameSent _
  | .dataFrameSent _ | .attentionFrameSent _ | .spinUpTimerExpiry _ | .speedOkAsserted _ | .speedOkDeasserted _
  | .indexMark .. | .sectorMark .. | .crossing .. | .guardAsserted _ | .faultAsserted _ | .onTrackAsserted _
  | .settleCountExpiry _ | .seekDeadlineExpiry _ | .recalLimitExpiry _ | .allegianceExpiry _ | .blockIdRead _
  | .fieldEnd .. | .headerFieldEnd .. => true

/-- The bytes of the link that a command stands for, after START; none for an event of a drive or a pin, a
symbol or a timer. -/
def Instr.line : Instr → List Byte
  | .read _ f => f.line 1
  | .write _ f => f.line 2
  | .verify _ f => f.line 3
  | .guardedWrite _ f => f.line 4
  | .recalibrate _ f => f.line 5
  | .reserve _ f => f.line 6
  | .stopSpindle _ f => f.line 7
  | .startSpindle _ f => f.line 16
  | .release _ f => f.line 17
  | .breakReservation _ f => f.line 18
  | .cancel _ f => f.line 19
  | .sense _ f => f.line 20
  | .spareTrack _ f => f.line 21
  | .notify _ f => f.line 22
  | .querySpindle _ f => f.line 32
  | .queryString _ f => f.line 33
  | .readSpareMap _ f => f.line 34
  | .readSuspects _ f => f.line 35
  | .setString _ f => f.line 48
  | .setPort _ f => f.line 49
  | .resetString _ f => f.line 50
  | .data _ f => f.line
  | .resetPort _ f => f.line 80
  | .dataFrameCheck _ (.badCheck f) => f.line
  | .dataFrameCheck _ (.cut bytes) => bytes
  | .unknownKind _ addr kind => [addr, kind]
  | .frameLength _ addr kind (.long len) => [addr, kind, len]
  | .frameLength _ addr kind (.whole payload check) =>
      let f : HostFrame := { addr := addr, payload := payload, check := check }
      f.line kind
  | .frameCheck _ kind f => f.line kind
  | .frameCut _ bytes => bytes
  | .powerOnReset _ | .pinReset _ | .linkSymbolReceived .. | .hold _ | .linkTimerExpiry _ | .frameSent _
  | .dataFrameSent _ | .attentionFrameSent _ | .spinUpTimerExpiry _ | .speedOkAsserted _ | .speedOkDeasserted _
  | .indexMark .. | .sectorMark .. | .crossing .. | .guardAsserted _ | .faultAsserted _ | .onTrackAsserted _
  | .settleCountExpiry _ | .seekDeadlineExpiry _ | .recalLimitExpiry _ | .allegianceExpiry _ | .blockIdRead _
  | .fieldEnd .. | .headerFieldEnd .. => []

end Sys2Proof
end

