-- ==== Sys2Proof/Certificates/Slice0/Obligations.lean ====
section
/-! DEFINITION. The statements about the model: the machine as a whole, the computations of the manual, the commands,
the frames and the transmitter, the drive's marks and pulses, and the fields of the disk. Where a statement rests on a
choice of the model, its docstring names the log entry. -/

open Sys2Proof Sys2Proof.Machine

/-! ## The machine -/

/-- A step with a command in front runs that command on the state with the rest of the queue. No command is refused, and none
touches the queue of waiting commands. -/
def Obligations.StepRunsTheFrontCommand : Prop :=
  (∀ (s : State) (c : Instr) (rest : List Instr), s.pending = c :: rest →
    step s = exec c { s with pending := rest }) ∧
  ∀ (c : Instr) (s : State), (∀ r, exec c s ≠ .refused r) ∧ ∀ t, exec c s = .next t → t.pending = s.pending

/-- A step on an empty queue lets one period of CLOCK pass (the model's choice, log entry 8): where no running timer
is about to expire, each is lowered by one, and nothing else changes. -/
def Obligations.IdleStepLowersTheTimers : Prop :=
  ∀ s : State, s.pending = [] → s.part.Settled →
    (∀ p n, (s.part.port p).timer = some n → 1 < n) → (∀ i n, (s.part.sp i).spinTimer = some n → 1 < n) →
    step s = .next { s with part := { s.part with
      ports := s.part.ports.map fun r => { r with timer := r.timer.map (· - 1) }
      spindles := s.part.spindles.map fun u => { u with spinTimer := u.spinTimer.map (· - 1) } } }

/-- Every step ends settled: no settle that could complete, no motion that could go, no slot that could be granted,
no selection event, no work for an idle sequencer and no frame for an idle transmitter is left over. -/
def Obligations.EveryStepEndsSettled : Prop :=
  ∀ s t : State, step s = .next t → t.part.Settled

/-- Every step keeps the ranges of the records and the capacities of the lists, and the string parameters within their
ranges. -/
def Obligations.EveryStepKeepsTheBounds : Prop :=
  ∀ s t : State, step s = .next t →
    (s.part.Bounded → t.part.Bounded) ∧ (s.part.params.InRange → t.part.params.InRange)

/-- Right after reset the part is settled, and its records and parameters are within their ranges. -/
def Obligations.ResetStateIsSound : Prop :=
  State.reset.part.Settled ∧ State.reset.part.Bounded ∧ State.reset.part.params.InRange ∧ State.reset.pending = []

/-- The straps change with the two hard resets alone, the string parameters, auto-spare flags and routing masks with
those and SET STRING alone, and a port record with those and SET PORT alone. -/
def Obligations.OnlySettingsCommandsChangeSettings : Prop :=
  ∀ (c : Instr) (s t : State), exec c s = .next t → (∀ x, c ≠ .powerOnReset x) → (∀ x, c ≠ .pinReset x) →
    t.part.straps = s.part.straps ∧
    ((∀ p f, c ≠ .setString p f) → t.part.params = s.part.params ∧
      ∀ i, (t.part.sp i).autoSpare = (s.part.sp i).autoSpare ∧ (t.part.sp i).mask = (s.part.sp i).mask) ∧
    ((∀ p f, c ≠ .setPort p f) → ∀ p,
      (t.part.port p).primary = (s.part.port p).primary ∧ (t.part.port p).second = (s.part.port p).second ∧
      (t.part.port p).priority = (s.part.port p).priority ∧ (t.part.port p).authority = (s.part.port p).authority ∧
      (t.part.port p).divisor = (s.part.port p).divisor ∧ (t.part.port p).fences = (s.part.port p).fences ∧
      (t.part.port p).fencesOn = (s.part.port p).fencesOn)

/-! ## Computations -/

/-- R1: every logical cylinder c maps to the home cylinder c + 2·⌊c/68⌋ and back, and every home cylinder to a logical one and
back. -/
def Obligations.CylinderMappingIsOneToOne : Prop :=
  (∀ c, c < Config.homeCylinders → isHomeCyl (physicalCyl c) = true ∧ physicalCyl c < Config.cylinders ∧
    physicalCyl c = c + 2 * (c / 68) ∧ logicalCyl (physicalCyl c) = c) ∧
  (∀ p, p < Config.cylinders → isHomeCyl p = true → logicalCyl p < Config.homeCylinders ∧
    physicalCyl (logicalCyl p) = p)

/-- R30, R31: the triangular travel time is the smallest integer t with t²·ACC ≥ 16384·d, and the coasting travel time the
ceiling of (256·VMAX² + 16·d·ACC) divided by (ACC·VMAX). -/
def Obligations.TravelTimesAreLeast : Prop :=
  (∀ acc d : Nat, 16 ≤ acc → acc ≤ 1023 → d ≤ 559 →
    16384 * d ≤ triangularTime acc d * triangularTime acc d * acc ∧
    (∀ u, u < triangularTime acc d → u * u * acc < 16384 * d) ∧
    (1 ≤ d → 5 ≤ triangularTime acc d)) ∧
  triangularTime 110 11 = 41 ∧
  (∀ acc vmax d : Nat, 16 ≤ acc → 1 ≤ vmax →
    256 * vmax * vmax + 16 * d * acc ≤ coastingTime acc vmax d * (acc * vmax) ∧
    ∀ u, u < coastingTime acc vmax d → u * (acc * vmax) < 256 * vmax * vmax + 16 * d * acc) ∧
  coastingTime 110 48 559 = 299

/-- R34: the demand code is the smaller of VMAX and the largest k with 8·k² ≤ ACC·r. -/
def Obligations.DemandCodeIsLargest : Prop :=
  ∀ acc vmax r : Nat,
    demandCode acc vmax r ≤ vmax ∧ 8 * demandCode acc vmax r * demandCode acc vmax r ≤ acc * r ∧
    (∀ k, k ≤ vmax → 8 * k * k ≤ acc * r → k ≤ demandCode acc vmax r) ∧
    (16 ≤ acc → 1 ≤ vmax → 1 ≤ r → 1 ≤ demandCode acc vmax r) ∧
    (∀ r', r ≤ r' → demandCode acc vmax r ≤ demandCode acc vmax r')

/-- R37: the rotational wait counts the slots from the arrival slot to the first passing of the lead slot at or after
it. -/
def Obligations.RotationalWaitReachesTheLeadSlot : Prop :=
  ∀ s e l : Nat, l < 96 → rotationalWait s e l < 96 ∧ ((s + e) % 96 + rotationalWait s e l) % 96 = l

/-- R99: an allocation answers the FREE alternate nearest to the home cylinder, of those equally near the one on the
lower cylinder and then of the lower head; NONE when there is no FREE record or the map is not BUILT. And R100, R102: a
retirement makes a FREE record RETIRED, which the two counts show, and a spindle left with POOL_LOW FREE records or fewer
raises POOL LOW; a RETIRED record stays as it is. And R103: a generation request answers the counter's value and raises the
counter, up to 65535, at which there is none. -/
def Obligations.AllocationIsNearest : Prop :=
  (∀ (q : Lubran) (i : Spindle) (p : Nat),
    (∀ t, q.allocate i p = some t → (q.sp i).mapState = .built ∧
      ∃ n : Nat, n < (q.sp i).pool.length ∧ t = altTrack n ∧ (q.sp i).pool[n]? = some .free ∧
        (∀ m : Nat, (q.sp i).pool[m]? = some .free →
          distance t.cyl p < distance (altTrack m).cyl p ∨
          (distance t.cyl p = distance (altTrack m).cyl p ∧
            (t.cyl < (altTrack m).cyl ∨ (t.cyl = (altTrack m).cyl ∧ t.head ≤ (altTrack m).head))))) ∧
    (q.allocate i p = none ↔ (q.sp i).mapState ≠ .built ∨ ∀ m : Nat, (q.sp i).pool[m]? ≠ some .free)) ∧
  (∀ (q : Lubran) (i : Spindle) (alt : Track),
    ((q.sp i).pool[altIndex alt]? = some .free →
      let changed : Lubran := q.modSp i fun u => { u with pool := u.pool.set (altIndex alt) .retired }
      let free := (changed.sp i).freeCount
      let retired := (changed.sp i).retiredCount
      free + 1 = (q.sp i).freeCount ∧ retired = (q.sp i).retiredCount + 1 ∧
      (free ≤ q.params.poolLow → q.retire i alt = changed.raiseMasked i (.poolLow free retired)) ∧
      (q.params.poolLow < free → q.retire i alt = changed)) ∧
    ((q.sp i).pool[altIndex alt]? = some .retired → q.retire i alt = q)) ∧
  ∀ (q : Lubran) (i : Spindle),
    ((q.sp i).generation < 65535 → q.takeGeneration i =
      some ((q.sp i).generation, q.modSp i fun u => { u with generation := u.generation + 1 })) ∧
    ((q.sp i).generation = 65535 → q.takeGeneration i = none)

/-- R52: what a selection event chooses: the internal entry; otherwise the earliest eligible host entry whose age exceeds
AGE_LIMIT; otherwise the eligible host entry of least cost, the earliest of equals. It chooses none only when no host
entry is eligible. -/
def Obligations.SelectorChoosesByItsRules : Prop :=
  ∀ (q : Lubran) (i : Spindle),
    (∀ e, (q.sp i).internal = some e → q.choose i = some e) ∧
    ((q.sp i).internal = none →
      (∀ e, q.choose i = some e →
        ∃ before after : List Entry, (q.sp i).queue.filter (q.sp i).eligible = before ++ e :: after ∧
          ((q.params.ageLimit < q.age i e ∧ ∀ x ∈ before, q.age i x ≤ q.params.ageLimit) ∨
            ((∀ x ∈ before ++ e :: after, q.age i x ≤ q.params.ageLimit) ∧
              (∀ x ∈ before, q.cost i e < q.cost i x) ∧ ∀ x ∈ after, q.cost i e ≤ q.cost i x))) ∧
      (q.choose i = none ↔ (q.sp i).queue.filter (q.sp i).eligible = []))

/-- R77: under PRIORITY the arbiter takes the internal entry if it waits; otherwise a waiting entry of the highest port
priority, of the lower port letter among equals, and of one port the one that waited first. And R78: under FAIR it takes the
internal entry if it waits, with the served set as it is; otherwise the served set is emptied first when every waiting port
is in it, and the winner is the entry earliest in the list whose port is not in the set, which its port then joins. A grant
leaves the served set so. -/
def Obligations.PriorityArbiterOrder : Prop :=
  (∀ (q : Lubran) (o : Owner) (served : List Port), q.params.arbMode = .priority →
    q.winner = some (o, served) → served = q.served ∧
      ((Owner.internal ∈ q.waiting ∧ o = .internal) ∨
        (Owner.internal ∉ q.waiting ∧ ∃ before after p t, q.waiting = before ++ o :: after ∧ o = .host p t ∧
          ∀ w ∈ q.waiting, ∀ r u, w = .host r u →
            (q.port r).priority < (q.port p).priority ∨
            ((q.port r).priority = (q.port p).priority ∧ (p.val < r.val ∨ (p = r ∧ w ∉ before)))))) ∧
  (∀ q : Lubran, q.params.arbMode = .fair →
    (Owner.internal ∈ q.waiting → q.winner = some (.internal, q.served)) ∧
    (Owner.internal ∉ q.waiting → ∀ start : List Port,
      ((∀ p t, Owner.host p t ∈ q.waiting → p ∈ q.served) → start = []) →
      ((∃ p t, Owner.host p t ∈ q.waiting ∧ p ∉ q.served) → start = q.served) →
      (∀ before after p t, q.waiting = before ++ .host p t :: after → p ∉ start →
        (∀ r u, Owner.host r u ∈ before → r ∈ start) → q.winner = some (.host p t, start ++ [p])) ∧
      (q.waiting ≠ [] → ∃ p t, p ∉ start ∧ Owner.host p t ∈ q.waiting ∧ q.winner = some (.host p t, start ++ [p])))) ∧
  ∀ (q : Lubran) (w : Owner × List Port), q.canGrant = true → q.winner = some w → q.grantOne.served = w.2

/-- R157, R158: a raise keeps an attention table to one notice at most of a pair of kind and key, leaves every other notice
as it is, and leaves one notice of its pair: with the new detail, or, when it is sending, with the new detail to follow on. -/
def Obligations.OneNoticeOfAPair : Prop :=
  ∀ (table : List Notice) (key : NoticeKey) (d : Detail),
    table.Pairwise (fun a b => ¬ (a.detail.kind = b.detail.kind ∧ a.key = b.key)) →
    (raiseInto table key d).Pairwise (fun a b => ¬ (a.detail.kind = b.detail.kind ∧ a.key = b.key)) ∧
    (∀ n ∈ table, ¬ (n.detail.kind = d.kind ∧ n.key = key) → n ∈ raiseInto table key d) ∧
    (∀ n ∈ raiseInto table key d, ¬ (n.detail.kind = d.kind ∧ n.key = key) → n ∈ table) ∧
    ∃ n ∈ raiseInto table key d, n.key = key ∧
      ((n.sending = false ∧ n.detail = d) ∨ (n.sending = true ∧ n.detail.kind = d.kind ∧ n.follow = some d))

/-- R95: a map in order, with a new entry put into it, is in order and holds just its former entries and the new one. And
R101, R102: a commit of a home track without an entry adds one, and the new alternate is IN_USE with its partner and
generation, where the map holds fewer than 384; in a full map the new alternate is RETIRED; a home track with an entry has it
retargeted, the new alternate is IN_USE and the old one RETIRED. The map stays in order, and the POOL LOW test follows. -/
def Obligations.SpareMapStaysInOrder : Prop :=
  (∀ (m : MapEntry) (map : List MapEntry), map.Pairwise (fun a b => a.before b = true) →
    (∀ e ∈ map, ¬ (e.spindle = m.spindle ∧ e.home = m.home)) →
    (insertEntry m map).Pairwise (fun a b => a.before b = true) ∧
    ∀ e, e ∈ insertEntry m map ↔ e = m ∨ e ∈ map) ∧
  ∀ (q : Lubran) (i : Spindle) (home alt : Track) (gen : Nat),
    let tested (map : List MapEntry) (f : List PoolRec → List PoolRec) : Lubran :=
      let r : Lubran := { q.modSp i (fun u => { u with pool := f u.pool }) with spareMap := map }
      let free := (r.sp i).freeCount
      if free ≤ q.params.poolLow then r.raiseMasked i (.poolLow free (r.sp i).retiredCount) else r
    let used (pool : List PoolRec) : List PoolRec := pool.set (altIndex alt) (.inUse home gen)
    (q.forward i home = none → q.spareMap.length < 384 → q.commit i home alt gen =
      (tested (insertEntry { spindle := i, home := home, alt := alt } q.spareMap) used, .committed)) ∧
    (q.forward i home = none → 384 ≤ q.spareMap.length → q.commit i home alt gen =
      (tested q.spareMap fun pool => pool.set (altIndex alt) .retired, .mapFull)) ∧
    (∀ old, q.forward i home = some old → q.commit i home alt gen =
      (tested (q.spareMap.map fun m => if m.spindle = i ∧ m.home = home then { m with alt := alt } else m)
        fun pool => (used pool).set (altIndex old) .retired, .retargeted old)) ∧
    (q.spareMap.Pairwise (fun a b => a.before b = true) →
      (q.commit i home alt gen).1.spareMap.Pairwise fun a b => a.before b = true)

/-! ## Power-on reset and pin reset -/

/-- R4, R5, R13, R174 and the reset values of the other records: what power-on reset and pin reset leave, whatever the part
was doing. A present spindle with its AUTOSTART strap set is SPINNING_UP with its timer loaded, or, where its drive already
has SPEED-OK asserted, RECALIBRATING at once (R6, R21). The waiting commands stay, and so do the drives' lines, which are
inputs; that they stay, and that SPEED-OK is tested on the entry to SPINNING_UP, is the model's choice (log entry 9). That
READ GATE and WRITE GATE are deasserted, that no transfer is in hand and that nothing is being sent is read from R4, R68 and
R177 (DEDUCED, log entry 36). -/
def Obligations.HardResetLeavesTheResetValues : Prop :=
  ∀ (s : State) (x : Straps),
    ∃ q : Lubran, exec (.powerOnReset x) s = .next { s with part := q } ∧
      exec (.pinReset x) s = .next { s with part := q } ∧
      q.straps = x ∧
      q.params = { acc := 110, vmax := 48, settle := 16, ageLimit := 12, lostRevLimit := 32, softLimit := 4,
                   poolLow := 8, allegianceTime := 120, arbMode := .fair } ∧
      (∀ i, (q.sp i).faultReason = .none ∧ (q.sp i).spin = (x.present.get i && x.autostart.get i) ∧
        (q.sp i).lines = (s.part.sp i).lines ∧ (q.sp i).chan.cyl = 0 ∧ (q.sp i).chan.posKnown = false ∧
        (q.sp i).chan.head = 0 ∧ (q.sp i).chan.target = none ∧ (q.sp i).chan.remaining = 0 ∧
        (q.sp i).chan.direction = .outward ∧ (q.sp i).chan.overshoots = 0 ∧ (q.sp i).chan.deadline = 0 ∧
        (q.sp i).chan.reissued = false ∧ (q.sp i).chan.sAcc = 110 ∧ (q.sp i).chan.sVmax = 48 ∧
        (q.sp i).chan.sSettle = 16 ∧ (q.sp i).slot = 0 ∧ (q.sp i).missing = 0 ∧ (q.sp i).readGate = false ∧
        (q.sp i).writeGate = false ∧ (q.sp i).queue = [] ∧ (q.sp i).internal = none ∧
        (q.sp i).reservation = none ∧ (q.sp i).allegiance = none ∧ (q.sp i).autoSpare = false ∧
        (q.sp i).revs = 0 ∧ (q.sp i).mapState = .notBuilt ∧ (q.sp i).pool = [] ∧ (q.sp i).generation = 0 ∧
        (q.sp i).build = none ∧ (∀ p, (q.sp i).mask.get p = true) ∧
        (x.present.get i = false → (q.sp i).life = .absent) ∧
        (x.present.get i = true → x.autostart.get i = false → (q.sp i).life = .stopped) ∧
        (x.present.get i = true → x.autostart.get i = true → (s.part.sp i).lines.speedOk = false →
          (q.sp i).life = .spinningUp ∧ (q.sp i).spinTimer = some 1440000000) ∧
        ((x.present.get i && x.autostart.get i && (s.part.sp i).lines.speedOk) = false →
          (q.sp i).chan.state = .idle ∧ (q.sp i).chan.purpose = .normal ∧ (q.sp i).chan.demand = 0 ∧
          (q.sp i).chan.settle = 0 ∧ (q.sp i).chan.recalLimit = 0) ∧
        ((x.present.get i && x.autostart.get i && (s.part.sp i).lines.speedOk) = true →
          (q.sp i).life = .recalibrating ∧ (q.sp i).spinTimer = none ∧ (q.sp i).chan.purpose = .recal ∧
          (q.sp i).chan.recalLimit = 1536 ∧
          ((s.part.sp i).lines.guard = false → (q.sp i).chan.state = .recal ∧ (q.sp i).chan.demand = 8) ∧
          ((s.part.sp i).lines.guard = true → (q.sp i).chan.state = .settling ∧ (q.sp i).chan.demand = 0 ∧
            (q.sp i).chan.settle = 16))) ∧
      (∀ p, (q.port p).link = .down ∧ (q.port p).second = 0 ∧ (q.port p).priority = 0 ∧
        (q.port p).primary = (if x.address = 0 ∨ x.address = 31 then 1 else x.address.toNat) ∧
        (q.port p).authority = x.authority.get p ∧ (q.port p).divisor = 1 ∧ (q.port p).fences = [] ∧
        (q.port p).fencesOn = false ∧ (∀ t, (q.port p).tags.get t = false) ∧ (q.port p).sense = none ∧
        (q.port p).notices = [] ∧ (q.port p).replies = [] ∧ (q.port p).requests = [] ∧
        (q.port p).sending = none ∧ (q.port p).timer = none) ∧
      (∀ k, (q.slot k).state = .free ∧ (q.slot k).owner = none) ∧ q.path.state = .idle ∧ q.path.holder = none ∧
      q.waiting = [] ∧ q.served = [] ∧ q.spareMap = [] ∧ q.suspects = [] ∧ q.sparing = [] ∧ q.seq.state = .idle

/-! ## Taking a command -/

/-- R168: the acceptance checks 2 to 8, each refusing with its code when those before it pass. -/
def Obligations.AcceptanceChecksInOrder : Prop :=
  ∀ (q : Lubran) (p : Port) (a : Ask),
    ((q.port p).tags.get a.tag = true → q.refusal p a = some .tagInUse) ∧
    ((q.port p).tags.get a.tag = false →
      ((∀ n, a.spindle = some n → 8 ≤ n ∨ (∃ h : n < 8, (q.sp ⟨n, h⟩).life = .absent) →
        q.refusal p a = some .addressOutOfRange) ∧
      (∀ c h, a.track = some (c, h) → 544 ≤ c ∨ 12 ≤ h → q.refusal p a = some .addressOutOfRange) ∧
      (∀ b n, a.blocks = some (b, n) → 15 ≤ b ∨ 15 < b + n → q.refusal p a = some .addressOutOfRange) ∧
      (q.addressOk a = true →
        (a.authority = true → (q.port p).authority = false → q.refusal p a = some .notAuthorized) ∧
        (a.authority = false ∨ (q.port p).authority = true →
          ((q.port p).fenceOk a = false → q.refusal p a = some .extentViolation) ∧
          ((q.port p).fenceOk a = true → ∀ i, a.unit = some i →
            (∀ r, a.reserved = true → (q.sp i).reservation = some r → r ≠ p →
              q.refusal p a = some .reservedElsewhere) ∧
            ((a.reserved = false ∨ (q.sp i).reservation = none ∨ (q.sp i).reservation = some p) →
              (a.queued = true → (q.sp i).life = .stopped ∨ (q.sp i).life = .spinningUp ∨ (q.sp i).life = .faulted →
                q.refusal p a = some .notReady) ∧
              (a.queued = true → (q.sp i).life = .ready ∨ (q.sp i).life = .recalibrating ∨
                  (q.sp i).life = .buildingMap →
                (8 ≤ (q.sp i).queue.length → q.refusal p a = some .queueFull) ∧
                ((q.sp i).queue.length < 8 → q.refusal p a = none)) ∧
              (a.queued = false → q.refusal p a = none)))))))

/-- R166, R168, R43: an accepted READ, WRITE or VERIFY becomes an entry at the tail of its spindle's queue, with the fields
its payload names, and its tag is in use. Nothing else changes but that the frame has reloaded the link timer,
an allegiance of the port to the spindle has ended, and the transmitters choose. -/
def Obligations.TransferCommandIsPlaced : Prop :=
  ∀ (s : State) (p : Port) (f : HostFrame) (tag : Tag) (i : Spindle) (t sp c1 c0 h b n fl : Byte),
    f.payload = [t, sp, c1, c0, h, b, n, fl] → t.toNat = tag.val → sp.toNat = i.val → 1 ≤ n.toNat → n.toNat ≤ 15 →
    s.part.Engaged i →
    let placed (kind : EntryKind) (writeVerify : Bool) : Lubran :=
      (((s.part.taking p (trackAsk kind tag ⟨i.val, c1.toNat * 256 + c0.toNat, h.toNat, b.toNat, n.toNat,
          writeVerify, 0, []⟩)).modPort p fun r => { r with tags := r.tags.set tag true }).modSp i fun u =>
        { u with queue := u.queue ++
            [{ owner := .host p tag, kind := kind, cyl := c1.toNat * 256 + c0.toNat, head := h.toNat, first := b.toNat,
               count := n.toNat, writeVerify := writeVerify, cmpOffset := 0, cmpBytes := [], arrival := u.revs,
               state := .queued, track := none, blocksDone := 0, retries := 0, lost := 0, decided := none,
               abandoned := false, compared := false }] }).kickAll
    let ask (kind : EntryKind) (writeVerify : Bool) : Ask :=
      trackAsk kind tag ⟨i.val, c1.toNat * 256 + c0.toNat, h.toNat, b.toNat, n.toNat, writeVerify, 0, []⟩
    (s.part.Accepts p 1 f (ask .read false) → exec (.read p f) s = .next { s with part := placed .read false }) ∧
    (s.part.Accepts p 2 f (ask .write (fl.getLsbD 0)) →
      exec (.write p f) s = .next { s with part := placed .write (fl.getLsbD 0) }) ∧
    (s.part.Accepts p 3 f (ask .verify false) → exec (.verify p f) s = .next { s with part := placed .verify false })

/-- R43, R166, R168: an accepted GUARDED WRITE, RECALIBRATE, RESERVE or STOP SPINDLE becomes an entry at the tail of its
spindle's queue, and its tag is in use; the frame of `TransferCommandIsPlaced` holds for it too. -/
def Obligations.OtherQueuedCommandIsPlaced : Prop :=
  ∀ (s : State) (p : Port) (f : HostFrame) (a : Ask) (i : Spindle), a.unit = some i → s.part.Engaged i →
    let placed (kind : EntryKind) (c : TrackCmd) : Lubran :=
      (((s.part.taking p a).modPort p fun r => { r with tags := r.tags.set a.tag true }).modSp i fun u =>
        { u with queue := u.queue ++
            [{ owner := .host p a.tag, kind := kind, cyl := c.cyl, head := c.head, first := c.first,
               count := c.count, writeVerify := false, cmpOffset := c.cmpOffset, cmpBytes := c.cmpBytes,
               arrival := u.revs, state := .queued, track := none, blocksDone := 0, retries := 0, lost := 0,
               decided := none, abandoned := false, compared := false }] }).kickAll
    (∀ c, parseGuarded f.payload = some (a, c) → s.part.Accepts p 4 f a →
      exec (.guardedWrite p f) s = .next { s with part := placed .guardedWrite c } ∧ c.count = 1) ∧
    (∀ n, parseQueuedSpindle f.payload = some (a, n) →
      (s.part.Accepts p 5 f a → exec (.recalibrate p f) s = .next { s with part := placed .recalibrate (.bare n) }) ∧
      (s.part.Accepts p 6 f a → exec (.reserve p f) s = .next { s with part := placed .reserve (.bare n) }) ∧
      (s.part.Accepts p 7 f a → exec (.stopSpindle p f) s = .next { s with part := placed .stopSpindle (.bare n) }))

/-- R167, R168, R170: a command that fails a check gets its ending at once, with the code of the first check that fails, the
tag byte as received, and the count of a READ, WRITE or VERIFY as its residual; it changes nothing else. It holds for each
of the 21 commands. Where the payload holds no count byte the residual is a free value (log entry 23). -/
def Obligations.RefusedCommandEndsAtOnce : Prop :=
  ∀ (c : Instr) (s : State) (p : Port) (f : HostFrame) (k : Nat), s.part.atRest = true → s.part.Hears p k f →
    let ending (code : EndCode) (r : LinkPort) : LinkPort :=
      { r with replies := r.replies ++
          [.ending (f.payload.headD 255) (byteOf k) code (refusedResidual k f.payload) [] none] }
    (request c = some (p, f, k, none) →
      exec c s = .next { s with part := ((s.part.modPort p LinkPort.reload).modPort p (ending .badField)).kickAll }) ∧
    (∀ a code, request c = some (p, f, k, some a) → s.part.NoEvent p a →
      (s.part.taking p a).refusal p a = some code →
      exec c s = .next { s with part := ((s.part.taking p a).modPort p (ending code)).kickAll })

/-! ## Positioning commands that are served at once, on a quiet string -/

/-- R57, R142: a RESERVE on a READY spindle that no port holds takes the reservation and ends GOOD. That a seek outstanding
is then marked as an orphan is read from R53 (DEDUCED, log entry 24). -/
def Obligations.ReserveTakesTheReservation : Prop :=
  ∀ (s : State) (p : Port) (f : HostFrame) (a : Ask) (n : Nat) (i : Spindle),
    parseQueuedSpindle f.payload = some (a, n) → a.unit = some i → s.part.Accepts p 6 f a → s.part.Quiet →
    (s.part.sp i).life = .ready → (s.part.sp i).reservation = none → (s.part.sp i).allegiance = none →
    exec (.reserve p f) s = .next { s with part :=
      ((((s.part.taking p a).modSp i fun u =>
        { u with reservation := some p, xfer := XferRec.clear, waitReq := none,
                 chan := { u.chan with orphan := u.chan.target.isSome || u.chan.held.isSome } }).withEnding p a.tag 6
          .good [])).kickAll }

/-- R10, R58, R115, R127: a STOP SPINDLE on a READY spindle stops it, drops its map and its suspects, and ends GOOD. That
the channel's Purpose becomes NORMAL, which R10 does not say, is the model's choice (log entry 38). -/
def Obligations.StopSpindleStops : Prop :=
  ∀ (s : State) (p : Port) (f : HostFrame) (a : Ask) (n : Nat) (i : Spindle),
    parseQueuedSpindle f.payload = some (a, n) → a.unit = some i → s.part.Accepts p 7 f a → s.part.Quiet →
    (s.part.sp i).life = .ready → (s.part.sp i).allegiance = none →
    exec (.stopSpindle p f) s = .next { s with part :=
      ((({ s.part.taking p a with
          spareMap := s.part.spareMap.filter fun m => decide (m.spindle ≠ i)
          suspects := s.part.suspects.filter fun m => decide (m.spindle ≠ i) }).modSp i fun u =>
        { u with life := .stopped, spin := false, spinTimer := none, waitReq := none, xfer := XferRec.clear, pool := []
                 generation := 0, mapState := .notBuilt, build := none,
                 chan := { u.chan with
                   state := .idle, purpose := .normal, posKnown := false, target := none, demand := 0
                   overshoots := 0, reissued := false, held := none, orphan := false } }).withEnding p a.tag 7
          .good []).kickAll }

/-- R59, R21: a RECALIBRATE on a READY spindle whose heads rest on track and off cylinder 0's guard starts a recalibration:
DEMAND is 8 or VMAX if that is less, OUTWARD, and the limit is 1536 slots; its entry is SEEKING. That the remaining distance
is kept at the start, which R21 does not say, is the model's choice (log entry 49). -/
def Obligations.RecalibrateStartsItsMotion : Prop :=
  ∀ (s : State) (p : Port) (f : HostFrame) (a : Ask) (n : Nat) (i : Spindle),
    parseQueuedSpindle f.payload = some (a, n) → a.unit = some i → s.part.Accepts p 5 f a → s.part.Quiet →
    (s.part.sp i).life = .ready → (s.part.sp i).allegiance = none → (s.part.sp i).chan.state = .onTrack →
    (s.part.sp i).waitReq = none → (s.part.sp i).lines.guard = false →
    exec (.recalibrate p f) s = .next { s with part :=
      (((s.part.taking p a).modPort p fun r => { r with tags := r.tags.set a.tag true }).modSp i fun u =>
        { u with
            queue := [{ owner := .host p a.tag, kind := .recalibrate, cyl := 0, head := 0, first := 0, count := 0,
                        writeVerify := false, cmpOffset := 0, cmpBytes := [], arrival := u.revs, state := .seeking,
                        track := none, blocksDone := 0, retries := 0, lost := 0, decided := none,
                        abandoned := false, compared := false }]
            chan := { u.chan with
              sVmax := s.part.params.vmax, sSettle := s.part.params.settle, purpose := .recal, state := .recal
              recalLimit := 1536, direction := .outward, demand := min 8 s.part.params.vmax } }).kickAll }

/-- R14, R53, R69, R75: a READ on a READY spindle whose heads rest on track on another cylinder: the entry is in service and
SEEKING, with its track resolved through the Spare Map; the channel seeks there with the demand code of R34 and
the deadline E + 96; and the entry holds as many slots as it needs, four at most. -/
def Obligations.ReadStartsItsSeek : Prop :=
  ∀ (s : State) (p : Port) (f : HostFrame) (a : Ask) (c : TrackCmd) (i : Spindle),
    parseTransfer .read f.payload = some (a, c) → a.unit = some i → s.part.Accepts p 1 f a → s.part.Quiet →
    (s.part.sp i).life = .ready → (s.part.sp i).allegiance = none → (s.part.sp i).chan.state = .onTrack →
    (s.part.sp i).chan.posKnown = true → (s.part.sp i).chan.orphan = false → (s.part.sp i).waitReq = none →
    let home : Track := { cyl := physicalCyl c.cyl, head := c.head }
    let target := (s.part.forward i home).getD home
    let d := distance target.cyl (s.part.sp i).chan.cyl
    let r := s.part.params
    d ≠ 0 →
    ∃ t : State, exec (.read p f) s = .next t ∧ t.pending = s.pending ∧
      (t.part.sp i).chan = { (s.part.sp i).chan with
        state := .seeking, purpose := .normal, head := target.head, target := some target, remaining := d
        direction := if (s.part.sp i).chan.cyl < target.cyl then .inward else .outward
        demand := demandCode r.acc r.vmax d, overshoots := 0, reissued := false, held := none
        deadline := travelTime r.acc r.vmax d + r.settle + 96
        sAcc := r.acc, sVmax := r.vmax, sSettle := r.settle } ∧
      (∃ e, (t.part.sp i).queue = [e] ∧ e.owner = .host p a.tag ∧ e.kind = .read ∧ e.state = .seeking ∧
        e.track = some target ∧ e.cyl = c.cyl ∧ e.head = c.head ∧ e.first = c.first ∧ e.count = c.count ∧
        e.blocksDone = 0) ∧
      (t.part.sp i).xfer.next = some { action := .read, field := .block c.first } ∧
      (t.part.slotsOf (.host p a.tag)).length = min 4 c.count ∧
      (∀ j, j ≠ i → t.part.sp j = s.part.sp j) ∧ (t.part.port p).tags.get a.tag = true

/-! ## Immediate commands -/

/-- R5: START SPINDLE on a STOPPED or FAULTED spindle whose SPEED-OK is low moves it to SPINNING_UP, asserts SPIN and loads
the timer with 60 s of CLOCK; with SPEED-OK asserted and GUARD low it recalibrates at once (R6; the model's choice, log
entry 9); in any other state it changes nothing. It ends GOOD in every case. That the remaining distance is kept at the
start of the recalibration, which R21 does not say, is the model's choice (log entry 49). -/
def Obligations.StartSpindleSpinsUp : Prop :=
  ∀ (s : State) (p : Port) (f : HostFrame) (a : Ask) (n : Nat) (i : Spindle),
    parseStart f.payload = some (a, n) → a.unit = some i → s.part.Accepts p 16 f a →
    ((s.part.sp i).life = .stopped ∨ (s.part.sp i).life = .faulted → (s.part.sp i).lines.speedOk = false →
      exec (.startSpindle p f) s = .next { s with part :=
        (((s.part.taking p a).modSp i fun u =>
          { u with life := .spinningUp, faultReason := .none, spin := true
                   spinTimer := some 1440000000 }).withEnding p a.tag 16 .good []).kickAll }) ∧
    ((s.part.sp i).life = .stopped ∨ (s.part.sp i).life = .faulted → (s.part.sp i).lines.speedOk = true →
      (s.part.sp i).lines.guard = false → s.part.current i = none → (s.part.sp i).waitReq = none →
      exec (.startSpindle p f) s = .next { s with part :=
        (((s.part.taking p a).modSp i fun u =>
          { u with life := .recalibrating, faultReason := .none, spin := true, spinTimer := none, missing := 0
                   chan := { u.chan with
                     sVmax := s.part.params.vmax, sSettle := s.part.params.settle, purpose := .recal, state := .recal
                     recalLimit := 1536, direction := .outward
                     demand := min 8 s.part.params.vmax } }).withEnding p a.tag 16 .good []).kickAll }) ∧
    ((s.part.sp i).life ≠ .stopped → (s.part.sp i).life ≠ .faulted →
      exec (.startSpindle p f) s = .next { s with part := ((s.part.taking p a).withEnding p a.tag 16 .good []).kickAll })

/-- R143, R144: RELEASE by the holder clears the reservation and ends GOOD, by any other port it ends NOT HOLDER; BREAK
RESERVATION clears any reservation, tells the former holder, and ends GOOD. -/
def Obligations.ReleaseAndBreakReservation : Prop :=
  ∀ (s : State) (p : Port) (f : HostFrame) (a : Ask) (n : Nat) (i : Spindle), a.unit = some i →
    (parsePlainSpindle f.payload = some (a, n) → s.part.Accepts p 17 f a →
      ((s.part.sp i).reservation = some p →
        exec (.release p f) s = .next { s with part :=
          (((s.part.taking p a).modSp i fun u => { u with reservation := none }).withEnding p a.tag 17 .good []).kickAll }) ∧
      ((s.part.sp i).reservation ≠ some p →
        exec (.release p f) s = .next { s with part :=
          ((s.part.taking p a).withEnding p a.tag 17 .notHolder []).kickAll })) ∧
    (parseBreak f.payload = some (a, n) → s.part.Accepts p 18 f a →
      (∀ r, (s.part.sp i).reservation = some r →
        exec (.breakReservation p f) s = .next { s with part :=
          ((((s.part.taking p a).modSp i fun u => { u with reservation := none }).raiseAt r (.spindle i)
            (.reservationBroken p)).withEnding p a.tag 18 .good []).kickAll }) ∧
      ((s.part.sp i).reservation = none →
        exec (.breakReservation p f) s = .next { s with part :=
          ((s.part.taking p a).withEnding p a.tag 18 .good []).kickAll }))

/-- R61, R62: CANCEL takes a QUEUED entry of its own port off its queue with CANCELLED, handed over first, frees that tag,
and ends GOOD; where the tag names an entry in service or none, it ends NOT CANCELLABLE and changes nothing. -/
def Obligations.CancelRemovesAQueuedEntry : Prop :=
  ∀ (s : State) (p : Port) (f : HostFrame) (a : Ask) (t : Tag),
    parseCancel f.payload = some (a, t) → s.part.Accepts p 19 f a →
    (∀ i e, s.part.findEntry (.host p t) = some (i, e) → e.state = .queued →
      exec (.cancel p f) s = .next { s with part :=
        ((((s.part.taking p a).modSp i fun u =>
            { u with queue := u.queue.filter fun x => decide (x.owner ≠ .host p t) }).modPort p fun r =>
            { r with replies := r.replies ++ [.ending (byteOf t.val) (byteOf (kindCode e.kind)) .cancelled
                       (byteOf e.residual) [] none]
                     tags := r.tags.set t false }).withEnding p a.tag 19 .good []).kickAll }) ∧
    (((∃ i e, s.part.findEntry (.host p t) = some (i, e) ∧ e.state ≠ .queued) ∨
        s.part.findEntry (.host p t) = none) →
      exec (.cancel p f) s = .next { s with part :=
        ((s.part.taking p a).withEnding p a.tag 19 .notCancellable []).kickAll })

/-- R149, R164: SENSE ends every allegiance of its port, ends GOOD with the sense record in its reply, and clears sense
pending; the record stays. The allegiant spindles have an entry in service or are not READY, so that nothing is selected.
The byte of sense pending in the reply is 1 where it was set and 0 where it was clear (PRESUMED, log entry 56), and 0 with an
empty record (DEDUCED, log entry 50). -/
def Obligations.SenseTakesTheRecord : Prop :=
  ∀ (s : State) (p : Port) (f : HostFrame) (a : Ask),
    parseSense f.payload = some (a, ()) → s.part.Accepts p 20 f a →
    (∀ i, (s.part.sp i).allegiance.map Prod.fst = some p → s.part.Engaged i) →
    exec (.sense p f) s = .next { s with part :=
      ((({ s.part.taking p a with
          spindles := s.part.spindles.map fun (u : SpindleUnit) =>
            if u.allegiance.map Prod.fst = some p then { u with allegiance := none } else u }).withEnding p a.tag 20 .good
          (senseReply (s.part.port p).sense)).modPort p fun r =>
            { r with sense := r.sense.map fun (x : SenseRec) => { x with pending := false } }).kickAll }

/-- R126: SPARE TRACK ends GOOD for a track that is already being spared; BUSY for one that is not when the list is full;
otherwise GOOD, and the track joins the tail of the list while the sequencer works, or is taken by an IDLE sequencer at
once: a READY spindle gets a REASSIGN entry, and for any other the reassignment fails NOT READY. And R130, R131: at its
service start SELECT finds the source and the old alternate, ends SPARE FAILED at the generation limit, with a full map for
a first failure, or with no alternate, and otherwise takes the alternate and enters COPY at blocks 0 to 3 with a seek to the
source. And R93, R131, R132: a block of COPY that is read well, or carried LOST, is FULL and done, and one that fails is
tried again eight times; a written block has its new ID and its bytes; a verified one frees its slot, and any other fails
the alternate. That a block whose ID carries LOST is carried at once, whatever its check, and that a failed read leaves its
bytes in the slot, are the model's choices (log entries 40 and 31). What is written is kept in `writeOut` (log entry 32).
And R137: either outcome takes the REASSIGN entry off its spindle, raises its notice, and leaves the sequencer IDLE. -/
def Obligations.SpareTrackAdmits : Prop :=
  (∀ (s : State) (p : Port) (f : HostFrame) (a : Ask) (n cyl head : Nat) (i : Spindle),
    parseSpare f.payload = some (a, n, cyl, head) → a.unit = some i → s.part.Accepts p 21 f a →
    let home : Track := { cyl := physicalCyl cyl, head := head }
    let q := s.part.taking p a
    let reassign (arrival : Nat) : Entry :=
      { owner := .internal, kind := .reassign, cyl := 0, head := 0, first := 0, count := 0, writeVerify := false
        cmpOffset := 0, cmpBytes := [], arrival := arrival, state := .queued, track := none, blocksDone := 0
        retries := 0, lost := 0, decided := none, abandoned := false, compared := false }
    (s.part.isSparing i home = true →
      exec (.spareTrack p f) s = .next { s with part := (q.withEnding p a.tag 21 .good []).kickAll }) ∧
    (s.part.isSparing i home = false → 8 ≤ s.part.sparing.length →
      exec (.spareTrack p f) s = .next { s with part := (q.withEnding p a.tag 21 .busy []).kickAll }) ∧
    (s.part.isSparing i home = false → s.part.sparing.length < 8 → s.part.seq.state ≠ .idle →
      exec (.spareTrack p f) s = .next { s with part :=
        ({ q.withEnding p a.tag 21 .good [] with
            sparing := s.part.sparing ++ [{ spindle := i, home := home, trigger := .requested p }] } : Lubran).kickAll }) ∧
    (s.part.isSparing i home = false → s.part.sparing = [] → s.part.seq.state = .idle → (s.part.sp i).life ≠ .ready →
      exec (.spareTrack p f) s = .next { s with part :=
        ((q.withEnding p a.tag 21 .good []).raiseMasked i
          (.spareFailed .notReady cyl head 0 none (.requested p))).kickAll }) ∧
    (s.part.isSparing i home = false → s.part.sparing = [] → s.part.seq.state = .idle → (s.part.sp i).life = .ready →
      s.part.current i ≠ none → (s.part.sp i).internal = none →
      exec (.spareTrack p f) s = .next { s with part :=
        ({ (q.withEnding p a.tag 21 .good []).modSp i fun u => { u with internal := some (reassign u.revs) } with
            seq := { Sequencer.initial with
              state := .select, spindle := some i, home := some home, trigger := some (.requested p) } } : Lubran).kickAll })) ∧
  (∀ (q : Lubran) (i : Spindle) (home : Track), q.seq.home = some home →
    let old := q.forward i home
    let source : Track := old.getD home
    let begun : Lubran := { q with seq := { q.seq with source := some source, oldAlt := old } }
    ((q.sp i).generation = 65535 → q.startReassign i = begun.spareFailed i .generationLimit) ∧
    ((q.sp i).generation < 65535 → old = none → 384 ≤ q.spareMap.length →
      q.startReassign i = begun.spareFailed i .mapFull) ∧
    ((q.sp i).generation < 65535 → old ≠ none ∨ q.spareMap.length < 384 →
      (q.allocate i home.cyl = none → q.startReassign i = begun.spareFailed i .poolExhausted) ∧
      (∀ alt, q.allocate i home.cyl = some alt → (q.sp i).chan.state = .onTrack → (q.sp i).chan.posKnown = true →
        (q.sp i).chan.orphan = false → (q.sp i).chan.cyl ≠ source.cyl →
        let t := q.startReassign i
        t.seq = { q.seq with
          state := .copy, source := some source, oldAlt := old, newAlt := some alt, lastAlt := some alt
          tried := q.seq.tried + 1, copied := 0, lostCount := 0, roundFirst := 0, roundSize := 4, step := .sourceSeek
          need := 4 } ∧
        (t.sp i).xfer = { (q.sp i).xfer with next := none, bind := 0, cont := none } ∧
        (t.sp i).chan.state = .seeking ∧ (t.sp i).chan.target = some source))) ∧
  -- the end of a block of COPY, before what follows from it in the same step
  (∀ (s : State) (i : Spindle) (e : Entry) (b : Nat) (id : BlockId) (k : Fin 8) (act : Action) (tr : Track)
    (bytes : Vector Byte 1024) (check : Word32),
    s.part.path.state ≠ .idle → s.part.path.spindle = some i → s.part.path.holder = some (.entry .internal) →
    s.part.path.field = some (.block b) → s.part.path.id = some id →
    (s.part.sp i).xfer.next = some { action := act, field := .block b } → (s.part.sp i).xfer.cont = none →
    (s.part.sp i).internal = some e → e.owner = .internal → e.kind = .reassign → e.abandoned = false → e.decided = none →
    s.part.seq.track = some tr → s.part.slotFor .internal b .disk = some k →
    let released (q : Lubran) (f : Entry → Entry) : Lubran :=
      { q.modSp i fun u =>
          { u with
            internal := u.internal.map fun x =>
              { f x with state := if x.state = .transferring then .rotating else x.state }
            readGate := false, writeGate := false, xfer := { u.xfer with cont := none } } with
        path := PathRec.idle }
    let ends (q : Lubran) : Prop := exec (.fieldEnd bytes check) s = s.run fun _ => q
    let good : Prop := crc32 (idBytes id ++ bytes.toList) = check
    let filled (state : SlotState) (lost : Bool) : Lubran :=
      s.part.modSlot k fun sl => { sl with bytes := bytes.toList, state := state, lost := lost }
    let lost := (s.part.slot k).lost
    let carried : Lubran := { released (filled .full true) fun x => { x with retries := 0 } with
      seq := { s.part.seq with lostCount := s.part.seq.lostCount + 1 } }
    let block : DiskWrite :=
      { spindle := i, track := tr, field := .block b, whole := true
        bytes := blockBytes { cyl := BitVec.ofNat 16 tr.cyl, head := byteOf tr.head, block := byteOf b
                              flags := if lost then 0x80 else 0 } (s.part.slot k).bytes }
    (act = .read → lost = false →
      (good → ends ((released (filled .full false) fun x => { x with retries := 0 }).seqReadDone i b)) ∧
      (¬ good → e.retries < 8 →
        ends (released (filled .reserved false) fun x => { x with retries := e.retries + 1 })) ∧
      (¬ good → 8 ≤ e.retries → ends (carried.seqReadDone i b))) ∧
    (act = .read → lost = true → ends (carried.seqReadDone i b)) ∧
    (act = .write →
      ends ((released { s.part with writeOut := some block } fun x => x).seqWriteDone i b)) ∧
    (act = .reread → good ∧ bytes.toList = (s.part.slot k).bytes →
      ends ((released (s.part.freeSlot k) fun x => x).seqVerifyDone i b)) ∧
    (act = .reread → ¬ (good ∧ bytes.toList = (s.part.slot k).bytes) →
      ends ((released s.part fun x => x).alternateFailure i))) ∧
  -- the two outcomes
  ∀ (q : Lubran) (i : Spindle) (home : Track) (trigger : Trigger), q.seq.home = some home → q.seq.trigger = some trigger →
    let left := q.removeReassign i
    ((left.sp i).internal = none) ∧
    (∀ reason, q.spareFailed i reason =
      { left.raiseMasked i (.spareFailed reason (logicalCyl home.cyl) home.head q.seq.tried (q.seq.lastAlt.map altIndex)
          trigger) with seq := Sequencer.initial }) ∧
    ∀ alt, q.seq.newAlt = some alt → q.spareDone i =
      { left.raiseMasked i (.spareDone (logicalCyl home.cyl) home.head (altIndex alt) q.seq.lostCount (q.reassignLost i)
          trigger) with seq := Sequencer.initial }

/-- R160: NOTIFY raises a notice with its four bytes at each target that is UP, but the sender, and ends GOOD with the set
of the ports that took it. -/
def Obligations.NotifyRaisesAtItsTargets : Prop :=
  ∀ (s : State) (p : Port) (f : HostFrame) (a : Ask) (targets : Vector Bool 4) (bytes : List Byte),
    parseNotify f.payload = some (a, targets, bytes) → s.part.Accepts p 22 f a →
    let takers := allPorts.filter fun r => targets.get r && decide (r ≠ p ∧ (s.part.port r).link = .up)
    exec (.notify p f) s = .next { s with part :=
      ((takers.foldl (fun q r => q.modPort r fun x => { x with notices := raiseInto x.notices (.port p) (.notify bytes) })
        (s.part.taking p a)).withEnding p a.tag 22 .good
          [portSetByte (Vector.ofFn fun r => decide (r ∈ takers))]).kickAll }

/-- R67, R118, R140, R172, R173: the four queries change nothing and end GOOD with their replies, of 23 bytes for QUERY
SPINDLE, 19 and 16 for pages 0 and 1, and 5 or 3 bytes and nine for each of at most four entries. The copy step that page 1
shows in a state without a round, and the codes 1 and 0 of the flags in a port's page, are the model's choices (log entries
54 and 56). -/
def Obligations.QueriesAnswer : Prop :=
  ∀ (s : State) (p : Port) (f : HostFrame) (a : Ask),
    let q := s.part.taking p a
    (∀ n i, parsePlainSpindle f.payload = some (a, n) → a.unit = some i → s.part.Accepts p 32 f a →
      exec (.querySpindle p f) s = .next { s with part := (q.withEnding p a.tag 32 .good (q.sp i).queryReply).kickAll } ∧
        (q.sp i).queryReply.length = 23) ∧
    (∀ page, parseQueryString f.payload = some (a, page) → s.part.Accepts p 33 f a →
      exec (.queryString p f) s = .next { s with part := (q.withEnding p a.tag 33 .good (q.page page)).kickAll } ∧
        (page = 0 → (q.page page).length = 19) ∧ (page = 1 → (q.page page).length = 16)) ∧
    (∀ n, parseReadMap f.payload = some (a, n) → s.part.Accepts p 34 f a →
      exec (.readSpareMap p f) s = .next { s with part := (q.withEnding p a.tag 34 .good (q.mapReply n)).kickAll } ∧
        (q.mapReply n).length = 5 + 9 * min 4 (s.part.spareMap.length - n)) ∧
    (∀ n, parseReadSuspects f.payload = some (a, n) → s.part.Accepts p 35 f a →
      exec (.readSuspects p f) s = .next { s with part := (q.withEnding p a.tag 35 .good (q.suspectsReply n)).kickAll } ∧
        (q.suspectsReply n).length = 3 + 9 * min 4 (s.part.suspects.length - n))

/-- R174, R27, R78: SET STRING replaces every string parameter, clamped, the auto-spare flags and the routing masks, and
empties the served set; it ends GOOD. -/
def Obligations.SetStringReplacesTheParameters : Prop :=
  ∀ (s : State) (p : Port) (f : HostFrame) (a : Ask) (x : StringSettings)
    (t a1 a0 v st age lrl soft low al arb auto m0 m1 m2 m3 m4 m5 m6 m7 : Byte),
    f.payload = [t, a1, a0, v, st, age, lrl, soft, low, al, arb, auto, m0, m1, m2, m3, m4, m5, m6, m7] →
    parseSetString f.payload = some (a, x) → s.part.Accepts p 48 f a →
    exec (.setString p f) s = .next { s with part :=
      (({ s.part.taking p a with
          params :=
            { acc := max 16 (min 1023 (a1.toNat * 256 + a0.toNat)), vmax := max 1 (min 255 v.toNat)
              settle := min 31 st.toNat, ageLimit := max 1 (min 63 age.toNat)
              lostRevLimit := max 1 (min 63 lrl.toNat), softLimit := max 1 (min 15 soft.toNat)
              poolLow := min 32 low.toNat, allegianceTime := max 6 (min 240 al.toNat)
              arbMode := if arb.getLsbD 0 then .fair else .priority }
          served := []
          spindles := Vector.ofFn fun i => { s.part.sp i with
            autoSpare := auto.getLsbD i.val
            mask := Vector.ofFn fun r => ((#v[m0, m1, m2, m3, m4, m5, m6, m7] : Vector Byte 8).get i).getLsbD r.val } }).withEnding
        p a.tag 48 .good []).kickAll }

/-- R175, R181: SET PORT replaces the settable part of its target's record and ends GOOD. The target's divisor is used from
the next frame it begins; for the sender's own port, from the frame after this ending. -/
def Obligations.SetPortReplacesTheRecord : Prop :=
  ∀ (s : State) (p : Port) (f : HostFrame) (a : Ask) (x : PortSettings),
    parseSetPort f.payload = some (a, x) → s.part.Accepts p 49 f a →
    let set (r : LinkPort) : LinkPort :=
      { r with second := x.second, priority := x.priority, divisor := x.divisor, fences := x.fences
               fencesOn := x.fencesOn }
    x.second ≤ 30 ∧ x.priority ≤ 7 ∧ x.divisor ≤ 63 ∧ x.fences.length ≤ 4 ∧
    (x.target ≠ p →
      exec (.setPort p f) s = .next { s with part :=
        (((s.part.taking p a).modPort x.target fun r =>
          { set r with rateNext := x.divisor, replies := r.replies.map ReplyFrame.plain }).withEnding p a.tag 49 .good
            []).kickAll }) ∧
    (x.target = p →
      exec (.setPort p f) s = .next { s with part :=
        ((s.part.taking p a).modPort p fun r =>
          { set r with replies := r.replies ++
              [.ending (byteOf a.tag.val) 49 .good 0 [] (some x.divisor)] }).kickAll })

/-- R26, R66, R94, R116, R162, R176: what RESET STRING leaves, where no spindle at speed has GUARD asserted. -/
def Obligations.ResetStringResetsEveryBlock : Prop :=
  ∀ (s : State) (p : Port) (f : HostFrame) (a : Ask),
    parseReset f.payload = some (a, ()) → s.part.Accepts p 50 f a →
    (∀ i, (s.part.sp i).atSpeed = true → (s.part.sp i).lines.guard = false) →
    ∃ q : Lubran, exec (.resetString p f) s = .next { s with part := (q.withEnding p a.tag 50 .good []).kickAll } ∧
      q.straps = s.part.straps ∧ q.params = s.part.params ∧ q.path = PathRec.idle ∧ q.waiting = [] ∧ q.served = [] ∧
      q.suspects = [] ∧ q.sparing = [] ∧ q.seq = Sequencer.initial ∧
      q.spareMap = s.part.spareMap.filter (fun m => decide ((s.part.sp m.spindle).mapState ≠ .building)) ∧
      (∀ k, (q.slot k).state = .free ∧ (q.slot k).owner = none) ∧
      (∀ i, (q.sp i).queue = [] ∧ (q.sp i).internal = none ∧ (q.sp i).reservation = none ∧
        (q.sp i).allegiance = none ∧ (q.sp i).readGate = false ∧ (q.sp i).writeGate = false ∧
        (q.sp i).autoSpare = (s.part.sp i).autoSpare ∧ (q.sp i).mask = (s.part.sp i).mask ∧
        (q.sp i).revs = (s.part.sp i).revs ∧ (q.sp i).slot = (s.part.sp i).slot ∧
        (q.sp i).missing = (s.part.sp i).missing ∧ (q.sp i).lines = (s.part.sp i).lines ∧
        (q.sp i).spin = (s.part.sp i).spin ∧ (q.sp i).faultReason = (s.part.sp i).faultReason ∧
        ((s.part.sp i).mapState = .building → (q.sp i).mapState = .notBuilt ∧ (q.sp i).pool = [] ∧
          (q.sp i).generation = 0 ∧ (q.sp i).build = none) ∧
        ((s.part.sp i).mapState ≠ .building → (q.sp i).mapState = (s.part.sp i).mapState ∧
          (q.sp i).pool = (s.part.sp i).pool ∧ (q.sp i).generation = (s.part.sp i).generation) ∧
        ((s.part.sp i).atSpeed = false → (q.sp i).life = (s.part.sp i).life ∧
          (q.sp i).chan = (s.part.sp i).chan) ∧
        ((s.part.sp i).atSpeed = true → (q.sp i).life = .recalibrating ∧ (q.sp i).chan.state = .recal ∧
          (q.sp i).chan.purpose = .recal ∧ (q.sp i).chan.posKnown = false ∧ (q.sp i).chan.target = none ∧
          (q.sp i).chan.direction = .outward ∧ (q.sp i).chan.demand = min 8 s.part.params.vmax ∧
          (q.sp i).chan.recalLimit = 1536)) ∧
      (∀ r, (∀ t, (q.port r).tags.get t = false) ∧ (q.port r).sense = none ∧ (q.port r).replies = [] ∧
        (q.port r).requests = [] ∧ (q.port r).drains = [] ∧ (q.port r).link = (s.part.port r).link ∧
        ((s.part.port r).link = .up → (q.port r).notices =
          [{ key := .nothing, detail := .stringReset p, sending := false, follow := none }]) ∧
        ((s.part.port r).link ≠ .up → (q.port r).notices = []))

/-! ## Frames that are no commands -/

/-- R84: a DATA frame with a good check, for a block of an in-service WRITE or GUARDED WRITE whose HOST slot waits for
just that fragment, puts its 256 bytes at 256 times the fragment number; the fragment count rises by 1, and the slot
is FILLING, or FULL with the fourth. Nothing else changes but the link timer, and the transmitters choose. -/
def Obligations.DataFragmentIsPlaced : Prop :=
  ∀ (s : State) (p : Port) (f : DataFrame) (t : Tag) (i : Spindle) (e : Entry) (k : Fin 8),
    s.part.atRest = true → (s.part.port p).link = .up → (s.part.port p).keeps f.addr 64 = true →
    f.check = dataCheck f.addr f.tag f.seq f.bytes.toList → f.tag.toNat = t.val →
    s.part.findEntry (.host p t) = some (i, e) → e.inService = true → e.abandoned = false →
    e.kind = .write ∨ e.kind = .guardedWrite →
    s.part.slotFor (.host p t) (f.seq.toNat / 4) .host = some k →
    (s.part.slot k).state = .reserved ∨ (s.part.slot k).state = .filling →
    (s.part.slot k).frags = f.seq.toNat % 4 →
    let n := f.seq.toNat % 4
    exec (.data p f) s = .next { s with part :=
      ((s.part.modPort p LinkPort.reload).modSlot k fun sl =>
        { sl with bytes := sl.bytes.take (256 * n) ++ f.bytes.toList ++ sl.bytes.drop (256 * n + 256)
                  frags := n + 1, state := if n = 3 then .full else .filling }).kickAll }

/-- R85, R146, R163: a DATA frame that names a QUEUED command ends it UNREQUESTED DATA and takes it off its queue: the
ending is handed over, its tag is free, the sense record is written, and the spindle's allegiance goes to the port. A DATA
frame whose tag is free is discarded. That the allegiance of another port which is replaced so makes no selection event,
although the port's other entries may become eligible, is read from R48 and R150 (DEDUCED, log entry 34). -/
def Obligations.UnrequestedDataEndsAQueuedCommand : Prop :=
  ∀ (s : State) (p : Port) (f : DataFrame) (t : Tag), s.part.atRest = true → (s.part.port p).link = .up →
    (s.part.port p).keeps f.addr 64 = true → f.check = dataCheck f.addr f.tag f.seq f.bytes.toList →
    f.tag.toNat = t.val →
    (∀ i e, s.part.findEntry (.host p t) = some (i, e) → e.state = .queued → e.abandoned = false →
      exec (.data p f) s = .next { s with part :=
        ((s.part.modPort p fun r =>
          { r.reload with
            replies := r.replies ++
              [.ending (byteOf t.val) (byteOf (kindCode e.kind)) .unrequestedData (byteOf e.residual) [] none]
            tags := r.tags.set t false
            sense := some
              { tag := t, code := .unrequestedData, spindle := i
                logical := if e.kind.hasTrack then
                    some { cyl := e.cyl, head := e.head, first := e.first, count := e.count } else none
                physical := e.track
                endBlock := if e.kind.hasTrack then some (min 14 (e.first + e.blocksDone)) else none
                retries := e.retries, lost := e.lost, fault := (s.part.sp i).lines.fault
                speedOk := (s.part.sp i).lines.speedOk, pending := true } }).modSp i fun u =>
          { u with queue := u.queue.filter fun x => decide (x.owner ≠ .host p t)
                   allegiance := some (p, s.part.params.allegianceTime) }).kickAll }) ∧
    (s.part.findEntry (.host p t) = none →
      exec (.data p f) s = .next { s with part := (s.part.modPort p LinkPort.reload).kickAll })

/-- R85, R89, R179, R180: a DATA frame with a bad check, or one that a START cuts, decides DATA FRAME CHECK for the
in-service WRITE or GUARDED WRITE its tag names, here while the path carries a block of it: the entry is ENDING and leaves
the slot arbiter's list, and the hand-over waits for that block's end. A tag that names no command is discarded. The START
that cuts a frame also ends a hold (R181). That the DATA REQUESTs that wait and the slots stay as they are until that
block's end is read from R89, which gives no moment (DEDUCED, log entry 39). -/
def Obligations.DamagedDataDecidesTheEnding : Prop :=
  ∀ (s : State) (p : Port) (t : Tag), s.part.atRest = true → (s.part.port p).link = .up →
    (∀ i e, s.part.findEntry (.host p t) = some (i, e) → s.part.current i = some e →
      e.kind = .write ∨ e.kind = .guardedWrite → e.decided = none → e.abandoned = false →
      s.part.carrying i (.host p t) = true →
      let after (g : LinkPort → LinkPort) : Lubran :=
        { (s.part.modPort p g).modSp i (fun u => u.modEntry (.host p t) fun e =>
            { e with state := .ending, decided := some { code := .dataFrameCheck, reply := [] } }) with
          waiting := s.part.waiting.filter fun w => decide (w ≠ .host p t) }
      (∀ f : DataFrame, (s.part.port p).keeps f.addr 64 = true → f.tag.toNat = t.val →
        f.check ≠ dataCheck f.addr f.tag f.seq f.bytes.toList →
        exec (.dataFrameCheck p (.badCheck f)) s = .next { s with part := (after LinkPort.reload).kickAll }) ∧
      (∀ addr tag rest, (s.part.port p).keeps addr 64 = true → tag.toNat = t.val →
        exec (.dataFrameCheck p (.cut (addr :: 64 :: tag :: rest))) s =
          .next { s with part := (after fun r => { r.reload with paused := false }).kickAll })) ∧
    (s.part.findEntry (.host p t) = none →
      (∀ f : DataFrame, f.tag.toNat = t.val →
        exec (.dataFrameCheck p (.badCheck f)) s =
          .next { s with part := (s.part.modPort p LinkPort.reload).kickAll }) ∧
      (∀ addr tag rest, tag.toNat = t.val →
        exec (.dataFrameCheck p (.cut (addr :: 64 :: tag :: rest))) s =
          .next { s with part := (s.part.modPort p fun r => { r.reload with paused := false }).kickAll }))

/-- R63, R64, R78, R162, R164, R167, R178: a RESET PORT frame that is accepted tears the port down and leaves its link UP
with the timer reloaded: given whole where none of the port's entries is in service and no selection comes of the
allegiances that end. An in-service entry of the port, whose tag no other spindle's entry bears (R42), is abandoned:
SEEKING, SETTLING, ROTATING or ENDING it leaves the queue at once, with its slots and its tag; TRANSFERRING it stays, with
its path, slots and tag, to the next block boundary. A block of an ENDING entry that still passes is carried to its end by
the path (DEDUCED, log entry 22). That the transmitter then begins its next frame at the divisor held, though the ENDING of
the SET PORT that set it is discarded, is the model's choice (log entry 52). -/
def Obligations.ResetPortTearsThePortDown : Prop :=
  (∀ (s : State) (p : Port) (f : HostFrame), s.part.atRest = true → s.part.Hears p 80 f → f.payload = [] →
    s.part.Unserved p → (∀ i, (s.part.sp i).allegiance.map Prod.fst = some p → s.part.Engaged i) →
    exec (.resetPort p f) s = .next { s with part := ((s.part.modPort p LinkPort.reload).withoutPort p).kickAll }) ∧
  (∀ (s : State) (p : Port) (f : HostFrame), s.part.Hears p 80 f → f.payload = [] →
    exec (.resetPort p f) s = s.run fun q => (q.modPort p LinkPort.reload).teardown p) ∧
  ∀ (q : Lubran) (p : Port) (i : Spindle) (e : Entry) (t : Tag), q.current i = some e → e.owner = .host p t →
    (q.sp i).findEntry (.host p t) = some e →
    (∀ j x, j ≠ i → x ∈ (q.sp j).queue ∨ (q.sp j).internal = some x → x.owner ≠ .host p t) →
    let torn := q.teardown p
    let gone : Prop := (torn.sp i).findEntry (.host p t) = none ∧ (torn.port p).tags.get t = false ∧
      (∀ k, (torn.slot k).owner ≠ some (.host p t)) ∧ (torn.port p).replies = [] ∧ (torn.port p).requests = [] ∧
      (torn.port p).drains = []
    (e.state = .seeking ∨ e.state = .settling ∨ e.state = .rotating → gone) ∧
    (e.state = .transferring →
      (torn.sp i).findEntry (.host p t) = some { e with abandoned := true } ∧ (torn.port p).tags.get t = true ∧
      (∀ k, (q.slot k).owner = some (.host p t) → torn.slot k = q.slot k) ∧
      (q.path.spindle = some i → torn.path = q.path)) ∧
    (e.state = .ending → gone ∧
      ∀ b nx, q.path.state ≠ .idle → q.path.spindle = some i → q.path.holder = some (.entry (.host p t)) →
        q.path.field = some (.block b) → (q.sp i).xfer.next = some nx →
        ∃ d, d.entry = e ∧ d.action = nx.action ∧ torn.path = { q.path with holder := some (.departed d) })

/-- R177, R178: the link timer runs out: in SYNC the port is LOST with no teardown; in UP it is LOST with the teardown of
`ResetPortTearsThePortDown`; in DOWN and LOST, or with the timer stopped, nothing happens. The divisor of the next frame is
as there (log entry 52). -/
def Obligations.LinkTimerRunsOut : Prop :=
  ∀ (s : State) (p : Port), s.part.atRest = true →
    (∀ n, (s.part.port p).link = .sync → (s.part.port p).timer = some n →
      exec (.linkTimerExpiry p) s = .next { s with part :=
        (s.part.modPort p fun r => { r with link := .lost, timer := none, idleCount := 0 }).kickAll }) ∧
    (∀ n, (s.part.port p).link = .up → (s.part.port p).timer = some n → s.part.Unserved p →
      (∀ i, (s.part.sp i).allegiance.map Prod.fst = some p → s.part.Engaged i) →
      exec (.linkTimerExpiry p) s = .next { s with part :=
        ((s.part.withoutPort p).modPort p fun r => { r with link := .lost, timer := none }).kickAll }) ∧
    ((s.part.port p).link = .down ∨ (s.part.port p).link = .lost ∨ (s.part.port p).timer = none →
      exec (.linkTimerExpiry p) s = .next { s with part := s.part.kickAll })

/-- R177, R181: what a symbol or byte does to a port: it loads the link timer; from DOWN and LOST the port goes to SYNC;
in SYNC sixteen IDLE symbols in a row bring it UP; in UP a HOLD pauses the transmitter, and IDLE or START lets it go
on. -/
def Obligations.SymbolsMoveTheLink : Prop :=
  ∀ (s : State) (p : Port), s.part.atRest = true →
    let r := s.part.port p
    let gives (c : Instr) (x : LinkPort) : Prop :=
      exec c s = .next { s with part := (s.part.modPort p fun _ => { x with timer := some 4800000 }).kickAll }
    (r.link = .down ∨ r.link = .lost →
      (∀ sym, gives (.linkSymbolReceived p sym) { r with link := .sync, idleCount := 0 }) ∧
      gives (.hold p) { r with link := .sync, idleCount := 0 }) ∧
    (r.link = .sync →
      (r.idleCount < 15 → gives (.linkSymbolReceived p .idle) { r with idleCount := r.idleCount + 1 }) ∧
      (15 ≤ r.idleCount → gives (.linkSymbolReceived p .idle) { r with link := .up, idleCount := 0 }) ∧
      gives (.linkSymbolReceived p .start) { r with idleCount := 0 } ∧
      (∀ b, gives (.linkSymbolReceived p (.byte b)) { r with idleCount := 0 }) ∧
      gives (.hold p) { r with idleCount := 0 }) ∧
    (r.link = .up →
      gives (.linkSymbolReceived p .idle) { r with paused := false } ∧
      gives (.linkSymbolReceived p .start) { r with paused := false } ∧
      (∀ b, gives (.linkSymbolReceived p (.byte b)) r) ∧ gives (.hold p) { r with paused := true })

/-- R179: on an UP link a frame that is not for the port is ignored: it reloads the link timer, and nothing else changes (R177).
(A frame that a START cuts is left to `RejectsAreQueued`.) That a frame row on a link that is not UP changes nothing is the
model's choice (log entry 25): there the bytes come as LINK_SYMBOL_RECEIVED rows, whose effect `SymbolsMoveTheLink` says. -/
def Obligations.FramesNotForThePortAreIgnored : Prop :=
  ∀ (c : Instr) (s : State) (p : Port), framePort c = some p → s.part.Settled →
    ((s.part.port p).link ≠ .up → exec c s = .next s) ∧
    (∀ a, isCut c = false → c.line.head? = some a → (s.part.port p).link = .up → (s.part.port p).recognise a = .no →
      exec c s = .next { s with part := s.part.modPort p LinkPort.reload })

/-- R179, R180: a frame of an unknown kind, with a length above 48, or with a bad check, a RESET PORT with a payload and a
good check, and a cut frame, each give a REJECT with its reason, the kind as received, and tag 255 or the tag as received;
with four rejects waiting none is queued. In every case the frame is not acted on. That the REJECT of a RESET PORT with a
payload, whole or cut, carries tag 255 is read from R166 (log entry 26). A frame cut after its length byte, above 48, is
being ignored and gives no second REJECT. That a START which cuts a frame before its address byte has come gives a REJECT is
the model's choice (log entry 51). -/
def Obligations.RejectsAreQueued : Prop :=
  ∀ (s : State) (p : Port), s.part.atRest = true → (s.part.port p).link = .up →
    let after (g : LinkPort → LinkPort) (reason : RejectReason) (kind tag : Byte) : State :=
      { s with part := (s.part.modPort p fun r =>
          { g r with replies :=
              if r.rejects < 4 then r.replies ++ [.reject reason kind tag] else r.replies }).kickAll }
    let resumed (r : LinkPort) : LinkPort := { r.reload with paused := false }
    (∀ addr kind, (s.part.port p).keeps addr kind.toNat = true → isHostKind kind.toNat = false →
      exec (.unknownKind p addr kind) s = .next (after LinkPort.reload .unknownKind kind 255)) ∧
    (∀ addr kind len, (s.part.port p).keeps addr kind.toNat = true → isHostKind kind.toNat = true → kind ≠ 64 →
      48 < len.toNat →
      exec (.frameLength p addr kind (.long len)) s = .next (after LinkPort.reload .frameLength kind 255)) ∧
    (∀ f : HostFrame, (s.part.port p).keeps f.addr 80 = true → f.payload ≠ [] → f.payload.length ≤ 48 →
      f.check = frameCheck f.addr 80 f.payload →
      exec (.frameLength p f.addr 80 (.whole f.payload f.check)) s = .next (after LinkPort.reload .frameLength 80 255)) ∧
    (∀ (kind : Byte) (f : HostFrame), (s.part.port p).keeps f.addr kind.toNat = true →
      isHostKind kind.toNat = true → kind ≠ 64 → f.payload.length ≤ 48 →
      f.check ≠ frameCheck f.addr kind f.payload →
      exec (.frameCheck p kind f) s = .next (after LinkPort.reload .frameCheck kind 255)) ∧
    exec (.frameCut p []) s = .next (after resumed .frameCut 255 255) ∧
    (∀ addr, (s.part.port p).recognise addr ≠ .no →
      exec (.frameCut p [addr]) s = .next (after resumed .frameCut 255 255)) ∧
    (∀ addr kind, (s.part.port p).keeps addr kind.toNat = true → isHostKind kind.toNat = true → kind ≠ 64 →
      exec (.frameCut p [addr, kind]) s = .next (after resumed .frameCut kind 255) ∧
      (∀ len, len.toNat ≤ 48 → exec (.frameCut p [addr, kind, len]) s = .next (after resumed .frameCut kind 255)) ∧
      (∀ len tag rest, kind ≠ 80 → 1 ≤ len.toNat → len.toNat ≤ 48 →
        exec (.frameCut p (addr :: kind :: len :: tag :: rest)) s = .next (after resumed .frameCut kind tag)) ∧
      (∀ len rest, kind = 80 → len.toNat ≤ 48 →
        exec (.frameCut p (addr :: kind :: len :: rest)) s = .next (after resumed .frameCut kind 255)) ∧
      (∀ len rest, 48 < len.toNat →
        exec (.frameCut p (addr :: kind :: len :: rest)) s =
          .next { s with part := (s.part.modPort p resumed).kickAll }))

/-! ## The transmitter -/

/-- R182: when an ENDING, REJECT or DATA REQUEST frame ends, the transmitter chooses its next frame from the first class
that holds one: the oldest ENDING or REJECT, the oldest DATA REQUEST, the next DATA frame of the earliest command with
one ready, whose slot is DRAINING from then on, or the oldest notice not sending; with none it is idle. -/
def Obligations.FrameEndBeginsTheNext : Prop :=
  ∀ (s : State) (p : Port), s.part.atRest = true → (s.part.port p).link = .up → (s.part.port p).paused = false →
    ((∃ f, (s.part.port p).sending = some (.reply f)) ∨ ∃ d, (s.part.port p).sending = some (.request d)) →
    ∃ t : State, exec (.frameSent p) s = .next t ∧ t.pending = s.pending ∧
      (∀ f fs, (s.part.port p).replies = f :: fs →
        (t.part.port p).sending = some (.reply f) ∧ (t.part.port p).replies = fs) ∧
      ((s.part.port p).replies = [] →
        (∀ d ds, (s.part.port p).requests = d :: ds →
          (t.part.port p).sending = some (.request d) ∧ (t.part.port p).requests = ds) ∧
        ((s.part.port p).requests = [] →
          (∀ tag k, s.part.readyDrain p = some (tag, k) →
            (t.part.port p).sending = some (.data tag ((s.part.slot k).block.getD 0) (s.part.slot k).sent
              (((s.part.slot k).bytes.drop (256 * (s.part.slot k).sent)).take 256) (some k)) ∧
            (t.part.slot k).state = .draining) ∧
          (s.part.readyDrain p = none →
            (∀ n, ((s.part.port p).notices.find? fun n => !n.sending) = some n →
              (t.part.port p).sending = some (.attention n.key n.detail)) ∧
            (((s.part.port p).notices.find? fun n => !n.sending) = none → (t.part.port p).sending = none)))) ∧
      (∀ i, t.part.sp i = s.part.sp i)

/-- R161: when an ATTENTION frame ends, its notice leaves the table, or with a follow-on detail moves to the tail, not
sending. -/
def Obligations.AttentionFrameEndSettlesItsNotice : Prop :=
  ∀ (s : State) (p : Port) (before after : List Notice) (n : Notice) (key : NoticeKey) (d : Detail),
    s.part.atRest = true → (s.part.port p).sending = some (.attention key d) →
    (s.part.port p).notices = before ++ n :: after → n.sending = true →
    (∀ m ∈ before ++ after, m.sending = false) →
    exec (.attentionFrameSent p) s = .next { s with part :=
      (s.part.modPort p fun r =>
        { r with sending := none
                 notices := before ++ after ++ match n.follow with
                   | none => []
                   | some x => [{ key := n.key, detail := x, sending := false, follow := none }] }).kickAll }

/-- R81, R89, R182: when a DATA frame ends, the first three of a slot raise the count of frames sent; the fourth frees the
slot and raises the READ's blocks done, where the entry holds what it then needs; a frame whose slot has become FREE
since changes nothing but the transmitter. -/
def Obligations.DataFrameEndDrainsItsSlot : Prop :=
  ∀ (s : State) (p : Port) (t : Tag) (b n : Nat) (bytes : List Byte), s.part.atRest = true →
    ((s.part.port p).sending = some (.data t b n bytes none) →
      exec (.dataFrameSent p) s = .next { s with part :=
        (s.part.modPort p fun r => { r with sending := none }).kickAll }) ∧
    (∀ k o, (s.part.port p).sending = some (.data t b n bytes (some k)) → (s.part.slot k).owner = some o →
      (s.part.slot k).sent < 3 →
      exec (.dataFrameSent p) s = .next { s with part :=
        ((s.part.modPort p fun r => { r with sending := none }).modSlot k fun sl =>
          { sl with sent := sl.sent + 1 }).kickAll }) ∧
    (∀ k i e, (s.part.port p).sending = some (.data t b n bytes (some k)) →
      (s.part.slot k).owner = some (.host p t) → (s.part.slot k).sent = 3 → (s.part.slot k).source = some .disk →
      s.part.findEntry (.host p t) = some (i, e) → e.kind = .read → e.decided = none → s.part.waiting = [] →
      min 4 (e.count - (e.blocksDone + 1)) < (s.part.slotsOf (.host p t)).length →
      ∃ u : State, exec (.dataFrameSent p) s = .next u ∧ (u.part.slot k).state = .free ∧
        (u.part.slot k).owner = none ∧ (∀ j, j ≠ i → u.part.sp j = s.part.sp j) ∧
        u.part.sp i = (s.part.sp i).modEntry (.host p t) (fun e => { e with blocksDone := e.blocksDone + 1 }) ∧
        (∀ l, l ≠ k → (u.part.slot l).owner = (s.part.slot l).owner ∧ (u.part.slot l).bytes = (s.part.slot l).bytes))

/-! ## The angular tracker -/

/-- R23, R24, R25, R46, R148: a mark on a spindle at speed that carries no transfer and moves nothing. A SECTOR mark raises the
slot number of slots 0 to 94 by 1; at slot 95, with the missing-index count 0, it wraps it to 0 as a missing index and a
revolution event, which raises the revolution counter and lowers an allegiance timer above 1. An INDEX mark sets the
slot number to 0 and clears the missing-index count, and away from slot 0 is a revolution event. A SPINNING_UP
spindle moves its slot number alone, and any other spindle nothing. The lines that fell before the mark are
down (log entry 6). -/
def Obligations.MarksMoveTheSlot : Prop :=
  ∀ (s : State) (i : Spindle) (falls : Falls), s.part.atRest = true →
    let u := s.part.sp i
    let fallen : Lines := { u.lines with
      onTrack := u.lines.onTrack && !falls.onTrack, guard := u.lines.guard && !falls.guard
      fault := u.lines.fault && !falls.fault }
    let gives (c : Instr) (x : SpindleUnit) : Prop :=
      exec c s = .next { s with part := (s.part.modSp i fun _ => { x with lines := fallen }).kickAll }
    (u.life = .recalibrating ∨ u.life = .buildingMap ∨ u.life = .ready → u.xfer.next = none →
      u.chan.state = .idle ∨ u.chan.state = .onTrack →
      (u.slot < 95 → gives (.sectorMark i falls) { u with slot := u.slot + 1 }) ∧
      (95 ≤ u.slot → u.missing = 0 → u.allegiance = none →
        gives (.sectorMark i falls) { u with slot := 0, missing := 1, revs := (u.revs + 1) % 65536 }) ∧
      (∀ p n, 95 ≤ u.slot → u.missing = 0 → u.allegiance = some (p, n) → 1 < n →
        gives (.sectorMark i falls)
          { u with slot := 0, missing := 1, revs := (u.revs + 1) % 65536, allegiance := some (p, n - 1) }) ∧
      (s.part.path.spindle ≠ some i →
        (u.slot = 0 → gives (.indexMark i falls) { u with missing := 0 }) ∧
        (u.slot ≠ 0 → u.allegiance = none →
          gives (.indexMark i falls) { u with slot := 0, missing := 0, revs := (u.revs + 1) % 65536 }))) ∧
    (u.life = .spinningUp →
      gives (.sectorMark i falls) { u with slot := if u.slot < 95 then u.slot + 1 else 0 } ∧
      gives (.indexMark i falls) { u with slot := 0 }) ∧
    (u.life = .absent ∨ u.life = .stopped ∨ u.life = .faulted →
      gives (.sectorMark i falls) u ∧ gives (.indexMark i falls) u)

/-- R16, R18, R21: each slot boundary lowers the settle count of a settling channel, the deadline of a seek and the limit
of a recalibration, while none of them reaches 0. -/
def Obligations.SlotBoundaryCountsForTheChannel : Prop :=
  ∀ (s : State) (i : Spindle), s.part.atRest = true →
    let u := s.part.sp i
    let none_ : Falls := { onTrack := false, guard := false, fault := false }
    let gives (x : SpindleUnit) : Prop :=
      exec (.sectorMark i none_) s = .next { s with part := (s.part.modSp i fun _ => x).kickAll }
    u.life = .recalibrating ∨ u.life = .buildingMap ∨ u.life = .ready → u.slot < 95 →
    (s.part.modSp i fun u => { u with slot := u.slot + 1 }).windowAt i = none → s.part.path.spindle ≠ some i →
    (u.chan.state = .seeking → u.chan.purpose = .normal → 1 < u.chan.deadline →
      gives { u with slot := u.slot + 1, chan := { u.chan with deadline := u.chan.deadline - 1 } }) ∧
    (u.chan.state = .settling → u.chan.purpose = .normal → 1 < u.chan.deadline → 1 < u.chan.settle →
      gives { u with slot := u.slot + 1
                     chan := { u.chan with deadline := u.chan.deadline - 1, settle := u.chan.settle - 1 } }) ∧
    (u.chan.state = .recal → u.chan.purpose = .recal → 1 < u.chan.recalLimit →
      gives { u with slot := u.slot + 1, chan := { u.chan with recalLimit := u.chan.recalLimit - 1 } })

/-- R70, R71, R73: at the slot boundary into the lead slot of its next field, a ROTATING entry whose staging condition holds
is granted an idle path, which holds this entry, spindle and field from then on, and is TRANSFERRING; when the path is held
or the staging condition fails, the window is missed, and the lost-revolution count rises. That the path has a holder, a
spindle and a field from the grant on, while its state stays IDLE to the end of the lead slot, is R70 followed over R68
(DEDUCED, log entry 13). -/
def Obligations.WindowIsGrantedOrMissed : Prop :=
  ∀ (s : State) (i : Spindle) (e : Entry) (nx : NextField), s.part.atRest = true →
    (s.part.sp i).life = .ready → (s.part.sp i).slot < 95 → (s.part.sp i).chan.state = .onTrack →
    s.part.current i = some e → e.state = .rotating → (s.part.sp i).xfer.next = some nx →
    (s.part.sp i).slot + 1 = leadSlot nx.field → s.part.path.spindle ≠ some i →
    let none_ : Falls := { onTrack := false, guard := false, fault := false }
    let marked : Lubran := s.part.modSp i fun u => { u with slot := u.slot + 1 }
    (s.part.path.holder = none → s.part.staged e nx = true →
      exec (.sectorMark i none_) s = .next { s with part :=
        ({ marked.modSp i (fun u => u.modEntry e.owner fun e => { e with state := .transferring }) with
            path := { state := .idle, holder := some (.entry e.owner), spindle := some i, field := some nx.field
                      id := none, faulted := false } } : Lubran).kickAll }) ∧
    (s.part.path.holder ≠ none ∨ s.part.staged e nx = false →
      e.owner = .internal ∨ min 64 (e.lost + 1) ≤ s.part.params.lostRevLimit →
      exec (.sectorMark i none_) s = .next { s with part :=
        (marked.modSp i fun u => u.modEntry e.owner fun e' => { e' with lost := min 64 (e.lost + 1) }).kickAll })

/-- R68, R70, R86, R92: at the end of the lead slot the granted field begins: the path takes the state of the action, and
READ GATE asserts. A block begins at a SECTOR mark, a header at the INDEX mark. That a header write asserts WRITE GATE alone,
without READ GATE, is read from R86 and R92 (log entry 14). An entry abandoned in that slot leaves at this boundary instead, and
nothing of its field is transferred (R64, R156 as log entry 13 reads them). -/
def Obligations.GrantedFieldBegins : Prop :=
  ∀ (s : State) (i : Spindle) (h : Holder) (nx : NextField), s.part.atRest = true →
    (s.part.sp i).life = .ready ∨ (s.part.sp i).life = .buildingMap → (s.part.sp i).chan.state = .onTrack →
    s.part.path.spindle = some i → s.part.path.state = .idle → s.part.path.holder = some h →
    s.part.path.field = some nx.field → (s.part.sp i).xfer.next = some nx →
    let none_ : Falls := { onTrack := false, guard := false, fault := false }
    let begun (change : SpindleUnit → SpindleUnit) : State :=
      { s with part := ({ s.part.modSp i (fun u =>
          { change u with
            readGate := u.readGate || decide (nx.action ≠ .headerWrite)
            writeGate := u.writeGate || decide (nx.action = .headerWrite) }) with
          path := { s.part.path with state :=
            match nx.action with
            | .read | .compareRead => .reading
            | .verify | .reread => .verifying
            | .write => .writing
            | .headerRead | .headerWrite => .header } } : Lubran).kickAll }
    ((∀ e, s.part.current i = some e → e.abandoned = false) →
      ((s.part.sp i).slot < 95 → (s.part.sp i).slot + 1 = firstSlot nx.field →
        exec (.sectorMark i none_) s = .next (begun fun u => { u with slot := u.slot + 1 })) ∧
      ((s.part.sp i).slot = 95 → nx.field = .header → (s.part.sp i).allegiance = none →
        exec (.indexMark i none_) s =
          .next (begun fun u => { u with slot := 0, missing := 0, revs := (u.revs + 1) % 65536 }))) ∧
    (∀ e p t, (s.part.sp i).queue = [e] → (s.part.sp i).internal = none → e.owner = .host p t →
      e.state = .transferring → e.abandoned = true → h = .entry (.host p t) →
      (∀ j, j ≠ i → (s.part.sp j).findEntry (.host p t) = none) → s.part.waiting = [] →
      (s.part.sp i).slot < 95 → (s.part.sp i).slot + 1 = firstSlot nx.field →
      ∃ u : State, exec (.sectorMark i none_) s = .next u ∧ (u.part.sp i).queue = [] ∧
        (u.part.port p).tags.get t = false ∧ u.part.path = PathRec.idle ∧ u.part.writeOut = s.part.writeOut ∧
        ∀ k, (u.part.slot k).owner ≠ some (.host p t))

/-! ## The actuator channel -/

/-- R15, R17, R22: a CROSSING while SEEKING moves the cylinder one step and lowers the distance, with the demand code of the
new distance; the last one is the arrival: DEMAND is 0 and the channel settles, with its entry; with the first or second
overshoot of a settle the channel seeks back one cylinder. On a channel that is ON_TRACK, with no entry in service and no
map build, the position is lost and a recalibration starts. In RECAL and IDLE, whatever the spindle's state, and on a
spindle that is not at speed, a CROSSING does nothing. That the remaining distance is kept at the start of that
recalibration, which R21 does not say, is the model's choice (log entry 49). -/
def Obligations.CrossingMovesTheHeads : Prop :=
  ∀ (s : State) (i : Spindle), s.part.atRest = true →
    let u := s.part.sp i
    let c := u.chan
    let none_ : Falls := { onTrack := false, guard := false, fault := false }
    let stepped : Nat := match c.direction with | .outward => c.cyl - 1 | .inward => c.cyl + 1
    let gives (q : Lubran) : Prop := exec (.crossing i none_) s = .next { s with part := q.kickAll }
    (u.life = .recalibrating ∨ u.life = .buildingMap ∨ u.life = .ready →
      (c.purpose = .normal → (c.direction = .outward → 0 < c.cyl) → (c.direction = .inward → c.cyl < 559) →
        (c.state = .seeking → 1 < c.remaining →
          gives ((s.part.modSp i fun u => { u with chan := { c with
            cyl := stepped, remaining := c.remaining - 1
            demand := demandCode c.sAcc c.sVmax (c.remaining - 1) } }).syncEntry i)) ∧
        (c.state = .seeking → c.remaining = 1 → 0 < c.sSettle →
          gives ((s.part.modSp i fun u => { u with chan := { c with
            cyl := stepped, remaining := 0, demand := 0, state := .settling, settle := c.sSettle } }).syncEntry i)) ∧
        (c.state = .settling → c.overshoots < 2 →
          gives ((s.part.modSp i fun u => { u with chan := { c with
            cyl := stepped, remaining := 1, state := .seeking, overshoots := c.overshoots + 1
            direction := match c.direction with | .outward => .inward | .inward => .outward
            demand := demandCode c.sAcc c.sVmax 1 } }).syncEntry i))) ∧
      (c.state = .onTrack → s.part.current i = none → u.life ≠ .buildingMap → s.part.path.spindle ≠ some i →
        u.lines.guard = false → u.waitReq = none →
        gives (s.part.modSp i fun u => { u with chan := { c with
          posKnown := false, purpose := .recal, state := .recal, recalLimit := 1536, direction := .outward
          demand := min 8 s.part.params.vmax, sVmax := s.part.params.vmax, sSettle := s.part.params.settle } }))) ∧
    (c.state = .idle ∨ c.state = .recal → gives s.part) ∧
    (u.life = .absent ∨ u.life = .stopped ∨ u.life = .spinningUp ∨ u.life = .faulted → gives s.part)

/-- R19, R20: a seek check that is the first of its seek: DEMAND is 0, POSITION KNOWN clear, the overshoot count clear, the
reissued flag set and the target kept, and a recalibration starts with the limit 1536. The deadline's end and a FAULT take
it while the channel is SEEKING or SETTLING, and GUARD above cylinder 0, where no field is being written or is a header. The
deadline's row acts at 1 or 0 (the model's choice, log entry 10). What becomes of the remaining distance, which R19 and R21
do not say, is the model's choice (log entry 49). -/
def Obligations.FirstSeekCheckKeepsTheSeek : Prop :=
  ∀ (s : State) (i : Spindle), s.part.atRest = true → (s.part.sp i).chan.reissued = false →
    (s.part.sp i).life = .recalibrating ∨ (s.part.sp i).life = .buildingMap ∨ (s.part.sp i).life = .ready →
    (s.part.sp i).chan.state = .seeking ∨ (s.part.sp i).chan.state = .settling →
    (s.part.sp i).chan.purpose = .normal → 0 < s.part.params.settle →
    (∀ t, (s.part.sp i).waitReq ≠ some (.seek t)) →
    let checked (lines : Lines) (deadline : Nat) : Lubran :=
      (s.part.modSp i fun u =>
        { u with lines := lines
                 chan := { (let c := { u.chan with
                              deadline := deadline, posKnown := false, overshoots := 0, reissued := true
                              purpose := .recal, recalLimit := 1536, direction := .outward
                              sVmax := s.part.params.vmax, sSettle := s.part.params.settle }
                            if lines.guard then
                              { c with state := .settling, cyl := 0, remaining := 0, demand := 0
                                       settle := s.part.params.settle }
                            else { c with state := .recal, demand := min 8 s.part.params.vmax }) with
                           target := u.chan.target } }).syncEntry i
    let u := s.part.sp i
    (u.chan.deadline ≤ 1 →
      exec (.seekDeadlineExpiry i) s = .next { s with part := (checked u.lines 0).kickAll }) ∧
    (s.part.path.spindle ≠ some i →
      exec (.faultAsserted i) s =
        .next { s with part := (checked { u.lines with fault := true } u.chan.deadline).kickAll }) ∧
    (0 < u.chan.cyl →
      exec (.guardAsserted i) s =
        .next { s with part := (checked { u.lines with guard := true } u.chan.deadline).kickAll })

/-- R21: GUARD asserting during a recalibration means cylinder 0: DEMAND is 0 and the settle starts, loaded from the sampled
SETTLE. On a channel that does not move, GUARD changes its line alone (R22). That the remaining distance becomes 0, which
R21 does not say, is the model's choice (log entry 49). -/
def Obligations.GuardEndsTheOutwardMotion : Prop :=
  ∀ (s : State) (i : Spindle), s.part.atRest = true →
    let u := s.part.sp i
    (u.life = .recalibrating ∨ u.life = .buildingMap ∨ u.life = .ready → u.chan.purpose = .recal → 0 < u.chan.sSettle →
      u.chan.state = .recal ∨ u.chan.state = .settling ∨ u.chan.state = .seeking →
      exec (.guardAsserted i) s = .next { s with part :=
        ((s.part.modSp i fun u =>
          { u with lines := { u.lines with guard := true }
                   chan := { u.chan with cyl := 0, demand := 0, remaining := 0, state := .settling
                                         settle := u.chan.sSettle } }).syncEntry i).kickAll }) ∧
    (u.chan.state = .idle ∨ u.chan.state = .onTrack →
      exec (.guardAsserted i) s = .next { s with part :=
        (s.part.modSp i fun u => { u with lines := { u.lines with guard := true } }).kickAll })

/-- R16, R54: a seek completes when its settle count is 0 and ON TRACK is asserted: the channel is ON_TRACK, its overshoot
count is clear and its target absent, and the host entry that waited for it is ROTATING. An assertion of ON TRACK
and the end of the settle count each complete it; its row acts at a count of 1 (the model's choice, log entry 10). -/
def Obligations.SettleCompletesTheSeek : Prop :=
  ∀ (s : State) (i : Spindle) (e : Entry) (p : Port) (t : Tag), s.part.atRest = true →
    (s.part.sp i).life = .ready → (s.part.sp i).chan.state = .settling → (s.part.sp i).chan.purpose = .normal →
    (s.part.sp i).chan.orphan = false → (s.part.sp i).waitReq = none → s.part.current i = some e →
    e.owner = .host p t → e.state = .settling →
    let done (lines : Lines) : Lubran :=
      s.part.modSp i fun u =>
        { u.modEntry (.host p t) (fun x => { x with state := .rotating }) with
          lines := lines
          chan := { u.chan with state := .onTrack, settle := 0, overshoots := 0, target := none } }
    ((s.part.sp i).chan.settle = 0 →
      exec (.onTrackAsserted i) s =
        .next { s with part := (done { (s.part.sp i).lines with onTrack := true }).kickAll }) ∧
    ((s.part.sp i).chan.settle = 1 → (s.part.sp i).lines.onTrack = true →
      exec (.settleCountExpiry i) s = .next { s with part := (done (s.part.sp i).lines).kickAll })

/-! ## The life cycle -/

/-- R6, R11, R12, R21, R25, R115, R127: what FAULTED leaves of a spindle with no work: SPEED-OK falling on a spindle at
speed, the spin-up timer running out, the recalibration limit reached, and a second missing index each fault it with their
reason. SPIN is low, the channel IDLE without a target or a known position, the map and its pool gone, its suspects
forgotten; SPINDLE FAULT is raised. The recalibration limit's row acts at 1 or 0 (the model's choice, log entry 10). That
the channel's Purpose becomes NORMAL, which R11 does not say, is the model's choice (log entry 38). -/
def Obligations.FaultStopsTheSpindle : Prop :=
  ∀ (s : State) (i : Spindle), s.part.atRest = true → (s.part.sp i).queue = [] → (s.part.sp i).internal = none →
    s.part.path.spindle ≠ some i → s.part.seq = Sequencer.initial → s.part.sparing = [] →
    let u := s.part.sp i
    let faulted (reason : FaultReason) (change : SpindleUnit → SpindleUnit) : State :=
      { s with part := (({ s.part with
          spareMap := s.part.spareMap.filter fun m => decide (m.spindle ≠ i)
          suspects := s.part.suspects.filter fun m => decide (m.spindle ≠ i) }.modSp i fun u =>
        { change u with
          life := .faulted, faultReason := reason, spin := false, spinTimer := none, waitReq := none, pool := []
          generation := 0, mapState := .notBuilt, build := none, selectDue := false
          xfer := { u.xfer with next := none, cont := none }
          chan := { (change u).chan with
            state := .idle, purpose := .normal, posKnown := false, target := none, demand := 0, overshoots := 0
            reissued := false, held := none, orphan := false } }).raiseMasked i (.spindleFault reason)).kickAll }
    (u.life = .recalibrating ∨ u.life = .buildingMap ∨ u.life = .ready →
      exec (.speedOkDeasserted i) s =
        .next (faulted .speedLost fun u => { u with lines := { u.lines with speedOk := false } })) ∧
    (u.life = .spinningUp → u.spinTimer.isSome = true →
      exec (.spinUpTimerExpiry i) s = .next (faulted .spinUpTimeout id)) ∧
    (u.life = .recalibrating ∨ u.life = .buildingMap ∨ u.life = .ready → u.chan.purpose = .recal →
      u.chan.state = .recal ∨ u.chan.state = .settling ∨ u.chan.state = .seeking → u.chan.recalLimit ≤ 1 →
      exec (.recalLimitExpiry i) s =
        .next (faulted .recalFailed fun u => { u with chan := { u.chan with recalLimit := 0 } })) ∧
    (u.life = .recalibrating ∨ u.life = .buildingMap ∨ u.life = .ready → 95 ≤ u.slot → 1 ≤ u.missing →
      u.allegiance = none →
      exec (.sectorMark i { onTrack := false, guard := false, fault := false }) s =
        .next (faulted .missingIndex fun u => { u with slot := 0, revs := (u.revs + 1) % 65536 }))

/-- R6, R21: SPEED-OK asserting on a SPINNING_UP spindle stops the timer, clears the missing-index count, and starts a
recalibration; on any other spindle it changes its line alone. That the remaining distance is kept, which R21 does not say,
is the model's choice (log entry 49). -/
def Obligations.SpeedOkStartsTheRecalibration : Prop :=
  ∀ (s : State) (i : Spindle), s.part.atRest = true →
    ((s.part.sp i).life = .spinningUp → s.part.current i = none → (s.part.sp i).waitReq = none →
      (s.part.sp i).lines.guard = false →
      exec (.speedOkAsserted i) s = .next { s with part :=
        (s.part.modSp i fun u =>
          { u with life := .recalibrating, spinTimer := none, missing := 0, lines := { u.lines with speedOk := true }
                   chan := { u.chan with
                     sVmax := s.part.params.vmax, sSettle := s.part.params.settle, purpose := .recal, state := .recal
                     recalLimit := 1536, direction := .outward, demand := min 8 s.part.params.vmax } }).kickAll }) ∧
    ((s.part.sp i).life ≠ .spinningUp →
      exec (.speedOkAsserted i) s = .next { s with part :=
        (s.part.modSp i fun u => { u with lines := { u.lines with speedOk := true } }).kickAll })

/-- R148, R150: an allegiance whose timer reaches 0 at a revolution event of a spindle at speed ends; where the spindle has
an entry in service or is not READY, nothing is selected. The row acts at a timer of 1 or 0 (the model's choice, log
entry 10). -/
def Obligations.AllegianceExpires : Prop :=
  ∀ (s : State) (i : Spindle) (p : Port) (n : Nat), s.part.atRest = true →
    (s.part.sp i).allegiance = some (p, n) → n ≤ 1 → s.part.Engaged i →
    (s.part.sp i).life = .recalibrating ∨ (s.part.sp i).life = .buildingMap ∨ (s.part.sp i).life = .ready →
    exec (.allegianceExpiry i) s = .next { s with part :=
      (s.part.modSp i fun u => { u with allegiance := none }).kickAll }

/-! ## Fields -/

/-- R20, R21, R79, R86: the block ID at the start of a host entry's block. One that names the expected block keeps the path:
a read goes on with its slot FILLING, and a write asserts WRITE GATE, with READ GATE left as it is (DEDUCED, log entry 14).
One that carries LOST ends a read DATA LOST. The first that names another block names a mispositioned channel: the path is
released, and the channel recalibrates and then seeks the track again, with the entry SEEKING. The second ends the entry
SEEK ERROR on a home cylinder, and SPARE MISMATCH on a spare one, whose spindle is then faulted. That a host's REREAD with a
wrong ID is such a mismatch (R79) and no failed reread (R87) is DEDUCED (log entry 16). That the remaining distance is kept
at the start of the recalibration is the model's choice (log entry 49). -/
def Obligations.BlockIdDecidesTheBlock : Prop :=
  ∀ (s : State) (i : Spindle) (e : Entry) (p : Port) (t : Tag) (nx : NextField) (b : Nat) (tr : Track) (id : BlockId),
    s.part.atRest = true → s.part.path.state ≠ .idle → s.part.path.spindle = some i →
    s.part.path.holder = some (.entry (.host p t)) → s.part.path.field = some (.block b) → s.part.path.id = none →
    (s.part.sp i).xfer.next = some nx → nx.field = .block b → (s.part.sp i).findEntry (.host p t) = some e →
    s.part.current i = some e → e.owner = .host p t → e.track = some tr →
    e.abandoned = false → e.decided = none →
    let reads : Prop := nx.action = .read ∨ nx.action = .verify ∨ nx.action = .compareRead
    let released : Lubran :=
      { s.part.modSp i fun u =>
          { u.modEntry (.host p t) fun y => { y with state := if y.state = .transferring then .rotating else y.state } with
            readGate := false, writeGate := false, xfer := { u.xfer with cont := none } } with
        path := PathRec.idle }
    (idNames id tr b = true → idLost id = false → reads →
      ∀ k, s.part.slotFor (.host p t) b .disk = some k →
      exec (.blockIdRead id) s = .next { s with part :=
        ({ s.part.modSlot k fun sl => { sl with state := .filling } with
            path := { s.part.path with id := some id } } : Lubran).kickAll }) ∧
    (idNames id tr b = true → idLost id = true → reads →
      exec (.blockIdRead id) s = s.run fun _ => released.decideEnding i .dataLost) ∧
    (idNames id tr b = true → nx.action = .write →
      exec (.blockIdRead id) s = .next { s with part :=
        ({ s.part.modSp i fun u => { u with writeGate := true } with
            path := { s.part.path with id := some id } } : Lubran).kickAll }) ∧
    (idNames id tr b = false → (s.part.sp i).xfer.mismatch = false → (s.part.sp i).lines.guard = false →
      (s.part.sp i).waitReq = none →
      exec (.blockIdRead id) s = .next { s with part :=
        ({ s.part.modSp i fun u =>
            { u.modEntry (.host p t) fun x => { x with state := .seeking } with
              readGate := false, writeGate := false, xfer := { u.xfer with cont := none, mismatch := true }
              chan := { u.chan with
                held := some { track := tr, again := true }, sVmax := s.part.params.vmax
                sSettle := s.part.params.settle, purpose := .recal, state := .recal, recalLimit := 1536
                direction := .outward, demand := min 8 s.part.params.vmax } } with
            path := PathRec.idle } : Lubran).kickAll }) ∧
    (idNames id tr b = false → (s.part.sp i).xfer.mismatch = true →
      (isHomeCyl tr.cyl = true →
        exec (.blockIdRead id) s = s.run fun _ => released.decideEnding i .seekError) ∧
      (isHomeCyl tr.cyl = false →
        exec (.blockIdRead id) s =
          s.run fun _ => (released.decideEnding i .spareMismatch).faultSpindle i .spareMismatch))

/-- R64, R72, R80, R82, R83, R86, R87, R88, R89, R91: the end of a block of a host entry. A READ that passes its check fills
its slot, a VERIFY or a passed reread counts its block and frees its slot, a compare decides whether the block is written,
and a written block is done, or is reread with write-verify; each with a SOFT report when attempts had failed. A failure
counts, and past its limit is reported HARD and ends DATA CHECK; so does a field cut short, and FAULT ends a write WRITE
FAULT. An abandoned entry leaves here, and an ending that waited for the block is concluded. Without a continuing grant the
path is released and the entry ROTATING. The model's choices: the bytes of a failed read (log entry 31), the retry counts
past the limit (log entry 20), a cut REREAD stays a REREAD (log entry 41), the ninth cut write of a GUARDED WRITE ends DATA
CHECK (log entry 42), an ending that waited has its requests and slots disposed of here (log entry 39), what is written is
kept in `writeOut` (log entry 32), a cut or faulted write is reported whatever its ID carries (log entry 43). -/
def Obligations.FieldEndPassesOrFailsARead : Prop :=
  ∀ (s : State) (i : Spindle) (e : Entry) (p : Port) (t : Tag) (b : Nat) (id : BlockId) (k : Fin 8) (act : Action)
    (tr : Track) (bytes : Vector Byte 1024) (check : Word32),
    s.part.atRest = true → s.part.path.state ≠ .idle → s.part.path.spindle = some i →
    s.part.path.holder = some (.entry (.host p t)) → s.part.path.field = some (.block b) →
    s.part.path.id = some id → (s.part.sp i).xfer.next = some { action := act, field := .block b } →
    (s.part.sp i).xfer.cont = none → (s.part.sp i).findEntry (.host p t) = some e → e.owner = .host p t →
    e.kind ≠ .reassign → e.track = some tr →
    let o : Owner := .host p t
    let writes : Prop := act = .write ∨ act = .reread
    let reads : Prop := act = .read ∨ act = .verify ∨ act = .compareRead
    (writes → s.part.slotFor o b .host = some k ∧ s.part.slotFor o b .disk = none) →
    (reads → s.part.slotFor o b .disk = some k) →
    let upd (q : Lubran) (f : Entry → Entry) : Lubran := q.modEntry i o f
    let released (q : Lubran) (next : Option NextField) : Lubran :=
      { q.modSp i fun u =>
          { u.modEntry o fun x => { x with state := if x.state = .transferring then .rotating else x.state } with
            readGate := false, writeGate := false, xfer := { u.xfer with next := next, cont := none } } with
        path := PathRec.idle }
    let finish (q : Lubran) (more : Lubran → Lubran) : Lubran :=
      if e.abandoned then (q.leaveQueue i o).setTag p t false
      else if e.decided.isSome then q.conclude i else more q
    let goOn (q : Lubran) (a : Action) : Lubran :=
      if b < e.first + e.count - 1 then
        finish (released q (some { action := a, field := .block (b + 1) })) fun q => q
      else finish (released q none) fun q => q.decideEnding i .good
    let hard (q : Lubran) : Lubran := finish (q.report i tr .hard) fun q => q.decideEnding i .dataCheck
    let soft (q : Lubran) : Lubran := if 0 < e.retries then q.report i tr .soft else q
    let again (a : Action) : Option NextField := some { action := a, field := .block b }
    let filled : Lubran := s.part.modSlot k fun sl => { sl with bytes := bytes.toList }
    let good : Prop := crc32 (idBytes id ++ bytes.toList) = check
    let same : Prop := bytes.toList = (s.part.slot k).bytes
    let found : List Byte := (bytes.toList.drop e.cmpOffset).take e.cmpBytes.length
    let cut : Lubran :=
      if (s.part.sp i).writeGate then
        { s.part with writeOut := some { spindle := i, track := tr, field := .block b, bytes := [], whole := false } }
      else s.part
    let ends (q : Lubran) : Prop := exec (.fieldEnd bytes check) s = s.run fun _ => q
    -- a READ that goes on, and any read that fails, as the next state
    (e.abandoned = false → e.decided = none →
      (act = .read → good → e.retries = 0 → b < e.first + e.count - 1 →
        exec (.fieldEnd bytes check) s = .next { s with part :=
          (((released (upd s.part fun x => { x with retries := 0 }) (some { action := .read, field := .block (b + 1) })).modSlot
            k fun sl => { sl with bytes := bytes.toList, state := .full }).offer p t).kickAll }) ∧
      (reads → ¬ good → e.retries < 8 →
        exec (.fieldEnd bytes check) s = .next { s with part :=
          ((released (upd s.part fun x => { x with retries := e.retries + 1 }) (again act)).modSlot k fun sl =>
            { sl with bytes := bytes.toList, state := .reserved }).kickAll })) ∧
    -- every end, before what follows from it in the same step
    (act = .read → good → ends (goOn ((upd (soft (filled.modSlot k fun sl => { sl with state := .full }))
      fun x => { x with retries := 0 }).offer p t) .read)) ∧
    (act = .verify → good → ends (goOn ((upd (soft filled) fun x =>
      { x with retries := 0, blocksDone := x.blocksDone + 1 }).freeSlot k) .verify)) ∧
    (act = .compareRead → good → ends (finish (released ((upd (soft filled) fun x =>
        { x with retries := 0, compared := true }).freeSlot k) (again .write)) fun q =>
      if found = e.cmpBytes then q else q.decideEnding i .conditionNotMet (byteOf e.cmpBytes.length :: found))) ∧
    (reads → ¬ good → 8 ≤ e.retries → ends (hard (released (filled.freeSlot k) none))) ∧
    (act = .write →
      let block : DiskWrite :=
        { spindle := i, track := tr, field := .block b, whole := true
          bytes := blockBytes { id with flags := 0 } (s.part.slot k).bytes }
      let out : Lubran := { s.part with writeOut := some block }
      (e.kind = .write ∧ e.writeVerify = true → ends (finish (released out (again .reread)) fun q => q)) ∧
      (e.kind ≠ .write ∨ e.writeVerify = false → ends (goOn ((upd out fun x =>
        { x with blocksDone := x.blocksDone + 1, retries := 0 }).freeSlot k) .write))) ∧
    (act = .reread →
      (good ∧ same → ends (goOn ((upd (soft s.part) fun x =>
        { x with retries := 0, blocksDone := x.blocksDone + 1 }).freeSlot k) .write)) ∧
      (¬ (good ∧ same) →
        let failed := released (upd s.part fun x => { x with retries := e.retries + 1 }) (again .write)
        (e.retries < 2 → ends (finish failed fun q => q)) ∧ (2 ≤ e.retries → ends (hard failed)))) ∧
    -- a field cut short, and FAULT while it is being written
    let limit : Nat := if e.kind = .write ∧ e.writeVerify = true then 2 else 8
    let back : Lubran := released cut (again act)
    let refilled : Lubran := back.modSlot k fun sl =>
      { sl with state := if sl.state = .filling then .reserved else sl.state }
    ((reads → e.retries < limit →
        s.part.cutField i = finish (upd refilled fun x => { x with retries := e.retries + 1 }) fun q => q) ∧
      (reads → limit ≤ e.retries →
        s.part.cutField i = hard ((upd refilled fun x => { x with retries := min 8 e.retries }).freeSlot k)) ∧
      (writes → e.retries < limit →
        s.part.cutField i = finish (upd back fun x => { x with retries := e.retries + 1 }) fun q => q) ∧
      (writes → limit ≤ e.retries →
        s.part.cutField i = hard (upd back fun x => { x with retries := min 8 (e.retries + 1) })) ∧
      (act = .write → s.part.path.state = .writing →
        s.part.pathFault i = finish (back.report i tr .hard) fun q => q.decideEnding i .writeFault))

/-- R92, R108, R109, R112: the end of a header read of a map build. HEADER FAILED, for a bad check or a FAULT, leaves the
record in hand to be read again, up to eight times; FAULT is read from R108 (log entry 21). A FREE header of the track asked
for makes the record FREE, raises the highest generation found, and switches the head to the next track of the cylinder. And
R132, R133, R134, R135: the steps of a reassignment that end in header writes. A copied block goes on to the next, to the
next step, the next round or HEADER; an alternate failure retires the new alternate; HEADER takes a generation for the
ALT_IN_USE header; its good end commits, and its failed end fails the alternate; the end of a retiring write is ignored and
gives the outcome. That SELECT run again clears the generation handed out is read from R128 (log entry 18). What is written
is kept in `writeOut` (log entry 32). -/
def Obligations.HeaderEndBuildsTheMap : Prop :=
  (∀ (s : State) (i : Spindle) (b : BuildRec) (bytes : Vector Byte 13) (written : Bool), s.part.atRest = true →
    s.part.path.state = .header → s.part.path.spindle = some i → s.part.path.holder = some .build →
    (s.part.sp i).build = some b →
    (s.part.path.faulted = true ∨ parseHeader bytes.toList = none → b.failed < 8 →
      exec (.headerFieldEnd bytes written) s = .next { s with part :=
        ({ s.part.modSp i fun u =>
            { u with readGate := false, writeGate := false, build := some { b with failed := b.failed + 1 } } with
            path := PathRec.idle } : Lubran).kickAll }) ∧
    (∀ h, s.part.path.faulted = false → parseHeader bytes.toList = some h → h.own = altTrack b.next → h.cls = .free →
      b.next < 191 → b.next % 12 < 11 → (s.part.sp i).chan.state = .onTrack → (s.part.sp i).chan.posKnown = true →
      (s.part.sp i).chan.cyl = (altTrack b.next).cyl → (s.part.sp i).chan.head = (altTrack b.next).head →
      s.part.current i = none → (s.part.sp i).waitReq = none →
      exec (.headerFieldEnd bytes written) s = .next { s with part :=
        ({ s.part.modSp i fun u =>
            { u with
              readGate := false, writeGate := false, pool := u.pool ++ [.free], xfer := { u.xfer with next := none }
              build := some { next := b.next + 1, failed := 0, mismatch := false
                              highest := some (max h.gen (b.highest.getD 0)) }
              chan := { u.chan.beginSeek s.part.params (altTrack (b.next + 1)) false with
                        state := .settling, settle := 1 } } with
            path := PathRec.idle } : Lubran).kickAll })) ∧
  -- a header write of the sequencer
  (∀ (s : State) (i : Spindle) (bytes : Vector Byte 13) (written : Bool) (tr home alt : Track) (use_ : HeaderUse),
    s.part.path.state = .header → s.part.path.spindle = some i → s.part.path.holder = some (.entry .internal) →
    s.part.seq.track = some tr → s.part.seq.home = some home → s.part.seq.newAlt = some alt →
    s.part.seq.hdr = some use_ →
    let gen := (s.part.sp i).generation
    let header : DiskWrite :=
      { spindle := i, track := tr, field := .header, whole := written
        bytes := match use_ with
          | .claim => headerBytes 2 alt (some home) (s.part.seq.generation.getD 0)
          | .retireOld => headerBytes 3 (s.part.seq.oldAlt.getD { cyl := 0, head := 0 }) none gen
          | .retireFailed | .retireRefused => headerBytes 3 alt none gen }
    let out : Lubran := { s.part with writeOut := some header }
    let q : Lubran :=
      { out.modSp i fun u =>
          { u.modEntry .internal fun x => { x with state := if x.state = .transferring then .rotating else x.state } with
            readGate := false, writeGate := false, xfer := { u.xfer with next := none, cont := none } } with
        path := PathRec.idle }
    let ends (q : Lubran) : Prop := exec (.headerFieldEnd bytes written) s = s.run fun _ => q
    (use_ = .claim → written = true → s.part.path.faulted = false → ends (q.enterCommit i)) ∧
    (use_ = .claim → written = false ∨ s.part.path.faulted = true → ends (q.alternateFailure i)) ∧
    (use_ = .retireFailed → 3 ≤ s.part.seq.tried → ends (q.spareFailed i .alternatesFailed)) ∧
    (use_ = .retireFailed → s.part.seq.tried < 3 → ends ({ q with seq := { q.seq with
      state := .select, newAlt := none, copied := 0, lostCount := 0, generation := none
      hdr := none } }.selectAlternate i)) ∧
    (use_ = .retireOld → ends (q.spareDone i)) ∧
    (use_ = .retireRefused → ends (q.spareFailed i .mapFull))) ∧
  -- what the sequencer's steps leave
  ∀ (q : Lubran) (i : Spindle) (home alt : Track), q.seq.home = some home → q.seq.newAlt = some alt →
    let failed := q.alternateFailure i
    (failed.seq = { q.seq with need := 0, hdr := some .retireFailed } ∧ (∀ k, (failed.slot k).owner ≠ some .internal) ∧
      (failed.sp i).pool = ((q.retire i alt).sp i).pool ∧ (failed.sp i).xfer.cont = none ∧
      (∀ e, (q.sp i).internal = some e → e.state = .rotating ∨ e.state = .transferring →
        (failed.sp i).xfer.next = some { action := .headerWrite, field := .header })) ∧
    ((q.sp i).generation = 65535 →
      q.enterHeader i = { q with seq := { q.seq with state := .header } }.spareFailed i .generationLimit) ∧
    ((q.sp i).generation < 65535 → q.enterHeader i =
      { q.modSp i fun u =>
          { u with generation := u.generation + 1
                   xfer := { u.xfer with next := some { action := .headerWrite, field := .header } } } with
        seq := { q.seq with state := .header, generation := some (q.sp i).generation, hdr := some .claim } }) ∧
    (∀ gen, q.seq.generation = some gen →
      let r := { q with seq := { q.seq with state := .commit } }.commit i home alt gen
      let forgotten (t : Track) (x : Lubran) : Lubran :=
        { x with suspects := x.suspects.filter fun m => decide (¬ (m.spindle = i ∧ m.track = t)) }
      (r.2 = .committed → q.enterCommit i = (forgotten home r.1).spareDone i) ∧
      (∀ old, r.2 = .retargeted old → q.enterCommit i =
        { forgotten old (forgotten home r.1) with seq := { r.1.seq with hdr := some .retireOld } }.seqSeek i old) ∧
      (r.2 = .mapFull → q.enterCommit i =
        { r.1.modSp i fun u =>
            { u with xfer := { u.xfer with next := some { action := .headerWrite, field := .header } } } with
          seq := { r.1.seq with hdr := some .retireRefused } })) ∧
    (∀ b, let last := q.seq.roundFirst + q.seq.roundSize - 1
      let next (a : Action) (n : Nat) (x : Lubran) : Lubran :=
        x.modSp i fun u => { u with xfer := { u.xfer with next := some { action := a, field := .block n } } }
      let counted : Lubran := { q with seq := { q.seq with copied := q.seq.copied + 1 } }
      (b ≠ last → q.seqReadDone i b = next .read (b + 1) q ∧ q.seqWriteDone i b = next .write (b + 1) q ∧
        q.seqVerifyDone i b = next .reread (b + 1) counted) ∧
      (b = last →
        q.seqReadDone i b = { q with seq := { q.seq with need := 0, step := .targetSeek } }.seqSeek i alt ∧
        q.seqWriteDone i b =
          next .reread q.seq.roundFirst { q with seq := { q.seq with step := .verify } } ∧
        (b < 14 → q.seqVerifyDone i b = counted.startRound i (b + 1)) ∧
        (14 ≤ b → q.seqVerifyDone i b = counted.enterHeader i)))

/-! ## Error Watch -/

/-- R119, R121, R122, R123, R124: a report on a track raises its soft or its hard count, to 15 at most, and puts it at the
tail of the suspect list with the revolution counter; the other suspects stay in their order, and in a full list the one
nearest the head that is no candidate makes room. A track is a candidate with SOFT_LIMIT soft reports or one hard one, and
stays one (R124). A home track with an alternate takes no report (R119). -/
def Obligations.ReportsAreCounted : Prop :=
  ∀ (q : Lubran) (i : Spindle) (t : Track) (k : ReportKind),
    (isHomeCyl t.cyl = true → (q.forward i t).isSome = true → q.report i t k = q) ∧
    (isHomeCyl t.cyl = false ∨ q.forward i t = none →
      let old := q.suspects.find? fun m => m.isOf i t
      let others := q.suspects.filter fun m => !m.isOf i t
      (old.isSome = true ∨ q.suspects.length < 32 ∨ (∃ m ∈ q.suspects, m.candidate = false) →
        ∃ rest m, (q.report i t k).suspects = rest ++ [m] ∧ m.spindle = i ∧ m.track = t ∧
          m.lastSeen = (q.sp i).revs ∧
          m.soft = (if k = .soft then min 15 ((old.map Suspect.soft).getD 0 + 1) else (old.map Suspect.soft).getD 0) ∧
          m.hard = (if k = .hard then min 15 ((old.map Suspect.hard).getD 0 + 1) else (old.map Suspect.hard).getD 0) ∧
          m.candidate = ((old.map Suspect.candidate).getD false || decide (q.params.softLimit ≤ m.soft ∨ 1 ≤ m.hard)) ∧
          (old.isSome = true ∨ q.suspects.length < 32 → rest = others) ∧
          (old = none → 32 ≤ q.suspects.length → ∃ before gone after, others = before ++ gone :: after ∧
            (∀ x ∈ before, x.candidate = true) ∧ gone.candidate = false ∧ rest = before ++ after)) ∧
      (old = none → 32 ≤ q.suspects.length → (∀ m ∈ q.suspects, m.candidate = true) → q.report i t k = q))
end

