-- ==== Sys2Proof/Laws/State.lean ====
section
/-! SUPPORT. What each update of a record of the part leaves in each field: one lemma for each field and update, so that
no proof unfolds an update. -/

set_option Elab.async false

namespace Sys2Proof.Machine

/-- `Vector.get` is indexing. -/
theorem vget {α : Type} {n : Nat} (v : Vector α n) (i : Fin n) : v.get i = v[i.val] := rfl

variable (q : Lubran) (i j : Spindle) (p r : Port) (k l : Fin 8)

/-! ## One record changed: the records -/

@[simp] theorem sp_modSp_self (f : SpindleUnit → SpindleUnit) : (q.modSp i f).sp i = f (q.sp i) := by
  simp [Lubran.sp, Lubran.modSp, vget]

theorem sp_modSp (f : SpindleUnit → SpindleUnit) : (q.modSp i f).sp j = if j = i then f (q.sp j) else q.sp j := by
  by_cases h : j = i
  · subst h; simp
  · have h' : i.val ≠ j.val := fun e => h (Fin.ext e.symm)
    simp [Lubran.sp, Lubran.modSp, vget, h, Vector.getElem_set_ne _ _ h']

theorem sp_modSp_ne {f : SpindleUnit → SpindleUnit} (h : j ≠ i) : (q.modSp i f).sp j = q.sp j := by
  rw [sp_modSp, if_neg h]

@[simp] theorem port_modPort_self (f : LinkPort → LinkPort) : (q.modPort p f).port p = f (q.port p) := by
  simp [Lubran.port, Lubran.modPort, vget]

theorem port_modPort (f : LinkPort → LinkPort) :
    (q.modPort p f).port r = if r = p then f (q.port r) else q.port r := by
  by_cases h : r = p
  · subst h; simp
  · have h' : p.val ≠ r.val := fun e => h (Fin.ext e.symm)
    simp [Lubran.port, Lubran.modPort, vget, h, Vector.getElem_set_ne _ _ h']

theorem port_modPort_ne {f : LinkPort → LinkPort} (h : r ≠ p) : (q.modPort p f).port r = q.port r := by
  rw [port_modPort, if_neg h]

@[simp] theorem slot_modSlot_self (f : StagingSlot → StagingSlot) : (q.modSlot k f).slot k = f (q.slot k) := by
  simp [Lubran.slot, Lubran.modSlot, vget]

theorem slot_modSlot (f : StagingSlot → StagingSlot) :
    (q.modSlot k f).slot l = if l = k then f (q.slot l) else q.slot l := by
  by_cases h : l = k
  · subst h; simp
  · have h' : k.val ≠ l.val := fun e => h (Fin.ext e.symm)
    simp [Lubran.slot, Lubran.modSlot, vget, h, Vector.getElem_set_ne _ _ h']

/-! ## One record changed: everything else -/

@[simp] theorem modSp_straps (f : SpindleUnit → SpindleUnit) : (q.modSp i f).straps = q.straps := rfl
@[simp] theorem modSp_params (f : SpindleUnit → SpindleUnit) : (q.modSp i f).params = q.params := rfl
@[simp] theorem modSp_ports (f : SpindleUnit → SpindleUnit) : (q.modSp i f).ports = q.ports := rfl
@[simp] theorem modSp_path (f : SpindleUnit → SpindleUnit) : (q.modSp i f).path = q.path := rfl
@[simp] theorem modSp_slots (f : SpindleUnit → SpindleUnit) : (q.modSp i f).slots = q.slots := rfl
@[simp] theorem modSp_waiting (f : SpindleUnit → SpindleUnit) : (q.modSp i f).waiting = q.waiting := rfl
@[simp] theorem modSp_served (f : SpindleUnit → SpindleUnit) : (q.modSp i f).served = q.served := rfl
@[simp] theorem modSp_spareMap (f : SpindleUnit → SpindleUnit) : (q.modSp i f).spareMap = q.spareMap := rfl
@[simp] theorem modSp_suspects (f : SpindleUnit → SpindleUnit) : (q.modSp i f).suspects = q.suspects := rfl
@[simp] theorem modSp_sparing (f : SpindleUnit → SpindleUnit) : (q.modSp i f).sparing = q.sparing := rfl
@[simp] theorem modSp_seq (f : SpindleUnit → SpindleUnit) : (q.modSp i f).seq = q.seq := rfl
@[simp] theorem modSp_writeOut (f : SpindleUnit → SpindleUnit) : (q.modSp i f).writeOut = q.writeOut := rfl
@[simp] theorem modSp_port (f : SpindleUnit → SpindleUnit) : (q.modSp i f).port r = q.port r := rfl
@[simp] theorem modSp_slot (f : SpindleUnit → SpindleUnit) : (q.modSp i f).slot l = q.slot l := rfl
@[simp] theorem modPort_straps (f : LinkPort → LinkPort) : (q.modPort p f).straps = q.straps := rfl
@[simp] theorem modPort_params (f : LinkPort → LinkPort) : (q.modPort p f).params = q.params := rfl
@[simp] theorem modPort_spindles (f : LinkPort → LinkPort) : (q.modPort p f).spindles = q.spindles := rfl
@[simp] theorem modPort_path (f : LinkPort → LinkPort) : (q.modPort p f).path = q.path := rfl
@[simp] theorem modPort_slots (f : LinkPort → LinkPort) : (q.modPort p f).slots = q.slots := rfl
@[simp] theorem modPort_waiting (f : LinkPort → LinkPort) : (q.modPort p f).waiting = q.waiting := rfl
@[simp] theorem modPort_served (f : LinkPort → LinkPort) : (q.modPort p f).served = q.served := rfl
@[simp] theorem modPort_spareMap (f : LinkPort → LinkPort) : (q.modPort p f).spareMap = q.spareMap := rfl
@[simp] theorem modPort_suspects (f : LinkPort → LinkPort) : (q.modPort p f).suspects = q.suspects := rfl
@[simp] theorem modPort_sparing (f : LinkPort → LinkPort) : (q.modPort p f).sparing = q.sparing := rfl
@[simp] theorem modPort_seq (f : LinkPort → LinkPort) : (q.modPort p f).seq = q.seq := rfl
@[simp] theorem modPort_writeOut (f : LinkPort → LinkPort) : (q.modPort p f).writeOut = q.writeOut := rfl
@[simp] theorem modPort_sp (f : LinkPort → LinkPort) : (q.modPort p f).sp j = q.sp j := rfl
@[simp] theorem modPort_slot (f : LinkPort → LinkPort) : (q.modPort p f).slot l = q.slot l := rfl
@[simp] theorem modSlot_straps (f : StagingSlot → StagingSlot) : (q.modSlot k f).straps = q.straps := rfl
@[simp] theorem modSlot_params (f : StagingSlot → StagingSlot) : (q.modSlot k f).params = q.params := rfl
@[simp] theorem modSlot_spindles (f : StagingSlot → StagingSlot) : (q.modSlot k f).spindles = q.spindles := rfl
@[simp] theorem modSlot_ports (f : StagingSlot → StagingSlot) : (q.modSlot k f).ports = q.ports := rfl
@[simp] theorem modSlot_path (f : StagingSlot → StagingSlot) : (q.modSlot k f).path = q.path := rfl
@[simp] theorem modSlot_waiting (f : StagingSlot → StagingSlot) : (q.modSlot k f).waiting = q.waiting := rfl
@[simp] theorem modSlot_served (f : StagingSlot → StagingSlot) : (q.modSlot k f).served = q.served := rfl
@[simp] theorem modSlot_spareMap (f : StagingSlot → StagingSlot) : (q.modSlot k f).spareMap = q.spareMap := rfl
@[simp] theorem modSlot_suspects (f : StagingSlot → StagingSlot) : (q.modSlot k f).suspects = q.suspects := rfl
@[simp] theorem modSlot_sparing (f : StagingSlot → StagingSlot) : (q.modSlot k f).sparing = q.sparing := rfl
@[simp] theorem modSlot_seq (f : StagingSlot → StagingSlot) : (q.modSlot k f).seq = q.seq := rfl
@[simp] theorem modSlot_writeOut (f : StagingSlot → StagingSlot) : (q.modSlot k f).writeOut = q.writeOut := rfl
@[simp] theorem modSlot_sp (f : StagingSlot → StagingSlot) : (q.modSlot k f).sp j = q.sp j := rfl
@[simp] theorem modSlot_port (f : StagingSlot → StagingSlot) : (q.modSlot k f).port r = q.port r := rfl

/-! ## A field of the part changed: the records stay -/

@[simp] theorem sp_with_straps (x : Straps) : Lubran.sp { q with straps := x } j = q.sp j := rfl
@[simp] theorem port_with_straps (x : Straps) : Lubran.port { q with straps := x } r = q.port r := rfl
@[simp] theorem slot_with_straps (x : Straps) : Lubran.slot { q with straps := x } l = q.slot l := rfl
@[simp] theorem sp_with_params (x : Params) : Lubran.sp { q with params := x } j = q.sp j := rfl
@[simp] theorem port_with_params (x : Params) : Lubran.port { q with params := x } r = q.port r := rfl
@[simp] theorem slot_with_params (x : Params) : Lubran.slot { q with params := x } l = q.slot l := rfl
@[simp] theorem port_with_spindles (x : Vector SpindleUnit 8) : Lubran.port { q with spindles := x } r = q.port r := rfl
@[simp] theorem slot_with_spindles (x : Vector SpindleUnit 8) : Lubran.slot { q with spindles := x } l = q.slot l := rfl
@[simp] theorem sp_with_ports (x : Vector LinkPort 4) : Lubran.sp { q with ports := x } j = q.sp j := rfl
@[simp] theorem slot_with_ports (x : Vector LinkPort 4) : Lubran.slot { q with ports := x } l = q.slot l := rfl
@[simp] theorem sp_with_path (x : PathRec) : Lubran.sp { q with path := x } j = q.sp j := rfl
@[simp] theorem port_with_path (x : PathRec) : Lubran.port { q with path := x } r = q.port r := rfl
@[simp] theorem slot_with_path (x : PathRec) : Lubran.slot { q with path := x } l = q.slot l := rfl
@[simp] theorem sp_with_slots (x : Vector StagingSlot 8) : Lubran.sp { q with slots := x } j = q.sp j := rfl
@[simp] theorem port_with_slots (x : Vector StagingSlot 8) : Lubran.port { q with slots := x } r = q.port r := rfl
@[simp] theorem sp_with_waiting (x : List Owner) : Lubran.sp { q with waiting := x } j = q.sp j := rfl
@[simp] theorem port_with_waiting (x : List Owner) : Lubran.port { q with waiting := x } r = q.port r := rfl
@[simp] theorem slot_with_waiting (x : List Owner) : Lubran.slot { q with waiting := x } l = q.slot l := rfl
@[simp] theorem sp_with_served (x : List Port) : Lubran.sp { q with served := x } j = q.sp j := rfl
@[simp] theorem port_with_served (x : List Port) : Lubran.port { q with served := x } r = q.port r := rfl
@[simp] theorem slot_with_served (x : List Port) : Lubran.slot { q with served := x } l = q.slot l := rfl
@[simp] theorem sp_with_spareMap (x : List MapEntry) : Lubran.sp { q with spareMap := x } j = q.sp j := rfl
@[simp] theorem port_with_spareMap (x : List MapEntry) : Lubran.port { q with spareMap := x } r = q.port r := rfl
@[simp] theorem slot_with_spareMap (x : List MapEntry) : Lubran.slot { q with spareMap := x } l = q.slot l := rfl
@[simp] theorem sp_with_suspects (x : List Suspect) : Lubran.sp { q with suspects := x } j = q.sp j := rfl
@[simp] theorem port_with_suspects (x : List Suspect) : Lubran.port { q with suspects := x } r = q.port r := rfl
@[simp] theorem slot_with_suspects (x : List Suspect) : Lubran.slot { q with suspects := x } l = q.slot l := rfl
@[simp] theorem sp_with_sparing (x : List SpareReq) : Lubran.sp { q with sparing := x } j = q.sp j := rfl
@[simp] theorem port_with_sparing (x : List SpareReq) : Lubran.port { q with sparing := x } r = q.port r := rfl
@[simp] theorem slot_with_sparing (x : List SpareReq) : Lubran.slot { q with sparing := x } l = q.slot l := rfl
@[simp] theorem sp_with_seq (x : Sequencer) : Lubran.sp { q with seq := x } j = q.sp j := rfl
@[simp] theorem port_with_seq (x : Sequencer) : Lubran.port { q with seq := x } r = q.port r := rfl
@[simp] theorem slot_with_seq (x : Sequencer) : Lubran.slot { q with seq := x } l = q.slot l := rfl
@[simp] theorem sp_with_writeOut (x : Option DiskWrite) : Lubran.sp { q with writeOut := x } j = q.sp j := rfl
@[simp] theorem port_with_writeOut (x : Option DiskWrite) : Lubran.port { q with writeOut := x } r = q.port r := rfl
@[simp] theorem slot_with_writeOut (x : Option DiskWrite) : Lubran.slot { q with writeOut := x } l = q.slot l := rfl

/-! ## The updates of a channel, a transfer record, an entry and a tag are updates of their record -/

theorem modChan_eq (f : Channel → Channel) : q.modChan i f = q.modSp i fun u => { u with chan := f u.chan } := rfl
theorem modXfer_eq (f : XferRec → XferRec) : q.modXfer i f = q.modSp i fun u => { u with xfer := f u.xfer } := rfl
theorem modEntry_eq (o : Owner) (f : Entry → Entry) : q.modEntry i o f = q.modSp i fun u => u.modEntry o f := rfl
theorem setTag_eq (t : Tag) (b : Bool) :
    q.setTag p t b = q.modPort p fun r => { r with tags := r.tags.set t b } := rfl

/-! ## An entry changed or dropped: the rest of its spindle -/

section
variable (u : SpindleUnit) (o : Owner) (f : Entry → Entry)

@[simp] theorem modEntry_life : (u.modEntry o f).life = u.life := by cases o <;> rfl
@[simp] theorem modEntry_faultReason : (u.modEntry o f).faultReason = u.faultReason := by cases o <;> rfl
@[simp] theorem modEntry_spin : (u.modEntry o f).spin = u.spin := by cases o <;> rfl
@[simp] theorem modEntry_spinTimer : (u.modEntry o f).spinTimer = u.spinTimer := by cases o <;> rfl
@[simp] theorem modEntry_lines : (u.modEntry o f).lines = u.lines := by cases o <;> rfl
@[simp] theorem modEntry_chan : (u.modEntry o f).chan = u.chan := by cases o <;> rfl
@[simp] theorem modEntry_slot : (u.modEntry o f).slot = u.slot := by cases o <;> rfl
@[simp] theorem modEntry_missing : (u.modEntry o f).missing = u.missing := by cases o <;> rfl
@[simp] theorem modEntry_readGate : (u.modEntry o f).readGate = u.readGate := by cases o <;> rfl
@[simp] theorem modEntry_writeGate : (u.modEntry o f).writeGate = u.writeGate := by cases o <;> rfl
@[simp] theorem modEntry_reservation : (u.modEntry o f).reservation = u.reservation := by cases o <;> rfl
@[simp] theorem modEntry_allegiance : (u.modEntry o f).allegiance = u.allegiance := by cases o <;> rfl
@[simp] theorem modEntry_autoSpare : (u.modEntry o f).autoSpare = u.autoSpare := by cases o <;> rfl
@[simp] theorem modEntry_revs : (u.modEntry o f).revs = u.revs := by cases o <;> rfl
@[simp] theorem modEntry_waitReq : (u.modEntry o f).waitReq = u.waitReq := by cases o <;> rfl
@[simp] theorem modEntry_selectDue : (u.modEntry o f).selectDue = u.selectDue := by cases o <;> rfl
@[simp] theorem modEntry_xfer : (u.modEntry o f).xfer = u.xfer := by cases o <;> rfl
@[simp] theorem modEntry_mapState : (u.modEntry o f).mapState = u.mapState := by cases o <;> rfl
@[simp] theorem modEntry_pool : (u.modEntry o f).pool = u.pool := by cases o <;> rfl
@[simp] theorem modEntry_generation : (u.modEntry o f).generation = u.generation := by cases o <;> rfl
@[simp] theorem modEntry_build : (u.modEntry o f).build = u.build := by cases o <;> rfl
@[simp] theorem modEntry_mask : (u.modEntry o f).mask = u.mask := by cases o <;> rfl

@[simp] theorem dropEntry_life : (u.dropEntry o).life = u.life := by cases o <;> rfl
@[simp] theorem dropEntry_faultReason : (u.dropEntry o).faultReason = u.faultReason := by cases o <;> rfl
@[simp] theorem dropEntry_spin : (u.dropEntry o).spin = u.spin := by cases o <;> rfl
@[simp] theorem dropEntry_spinTimer : (u.dropEntry o).spinTimer = u.spinTimer := by cases o <;> rfl
@[simp] theorem dropEntry_lines : (u.dropEntry o).lines = u.lines := by cases o <;> rfl
@[simp] theorem dropEntry_chan : (u.dropEntry o).chan = u.chan := by cases o <;> rfl
@[simp] theorem dropEntry_slot : (u.dropEntry o).slot = u.slot := by cases o <;> rfl
@[simp] theorem dropEntry_missing : (u.dropEntry o).missing = u.missing := by cases o <;> rfl
@[simp] theorem dropEntry_readGate : (u.dropEntry o).readGate = u.readGate := by cases o <;> rfl
@[simp] theorem dropEntry_writeGate : (u.dropEntry o).writeGate = u.writeGate := by cases o <;> rfl
@[simp] theorem dropEntry_reservation : (u.dropEntry o).reservation = u.reservation := by cases o <;> rfl
@[simp] theorem dropEntry_allegiance : (u.dropEntry o).allegiance = u.allegiance := by cases o <;> rfl
@[simp] theorem dropEntry_autoSpare : (u.dropEntry o).autoSpare = u.autoSpare := by cases o <;> rfl
@[simp] theorem dropEntry_revs : (u.dropEntry o).revs = u.revs := by cases o <;> rfl
@[simp] theorem dropEntry_waitReq : (u.dropEntry o).waitReq = u.waitReq := by cases o <;> rfl
@[simp] theorem dropEntry_selectDue : (u.dropEntry o).selectDue = u.selectDue := by cases o <;> rfl
@[simp] theorem dropEntry_xfer : (u.dropEntry o).xfer = u.xfer := by cases o <;> rfl
@[simp] theorem dropEntry_mapState : (u.dropEntry o).mapState = u.mapState := by cases o <;> rfl
@[simp] theorem dropEntry_pool : (u.dropEntry o).pool = u.pool := by cases o <;> rfl
@[simp] theorem dropEntry_generation : (u.dropEntry o).generation = u.generation := by cases o <;> rfl
@[simp] theorem dropEntry_build : (u.dropEntry o).build = u.build := by cases o <;> rfl
@[simp] theorem dropEntry_mask : (u.dropEntry o).mask = u.mask := by cases o <;> rfl

@[simp] theorem modEntry_queue_length : (u.modEntry o f).queue.length = u.queue.length := by
  cases o <;> simp [SpindleUnit.modEntry]

theorem dropEntry_queue_length : (u.dropEntry o).queue.length ≤ u.queue.length := by
  cases o
  · exact List.length_filter_le _ _
  · exact Nat.le_refl _

end

/-! ## The parts of a part -/

/-- Two parts with the same fields are the same. -/
theorem Lubran.ext_records {a b : Lubran} (hs : ∀ i, a.sp i = b.sp i) (hp : ∀ p, a.port p = b.port p)
    (hl : ∀ k, a.slot k = b.slot k) (h1 : a.straps = b.straps) (h2 : a.params = b.params) (h3 : a.path = b.path)
    (h4 : a.waiting = b.waiting) (h5 : a.served = b.served) (h6 : a.spareMap = b.spareMap)
    (h7 : a.suspects = b.suspects) (h8 : a.sparing = b.sparing) (h9 : a.seq = b.seq)
    (h10 : a.writeOut = b.writeOut) : a = b := by
  have e1 : a.spindles = b.spindles := Vector.ext fun n hn => hs ⟨n, hn⟩
  have e2 : a.ports = b.ports := Vector.ext fun n hn => hp ⟨n, hn⟩
  have e3 : a.slots = b.slots := Vector.ext fun n hn => hl ⟨n, hn⟩
  cases a; cases b; simp_all

/-- In BUILDING_MAP the transfer record is the map build's, and no entry changes it (R69, R107). -/
theorem entryXfer_building {u : SpindleUnit} {f : XferRec → XferRec} (h : u.life = .buildingMap) :
    u.entryXfer f = u.xfer := if_pos h

/-- In every other state the transfer record is the in-service entry's (R69). -/
theorem entryXfer_own {u : SpindleUnit} {f : XferRec → XferRec} (h : u.life ≠ .buildingMap) :
    u.entryXfer f = f u.xfer := if_neg h

/-- Changing a record to itself changes nothing. -/
theorem modSp_id (h : f (q.sp i) = q.sp i) : q.modSp i f = q := by
  apply Lubran.ext_records <;> intros <;> simp [sp_modSp]
  intro e; subst e; exact h

theorem modPort_id (h : f (q.port p) = q.port p) : q.modPort p f = q := by
  apply Lubran.ext_records <;> intros <;> simp [port_modPort]
  intro e; subst e; exact h

/-- Two changes of one record are one. -/
theorem modSp_modSp (f g : SpindleUnit → SpindleUnit) : (q.modSp i f).modSp i g = q.modSp i fun u => g (f u) := by
  apply Lubran.ext_records <;> intros <;> simp [sp_modSp]
  split <;> rfl

theorem modPort_modPort (f g : LinkPort → LinkPort) : (q.modPort p f).modPort p g = q.modPort p fun u => g (f u) := by
  apply Lubran.ext_records <;> intros <;> simp [port_modPort]
  split <;> rfl

end Sys2Proof.Machine
end

