-- ==== Sys2Proof/Laws/Settle.lean ====
section
/-! SUPPORT. When a part is at rest, what a drained part is, what `State.run` answers, and what the transmitters'
choice changes. -/

set_option Elab.async false

namespace Sys2Proof.Machine

/-! ## Lists of records -/

theorem allSpindles_find_none {f : Spindle → Bool} : allSpindles.find? f = none ↔ ∀ i, f i = false := by
  rw [List.find?_eq_none]
  constructor
  · intro h i
    have := h i (by revert i; decide)
    simpa using this
  · intro h i _
    simp [h i]

theorem mem_allSpindles (i : Spindle) : i ∈ allSpindles := by revert i; decide
theorem mem_allPorts (p : Port) : p ∈ allPorts := by revert p; decide
theorem mem_allSlots (k : Fin 8) : k ∈ allSlots := by revert k; decide

/-! ## At rest -/

/-- Under FAIR some waiting host entry is of a port not served, once the set is emptied when all are (R78). -/
theorem exists_unserved {q : Lubran} (hi : Owner.internal ∉ q.waiting) (hne : q.waiting ≠ []) :
    ∃ w ∈ q.waiting, (w.port.map fun p => decide (p ∉ q.servedNow)).getD false = true := by
  unfold Lubran.servedNow
  by_cases ha : ∃ w ∈ q.waiting, (w.port.map fun p => decide (p ∈ q.served)).getD true = false
  · obtain ⟨w, hw, hn⟩ := ha
    have hall : ¬ (q.waiting.all fun w => (w.port.map fun p => decide (p ∈ q.served)).getD true) = true := by
      rw [List.all_eq_true]
      intro h
      rw [h w hw] at hn
      cases hn
    rw [if_neg hall]
    refine ⟨w, hw, ?_⟩
    cases w with
    | internal => simp [Owner.port] at hn
    | host p t => simpa [Owner.port] using hn
  · have hall : (q.waiting.all fun w => (w.port.map fun p => decide (p ∈ q.served)).getD true) = true := by
      rw [List.all_eq_true]
      intro w hw
      cases h : (w.port.map fun p => decide (p ∈ q.served)).getD true with
      | true => rfl
      | false => exact absurd ⟨w, hw, h⟩ ha
    rw [if_pos hall]
    obtain ⟨w, ws, e⟩ := List.exists_cons_of_ne_nil hne
    refine ⟨w, by simp [e], ?_⟩
    cases w with
    | internal => exact absurd (by simp [e]) hi
    | host p t => simp [Owner.port]

/-- There is a winner exactly when an entry waits (R77, R78). -/
theorem winner_isSome (q : Lubran) : q.winner.isSome = true ↔ q.waiting ≠ [] := by
  unfold Lubran.winner
  split
  · rename_i h
    simp only [Option.isSome_some, true_iff]
    intro e; simp [e] at h
  · rename_i hi
    split
    · cases h : q.waiting <;> simp
    · rw [Option.isSome_map, List.find?_isSome]
      constructor
      · rintro ⟨w, hw, _⟩ e
        simp [e] at hw
      · exact exists_unserved hi

/-- A slot can be granted exactly when one is FREE and an entry waits (R77, R78). -/
theorem canGrant_iff (q : Lubran) :
    q.canGrant = true ↔ (∃ k, (q.slot k).state = .free) ∧ q.waiting ≠ [] := by
  have hf : q.freeIndex.isSome = true ↔ ∃ k, (q.slot k).state = .free := by
    simp only [Lubran.freeIndex, List.find?_isSome, decide_eq_true_eq]
    exact ⟨fun ⟨k, _, h⟩ => ⟨k, h⟩, fun ⟨k, h⟩ => ⟨k, mem_allSlots k, h⟩⟩
  rw [Lubran.canGrant, Bool.and_eq_true, hf, winner_isSome]

/-- What it is to be at rest: no settle can complete, no motion held back can go, no slot can be granted, no
selection event is due, and the sequencer has no new work. -/
theorem atRest_iff (q : Lubran) :
    q.atRest = true ↔ (∀ i, (q.sp i).settleReady = false) ∧ (∀ i, (q.sp i).waitReady = false) ∧
      ¬ ((∃ k, (q.slot k).state = .free) ∧ q.waiting ≠ []) ∧ (∀ i, (q.sp i).selectDue = false) ∧
      ¬ (q.seq.state = .idle ∧ q.sparing ≠ []) := by
  rw [← canGrant_iff]
  simp only [Lubran.atRest, Lubran.nextTask, Option.isNone_iff_eq_none]
  rw [← allSpindles_find_none (f := fun i => (q.sp i).settleReady),
    ← allSpindles_find_none (f := fun i => (q.sp i).waitReady),
    ← allSpindles_find_none (f := fun i => (q.sp i).selectDue)]
  cases allSpindles.find? fun i => (q.sp i).settleReady <;>
    cases allSpindles.find? fun i => (q.sp i).waitReady <;>
    cases allSpindles.find? fun i => (q.sp i).selectDue <;> by_cases h : q.canGrant = true <;>
    by_cases g : q.seq.state = .idle ∧ q.sparing ≠ [] <;> simp_all

/-- Being at rest is read from the spindles, the slots' states, the waiting list, the sequencer's state and the
pending list. -/
theorem atRest_congr {a b : Lubran}
    (hs : ∀ i, (b.sp i).settleReady = (a.sp i).settleReady ∧ (b.sp i).waitReady = (a.sp i).waitReady ∧
      (b.sp i).selectDue = (a.sp i).selectDue)
    (hl : ∀ k, (b.slot k).state = .free → (a.slot k).state = .free) (hw : b.waiting = a.waiting)
    (hq : b.seq.state = a.seq.state) (hp : b.sparing = a.sparing) (h : a.atRest = true) : b.atRest = true := by
  rw [atRest_iff] at h ⊢
  obtain ⟨h1, h2, h3, h4, h5⟩ := h
  refine ⟨fun i => by rw [(hs i).1, h1], fun i => by rw [(hs i).2.1, h2], ?_, fun i => by rw [(hs i).2.2, h4],
    by rw [hq, hp]; exact h5⟩
  rintro ⟨⟨k, hk⟩, hne⟩
  exact h3 ⟨⟨k, hl k hk⟩, hw ▸ hne⟩

/-- A change of one spindle's record that adds no consequence keeps the part at rest. -/
theorem atRest_modSp {q : Lubran} {i : Spindle} {f : SpindleUnit → SpindleUnit} (h : q.atRest = true)
    (h1 : (f (q.sp i)).settleReady = false) (h2 : (f (q.sp i)).waitReady = false)
    (h3 : (f (q.sp i)).selectDue = false) : (q.modSp i f).atRest = true := by
  have h' := (atRest_iff q).1 h
  refine (atRest_iff _).2 ⟨fun j => ?_, fun j => ?_, by simpa using h'.2.2.1, fun j => ?_, by simpa using h'.2.2.2.2⟩
  all_goals
    rw [sp_modSp]
    split
    · rename_i e; subst e; assumption
    · first | exact h'.1 j | exact h'.2.1 j | exact h'.2.2.2.1 j

/-- A port's record has no part in being at rest. -/
@[simp] theorem atRest_modPort (q : Lubran) (p : Port) (f : LinkPort → LinkPort) :
    (q.modPort p f).atRest = q.atRest := by
  rw [Bool.eq_iff_iff, atRest_iff, atRest_iff]; simp

/-! ## Draining -/

theorem atRest_nextTask {q : Lubran} : q.atRest = true ↔ q.nextTask = none := by
  simp [Lubran.atRest]

/-- A part at rest drains to itself. -/
theorem drain_atRest {q : Lubran} (h : q.atRest = true) (n : Nat) : q.drain n = some q := by
  cases n with
  | zero => simp [Lubran.drain, h]
  | succ n => simp [Lubran.drain, atRest_nextTask.1 h]

/-- One consequence more. -/
theorem drain_step {q r : Lubran} (h : q.nextTask = some r) (n : Nat) : q.drain (n + 1) = r.drain n := by
  simp [Lubran.drain, h]

/-- A drained part is at rest, whatever the bound. -/
theorem drain_some {n : Nat} {q r : Lubran} (h : q.drain n = some r) : r.atRest = true := by
  induction n generalizing q with
  | zero =>
    simp only [Lubran.drain] at h
    split at h
    · cases h; assumption
    · cases h
  | succ n ih =>
    simp only [Lubran.drain] at h
    split at h
    · rename_i hn; cases h; exact atRest_nextTask.2 hn
    · exact ih h

/-- What the consequences of a step keep, a drained part has. -/
theorem drain_induct {P : Lubran → Prop} (hs : ∀ q r, P q → q.nextTask = some r → P r) {n : Nat} {q r : Lubran}
    (hq : P q) (h : q.drain n = some r) : P r := by
  induction n generalizing q with
  | zero =>
    simp only [Lubran.drain] at h
    split at h
    · cases h; exact hq
    · cases h
  | succ n ih =>
    simp only [Lubran.drain] at h
    split at h
    · cases h; exact hq
    · rename_i hn; exact ih (hs _ _ hq hn) h

/-! ## Running an effect -/

theorem finish_atRest {q : Lubran} (h : q.atRest = true) : q.finish = some q.kickAll := by
  simp [Lubran.finish, drain_atRest h]

/-- An effect that leaves the part at rest: the transmitters choose, and that is the next state. -/
theorem run_atRest {s : State} {f : Lubran → Lubran} (h : (f s.part).atRest = true) :
    s.run f = .next { s with part := (f s.part).kickAll } := by
  simp [State.run, finish_atRest h]

/-- An effect that has one consequence. -/
theorem run_one {s : State} {f : Lubran → Lubran} {r : Lubran} (h : (f s.part).nextTask = some r)
    (hr : r.atRest = true) : s.run f = .next { s with part := r.kickAll } := by
  have : (f s.part).finish = some r.kickAll := by
    rw [Lubran.finish, show Config.settleFuel = 1023 + 1 from rfl, drain_step h, drain_atRest hr]; rfl
  rw [State.run, this]

/-- What `finish` answers came out of a drained part. -/
theorem finish_some {q r : Lubran} (h : q.finish = some r) :
    ∃ x, q.drain Config.settleFuel = some x ∧ r = x.kickAll := by
  obtain ⟨x, hx, e⟩ := Option.map_eq_some_iff.1 h
  exact ⟨x, hx, e.symm⟩

/-- Whatever a step answers came out of a drained part. -/
theorem run_next {s t : State} {f : Lubran → Lubran} (h : s.run f = .next t) :
    ∃ r, (f s.part).drain Config.settleFuel = some r ∧ t.part = r.kickAll ∧ t.pending = s.pending := by
  unfold State.run at h
  split at h
  · rename_i r hr
    obtain ⟨x, hx, rfl⟩ := finish_some hr
    injection h with h
    refine ⟨x, hx, ?_, ?_⟩
    · rw [← h]
    · rw [← h]
  · cases h

/-- The queue of waiting commands is not touched. -/
theorem run_pending {s t : State} {f : Lubran → Lubran} (h : s.run f = .next t) : t.pending = s.pending := by
  obtain ⟨r, _, _, e⟩ := run_next h
  exact e

/-- A step does not refuse. -/
theorem run_refused {s : State} {f : Lubran → Lubran} {r : Refusal} : s.run f ≠ .refused r := by
  intro h
  unfold State.run at h
  generalize (f s.part).finish = x at h
  cases x <;> cases h

end Sys2Proof.Machine
end

