-- ==== Sys2Proof/Laws/Commands.lean ====
section
/-! SUPPORT. Every command is the run of an effect on the part, and so is every step. -/

set_option Elab.async false

namespace Sys2Proof.Machine

/-- The effect of a command on the part, before the step comes to rest: what its meaning hands to `State.run`. -/
def effect : Instr → Lubran → Lubran
  | .powerOnReset straps => fun q => q.hardReset straps
  | .pinReset straps => fun q => q.hardReset straps
  | .read p f => fun q =>
      q.command p (kindCode .read) f (parseTransfer .read f.payload) fun a c q => q.placeFor p a .read c
  | .write p f => fun q =>
      q.command p (kindCode .write) f (parseTransfer .write f.payload) fun a c q => q.placeFor p a .write c
  | .verify p f => fun q =>
    q.command p (kindCode .verify) f (parseTransfer .verify f.payload) fun a c q => q.placeFor p a .verify c
  | .guardedWrite p f => fun q =>
    q.command p (kindCode .guardedWrite) f (parseGuarded f.payload) fun a c q => q.placeFor p a .guardedWrite c
  | .recalibrate p f => fun q =>
    q.command p (kindCode .recalibrate) f (parseQueuedSpindle f.payload) fun a n q =>
      q.placeFor p a .recalibrate (.bare n)
  | .reserve p f => fun q =>
    q.command p (kindCode .reserve) f (parseQueuedSpindle f.payload) fun a n q =>
      q.placeFor p a .reserve (.bare n)
  | .stopSpindle p f => fun q =>
    q.command p (kindCode .stopSpindle) f (parseQueuedSpindle f.payload) fun a n q =>
      q.placeFor p a .stopSpindle (.bare n)
  | .startSpindle p f => fun q => q.command p 16 f (parseStart f.payload) fun a _ q =>
    match a.unit with
    | some i => (q.startSpindle i).answer p a 16 .good
    | none => q
  | .release p f => fun q => q.command p 17 f (parsePlainSpindle f.payload) fun a _ q =>
    match a.unit with
    | some i =>
        if (q.sp i).reservation = some p then (q.clearReservation i).answer p a 17 .good
        else q.answer p a 17 .notHolder
    | none => q
  | .breakReservation p f => fun q => q.command p 18 f (parseBreak f.payload) fun a _ q =>
    match a.unit with
    | some i =>
        let q := match (q.sp i).reservation with
          | some r => (q.clearReservation i).raiseAt r (.spindle i) (.reservationBroken p)
          | none => q
        q.answer p a 18 .good
    | none => q
  | .querySpindle p f => fun q => q.command p kindQuerySpindle f (parsePlainSpindle f.payload) fun a _ q =>
    match a.unit with
    | some i => q.answer p a kindQuerySpindle .good (q.sp i).queryReply
    | none => q
  | .cancel p f => fun q => q.command p 19 f (parseCancel f.payload) fun a t q =>
    match q.findEntry (.host p t) with
    | some (i, e) =>
        if e.inService then q.answer p a 19 .notCancellable
        else ((q.modSp i fun u => u.dropEntry e.owner).giveEnding e .cancelled []).answer p a 19 .good
    | none => q.answer p a 19 .notCancellable
  | .sense p f => fun q => q.command p 20 f (parseSense f.payload) fun a _ q =>
    let q := allSpindles.foldl (fun q i => q.endAllegianceOf p i) q
    (q.answer p a 20 .good (senseReply (q.port p).sense)).modPort p LinkPort.senseTaken
  | .resetString p f => fun q =>
      q.command p 50 f (parseReset f.payload) fun a _ q => (q.stringReset p).answer p a 50 .good
  | .spareTrack p f => fun q => q.command p 21 f (parseSpare f.payload) fun a x q =>
    match a.unit with
    | none => q
    | some i =>
        let home : Track := { cyl := physicalCyl x.2.1, head := x.2.2 }
        if q.isSparing i home then q.answer p a 21 .good
        else if q.sparing.length < Config.pendingCapacity then
          (q.answer p a 21 .good).admitSpare { spindle := i, home := home, trigger := .requested p }
        else q.answer p a 21 .busy
  | .notify p f => fun q => q.command p 22 f (parseNotify f.payload) fun a x q =>
    let takers := q.notifyTakers p x.1
    (q.raiseEach takers (.port p) (.notify x.2)).answer p a 22 .good
      [portSetByte (Vector.ofFn fun r => decide (r ∈ takers))]
  | .queryString p f => fun q => q.command p kindQueryString f (parseQueryString f.payload) fun a page q =>
    q.answer p a kindQueryString .good (q.page page)
  | .readSpareMap p f => fun q =>
      q.command p 34 f (parseReadMap f.payload) fun a start q => q.answer p a 34 .good (q.mapReply start)
  | .readSuspects p f => fun q => q.command p 35 f (parseReadSuspects f.payload) fun a start q =>
    q.answer p a 35 .good (q.suspectsReply start)
  | .setString p f => fun q =>
      q.command p 48 f (parseSetString f.payload) fun a x q => (q.setString x).answer p a 48 .good
  | .setPort p f => fun q => q.command p 49 f (parseSetPort f.payload) fun a x q => q.setPort p a x
  | .data p f => fun q => q.onUp p fun q =>
    if (q.port p).keeps f.addr kindData then
      if dataGood f then q.takeData p f else q.dataFrameBad p f.tag
    else q
  | .dataFrameCheck p d => fun q => q.onUp p fun q =>
    match d with
    | .badCheck f =>
        if (q.port p).keeps f.addr kindData ∧ dataGood f = false then q.dataFrameBad p f.tag else q
    | .cut bytes =>
        let q := q.resume p
        match bytes with
        | addr :: kind :: rest =>
            if kind.toNat = kindData ∧ (q.port p).keeps addr kindData then q.dataFrameBad p (rest.headD 255)
            else q
        | _ => q
  | .resetPort p f => fun q => q.receive p kindResetPort f fun q =>
    match f.payload with
    | [] => q.teardown p
    | _ :: _ => q.pushReject p .frameLength (byteOf kindResetPort) 255
  | .unknownKind p addr kind => fun q => q.onUp p fun q =>
    if (q.port p).keeps addr kind.toNat ∧ isHostKind kind.toNat = false then q.pushReject p .unknownKind kind 255
    else q
  | .frameLength p addr kind len => fun q => q.refuseLength p addr kind len
  | .frameCheck p kind f => fun q => q.onUp p fun q =>
    if (q.port p).keeps f.addr kind.toNat ∧ isHostKind kind.toNat ∧ kind.toNat ≠ kindData ∧
        f.payload.length ≤ Config.maxPayload ∧ f.check ≠ frameCheck f.addr kind f.payload then
      q.pushReject p .frameCheck kind 255
    else q
  | .frameCut p bytes => fun q => q.onUp p fun q =>
    let q := q.resume p
    match (q.port p).cutReject bytes with
    | some (kind, tag) => q.pushReject p .frameCut kind tag
    | none => q
  | .linkSymbolReceived p sym => fun q => q.modPort p fun r => r.hear sym
  | .hold p => fun q => q.modPort p LinkPort.hearHold
  | .linkTimerExpiry p => fun q => q.linkExpiry p
  | .frameSent p => fun q => q.modPort p LinkPort.frameEnds
  | .dataFrameSent p => fun q => q.dataEnds p
  | .attentionFrameSent p => fun q => q.modPort p LinkPort.attentionEnds
  | .spinUpTimerExpiry sp => fun q => q.spinUpExpiry sp
  | .speedOkAsserted sp => fun q => q.speedRise sp
  | .speedOkDeasserted sp => fun q => q.speedFall sp
  | .indexMark sp falls => fun q => q.indexMark sp falls
  | .sectorMark sp falls => fun q => q.sectorMark sp falls
  | .crossing sp falls => fun q => q.crossingPulse sp falls
  | .guardAsserted sp => fun q => q.guardRise sp
  | .faultAsserted sp => fun q => q.faultRise sp
  | .onTrackAsserted sp => fun q => q.onTrackRise sp
  | .settleCountExpiry sp => fun q => q.settleExpiry sp
  | .seekDeadlineExpiry sp => fun q => q.deadlineExpiry sp
  | .recalLimitExpiry sp => fun q => q.recalExpiry sp
  | .allegianceExpiry sp => fun q => q.allegianceEnd sp
  | .blockIdRead id => fun q => q.takeId id
  | .fieldEnd bytes check => fun q => q.endField bytes.toList check
  | .headerFieldEnd bytes written => fun q => q.endHeader bytes.toList written

/-- Every command is the run of its effect. -/
theorem exec_effect (c : Instr) (s : State) : exec c s = s.run (effect c) := by cases c <;> rfl

/-- Every step is the run of an effect on the state's part. -/
theorem step_run (s : State) : ∃ (f : Lubran → Lubran) (s' : State), s'.part = s.part ∧ step s = s'.run f := by
  unfold step
  split
  · rename_i c rest _
    exact ⟨effect c, { s with pending := rest }, rfl, exec_effect c _⟩
  · exact ⟨Lubran.tick, s, rfl, rfl⟩

/-- A command whose effect leaves the part at rest answers that part, once the transmitters have chosen. -/
theorem exec_atRest {c : Instr} {s : State} {q : Lubran} (he : effect c s.part = q) (h : q.atRest = true) :
    exec c s = .next { s with part := q.kickAll } := by
  subst he
  rw [exec_effect, run_atRest h]

/-- A command whose effect has one consequence. -/
theorem exec_one {c : Instr} {s : State} {q r : Lubran} (he : effect c s.part = q) (h : q.nextTask = some r)
    (hr : r.atRest = true) : exec c s = .next { s with part := r.kickAll } := by
  subst he
  rw [exec_effect, run_one h hr]

end Sys2Proof.Machine
end

