-- ==== Sys2Proof/Laws/Transmit.lean ====
section
/-! SUPPORT. What a transmitter's choice of its next frame changes (R182): one port, and the state of one slot it
drains; and when it chooses nothing. -/

set_option Elab.async false

namespace Sys2Proof.Machine

variable (q : Lubran) (p r : Port)

/-- A transmitter is idle, UP and not held, and some class holds a frame (R182). -/
def Lubran.canBegin : Prop :=
  ((q.port p).link = .up ∧ (q.port p).paused = false ∧ (q.port p).sending = none) ∧
    ((q.port p).replies ≠ [] ∨ (q.port p).requests ≠ [] ∨ (q.readyDrain p).isSome = true ∨
      ((q.port p).notices.find? fun n => !n.sending).isSome = true)

/-- A slot that is offered is FULL or DRAINING (R81, R182). -/
theorem offeredSlot_state {q : Lubran} {p : Port} {t : Tag} {i : Fin 8} (h : q.offeredSlot p t = some i) :
    (q.slot i).state = .full ∨ (q.slot i).state = .draining := by
  unfold Lubran.offeredSlot at h
  split at h
  · cases h
  · split at h
    · have := List.find?_some h
      simp only [decide_eq_true_eq] at this
      exact this.2.2
    · cases h

theorem readyDrain_offered {q : Lubran} {p : Port} {t : Tag} {i : Fin 8} (h : q.readyDrain p = some (t, i)) :
    q.offeredSlot p t = some i := by
  unfold Lubran.readyDrain at h
  obtain ⟨u, _, hu⟩ := List.exists_of_findSome?_eq_some h
  obtain ⟨k, hk, e⟩ := Option.map_eq_some_iff.1 hu
  cases e
  exact hk

/-- A slot's step into DRAINING. -/
def StagingSlot.drainNow (s : StagingSlot) : StagingSlot := { s with state := .draining }

/-- What a choice does: nothing, when it can begin no frame; a change of the port alone; or for a DATA frame also its
slot into DRAINING. Afterwards the port sends. -/
theorem kick_cases :
    (¬ q.canBegin p ∧ q.kick p = q) ∨
    (q.canBegin p ∧ ∃ x : LinkPort, x.sending.isSome = true ∧ x.link = (q.port p).link ∧
      x.drains = (q.port p).drains ∧
      (q.kick p = q.modPort p (fun _ => x) ∨
        ∃ i, ((q.slot i).state = .full ∨ (q.slot i).state = .draining) ∧
          q.kick p = (q.modPort p fun _ => x).modSlot i StagingSlot.drainNow)) := by
  by_cases hidle : (q.port p).link = .up ∧ (q.port p).paused = false ∧ (q.port p).sending = none
  · unfold Lubran.kick
    simp only [hidle, and_self, if_true]
    cases hr : (q.port p).replies with
    | cons f fs =>
      refine .inr ⟨⟨hidle, .inl (by simp [hr])⟩,
        { (q.port p).begin (.reply f) with replies := fs }, rfl, hidle.1, rfl, .inl rfl⟩
    | nil =>
      cases hq : (q.port p).requests with
      | cons d ds =>
        exact .inr ⟨⟨hidle, .inr (.inl (by simp [hq]))⟩,
          { (q.port p).begin (.request d) with requests := ds }, rfl, hidle.1, rfl, .inl rfl⟩
      | nil =>
        cases hd : q.readyDrain p with
        | some ti =>
          obtain ⟨t, i⟩ := ti
          exact .inr ⟨⟨hidle, .inr (.inr (.inl (by simp [hd])))⟩, (q.port p).begin _, rfl, hidle.1, rfl,
            .inr ⟨i, offeredSlot_state (readyDrain_offered hd), rfl⟩⟩
        | none =>
          cases hn : (q.port p).notices.find? fun n => !n.sending with
          | some n =>
            exact .inr ⟨⟨hidle, .inr (.inr (.inr (by simp [hn])))⟩,
              { (q.port p).begin (.attention n.key n.detail) with notices := markSending (q.port p).notices },
              rfl, hidle.1, rfl, .inl rfl⟩
          | none =>
            refine .inl ⟨?_, rfl⟩
            rintro ⟨_, h⟩
            simp [hr, hq, hd, hn] at h
  · refine .inl ⟨fun h => hidle h.1, ?_⟩
    unfold Lubran.kick
    simp only [hidle, if_false]

/-- A choice that can begin nothing changes nothing, and one that changes nothing could begin nothing. -/
theorem kick_eq_self : q.kick p = q ↔ ¬ q.canBegin p := by
  rcases kick_cases q p with ⟨h, e⟩ | ⟨h, x, hx, -, -, e⟩
  · simp [h, e]
  · refine ⟨fun e' => ?_, fun hn => absurd h hn⟩
    have : (q.port p).sending.isSome = true := by
      rcases e with e | ⟨i, _, e⟩ <;> (rw [← e', e]; simpa using hx)
    rw [h.1.2.2] at this
    cases this

/-- The fields a choice leaves alone. -/
structure SameButLinks (a b : Lubran) : Prop where
  straps : b.straps = a.straps
  params : b.params = a.params
  spindles : b.spindles = a.spindles
  path : b.path = a.path
  waiting : b.waiting = a.waiting
  served : b.served = a.served
  spareMap : b.spareMap = a.spareMap
  suspects : b.suspects = a.suspects
  sparing : b.sparing = a.sparing
  seq : b.seq = a.seq
  writeOut : b.writeOut = a.writeOut
  /-- A slot keeps everything but that a FULL one may begin to drain. -/
  slots : ∀ k, b.slot k = a.slot k ∨ ((a.slot k).state = .full ∧ b.slot k = (a.slot k).drainNow)

theorem SameButLinks.rfl {a : Lubran} : SameButLinks a a :=
  ⟨Eq.refl _, Eq.refl _, Eq.refl _, Eq.refl _, Eq.refl _, Eq.refl _, Eq.refl _, Eq.refl _, Eq.refl _, Eq.refl _,
    Eq.refl _, fun _ => .inl (Eq.refl _)⟩

theorem SameButLinks.trans {a b c : Lubran} (h : SameButLinks a b) (g : SameButLinks b c) : SameButLinks a c where
  straps := g.straps.trans h.straps
  params := g.params.trans h.params
  spindles := g.spindles.trans h.spindles
  path := g.path.trans h.path
  waiting := g.waiting.trans h.waiting
  served := g.served.trans h.served
  spareMap := g.spareMap.trans h.spareMap
  suspects := g.suspects.trans h.suspects
  sparing := g.sparing.trans h.sparing
  seq := g.seq.trans h.seq
  writeOut := g.writeOut.trans h.writeOut
  slots := fun k => by
    rcases g.slots k with e | ⟨e1, e2⟩
    · rw [e]; exact h.slots k
    · rcases h.slots k with e | ⟨e3, e4⟩
      · exact .inr ⟨by rw [← e]; exact e1, by rw [e2, e]⟩
      · rw [e4] at e1; cases e1

theorem kick_same : SameButLinks q (q.kick p) := by
  rcases kick_cases q p with ⟨_, e⟩ | ⟨_, x, _, _, _, e | ⟨i, hi, e⟩⟩ <;> rw [e]
  · exact SameButLinks.rfl
  · exact ⟨rfl, rfl, rfl, rfl, rfl, rfl, rfl, rfl, rfl, rfl, rfl, fun _ => .inl rfl⟩
  · refine ⟨rfl, rfl, rfl, rfl, rfl, rfl, rfl, rfl, rfl, rfl, rfl, fun k => ?_⟩
    rw [slot_modSlot]
    split
    · rename_i hk; subst hk
      rcases hi with hi | hi
      · exact .inr ⟨hi, rfl⟩
      · refine .inl ?_
        simp only [StagingSlot.drainNow, modPort_slot]
        rw [← hi]
    · exact .inl rfl

theorem SameButLinks.sp {a b : Lubran} (h : SameButLinks a b) (i : Spindle) : b.sp i = a.sp i := by
  simp [Lubran.sp, h.spindles]

theorem SameButLinks.findEntry {a b : Lubran} (h : SameButLinks a b) (o : Owner) : b.findEntry o = a.findEntry o := by
  simp [Lubran.findEntry, h.sp]

/-- What a READ offers does not depend on which of its FULL slots has begun to drain. -/
theorem SameButLinks.offeredSlot {a b : Lubran} (h : SameButLinks a b) (p : Port) (t : Tag) :
    b.offeredSlot p t = a.offeredSlot p t := by
  unfold Lubran.offeredSlot
  rw [h.findEntry]
  have : ∀ (e : Entry) (k : Fin 8),
      decide ((b.slot k).owner = some (.host p t) ∧ (b.slot k).block = some (e.first + e.blocksDone) ∧
        ((b.slot k).state = .full ∨ (b.slot k).state = .draining)) =
      decide ((a.slot k).owner = some (.host p t) ∧ (a.slot k).block = some (e.first + e.blocksDone) ∧
        ((a.slot k).state = .full ∨ (a.slot k).state = .draining)) := by
    intro e k
    rcases h.slots k with e' | ⟨hf, e'⟩ <;> rw [e']
    simp [StagingSlot.drainNow, hf]
  simp only [this]

theorem SameButLinks.atRest {a b : Lubran} (h : SameButLinks a b) : b.atRest = a.atRest := by
  have hfree : ∀ k, (b.slot k).state = .free ↔ (a.slot k).state = .free := by
    intro k
    rcases h.slots k with e | ⟨hf, e⟩ <;> rw [e]
    simp [StagingSlot.drainNow, hf]
  rw [Bool.eq_iff_iff, atRest_iff, atRest_iff]
  simp [h.sp, hfree, h.waiting, h.seq, h.sparing]

theorem kick_port_ne (h : r ≠ p) : (q.kick p).port r = q.port r := by
  rcases kick_cases q p with ⟨_, e⟩ | ⟨_, x, _, _, _, e | ⟨i, _, e⟩⟩ <;> rw [e] <;> simp [port_modPort_ne _ _ _ h]

theorem kick_drains : ((q.kick p).port r).drains = (q.port r).drains := by
  by_cases h : r = p
  · subst h
    rcases kick_cases q r with ⟨_, e⟩ | ⟨_, x, _, _, hd, e | ⟨i, _, e⟩⟩ <;> rw [e] <;> simp [hd]
  · rw [kick_port_ne _ _ _ h]

theorem kick_readyDrain : (q.kick p).readyDrain r = q.readyDrain r := by
  unfold Lubran.readyDrain
  rw [kick_drains]
  simp only [(kick_same q p).offeredSlot]

/-- A port that has chosen can begin nothing more. -/
theorem kick_done : ¬ (q.kick p).canBegin p := by
  rcases kick_cases q p with ⟨h, e⟩ | ⟨_, x, hx, _, _, e | ⟨i, _, e⟩⟩ <;> rw [e]
  · exact h
  all_goals
    rintro ⟨⟨_, _, h⟩, _⟩
    simp only [port_modPort_self, modSlot_port] at h
    rw [h] at hx
    cases hx

/-- One port's choice does not bear on another's. -/
theorem kick_other (h : r ≠ p) : (q.kick p).canBegin r ↔ q.canBegin r := by
  unfold Lubran.canBegin
  rw [kick_port_ne _ _ _ h, kick_readyDrain]

theorem kickAll_eq : q.kickAll = (((q.kick 0).kick 1).kick 2).kick 3 := by
  simp only [Lubran.kickAll, allPorts, List.foldl]

theorem kickAll_same : SameButLinks q q.kickAll := by
  rw [kickAll_eq]
  exact (((kick_same _ 0).trans (kick_same _ 1)).trans (kick_same _ 2)).trans (kick_same _ 3)

@[simp] theorem kickAll_sp (i : Spindle) : q.kickAll.sp i = q.sp i := (kickAll_same q).sp i
@[simp] theorem kickAll_straps : q.kickAll.straps = q.straps := (kickAll_same q).straps
@[simp] theorem kickAll_params : q.kickAll.params = q.params := (kickAll_same q).params
@[simp] theorem kickAll_path : q.kickAll.path = q.path := (kickAll_same q).path
@[simp] theorem kickAll_waiting : q.kickAll.waiting = q.waiting := (kickAll_same q).waiting
@[simp] theorem kickAll_served : q.kickAll.served = q.served := (kickAll_same q).served
@[simp] theorem kickAll_spareMap : q.kickAll.spareMap = q.spareMap := (kickAll_same q).spareMap
@[simp] theorem kickAll_suspects : q.kickAll.suspects = q.suspects := (kickAll_same q).suspects
@[simp] theorem kickAll_sparing : q.kickAll.sparing = q.sparing := (kickAll_same q).sparing
@[simp] theorem kickAll_seq : q.kickAll.seq = q.seq := (kickAll_same q).seq
@[simp] theorem kickAll_writeOut : q.kickAll.writeOut = q.writeOut := (kickAll_same q).writeOut
@[simp] theorem kickAll_atRest : q.kickAll.atRest = q.atRest := (kickAll_same q).atRest

/-- After the choices no transmitter can begin a frame. -/
theorem kickAll_done : ¬ q.kickAll.canBegin p := by
  rw [kickAll_eq]
  have h3 := kick_done (((q.kick 0).kick 1).kick 2) 3
  have h2 := kick_done ((q.kick 0).kick 1) 2
  have h1 := kick_done (q.kick 0) 1
  have h0 := kick_done q 0
  match p with
  | 0 => simpa [kick_other] using h0
  | 1 => simpa [kick_other] using h1
  | 2 => simpa [kick_other] using h2
  | 3 => simpa [kick_other] using h3

/-- The choices change nothing exactly when no transmitter can begin a frame. -/
theorem kickAll_eq_self : q.kickAll = q ↔ ∀ p, ¬ q.canBegin p := by
  constructor
  · intro h p
    have := kickAll_done q p
    rwa [h] at this
  · intro h
    rw [kickAll_eq, (kick_eq_self q 0).2 (h 0), (kick_eq_self q 1).2 (h 1), (kick_eq_self q 2).2 (h 2),
      (kick_eq_self q 3).2 (h 3)]

/-- Choosing twice is choosing once. -/
theorem kickAll_kickAll : q.kickAll.kickAll = q.kickAll := (kickAll_eq_self _).2 (kickAll_done q)

/-- A part whose ports are the same, and whose READs offer the same slots, chooses nothing when the other does. -/
theorem kickAll_congr {a b : Lubran} (hp : ∀ p, b.port p = a.port p)
    (ho : ∀ p t, t ∈ (a.port p).drains → b.offeredSlot p t = a.offeredSlot p t) (h : a.kickAll = a) : b.kickAll = b := by
  rw [kickAll_eq_self] at h ⊢
  intro p hb
  apply h p
  have : b.readyDrain p = a.readyDrain p := by
    unfold Lubran.readyDrain
    rw [hp]
    have key : ∀ l : List Tag, (∀ t ∈ l, t ∈ (a.port p).drains) →
        (l.findSome? fun t => (b.offeredSlot p t).map fun i => (t, i)) =
          l.findSome? fun t => (a.offeredSlot p t).map fun i => (t, i) := by
      intro l hl
      induction l with
      | nil => rfl
      | cons t ts ih =>
        simp only [List.findSome?_cons]
        rw [ho p t (hl t (by simp)), ih fun u hu => hl u (by simp [hu])]
    exact key _ fun _ h => h
  unfold Lubran.canBegin at hb ⊢
  rwa [hp, this] at hb

/-- A part that is at rest and whose transmitters can begin nothing has settled. -/
theorem settled_iff : q.Settled ↔ q.atRest = true ∧ ∀ p, ¬ q.canBegin p := by
  rw [Lubran.Settled, kickAll_eq_self]

end Sys2Proof.Machine
end

