-- ==== Sys2Proof/Laws/Intake.lean ====
section
/-! SUPPORT. What the receiver and the intake make of a command frame (R168, R179): an accepted command has its effect on
the part as the checks found it, a refused one is answered. -/

set_option Elab.async false

namespace Sys2Proof.Machine

variable {q : Lubran} {p : Port} {n : Nat} {f : HostFrame} {α : Type}

/-- A frame that is heard is acted on, once it has reloaded the link timer. -/
theorem receive_hears {act : Lubran → Lubran} (h : q.Hears p n f) :
    q.receive p n f act = act (q.modPort p LinkPort.reload) := by
  obtain ⟨h1, h2, h3, h4⟩ := h
  have hk : ((q.modPort p LinkPort.reload).port p).keeps f.addr n = true := by
    rw [port_modPort_self]; exact h2
  unfold Lubran.receive Lubran.onUp
  rw [if_pos h1]
  dsimp only
  rw [if_pos hk, if_neg (by omega), if_pos h4]

/-- A command that passes every check has its effect. -/
theorem command_accepted {a : Ask} {x : α} {eff : Ask → α → Lubran → Lubran} (h : q.Hears p n f)
    (hr : (q.taking p a).refusal p a = none) : q.command p n f (some (a, x)) eff = eff a x (q.taking p a) := by
  unfold Lubran.command
  rw [receive_hears h]
  show (match (q.taking p a).refusal p a with | some code => _ | none => _) = _
  rw [hr]
  rfl

/-- A command that fails a check of 2 to 8 is answered with the code of the first that fails. -/
theorem command_refused {a : Ask} {x : α} {eff : Ask → α → Lubran → Lubran} {c : EndCode} (h : q.Hears p n f)
    (hr : (q.taking p a).refusal p a = some c) :
    q.command p n f (some (a, x)) eff = (q.taking p a).refuse p n f.payload c := by
  unfold Lubran.command
  rw [receive_hears h]
  show (match (q.taking p a).refusal p a with | some code => _ | none => _) = _
  rw [hr]
  rfl

/-- A command that fails the field check is answered BAD FIELD. -/
theorem command_badField {eff : Ask → α → Lubran → Lubran} (h : q.Hears p n f) :
    q.command p n f (none : Option (Ask × α)) eff = (q.modPort p LinkPort.reload).refuse p n f.payload .badField := by
  unfold Lubran.command
  rw [receive_hears h]
  rfl

/-- Ending an allegiance with nothing to select changes the allegiance alone. -/
theorem endAllegiance_engaged {i : Spindle} (h : q.Engaged i) :
    q.endAllegiance i = q.modSp i fun u => { u with allegiance := none } := by
  unfold Lubran.endAllegiance Lubran.selectionEvent
  rw [if_neg]
  rintro ⟨h1, h2⟩
  rw [sp_modSp_self] at h1
  have hc : (q.modSp i fun u => { u with allegiance := none }).current i = q.current i := by
    unfold Lubran.current
    rw [sp_modSp_self]
    rfl
  rw [hc] at h2
  rcases h with h | h
  · exact h h1
  · exact h h2

theorem current_modPort {g : LinkPort → LinkPort} (i : Spindle) : (q.modPort p g).current i = q.current i := rfl

/-- The part as the checks find it is at rest, when no selection event comes of the frame. -/
theorem taking_atRest {a : Ask} (h : q.atRest = true) (hn : q.NoEvent p a) : (q.taking p a).atRest = true := by
  unfold Lubran.taking Lubran.endNamedAllegiance
  cases hu : a.unit with
  | none => simpa using h
  | some i =>
    simp only
    unfold Lubran.endAllegianceOf
    rw [modPort_sp]
    cases ha : (q.sp i).allegiance with
    | none => simpa using h
    | some x =>
      obtain ⟨r, m⟩ := x
      simp only
      by_cases e : r = p
      · rw [if_pos e]
        have he : (q.modPort p LinkPort.reload).Engaged i := by
          have := hn i hu (by rw [ha, e]; rfl)
          simpa [Lubran.Engaged, current_modPort] using this
        rw [endAllegiance_engaged he]
        have hq : (q.modPort p LinkPort.reload).atRest = true := by simpa using h
        have := (atRest_iff _).1 hq
        exact atRest_modSp hq (this.1 i) (this.2.1 i) (this.2.2.2.1 i)
      · rw [if_neg e]; simpa using h

/-- What taking a command leaves of a spindle: all but an allegiance that ends. -/
theorem taking_sp {a : Ask} (hn : q.NoEvent p a) (i : Spindle) :
    (q.taking p a).sp i = { q.sp i with allegiance := ((q.taking p a).sp i).allegiance } := by
  unfold Lubran.taking Lubran.endNamedAllegiance
  cases hu : a.unit with
  | none => rfl
  | some j =>
    simp only
    unfold Lubran.endAllegianceOf
    rw [modPort_sp]
    cases ha : (q.sp j).allegiance with
    | none => rfl
    | some x =>
      obtain ⟨r, m⟩ := x
      simp only
      by_cases e : r = p
      · rw [if_pos e]
        have he : (q.modPort p LinkPort.reload).Engaged j := by
          have := hn j hu (by rw [ha, e]; rfl)
          simpa [Lubran.Engaged, current_modPort] using this
        rw [endAllegiance_engaged he, sp_modSp, modPort_sp]
        split <;> rfl
      · rw [if_neg e]; rfl

theorem taking_current {a : Ask} (hn : q.NoEvent p a) (i : Spindle) : (q.taking p a).current i = q.current i := by
  unfold Lubran.current
  rw [taking_sp hn]
  rfl

theorem taking_engaged {a : Ask} (hn : q.NoEvent p a) {i : Spindle} (h : q.Engaged i) :
    (q.taking p a).Engaged i := by
  unfold Lubran.Engaged
  rw [taking_current hn, taking_sp hn]
  exact h

/-- An ENDING changes nothing that a step could have to take. -/
@[simp] theorem atRest_pushEnding {t k r : Byte} {c : EndCode} {l : List Byte} :
    (q.pushEnding p t k c r l).atRest = q.atRest := atRest_modPort _ _ _

@[simp] theorem atRest_answer {a : Ask} {k : Nat} {c : EndCode} {l : List Byte} :
    (q.answer p a k c l).atRest = q.atRest := atRest_modPort _ _ _

/-! ## Accepting and placing -/

theorem spindleOf_val (i : Spindle) : spindleOf i.val = some i := by simp [spindleOf]

theorem tagOf_val {t : Byte} {tag : Tag} (h : t.toNat = tag.val) : tagOf t = some tag := by
  unfold tagOf
  have := tag.isLt
  rw [dif_pos (by omega)]
  congr

/-- A command that is accepted has its effect on the part as the checks found it. -/
theorem accepted {a : Ask} {x : α} {eff : Ask → α → Lubran → Lubran} (h : q.Accepts p n f a) :
    q.command p n f (some (a, x)) eff = eff a x (q.taking p a) := command_accepted h.2.1 h.2.2.2

/-- No selection event comes of a spindle that is engaged (R48). -/
theorem selectionEvent_engaged {i : Spindle} (h : q.Engaged i) : q.selectionEvent i = q := by
  unfold Lubran.selectionEvent
  rw [if_neg]
  rintro ⟨h1, h2⟩
  rcases h with h | h
  · exact h h1
  · exact h h2

/-- An entry that joins the tail of a queue leaves the in-service entry as it was. -/
theorem current_append {u : SpindleUnit} {e : Entry} (h : u.current ≠ none) :
    ({ u with queue := u.queue ++ [e] } : SpindleUnit).current = u.current := by
  have key (l : List Entry) (h : l.find? Entry.inService ≠ none) :
      (l ++ [e]).find? Entry.inService = l.find? Entry.inService := by
    rw [List.find?_append]
    cases h' : l.find? Entry.inService with
    | none => exact absurd h' h
    | some y => rfl
  unfold SpindleUnit.current at *
  cases hi : u.internal with
  | none => simp only [hi] at h ⊢; exact key _ h
  | some x =>
    simp only [hi] at h ⊢
    split
    · rfl
    · rename_i hx; simp only [hx] at h; exact key _ h

/-- A queued command placed on an engaged spindle joins the tail of its queue, and its tag is in use. -/
theorem place_engaged {i : Spindle} {t : Tag} {k : EntryKind} {c : TrackCmd} (h : q.Engaged i) :
    q.place p i t k c = ((q.modPort p fun r => { r with tags := r.tags.set t true }).modSp i fun u =>
      { u with queue := u.queue ++ [newEntry (.host p t) k c.cyl c.head c.first c.count c.writeVerify
                                    c.cmpOffset c.cmpBytes u.revs] }) := by
  unfold Lubran.place
  rw [selectionEvent_engaged]
  · rfl
  · rcases h with h | h
    · left; rw [sp_modSp_self]; exact h
    · right
      unfold Lubran.current at *
      rw [sp_modSp_self, setTag_eq, modPort_sp, current_append h]
      exact h

/-- A longer queue is no consequence. -/
theorem place_atRest {i : Spindle} {g : LinkPort → LinkPort} {l : SpindleUnit → List Entry} (h : q.atRest = true) :
    ((q.modPort p g).modSp i fun u => { u with queue := l u }).atRest = true := by
  have h' : (q.modPort p g).atRest = true := by simpa using h
  have := (atRest_iff _).1 h'
  exact atRest_modSp h' (this.1 i) (this.2.1 i) (this.2.2.2.1 i)

/-- A queued command goes to the spindle it names. -/
theorem placeFor_eq {i : Spindle} {a : Ask} {k : EntryKind} {c : TrackCmd} (hu : a.unit = some i) :
    q.placeFor p a k c = q.place p i a.tag k c := by unfold Lubran.placeFor; rw [hu]

end Sys2Proof.Machine
end

