-- ==== Sys2Proof/Laws/Kept.lean ====
section
/-! SUPPORT. What almost every operation keeps: the straps, the string parameters, the settings of each port and each
spindle, and the ranges and capacities of the records. One lemma for each operation says so, in the form "what
is kept up to here is kept after it", so that the lemma of an operation reads as its definition does. -/

set_option Elab.async false

namespace Sys2Proof.Machine

/-- The settings of a spindle position that SET STRING alone writes (R159, R174). -/
abbrev SpindleUnit.SameSettings (a b : SpindleUnit) : Prop := b.autoSpare = a.autoSpare ∧ b.mask = a.mask

/-- The port record (chapter 10), which SET PORT and the hard resets alone write (R175). -/
abbrev LinkPort.SameSettings (a b : LinkPort) : Prop :=
  b.primary = a.primary ∧ b.second = a.second ∧ b.priority = a.priority ∧ b.authority = a.authority ∧
    b.divisor = a.divisor ∧ b.fences = a.fences ∧ b.fencesOn = a.fencesOn

/-- What is kept from one part to another. -/
structure Kept (a b : Lubran) : Prop where
  straps : b.straps = a.straps
  params : b.params = a.params
  ports : ∀ p, (a.port p).SameSettings (b.port p)
  spindles : ∀ i, (a.sp i).SameSettings (b.sp i)
  bounded : a.Bounded → b.Bounded

namespace Kept

variable {o a b c : Lubran} {i j : Spindle} {p : Port} {k : Fin 8}

theorem refl (a : Lubran) : Kept a a :=
  ⟨rfl, rfl, fun _ => ⟨rfl, rfl, rfl, rfl, rfl, rfl, rfl⟩, fun _ => ⟨rfl, rfl⟩, id⟩

theorem trans (h : Kept a b) (g : Kept b c) : Kept a c where
  straps := g.straps.trans h.straps
  params := g.params.trans h.params
  ports := fun p => by
    obtain ⟨a1, a2, a3, a4, a5, a6, a7⟩ := g.ports p
    obtain ⟨b1, b2, b3, b4, b5, b6, b7⟩ := h.ports p
    exact ⟨a1.trans b1, a2.trans b2, a3.trans b3, a4.trans b4, a5.trans b5, a6.trans b6, a7.trans b7⟩
  spindles := fun i => ⟨(g.spindles i).1.trans (h.spindles i).1, (g.spindles i).2.trans (h.spindles i).2⟩
  bounded := fun x => g.bounded (h.bounded x)

/-- Fields that `Kept` does not speak of may change freely. -/
theorem free (h : Kept o a) (e1 : b.spindles = a.spindles := by rfl) (e2 : b.ports = a.ports := by rfl)
    (e3 : b.straps = a.straps := by rfl) (e4 : b.params = a.params := by rfl)
    (e5 : b.spareMap = a.spareMap := by rfl) (e6 : b.suspects = a.suspects := by rfl)
    (e7 : b.sparing = a.sparing := by rfl) : Kept o b := by
  have hs : ∀ i, b.sp i = a.sp i := fun i => by simp [Lubran.sp, e1]
  have hp : ∀ p, b.port p = a.port p := fun p => by simp [Lubran.port, e2]
  refine h.trans ⟨e3, e4, fun p => ?_, fun i => ?_, fun hb => ?_⟩
  · rw [hp]; exact ⟨rfl, rfl, rfl, rfl, rfl, rfl, rfl⟩
  · rw [hs]; exact ⟨rfl, rfl⟩
  · exact ⟨fun i => by rw [hs]; exact hb.1 i, fun p => by rw [hp]; exact hb.2.1 p, by rw [e5]; exact hb.2.2.1,
      by rw [e6]; exact hb.2.2.2.1, by rw [e7]; exact hb.2.2.2.2⟩

/-- The three lists of bounded length may change as long as they stay within their capacity. -/
theorem lists (h : Kept o a) (e1 : b.spindles = a.spindles := by rfl) (e2 : b.ports = a.ports := by rfl)
    (e3 : b.straps = a.straps := by rfl) (e4 : b.params = a.params := by rfl)
    (e5 : a.spareMap.length ≤ Config.mapCapacity → b.spareMap.length ≤ Config.mapCapacity := by exact id)
    (e6 : a.suspects.length ≤ Config.suspectCapacity → b.suspects.length ≤ Config.suspectCapacity := by exact id)
    (e7 : a.sparing.length ≤ Config.pendingCapacity → b.sparing.length ≤ Config.pendingCapacity := by exact id) :
    Kept o b := by
  have hs : ∀ i, b.sp i = a.sp i := fun i => by simp [Lubran.sp, e1]
  have hp : ∀ p, b.port p = a.port p := fun p => by simp [Lubran.port, e2]
  refine h.trans ⟨e3, e4, fun p => ?_, fun i => ?_, fun hb => ?_⟩
  · rw [hp]; exact ⟨rfl, rfl, rfl, rfl, rfl, rfl, rfl⟩
  · rw [hs]; exact ⟨rfl, rfl⟩
  · exact ⟨fun i => by rw [hs]; exact hb.1 i, fun p => by rw [hp]; exact hb.2.1 p, e5 hb.2.2.1, e6 hb.2.2.2.1,
      e7 hb.2.2.2.2⟩

theorem modSp {f : SpindleUnit → SpindleUnit} (h : Kept o a)
    (hs : (a.sp i).SameSettings (f (a.sp i)) := by exact ⟨rfl, rfl⟩)
    (hb : (a.sp i).Bounded → (f (a.sp i)).Bounded := by exact id) : Kept o (a.modSp i f) := by
  refine h.trans ⟨rfl, rfl, fun p => ⟨rfl, rfl, rfl, rfl, rfl, rfl, rfl⟩, fun j => ?_, fun x => ⟨fun j => ?_, x.2⟩⟩
  all_goals
    rw [sp_modSp]
    split
    · rename_i e; subst e
      first | exact hs | exact hb (x.1 _)
    · first | exact ⟨rfl, rfl⟩ | exact x.1 _

theorem modPort {f : LinkPort → LinkPort} (h : Kept o a)
    (hs : (a.port p).SameSettings (f (a.port p)) := by exact ⟨rfl, rfl, rfl, rfl, rfl, rfl, rfl⟩)
    (hb : (a.port p).rejects ≤ Config.rejectCapacity → (f (a.port p)).rejects ≤ Config.rejectCapacity := by exact id) :
    Kept o (a.modPort p f) := by
  refine h.trans ⟨rfl, rfl, fun r => ?_, fun j => ⟨rfl, rfl⟩, fun x => ⟨x.1, fun r => ?_, x.2.2⟩⟩
  all_goals
    rw [port_modPort]
    split
    · rename_i e; subst e
      first | exact hs | exact hb (x.2.1 _)
    · first | exact ⟨rfl, rfl, rfl, rfl, rfl, rfl, rfl⟩ | exact x.2.1 _

theorem modSlot {f : StagingSlot → StagingSlot} (h : Kept o a) : Kept o (a.modSlot k f) :=
  h.trans ⟨rfl, rfl, fun _ => ⟨rfl, rfl, rfl, rfl, rfl, rfl, rfl⟩, fun _ => ⟨rfl, rfl⟩, id⟩

/-- A fold of steps that keep. -/
theorem foldl {β : Type} {f : Lubran → β → Lubran} (hf : ∀ a x, Kept o a → Kept o (f a x)) (l : List β)
    (h : Kept o a) : Kept o (l.foldl f a) := by
  induction l generalizing a with
  | nil => exact h
  | cons x xs ih => exact ih (hf _ _ h)

/-! ## Records -/

theorem modChan {f : Channel → Channel} (h : Kept o a)
    (hc : (a.sp i).chan.cyl < Config.cylinders → (f (a.sp i).chan).cyl < Config.cylinders := by exact id) :
    Kept o (a.modChan i f) :=
  h.modSp ⟨rfl, rfl⟩ fun x => ⟨x.1, x.2.1, hc x.2.2.1, x.2.2.2⟩

theorem modXfer {f : XferRec → XferRec} (h : Kept o a) : Kept o (a.modXfer i f) := h.modSp

theorem modEntry {w : Owner} {f : Entry → Entry} (h : Kept o a) : Kept o (a.modEntry i w f) := by
  refine h.modSp (f := fun u => u.modEntry w f) ⟨by simp, by simp⟩ fun x => ?_
  simpa [SpindleUnit.Bounded] using x

theorem dropEntry {w : Owner} (h : Kept o a) : Kept o (a.modSp i fun u => u.dropEntry w) := by
  refine h.modSp (f := fun u => u.dropEntry w) ⟨by simp, by simp⟩ fun x => ?_
  have := dropEntry_queue_length (a.sp i) w
  simp only [SpindleUnit.Bounded, dropEntry_slot, dropEntry_missing, dropEntry_chan, dropEntry_revs,
    dropEntry_generation] at x ⊢
  omega

theorem selectionEvent (h : Kept o a) : Kept o (a.selectionEvent i) := by
  unfold Lubran.selectionEvent
  split
  · exact h.modSp
  · exact h

theorem setTag {t : Tag} {u : Bool} (h : Kept o a) : Kept o (a.setTag p t u) := h.modPort

theorem releasePath (h : Kept o a) : Kept o a.releasePath := by
  unfold Lubran.releasePath
  cases a.path.spindle with
  | none => exact h.free
  | some i => exact free (a := a.modSp i fun u => { u with readGate := false, writeGate := false }) h.modSp

theorem endAllegiance (h : Kept o a) : Kept o (a.endAllegiance i) :=
  selectionEvent (h.modSp)

/-! ## Attention and transmitters -/

theorem raiseAt {x : NoticeKey} {d : Detail} (h : Kept o a) : Kept o (a.raiseAt p x d) := by
  unfold Lubran.raiseAt
  split
  · exact h.modPort
  · exact h

theorem raiseEach {l : List Port} {x : NoticeKey} {d : Detail} (h : Kept o a) : Kept o (a.raiseEach l x d) :=
  foldl (fun _ _ h => h.raiseAt) l h

theorem raiseMasked {d : Detail} (h : Kept o a) : Kept o (a.raiseMasked i d) := h.raiseEach

/-- An ENDING adds no reject. -/
theorem pushEnding {t k' r : Byte} {c : EndCode} {l : List Byte} (h : Kept o a) :
    Kept o (a.pushEnding p t k' c r l) := by
  unfold Lubran.pushEnding Lubran.pushReply
  refine h.modPort ?_ ?_
  · exact ⟨rfl, rfl, rfl, rfl, rfl, rfl, rfl⟩
  · simp [LinkPort.rejects, ReplyFrame.isReject]

theorem pushReject {x : RejectReason} {k' t : Byte} (h : Kept o a) : Kept o (a.pushReject p x k' t) := by
  unfold Lubran.pushReject
  split
  · rename_i hc
    refine h.modPort ⟨rfl, rfl, rfl, rfl, rfl, rfl, rfl⟩ fun _ => ?_
    simp only [LinkPort.rejects, List.filter_append, List.length_append]
    have : ([ReplyFrame.reject x k' t].filter ReplyFrame.isReject).length = 1 := rfl
    omega
  · exact h

theorem pushRequest {d : DataRequest} (h : Kept o a) : Kept o (a.pushRequest p d) := h.modPort
theorem withdrawRequest {t : Tag} {n : Nat} (h : Kept o a) : Kept o (a.withdrawRequest p t n) := h.modPort

theorem offer {t : Tag} (h : Kept o a) : Kept o (a.offer p t) := by
  unfold Lubran.offer
  split
  · exact h.modPort
  · exact h

/-! ## The staging buffer -/

theorem joinIfShort {w : Owner} (h : Kept o a) : Kept o (a.joinIfShort w) := by
  unfold Lubran.joinIfShort
  split
  · exact h.free
  · exact h

theorem leaveWaiting {w : Owner} (h : Kept o a) : Kept o (a.leaveWaiting w) := h.free

theorem port_map (q : Lubran) (f : LinkPort → LinkPort) (r : Port) :
    Lubran.port { q with ports := q.ports.map f } r = f (q.port r) := by
  simp [Lubran.port, vget]

theorem detach_settings (r : LinkPort) (k : Fin 8) :
    r.SameSettings (r.detach k) ∧ (r.detach k).rejects = r.rejects := by
  unfold LinkPort.detach
  split
  · split
    · exact ⟨⟨rfl, rfl, rfl, rfl, rfl, rfl, rfl⟩, rfl⟩
    · exact ⟨⟨rfl, rfl, rfl, rfl, rfl, rfl, rfl⟩, rfl⟩
  · exact ⟨⟨rfl, rfl, rfl, rfl, rfl, rfl, rfl⟩, rfl⟩

/-- All ports changed at once. -/
theorem mapPorts {f : LinkPort → LinkPort} (h : Kept o a)
    (hf : ∀ r, LinkPort.SameSettings r (f r) ∧ (f r).rejects ≤ r.rejects) :
    Kept o { a with ports := a.ports.map f } := by
  refine h.trans ⟨rfl, rfl, fun r => ?_, fun _ => ⟨rfl, rfl⟩, fun x => ⟨x.1, fun r => ?_, x.2.2⟩⟩
  · rw [port_map]; exact (hf _).1
  · rw [port_map]; exact Nat.le_trans (hf _).2 (x.2.1 r)

theorem freeSlot (h : Kept o a) : Kept o (a.freeSlot k) := by
  have h1 : Kept o { a.modSlot k StagingSlot.clear with ports := a.ports.map fun r => r.detach k } :=
    (h.mapPorts (f := fun r => r.detach k) fun r => ⟨(detach_settings r k).1, Nat.le_of_eq (detach_settings r k).2⟩).modSlot
  unfold Lubran.freeSlot
  simp only
  split
  · exact h1
  · apply joinIfShort
    split
    · exact h1.withdrawRequest
    · exact h1

theorem freeSlotsOf {w : Owner} (h : Kept o a) : Kept o (a.freeSlotsOf w) := foldl (fun _ _ h => h.freeSlot) _ h

theorem bindSlot {e : Entry} (h : Kept o a) : Kept o (a.bindSlot k i e) := by
  unfold Lubran.bindSlot
  simp only
  split
  · split
    · exact (modXfer h.modSlot).pushRequest
    · exact modXfer h.modSlot
  · split
    · split
      · exact h.modSlot.pushRequest
      · exact h.modSlot
    · exact h.modSlot
  · exact modXfer h.modSlot

theorem grantOne (h : Kept o a) : Kept o a.grantOne := by
  unfold Lubran.grantOne
  split
  · simp only
    have h' : ∀ s, Kept o { a with served := s } := fun s => h.free
    split
    · exact (h' _).leaveWaiting
    · split
      · split
        · exact (h' _).bindSlot
        · exact (h' _).bindSlot.leaveWaiting
      · exact (h' _).leaveWaiting
  · exact h

/-! ## The Spare Map and Error Watch -/

theorem poolLowTest (h : Kept o a) : Kept o (a.poolLowTest i) := by
  unfold Lubran.poolLowTest
  simp only
  split
  · exact h.raiseMasked
  · exact h

theorem setPool {t : Track} {r : PoolRec} (h : Kept o a) : Kept o (a.setPool i t r) := h.modSp

theorem retire {t : Track} (h : Kept o a) : Kept o (a.retire i t) := by
  unfold Lubran.retire
  split
  · exact h.setPool.poolLowTest
  · exact h

theorem insertEntry_length (m : MapEntry) (l : List MapEntry) : (insertEntry m l).length = l.length + 1 := by
  induction l with
  | nil => rfl
  | cons e es ih =>
    unfold insertEntry
    split
    · rfl
    · simp [ih]

theorem retargetEntry_length (i : Spindle) (t u : Track) (l : List MapEntry) :
    (retargetEntry i t u l).length = l.length := by simp [retargetEntry]

/-- A new map entry, where there is room. -/
theorem insert {m : MapEntry} (h : Kept o a) (hc : a.spareMap.length < Config.mapCapacity) :
    Kept o { a with spareMap := insertEntry m a.spareMap } :=
  h.lists (e5 := fun _ => by rw [insertEntry_length]; exact hc)

theorem retarget {t u : Track} (h : Kept o a) :
    Kept o { a with spareMap := retargetEntry i t u a.spareMap } :=
  h.lists (e5 := fun x => by rw [retargetEntry_length]; exact x)

theorem commit {t u : Track} {g : Nat} (h : Kept o a) : Kept o (a.commit i t u g).1 := by
  unfold Lubran.commit
  split
  · exact (setPool h.retarget).setPool.poolLowTest
  · split
    · rename_i hc
      exact (setPool (h.insert hc)).poolLowTest
    · exact h.setPool.poolLowTest

theorem takeGeneration {g : Nat} (h : Kept o a) (e : a.takeGeneration i = some (g, b)) : Kept o b := by
  unfold Lubran.takeGeneration at e
  split at e
  · cases e
    refine h.modSp ⟨rfl, rfl⟩ fun x => ?_
    simp only [SpindleUnit.Bounded] at x ⊢
    omega
  · cases e

theorem dropMap (h : Kept o a) : Kept o (a.dropMap i) := by
  have h1 : Kept o (a.modSp i fun u => { u with pool := [], generation := 0, mapState := .notBuilt, build := none }) :=
    h.modSp ⟨rfl, rfl⟩ fun x => ⟨x.1, x.2.1, x.2.2.1, x.2.2.2.1, Nat.zero_le _, x.2.2.2.2.2⟩
  exact h1.lists (e5 := fun x => Nat.le_trans (List.length_filter_le _ _) x)

theorem placeReassign (h : Kept o a) : Kept o (a.placeReassign i) := selectionEvent h.modSp

theorem takeWork (h : Kept o a) : Kept o a.takeWork := by
  unfold Lubran.takeWork
  split
  · exact h
  · rename_i r rest e
    have h1 : Kept o { a with sparing := rest } := h.lists (e7 := fun x => by
      rw [e, List.length_cons] at x
      show rest.length ≤ _
      omega)
    simp only
    split
    · exact placeReassign h1.free
    · exact h1.raiseMasked

/-- A home track joins the pending list, where there is room. -/
theorem admitSpare {r : SpareReq} (h : Kept o a) (hc : a.sparing.length < Config.pendingCapacity) :
    Kept o (a.admitSpare r) := by
  have h1 : Kept o { a with sparing := a.sparing ++ [r] } :=
    h.lists (e7 := fun _ => by simp only [List.length_append, List.length_singleton]; omega)
  unfold Lubran.admitSpare
  simp only
  split
  · exact h1.takeWork
  · exact h1

theorem candidateAction {s : Suspect} (h : Kept o a) : Kept o (a.candidateAction s) := by
  unfold Lubran.candidateAction
  split
  · exact h
  · split
    · exact h
    · split
      · rename_i hc
        exact h.admitSpare hc.2
      · split
        · exact h
        · exact lists h.raiseMasked (e6 := fun x => by rw [List.length_map]; exact x)

theorem enterSuspect {l : List Suspect} {s : Suspect} (h : Kept o a) (hl : a.suspects.length ≤ Config.suspectCapacity →
    l.length < Config.suspectCapacity) : Kept o (a.enterSuspect l s) := by
  have h1 : ∀ x, Kept o { a with suspects := l ++ [x] } := fun x =>
    h.lists (e6 := fun y => by have := hl y; simp only [List.length_append, List.length_singleton]; omega)
  unfold Lubran.enterSuspect
  split
  · exact (h1 _).candidateAction
  · exact h1 _

theorem filter_length_lt {α : Type} (f : α → Bool) (l : List α) (h : ∃ x ∈ l, f x = false) :
    (l.filter f).length < l.length := by
  induction l with
  | nil => simp at h
  | cons y ys ih =>
    obtain ⟨x, hx, hf⟩ := h
    rw [List.filter_cons]
    split
    · rename_i hy
      rcases List.mem_cons.1 hx with e | hx
      · subst e; rw [hf] at hy; cases hy
      · have := ih ⟨x, hx, hf⟩
        simp only [List.length_cons]; omega
    · have := List.length_filter_le f ys
      simp only [List.length_cons]; omega

theorem evictOldest_length {l r : List Suspect} (h : evictOldest l = some r) : r.length + 1 = l.length := by
  induction l generalizing r with
  | nil => cases h
  | cons s ss ih =>
    unfold evictOldest at h
    split at h
    · obtain ⟨x, hx, e⟩ := Option.map_eq_some_iff.1 h
      subst e
      have := ih hx
      simp only [List.length_cons]; omega
    · cases h; rfl

theorem report {t : Track} {x : ReportKind} (h : Kept o a) : Kept o (a.report i t x) := by
  unfold Lubran.report
  split
  · exact h
  · simp only
    split
    · rename_i s hs
      refine h.enterSuspect fun hl => Nat.lt_of_lt_of_le (filter_length_lt _ _ ?_) hl
      have hp := List.find?_some hs
      exact ⟨s, List.mem_of_find?_eq_some hs, by simp [hp]⟩
    · split
      · rename_i hc
        exact h.enterSuspect fun _ => hc
      · split
        · rename_i l hl
          refine h.enterSuspect fun x => ?_
          have := evictOldest_length hl
          omega
        · exact h

theorem forgetSuspects (h : Kept o a) : Kept o (a.forgetSuspects i) :=
  h.lists (e6 := fun x => Nat.le_trans (List.length_filter_le _ _) x)

theorem forgetTrack {t : Track} (h : Kept o a) : Kept o (a.forgetTrack i t) :=
  h.lists (e6 := fun x => Nat.le_trans (List.length_filter_le _ _) x)

theorem failPending (h : Kept o a) : Kept o (a.failPending i) :=
  foldl (fun _ _ h => h.raiseMasked) _ (h.lists (e7 := fun x => Nat.le_trans (List.length_filter_le _ _) x))

end Kept

end Sys2Proof.Machine
end

