-- ==== Sys2Proof/Laws/KeptWork.lean ====
section
/-! SUPPORT. What is kept (`Kept`) by the endings, the channel, the sequencer, the map build, the selector and the
consequences of a step. -/

set_option Elab.async false

namespace Sys2Proof.Machine.Kept

variable {o a b : Lubran} {i j : Spindle} {p : Port} {k : Fin 8}

/-! ## Endings -/

theorem holdFor {e : Entry} {t : Tag} {c : EndCode} (h : Kept o a) : Kept o (a.holdFor i e p t c) := by
  unfold Lubran.holdFor
  exact modSp (modPort h)

theorem giveEnding {e : Entry} {c : EndCode} {l : List Byte} (h : Kept o a) : Kept o (a.giveEnding e c l) := by
  unfold Lubran.giveEnding
  split
  · exact h
  · exact h.pushEnding.setTag

theorem handOver {e : Entry} {c : EndCode} {l : List Byte} (h : Kept o a) : Kept o (a.handOver i e c l) := by
  unfold Lubran.handOver
  simp only
  split
  · exact h.giveEnding
  · split
    · exact h.giveEnding.holdFor
    · exact h.giveEnding

theorem releaseHeld {w : Owner} (h : Kept o a) : Kept o (a.releaseHeld i w) := by
  unfold Lubran.releaseHeld
  split
  · exact h.releasePath
  · exact h

theorem dropTransmit {w : Owner} (h : Kept o a) : Kept o (a.dropTransmit w) := by
  unfold Lubran.dropTransmit
  split
  · exact h
  · exact h.modPort

theorem leaveQueue {w : Owner} (h : Kept o a) : Kept o (a.leaveQueue i w) := by
  refine selectionEvent (freeSlotsOf (dropTransmit (leaveWaiting ?_)))
  refine h.releaseHeld.modSp ⟨by simp, by simp⟩ fun x => ?_
  have := dropEntry_queue_length ((a.releaseHeld i w).sp i) w
  simp only [SpindleUnit.Bounded, dropEntry_slot, dropEntry_missing, dropEntry_revs, dropEntry_generation] at x ⊢
  omega

theorem disposeSlot {w : EntryKind} {c : EndCode} (h : Kept o a) : Kept o (a.disposeSlot p w c k) := by
  unfold Lubran.disposeSlot
  simp only
  split
  · exact h
  · split
    · exact h.modSlot
    · exact h.freeSlot

theorem disposeSlots {t : Tag} {w : EntryKind} {c : EndCode} (h : Kept o a) : Kept o (a.disposeSlots p t w c) :=
  foldl (fun _ _ h => h.disposeSlot) _ h

theorem conclude (h : Kept o a) : Kept o (a.conclude i) := by
  unfold Lubran.conclude
  split
  · exact h
  · split
    · rename_i p t d _ _
      have h1 := modPort (p := p) (f := fun r => { r with requests := r.requests.filter fun d => decide (d.tag ≠ t) })
        ((h.releaseHeld (i := i) (w := .host p t)).modSp (i := i)
          (f := fun u => { u with xfer := u.entryXfer fun x => { x with next := none, cont := none } })
          ⟨rfl, rfl⟩ fun x => x)
      simp only
      rename_i e _ _ ho _
      rw [ho]
      split
      · exact leaveQueue (handOver h1.disposeSlots)
      · exact h1.disposeSlots
    · exact h

theorem decideEnding {c : EndCode} {l : List Byte} (h : Kept o a) : Kept o (a.decideEnding i c l) := by
  unfold Lubran.decideEnding
  split
  · exact h
  · split
    · exact h
    · simp only
      split
      · exact (modEntry h).leaveWaiting
      · exact conclude (modEntry h).leaveWaiting

theorem leaveAbandoned {e : Entry} (h : Kept o a) : Kept o (a.leaveAbandoned i e) := by
  unfold Lubran.leaveAbandoned
  simp only
  split
  · exact h.leaveQueue.setTag
  · exact h.leaveQueue

theorem removeReassign (h : Kept o a) : Kept o (a.removeReassign i) := by
  unfold Lubran.removeReassign
  split
  · exact h
  · split
    · exact h.leaveQueue
    · exact h.modSp

theorem spareDone (h : Kept o a) : Kept o (a.spareDone i) := by
  unfold Lubran.spareDone
  simp only
  split
  · exact free h.removeReassign.raiseMasked
  · exact free h.removeReassign

theorem raiseSpareFailed {s : Sequencer} {r : SpareReason} (h : Kept o a) : Kept o (a.raiseSpareFailed s i r) := by
  unfold Lubran.raiseSpareFailed
  split
  · exact h.raiseMasked
  · exact h

theorem spareFailed {r : SpareReason} (h : Kept o a) : Kept o (a.spareFailed i r) :=
  free (a := (a.removeReassign i).raiseSpareFailed a.seq i r) h.removeReassign.raiseSpareFailed

theorem noteCutWrite (h : Kept o a) : Kept o a.noteCutWrite := by
  unfold Lubran.noteCutWrite
  split
  · split
    · exact h.free
    · exact h
  · exact h

theorem dropPathOn (h : Kept o a) : Kept o (a.dropPathOn i) := by
  unfold Lubran.dropPathOn
  split
  · exact h.noteCutWrite.releasePath
  · exact h

theorem faultCurrent (h : Kept o a) : Kept o (a.faultCurrent i) := by
  unfold Lubran.faultCurrent
  split
  · exact h
  · split
    · exact h
    · split
      · exact h.leaveAbandoned
      · split
        · exact h.conclude
        · exact h.decideEnding

/-- Host entries leave a queue. -/
theorem filterQueue {f : Entry → Bool} (h : Kept o a) :
    Kept o (a.modSp i fun u => { u with queue := u.queue.filter f }) :=
  h.modSp ⟨rfl, rfl⟩ fun x =>
    ⟨x.1, x.2.1, x.2.2.1, x.2.2.2.1, x.2.2.2.2.1, Nat.le_trans (List.length_filter_le _ _) x.2.2.2.2.2⟩

theorem endQueued {c : EndCode} (h : Kept o a) : Kept o (a.endQueued i c) :=
  foldl (fun _ _ h => h.giveEnding) _ h.filterQueue

theorem withSeq {s : Sequencer} (h : Kept o a) : Kept o { a with seq := s } := h.free

theorem faultSpindle {r : FaultReason} (h : Kept o a) : Kept o (a.faultSpindle i r) := by
  unfold Lubran.faultSpindle
  split
  · exact h
  · exact h
  · exact h
  all_goals
    have h1 := endQueued (c := .spindleFault) (i := i) (faultCurrent (i := i) (modSp (i := i) (f := fun u =>
      { u with life := .faulted, faultReason := r, spin := false, spinTimer := none,
               chan := u.chan.stop, waitReq := none }) (h.dropPathOn (i := i))))
    have h3 : ∀ {c}, Kept o c → Kept o (((c.dropMap i).forgetSuspects i).modSp i fun u =>
        { u with selectDue := false, xfer := { u.xfer with next := none, cont := none } }) :=
      fun hc => modSp hc.dropMap.forgetSuspects
    simp only
    split
    · exact failPending (raiseSpareFailed (raiseMasked (h3 (withSeq h1.removeReassign))))
    · exact failPending (raiseMasked (h3 h1))

/-! ## The channel -/

theorem syncEntry (h : Kept o a) : Kept o (a.syncEntry i) := by
  unfold Lubran.syncEntry
  split
  · exact h
  · split
    · exact modEntry h
    · exact modEntry h
    · exact h

theorem beginRecal_cyl (c : Channel) (v s : Nat) (g : Bool) (h : c.cyl < Config.cylinders) :
    (c.beginRecal v s g).cyl < Config.cylinders := by
  unfold Channel.beginRecal
  split
  · simp [Channel.atZero]
  · exact h

theorem startRecal (h : Kept o a) : Kept o (a.startRecal i) :=
  syncEntry (h.modSp ⟨rfl, rfl⟩ fun x => ⟨x.1, x.2.1, beginRecal_cyl _ _ _ _ x.2.2.1, x.2.2.2⟩)

theorem setNext {x : Action} {f : FieldRef} (h : Kept o a) : Kept o (a.setNext i x f) := modXfer h

theorem seqSeekDone (h : Kept o a) : Kept o (a.seqSeekDone i) := by
  unfold Lubran.seqSeekDone
  simp only
  split
  · exact setNext (modEntry h)
  · split
    · exact setNext (free (modEntry h))
    · exact setNext (free (modEntry h))
    all_goals exact modEntry h

theorem seekDone (h : Kept o a) : Kept o (a.seekDone i) := by
  unfold Lubran.seekDone
  split
  · exact modChan h
  · split
    · exact h.setNext
    · split
      · exact h
      · split
        · split
          · exact h.seqSeekDone
          · exact modEntry h
        · split
          · exact h.seqSeekDone
          · exact modEntry h
        · exact h

theorem seqSeekFailed (h : Kept o a) : Kept o (a.seqSeekFailed i) := by
  unfold Lubran.seqSeekFailed
  split
  · exact h.spareDone
  · exact h.spareFailed

theorem seekFailed (h : Kept o a) : Kept o (a.seekFailed i) := by
  unfold Lubran.seekFailed
  split
  · exact modChan h
  · split
    · exact h.faultSpindle
    · split
      · exact h
      · split
        · exact h.seqSeekFailed
        · exact h.decideEnding

theorem startSeek {t : Track} {x : Bool} (h : Kept o a) : Kept o (a.startSeek i t x) := by
  have hc : ∀ f : Channel, f.cyl = (a.sp i).chan.cyl → Kept o (a.modChan i fun _ => f) := fun f e =>
    modChan h (by rw [e]; exact id)
  unfold Lubran.startSeek
  simp only
  split
  · split
    · exact seekDone (hc _ rfl)
    · exact syncEntry (hc _ rfl)
  · exact syncEntry (hc _ rfl)

theorem seekRequest {t : Track} {x : Bool} (h : Kept o a) : Kept o (a.seekRequest i t x) := by
  unfold Lubran.seekRequest
  simp only
  split
  · exact h.startSeek
  · split
    · exact h.modSp
    · split
      · exact modChan h
      · exact startRecal (modChan h)

theorem queueSeek {t : Track} (h : Kept o a) : Kept o (a.queueSeek i t) := by
  unfold Lubran.queueSeek
  split
  · exact h.modSp
  · exact h.seekRequest

theorem recalAndReseek {t : Track} (h : Kept o a) : Kept o (a.recalAndReseek i t) := startRecal (modChan h)

theorem requestRecal (h : Kept o a) : Kept o (a.requestRecal i) := by
  unfold Lubran.requestRecal
  split
  · exact h.modSp
  · exact h.startRecal

theorem dispatchWait (h : Kept o a) : Kept o (a.dispatchWait i) := by
  unfold Lubran.dispatchWait
  simp only
  split
  · exact seekRequest h.modSp
  · exact startRecal h.modSp
  · exact h.modSp

theorem seekCheck (h : Kept o a) : Kept o (a.seekCheck i) := by
  have h1 : ∀ g : Channel → Option Track, Kept o ((a.modChan i fun c =>
      { c with demand := 0, posKnown := false, overshoots := 0, reissued := true, target := g c }).startRecal i) :=
    fun g => startRecal (modChan h)
  unfold Lubran.seekCheck
  simp only
  split
  · exact (h1 _).seekFailed
  · exact h1 _

theorem enterReady {c : ReadyCause} (h : Kept o a) : Kept o (a.enterReady i c) := selectionEvent (raiseMasked h.modSp)

theorem buildSeek {n : Nat} (h : Kept o a) : Kept o (a.buildSeek i n) := seekRequest (modXfer h)

theorem startBuild (h : Kept o a) : Kept o (a.startBuild i) := buildSeek (modSp h.dropMap)

theorem enterRecalibrating (h : Kept o a) : Kept o (a.enterRecalibrating i) := startRecal h.modSp

theorem spunUp (h : Kept o a) : Kept o (a.spunUp i) :=
  enterRecalibrating (h.modSp ⟨rfl, rfl⟩ fun x => ⟨x.1, Nat.zero_le _, x.2.2⟩)

theorem recalDone (h : Kept o a) : Kept o (a.recalDone i) := by
  unfold Lubran.recalDone
  simp only
  have h1 := modChan (i := i) (f := fun c =>
    { c with state := .onTrack, overshoots := 0, posKnown := true, purpose := .normal }) h
  split
  · split
    · exact h1.enterReady
    · exact h1.startBuild
  · have h2 : ∀ x : Bool, Kept o (if x = true then (a.modChan i fun c =>
        { c with state := .onTrack, overshoots := 0, posKnown := true, purpose := .normal }).decideEnding i .good
        else a.modChan i fun c =>
          { c with state := .onTrack, overshoots := 0, posKnown := true, purpose := .normal }) := by
      intro x
      split
      · exact h1.decideEnding
      · exact h1
    split
    · exact (h2 _).startSeek
    · exact (h2 _).startSeek
    · exact h2 _

theorem completeSettle (h : Kept o a) : Kept o (a.completeSettle i) := by
  unfold Lubran.completeSettle
  split
  · exact seekDone (modChan h)
  · exact h.recalDone

theorem countSlot (h : Kept o a) : Kept o (a.countSlot i) := by
  unfold Lubran.countSlot
  simp only
  split
  · have h1 := modChan (i := i) (f := fun c =>
      { c with
        settle := if c.state = .settling then c.settle - 1 else c.settle
        deadline := if c.purpose = .normal then c.deadline - 1 else c.deadline
        recalLimit := if c.purpose = .recal then c.recalLimit - 1 else c.recalLimit }) h
    split
    · exact h1
    · split
      · split
        · exact h1.seekCheck
        · exact h1
      · split
        · exact h1.faultSpindle
        · exact h1
  · exact h

theorem stepCyl_lt {c : Channel} (h : c.cyl < Config.cylinders) (he : ¬ c.atEdge = true) :
    c.stepCyl < Config.cylinders := by
  unfold Channel.stepCyl
  unfold Channel.atEdge at he
  cases hd : c.direction <;> simp [hd] at he ⊢ <;> simp only [Config.cylinders] at h ⊢ <;> omega

theorem crossSeeking (h : Kept o a) : Kept o (a.crossSeeking i) := by
  unfold Lubran.crossSeeking
  simp only
  split
  · split
    · exact h.seekCheck
    · exact syncEntry (modChan h fun _ => by simp [Channel.atZero])
  · rename_i he
    refine syncEntry (modChan h fun x => ?_)
    have := stepCyl_lt x he
    unfold Channel.cross
    simp only
    split <;> exact this

theorem crossSettling (h : Kept o a) : Kept o (a.crossSettling i) := by
  unfold Lubran.crossSettling
  simp only
  split
  · split
    · exact h.seekCheck
    · rename_i he
      exact syncEntry (modChan h fun x => stepCyl_lt x fun e => he (.inr e))
  · split
    · exact syncEntry (modChan h fun _ => by simp [Channel.atZero])
    · rename_i he
      exact syncEntry (modChan h fun x => stepCyl_lt x he)

/-! ## The sequencer -/

theorem seqSeek {t : Track} (h : Kept o a) : Kept o (a.seqSeek i t) := queueSeek (modEntry (modXfer h))

theorem startRound {n : Nat} (h : Kept o a) : Kept o (a.startRound i n) := by
  unfold Lubran.startRound
  split
  · exact h
  · exact seqSeek (joinIfShort (modXfer (free h)))

theorem selectAlternate (h : Kept o a) : Kept o (a.selectAlternate i) := by
  unfold Lubran.selectAlternate
  split
  · exact h
  · split
    · exact h.spareFailed
    · split
      · exact h.spareFailed
      · exact startRound (free h)

theorem startReassign (h : Kept o a) : Kept o (a.startReassign i) := by
  unfold Lubran.startReassign
  split
  · exact h
  · simp only
    split
    · exact spareFailed (free h)
    · exact selectAlternate (free h)

theorem alternateFailure (h : Kept o a) : Kept o (a.alternateFailure i) := by
  unfold Lubran.alternateFailure
  split
  · exact h
  · rename_i alt _
    simp only
    have h1 : Kept o ((((({ a with seq := { a.seq with need := 0, hdr := some .retireFailed } } : Lubran).leaveWaiting
        .internal).freeSlotsOf .internal).modXfer i fun x => { x with next := none, cont := none }).retire i alt) :=
      retire (modXfer (freeSlotsOf (leaveWaiting (free h))))
    split
    · split
      · exact h1.setNext
      · exact h1.setNext
      · exact h1
    · exact h1

theorem enterHeader (h : Kept o a) : Kept o (a.enterHeader i) := by
  unfold Lubran.enterHeader
  simp only
  have h1 : Kept o { a with seq := { a.seq with state := .header } } := h.free
  split
  · exact h1.spareFailed
  · rename_i hg
    exact setNext (free (takeGeneration h1 hg))

theorem enterCommit (h : Kept o a) : Kept o (a.enterCommit i) := by
  unfold Lubran.enterCommit
  split
  · simp only
    rename_i home alt gen _ _ _
    have h1 : Kept o (({ a with seq := { a.seq with state := .commit } } : Lubran).commit i home alt gen).1 :=
      commit (free h)
    split <;> rename_i hc <;> rw [hc] at h1
    · exact h1.forgetTrack.spareDone
    · exact seqSeek (free h1.forgetTrack.forgetTrack)
    · exact setNext (free h1)
  · exact h

theorem reselect (h : Kept o a) : Kept o (a.reselect i) := selectAlternate (free h)

theorem seqHeaderDone {g : Bool} (h : Kept o a) : Kept o (a.seqHeaderDone i g) := by
  unfold Lubran.seqHeaderDone
  split
  · exact h
  · split
    · exact h.enterCommit
    · exact h.alternateFailure
  · split
    · exact h.spareFailed
    · exact h.reselect
  · exact h.spareDone
  · exact h.spareFailed

theorem seqReadDone {n : Nat} (h : Kept o a) : Kept o (a.seqReadDone i n) := by
  unfold Lubran.seqReadDone
  split
  · split
    · exact h
    · exact seqSeek (free h)
  · exact h.setNext

theorem seqWriteDone {n : Nat} (h : Kept o a) : Kept o (a.seqWriteDone i n) := by
  unfold Lubran.seqWriteDone
  split
  · exact setNext (free h)
  · exact h.setNext

theorem seqVerifyDone {n : Nat} (h : Kept o a) : Kept o (a.seqVerifyDone i n) := by
  unfold Lubran.seqVerifyDone
  simp only
  split
  · split
    · exact startRound (free h)
    · exact enterHeader (free h)
  · exact setNext (free h)

/-! ## The map build -/

theorem modBuild {f : BuildRec → BuildRec} (h : Kept o a) : Kept o (a.modBuild i f) := h.modSp

theorem buildComplete {g : Option Nat} (h : Kept o a) : Kept o (a.buildComplete i g) := by
  refine enterReady (poolLowTest (h.modSp ⟨rfl, rfl⟩ fun x => ⟨x.1, x.2.1, x.2.2.1, x.2.2.2.1, ?_, x.2.2.2.2.2⟩))
  simp only
  unfold builtGeneration
  split <;> omega

theorem recordDone {r : PoolRec} (h : Kept o a) : Kept o (a.recordDone i r) := by
  unfold Lubran.recordDone
  split
  · exact h
  · simp only
    split
    · exact buildSeek h.modSp
    · exact buildComplete h.modSp

theorem buildHeaderFailed (h : Kept o a) : Kept o (a.buildHeaderFailed i) := by
  unfold Lubran.buildHeaderFailed
  split
  · exact h
  · split
    · exact h.modBuild
    · exact h.recordDone

theorem buildClaim {n : Nat} {t : Track} {g : Nat} (h : Kept o a) : Kept o (a.buildClaim i n t g) := by
  unfold Lubran.buildClaim
  split
  · split
    · rename_i hc
      exact recordDone (h.insert hc)
    · exact h.faultSpindle
  · split
    · split
      · exact recordDone (retarget h.setPool)
      · exact h.recordDone
    · exact h.recordDone

theorem buildHeaderGood {x : Header} (h : Kept o a) : Kept o (a.buildHeaderGood i x) := by
  unfold Lubran.buildHeaderGood
  split
  · exact h
  · split
    · simp only
      split
      · exact h.modBuild.recordDone
      · exact h.modBuild.recordDone
      · exact h.modBuild.recordDone
      · exact h.modBuild.buildClaim
    · split
      · exact h.recordDone
      · exact recalAndReseek (modXfer h.modBuild)

/-! ## The selector and the consequences of a step -/

theorem serveTrack {e : Entry} (h : Kept o a) : Kept o (a.serveTrack i e) :=
  queueSeek (joinIfShort (modXfer (modEntry h)))

theorem serveRecalibrate {e : Entry} (h : Kept o a) : Kept o (a.serveRecalibrate i e) := requestRecal (modEntry h)

theorem takeReservation (h : Kept o a) : Kept o (a.takeReservation i p) :=
  foldl (fun _ _ h => h.giveEnding) _ (h.modSp ⟨rfl, rfl⟩ fun x =>
    ⟨x.1, x.2.1, x.2.2.1, x.2.2.2.1, x.2.2.2.2.1, Nat.le_trans (List.length_filter_le _ _) x.2.2.2.2.2⟩)

theorem serveReserve {e : Entry} (h : Kept o a) : Kept o (a.serveReserve i e) := by
  unfold Lubran.serveReserve
  simp only
  apply decideEnding
  split
  · exact takeReservation (modEntry h)
  · exact modEntry h

theorem serveStop {e : Entry} (h : Kept o a) : Kept o (a.serveStop i e) :=
  decideEnding (endQueued (forgetSuspects (dropMap (modSp (modEntry h.dropPathOn)))))

theorem serveReassign (h : Kept o a) : Kept o (a.serveReassign i) := startReassign (modXfer (modEntry h))

theorem select (h : Kept o a) : Kept o (a.select i) := by
  have h1 := modSp (i := i) (f := fun u => { u with selectDue := false }) h
  unfold Lubran.select
  simp only
  split
  · split
    · exact h1
    · split
      · exact h1.serveTrack
      · exact h1.serveTrack
      · exact h1.serveTrack
      · exact h1.serveTrack
      · exact h1.serveRecalibrate
      · exact h1.serveReserve
      · exact h1.serveStop
      · exact h1.serveReassign
  · exact h1

theorem nextTask (h : Kept o a) (e : a.nextTask = some b) : Kept o b := by
  unfold Lubran.nextTask at e
  split at e
  · cases e; exact h.completeSettle
  · split at e
    · cases e; exact h.dispatchWait
    · split at e
      · cases e; exact h.grantOne
      · split at e
        · cases e; exact h.select
        · split at e
          · cases e; exact h.takeWork
          · cases e

theorem drain {n : Nat} (h : Kept o a) (e : a.drain n = some b) : Kept o b :=
  drain_induct (P := Kept o) (fun _ _ => nextTask) h e

theorem kick_rejects (q : Lubran) (p r : Port) : ((q.kick p).port r).rejects ≤ (q.port r).rejects := by
  by_cases e : r = p
  · subst e
    unfold Lubran.kick
    simp only
    split
    · split
      · rename_i f fs hr
        simp only [port_modPort_self, LinkPort.rejects, LinkPort.begin, hr, List.filter_cons]
        split <;> simp
      · split
        · simp [LinkPort.rejects, LinkPort.begin]
        · split
          · simp [LinkPort.rejects, LinkPort.begin]
          · split <;> simp [LinkPort.rejects, LinkPort.begin]
    · exact Nat.le_refl _
  · exact Nat.le_of_eq (by rw [kick_port_ne _ _ _ e])

theorem kick_settings (q : Lubran) (p r : Port) : (q.port r).SameSettings ((q.kick p).port r) := by
  by_cases e : r = p
  · subst e
    unfold Lubran.kick
    simp only
    split
    · split
      · rw [port_modPort_self]; exact ⟨rfl, rfl, rfl, rfl, rfl, rfl, rfl⟩
      · split
        · rw [port_modPort_self]; exact ⟨rfl, rfl, rfl, rfl, rfl, rfl, rfl⟩
        · split
          · rw [modSlot_port, port_modPort_self]; exact ⟨rfl, rfl, rfl, rfl, rfl, rfl, rfl⟩
          · split
            · rw [port_modPort_self]; exact ⟨rfl, rfl, rfl, rfl, rfl, rfl, rfl⟩
            · exact ⟨rfl, rfl, rfl, rfl, rfl, rfl, rfl⟩
    · exact ⟨rfl, rfl, rfl, rfl, rfl, rfl, rfl⟩
  · rw [kick_port_ne _ _ _ e]; exact ⟨rfl, rfl, rfl, rfl, rfl, rfl, rfl⟩

theorem kick (h : Kept o a) : Kept o (a.kick p) := by
  have hk := kick_same a p
  refine h.trans ⟨hk.straps, hk.params, kick_settings a p, fun i => ?_, fun x => ⟨fun i => ?_, fun r => ?_, ?_, ?_, ?_⟩⟩
  · rw [hk.sp]; exact ⟨rfl, rfl⟩
  · rw [hk.sp]; exact x.1 i
  · exact Nat.le_trans (kick_rejects a p r) (x.2.1 r)
  · rw [hk.spareMap]; exact x.2.2.1
  · rw [hk.suspects]; exact x.2.2.2.1
  · rw [hk.sparing]; exact x.2.2.2.2

theorem kickAll (h : Kept o a) : Kept o a.kickAll := by
  rw [kickAll_eq]
  exact h.kick.kick.kick.kick

/-- A step whose effect keeps, keeps. -/
theorem run {s t : State} {f : Lubran → Lubran} (hf : Kept o (f s.part)) (h : s.run f = .next t) : Kept o t.part := by
  obtain ⟨r, hr, e, _⟩ := run_next h
  have hd : Kept o r := drain (n := Config.settleFuel) hf hr
  rw [e]
  exact hd.kickAll

end Sys2Proof.Machine.Kept
end

