-- ==== Sys2Proof/Laws/KeptCommands.lean ====
section
/-! SUPPORT. What is kept (`Kept`) by the Data Path, the drive's events, the links and the commands that set no
parameter. -/

set_option Elab.async false

namespace Sys2Proof.Machine.Kept

variable {o a b : Lubran} {i j : Spindle} {p : Port} {k : Fin 8}

/-! ## The Data Path -/

theorem missed {e : Entry} (h : Kept o a) : Kept o (a.missed i e) := by
  unfold Lubran.missed
  simp only
  split
  · exact decideEnding (modEntry h)
  · exact modEntry h

theorem grantPath {w : Holder} {f : FieldRef} (h : Kept o a) : Kept o (a.grantPath i w f) := h.free

theorem takeWindow (h : Kept o a) : Kept o (a.takeWindow i) := by
  unfold Lubran.takeWindow
  split
  · exact h
  · split
    · exact h.grantPath
    · exact h
  · split
    · exact modEntry h.grantPath
    · exact h.missed
  · split
    · exact modXfer h
    · exact h.missed

/-- The gates are no bounded field. -/
theorem openGate {x : Action} (h : Kept o a) : Kept o (a.modSp i fun u => u.openGate x) := by
  unfold SpindleUnit.openGate
  cases x <;> exact h.modSp

theorem beginField (h : Kept o a) : Kept o (a.beginField i) := by
  unfold Lubran.beginField
  split
  · split
    · split
      · exact h.leaveAbandoned
      · exact free h.openGate
    · exact h
  · exact h

theorem afterField {e : Entry} {m : Lubran → Lubran} (h : Kept o a) (hm : ∀ {b}, Kept o b → Kept o (m b)) :
    Kept o (a.afterField i e m) := by
  unfold Lubran.afterField
  split
  · exact h.leaveAbandoned
  · split
    · exact h.conclude
    · exact hm h

theorem releaseEntry {w : Owner} (h : Kept o a) : Kept o (a.releaseEntry i w) := modEntry (modXfer h.releasePath)

theorem pathAfter {e : Entry} {x : Bool} {f : Option NextField} (h : Kept o a) : Kept o (a.pathAfter i e x f) := by
  unfold Lubran.pathAfter
  split
  · split
    · exact free (modSp (i := i) (f := fun u =>
        { u with readGate := true, writeGate := false, xfer := { u.xfer with cont := none } }) h)
    · exact h.releaseEntry
  · exact h.releaseEntry

theorem loadNext {x : Option NextField} (h : Kept o a) : Kept o (a.loadNext i x) := modXfer h
theorem setRetries {w : Owner} {n : Nat} (h : Kept o a) : Kept o (a.setRetries i w n) := modEntry h
theorem blockDone {w : Owner} (h : Kept o a) : Kept o (a.blockDone i w) := modEntry h

theorem reportEntry {e : Entry} {x : ReportKind} (h : Kept o a) : Kept o (a.reportEntry i e x) := by
  unfold Lubran.reportEntry
  split
  · exact h.report
  · exact h

theorem passed {e : Entry} (h : Kept o a) : Kept o (a.passed i e) := by
  unfold Lubran.passed
  simp only
  split
  · exact h.reportEntry.setRetries
  · exact h.setRetries

theorem modBlockSlot {w : Owner} {n : Nat} {s : SlotSource} {f : StagingSlot → StagingSlot} (h : Kept o a) :
    Kept o (a.modBlockSlot w n s f) := by
  unfold Lubran.modBlockSlot
  split
  · exact h.modSlot
  · exact h

theorem freeBlockSlot {w : Owner} {n : Nat} {s : SlotSource} (h : Kept o a) : Kept o (a.freeBlockSlot w n s) := by
  unfold Lubran.freeBlockSlot
  split
  · exact h.freeSlot
  · exact h

theorem hardError {e : Entry} (h : Kept o a) : Kept o (a.hardError i e) := h.reportEntry.decideEnding

theorem secondMismatch {e : Entry} {t : Track} (h : Kept o a) : Kept o (a.secondMismatch i e t) := by
  unfold Lubran.secondMismatch
  split
  · split
    · exact h.spareFailed
    · exact h.decideEnding
  · simp only
    split
    · exact h.spareFailed.faultSpindle
    · exact h.decideEnding.faultSpindle

theorem idMismatch {e : Entry} {x : NextField} {t : Track} (h : Kept o a) : Kept o (a.idMismatch i e x t) := by
  unfold Lubran.idMismatch
  refine afterField h.releaseEntry fun hb => ?_
  split
  · exact hb.alternateFailure
  · split
    · exact hb.secondMismatch
    · exact recalAndReseek (modEntry (modXfer hb))

theorem withPath {x : PathRec} (h : Kept o a) : Kept o { a with path := x } := h.free
theorem withOut {x : Option DiskWrite} (h : Kept o a) : Kept o { a with writeOut := x } := h.free

theorem idMatch {e : Entry} {x : NextField} {n : Nat} {d : BlockId} (h : Kept o a) : Kept o (a.idMatch i e x n d) := by
  have h1 := withPath (x := { a.path with id := some d }) h
  unfold Lubran.idMatch
  simp only
  split
  case h_4 => exact h1.modSp
  case h_5 =>
    split
    · exact h1.releaseEntry.alternateFailure
    · exact h1
  case h_6 => exact h1
  case h_7 => exact h1
  all_goals
    split
    · exact h1.modBlockSlot
    · split
      · exact afterField h1.releaseEntry fun hb => hb.decideEnding
      · exact h1.modBlockSlot

theorem depart {e : Entry} (h : Kept o a) : Kept o (a.depart i e) := by
  unfold Lubran.depart
  split
  · exact h.withPath.leaveQueue
  · exact h.leaveQueue

theorem departedDone {d : Departed} {x : Bool} (h : Kept o a) : Kept o (a.departedDone i d x) := by
  unfold Lubran.departedDone
  refine releasePath ?_
  split
  · split
    · exact h.reportEntry
    · exact h
  · split
    · exact h
    · exact h.reportEntry

theorem departedId {d : Departed} {n : Nat} {x : BlockId} (h : Kept o a) : Kept o (a.departedId i d n x) := by
  have h1 := withPath (x := { a.path with id := some x }) h
  unfold Lubran.departedId
  simp only
  split
  case h_4 =>
    split
    · exact h1.modSp
    · exact h.releasePath
  all_goals
    split
    · exact h1
    · exact h.releasePath

theorem departedEnd {d : Departed} {n : Nat} {x : BlockId} {l : List Byte} {w : Word32} (h : Kept o a) :
    Kept o (a.departedEnd i d n x l w) := by
  unfold Lubran.departedEnd
  simp only
  split
  · exact h.withOut.departedDone
  · exact h.departedDone
  · exact h.departedDone

theorem takeId {d : BlockId} (h : Kept o a) : Kept o (a.takeId d) := by
  unfold Lubran.takeId
  split
  · exact h
  · split
    · exact h.departedId
    · exact h
    · split
      · exact h
      · split
        · exact h.idMatch
        · exact h.idMismatch

theorem readFailed {e : Entry} {n : Nat} (h : Kept o a) : Kept o (a.readFailed i e n) := by
  unfold Lubran.readFailed
  split
  · exact afterField h.modBlockSlot.setRetries.releaseEntry id
  · simp only
    have h1 : Kept o (((a.freeBlockSlot e.owner n .disk).releaseEntry i e.owner).loadNext i none) :=
      h.freeBlockSlot.releaseEntry.loadNext
    split
    · exact afterField h1.reportEntry id
    · exact h1.hardError

theorem endGood {q : Option NextField} {c : Lubran} (h : Kept o c) :
    Kept o (if q = none then c.decideEnding i .good else c) := by
  split
  · exact h.decideEnding
  · exact h

theorem readPassed {e : Entry} {n : Nat} {f : Option NextField} (h : Kept o a) : Kept o (a.readPassed i e n f) := by
  unfold Lubran.readPassed
  simp only
  have h1 : Kept o ((a.modBlockSlot e.owner n .disk fun s => { s with state := .full }).passed i e) :=
    h.modBlockSlot.passed
  refine afterField (loadNext (pathAfter ?_)) fun hb => hb.endGood
  split
  · exact h1.offer
  · exact h1

theorem verifyPassed {e : Entry} {n : Nat} {f : Option NextField} (h : Kept o a) : Kept o (a.verifyPassed i e n f) := by
  unfold Lubran.verifyPassed
  exact afterField h.passed.blockDone.freeBlockSlot.pathAfter.loadNext fun hb => hb.endGood

theorem comparePassed {e : Entry} {n : Nat} (h : Kept o a) : Kept o (a.comparePassed i e n) := by
  unfold Lubran.comparePassed
  refine afterField (modEntry h.passed).freeBlockSlot.releaseEntry.loadNext fun hb => ?_
  split
  · exact hb
  · exact hb.decideEnding

theorem hostWritten {e : Entry} {n : Nat} {f : Option NextField} (h : Kept o a) : Kept o (a.hostWritten i e n f) := by
  unfold Lubran.hostWritten
  split
  · exact afterField h.releaseEntry.loadNext id
  · exact afterField h.blockDone.setRetries.freeBlockSlot.pathAfter.loadNext fun hb => hb.endGood

theorem rereadPassed {e : Entry} {n : Nat} {f : Option NextField} (h : Kept o a) : Kept o (a.rereadPassed i e n f) := by
  unfold Lubran.rereadPassed
  exact afterField h.passed.blockDone.freeBlockSlot.pathAfter.loadNext fun hb => hb.endGood

theorem rereadFailed {e : Entry} {n : Nat} (h : Kept o a) : Kept o (a.rereadFailed i e n) := by
  unfold Lubran.rereadFailed
  simp only
  split
  · exact afterField h.setRetries.releaseEntry.loadNext id
  · split
    · exact afterField h.setRetries.releaseEntry.loadNext.reportEntry id
    · exact h.setRetries.releaseEntry.loadNext.hardError

theorem copyReadEnd {e : Entry} {n : Nat} {g : Bool} {f : Option NextField} (h : Kept o a) :
    Kept o (a.copyReadEnd i e n g f) := by
  unfold Lubran.copyReadEnd
  simp only
  split
  · refine seqReadDone (pathAfter ?_)
    split
    · exact withSeq h.modBlockSlot.setRetries
    · exact h.modBlockSlot.setRetries
  · exact h.modBlockSlot.setRetries.releaseEntry

theorem endBlock {l : List Byte} {w : Word32} (h : Kept o a) : Kept o (a.endBlock l w) := by
  unfold Lubran.endBlock
  split
  · simp only
    split
    case h_4 =>
      split
      · exact (withOut h).pathAfter.seqWriteDone
      · exact (withOut h).hostWritten
    case h_5 =>
      split
      · split
        · exact h.freeBlockSlot.pathAfter.seqVerifyDone
        · exact h.releaseEntry.alternateFailure
      · split
        · exact h.rereadPassed
        · exact h.rereadFailed
    case h_6 => exact h
    case h_7 => exact h
    all_goals
      split
      · exact h.modBlockSlot.copyReadEnd
      · split
        · split
          · exact h.modBlockSlot.verifyPassed
          · exact h.modBlockSlot.comparePassed
          · exact h.modBlockSlot.readPassed
        · exact h.modBlockSlot.readFailed
  · exact h

theorem endField {l : List Byte} {w : Word32} (h : Kept o a) : Kept o (a.endField l w) := by
  unfold Lubran.endField
  split
  · exact h.departedEnd
  · exact h
  · exact h.endBlock

theorem hostCut {e : Entry} {x : NextField} {n : Nat} (h : Kept o a) : Kept o (a.hostCut i e x n) := by
  unfold Lubran.hostCut
  simp only
  split
  · exact afterField h.modBlockSlot.setRetries id
  · have h2 : ∀ m, Kept o (match x.action with
        | .write | .reread => (a.modBlockSlot e.owner n .disk StagingSlot.refill).setRetries i e.owner m
        | _ => ((a.modBlockSlot e.owner n .disk StagingSlot.refill).setRetries i e.owner m).freeBlockSlot e.owner n
            .disk) := by
      intro m
      split
      · exact h.modBlockSlot.setRetries
      · exact h.modBlockSlot.setRetries
      · exact h.modBlockSlot.setRetries.freeBlockSlot
    split
    · exact afterField (h2 _).reportEntry id
    · exact (h2 _).hardError

theorem copyCut {e : Entry} {x : NextField} {n : Nat} (h : Kept o a) : Kept o (a.copyCut i e x n) := by
  unfold Lubran.copyCut
  split
  · split
    · exact h.modBlockSlot.setRetries
    · exact (withSeq h.modBlockSlot.setRetries).seqReadDone
  · exact h.alternateFailure

theorem cutEntry {w : Owner} (h : Kept o a) : Kept o (a.cutEntry i w) := by
  unfold Lubran.cutEntry
  split
  · simp only
    split
    · exact afterField h.noteCutWrite.releaseEntry id
    · split
      · exact h.noteCutWrite.releaseEntry.seqHeaderDone
      · split
        · exact h.noteCutWrite.releaseEntry.copyCut
        · exact h.noteCutWrite.releaseEntry.hostCut
  · exact h.noteCutWrite.releasePath

theorem cutField (h : Kept o a) : Kept o (a.cutField i) := by
  unfold Lubran.cutField
  split
  · split
    · exact h
    · split
      · exact h.releasePath.buildHeaderFailed
      · exact h.releasePath
    · exact h.cutEntry
    · exact h.noteCutWrite.departedDone
  · exact h

theorem backToSeek (h : Kept o a) : Kept o (a.backToSeek i) := by
  unfold Lubran.backToSeek
  split
  · exact h.loadNext
  · split
    · exact modEntry h
    · exact h

theorem offTrack (h : Kept o a) : Kept o (a.offTrack i) := by
  have h1 := cutField (i := i) (modChan (i := i) (f := fun c => { c with posKnown := false, demand := 0 }) h)
  unfold Lubran.offTrack
  simp only
  split
  · split
    · exact h1
    · exact h1.startRecal
  · split
    · exact h1.startRecal.seekFailed
    · exact recalAndReseek (backToSeek (modChan h1))

theorem faultWrite {w : Owner} (h : Kept o a) : Kept o (a.faultWrite i w) := by
  unfold Lubran.faultWrite
  split
  · exact h
  · simp only
    split
    · exact h.noteCutWrite.releaseEntry.alternateFailure
    · exact afterField h.noteCutWrite.releaseEntry.reportEntry fun hb => hb.decideEnding

theorem pathFault (h : Kept o a) : Kept o (a.pathFault i) := by
  unfold Lubran.pathFault
  split
  · split
    · exact h.faultWrite
    · exact h.noteCutWrite.reportEntry.releasePath
    · exact withPath h
    · exact h
  · exact h

theorem endHeader {l : List Byte} {w : Bool} (h : Kept o a) : Kept o (a.endHeader l w) := by
  unfold Lubran.endHeader
  split
  · simp only
    split
    · exact h.releasePath.buildHeaderGood
    · exact h.releasePath.buildHeaderFailed
  · exact (withOut h).releaseEntry.loadNext.seqHeaderDone
  · exact h

/-! ## The drive -/

theorem takeFalls {f : Falls} (h : Kept o a) : Kept o (a.takeFalls i f) := h.modSp
theorem modLines {f : Lines → Lines} (h : Kept o a) : Kept o (a.modLines i f) := h.modSp

theorem revolution (h : Kept o a) : Kept o (a.revolution i) := by
  have h1 : Kept o (a.modSp i fun u => { u with revs := (u.revs + 1) % 65536 }) :=
    h.modSp ⟨rfl, rfl⟩ fun x => ⟨x.1, x.2.1, x.2.2.1, Nat.mod_lt _ (by omega), x.2.2.2.2⟩
  unfold Lubran.revolution
  simp only
  split
  · exact h1
  · split
    · exact h1.endAllegiance
    · exact h1.modSp

theorem boundary (h : Kept o a) : Kept o (a.boundary i) := h.beginField.takeWindow.countSlot

theorem setSlot {n : Nat} (h : Kept o a) (hn : n < Config.slotsPerRev) : Kept o (a.setSlot i n) :=
  h.modSp ⟨rfl, rfl⟩ fun x => ⟨hn, x.2⟩

theorem setMissing {n : Nat} (h : Kept o a) (hn : n ≤ 1) : Kept o (a.setMissing i n) :=
  h.modSp ⟨rfl, rfl⟩ fun x => ⟨x.1, hn, x.2.2⟩

theorem sector (h : Kept o a) : Kept o (a.sector i) := by
  unfold Lubran.sector
  simp only
  split
  · rename_i hs
    exact (h.setSlot (by omega)).boundary
  · split
    · exact (revolution (h.setSlot (by decide))).faultSpindle
    · exact ((revolution (h.setSlot (by decide))).setMissing (by decide)).boundary

theorem index (h : Kept o a) : Kept o (a.index i) := by
  have h1 := (h.setSlot (i := i) (n := 0) (by decide)).setMissing (i := i) (n := 0) (by decide)
  unfold Lubran.index
  simp only
  split
  · split
    · exact h1
    · exact h1.revolution.boundary
  · split
    · exact h1.cutField
    · exact h1.revolution.boundary.cutField

theorem sectorMark {f : Falls} (h : Kept o a) : Kept o (a.sectorMark i f) := by
  have h1 := takeFalls (i := i) (f := f) h
  unfold Lubran.sectorMark
  simp only
  split
  · exact h1.sector
  · split
    · refine h1.setSlot ?_
      split
      · rename_i hs; omega
      · decide
    · exact h1

theorem indexMark {f : Falls} (h : Kept o a) : Kept o (a.indexMark i f) := by
  have h1 := takeFalls (i := i) (f := f) h
  unfold Lubran.indexMark
  simp only
  split
  · exact h1.index
  · split
    · exact h1.setSlot (by decide)
    · exact h1

theorem crossingPulse {f : Falls} (h : Kept o a) : Kept o (a.crossingPulse i f) := by
  have h1 := takeFalls (i := i) (f := f) h
  unfold Lubran.crossingPulse
  simp only
  split
  · split
    · exact h1.crossSeeking
    · exact h1.crossSettling
    · exact h1.offTrack
    · exact h1
    · exact h1
  · exact h1

theorem guardRise (h : Kept o a) : Kept o (a.guardRise i) := by
  have h1 := modLines (i := i) (f := fun l => { l with guard := true }) h
  unfold Lubran.guardRise
  simp only
  split
  · split
    · exact syncEntry (modChan h1 fun _ => by simp [Channel.atZero])
    · split
      · exact h1.seekCheck
      · exact h1
  · exact h1

theorem faultRise (h : Kept o a) : Kept o (a.faultRise i) := by
  have h1 := modLines (i := i) (f := fun l => { l with fault := true }) h
  unfold Lubran.faultRise
  simp only
  split
  · split
    · exact h1.pathFault.seekCheck
    · exact h1.pathFault
  · exact h1

theorem onTrackRise (h : Kept o a) : Kept o (a.onTrackRise i) := modLines h

theorem speedRise (h : Kept o a) : Kept o (a.speedRise i) := by
  have h1 := modLines (i := i) (f := fun l => { l with speedOk := true }) h
  unfold Lubran.speedRise
  simp only
  split
  · exact h1.spunUp
  · exact h1

theorem speedFall (h : Kept o a) : Kept o (a.speedFall i) := by
  have h1 := modLines (i := i) (f := fun l => { l with speedOk := false }) h
  unfold Lubran.speedFall
  simp only
  split
  · exact h1.faultSpindle
  · exact h1

theorem spinUpExpiry (h : Kept o a) : Kept o (a.spinUpExpiry i) := by
  unfold Lubran.spinUpExpiry
  split
  · exact h.faultSpindle
  · exact h

theorem settleExpiry (h : Kept o a) : Kept o (a.settleExpiry i) := by
  unfold Lubran.settleExpiry
  split
  · exact modChan h
  · exact h

theorem deadlineExpiry (h : Kept o a) : Kept o (a.deadlineExpiry i) := by
  unfold Lubran.deadlineExpiry
  split
  · exact seekCheck (modChan h)
  · exact h

theorem recalExpiry (h : Kept o a) : Kept o (a.recalExpiry i) := by
  unfold Lubran.recalExpiry
  simp only
  split
  · exact faultSpindle (modChan h)
  · exact h

theorem allegianceEnd (h : Kept o a) : Kept o (a.allegianceEnd i) := by
  unfold Lubran.allegianceEnd
  split
  · split
    · exact h.endAllegiance
    · exact h
  · exact h

/-! ## The link -/

theorem abandon (h : Kept o a) : Kept o (a.abandon p i) := by
  unfold Lubran.abandon
  split
  · exact h
  · split
    · exact h
    · split
      · split
        · exact (modEntry h).leaveWaiting
        · split
          · exact h.depart
          · exact h.leaveQueue
        all_goals exact h.leaveQueue
      · exact h

theorem endAllegianceOf (h : Kept o a) : Kept o (a.endAllegianceOf p i) := by
  unfold Lubran.endAllegianceOf
  split
  · split
    · exact h.endAllegiance
    · exact h
  · exact h

theorem withWaiting {w : List Owner} {l : List Port} (h : Kept o a) : Kept o { a with waiting := w, served := l } :=
  h.free

theorem withTorn {x : Vector Bool 4} (h : Kept o a) :
    Kept o (a.modPort p fun r => { r.discardWaiting with tags := x, notices := [], sense := none }) := by
  refine h.modPort ⟨rfl, rfl, rfl, rfl, rfl, rfl, rfl⟩ fun _ => ?_
  simp [LinkPort.rejects, LinkPort.discardWaiting]

theorem teardown (h : Kept o a) : Kept o (a.teardown p) := by
  have h1 := foldl (o := o) (f := fun q i => q.dropQueued p i) (fun _ _ h => h.filterQueue) allSpindles h
  have h2 := foldl (o := o) (f := fun q i => q.abandon p i) (fun _ _ h => h.abandon) allSpindles h1
  have h3 := foldl (o := o) (f := fun q i => q.endAllegianceOf p i) (fun _ _ h => h.endAllegianceOf) allSpindles h2
  unfold Lubran.teardown
  exact h3.withWaiting.withTorn

theorem reload (h : Kept o a) : Kept o (a.modPort p LinkPort.reload) := h.modPort

theorem hear_same (r : LinkPort) (s : LinkSymbol) : r.SameSettings (r.hear s) ∧ (r.hear s).rejects = r.rejects := by
  unfold LinkPort.hear
  split
  · exact ⟨⟨rfl, rfl, rfl, rfl, rfl, rfl, rfl⟩, rfl⟩
  · exact ⟨⟨rfl, rfl, rfl, rfl, rfl, rfl, rfl⟩, rfl⟩
  · split
    · split <;> exact ⟨⟨rfl, rfl, rfl, rfl, rfl, rfl, rfl⟩, rfl⟩
    · exact ⟨⟨rfl, rfl, rfl, rfl, rfl, rfl, rfl⟩, rfl⟩
    · exact ⟨⟨rfl, rfl, rfl, rfl, rfl, rfl, rfl⟩, rfl⟩
  · split <;> exact ⟨⟨rfl, rfl, rfl, rfl, rfl, rfl, rfl⟩, rfl⟩

theorem hear {s : LinkSymbol} (h : Kept o a) : Kept o (a.modPort p fun r => r.hear s) :=
  h.modPort (hear_same _ s).1 fun x => by rw [(hear_same _ s).2]; exact x

theorem hearHold_same (r : LinkPort) : r.SameSettings r.hearHold ∧ r.hearHold.rejects = r.rejects := by
  unfold LinkPort.hearHold
  split <;> exact ⟨⟨rfl, rfl, rfl, rfl, rfl, rfl, rfl⟩, rfl⟩

theorem hearHold (h : Kept o a) : Kept o (a.modPort p LinkPort.hearHold) :=
  h.modPort (hearHold_same _).1 fun x => by rw [(hearHold_same _).2]; exact x

theorem withLink {x : LinkState} {n : Option Nat} (h : Kept o a) :
    Kept o (a.modPort p fun r => { r with link := x, timer := n }) := h.modPort

theorem linkExpiry (h : Kept o a) : Kept o (a.linkExpiry p) := by
  unfold Lubran.linkExpiry
  split
  · exact h.modPort
  · exact h.teardown.withLink
  · exact h

theorem frameEnds_same (r : LinkPort) : r.SameSettings r.frameEnds ∧ r.frameEnds.rejects = r.rejects := by
  unfold LinkPort.frameEnds
  split <;> exact ⟨⟨rfl, rfl, rfl, rfl, rfl, rfl, rfl⟩, rfl⟩

theorem frameEnds (h : Kept o a) : Kept o (a.modPort p LinkPort.frameEnds) :=
  h.modPort (frameEnds_same _).1 fun x => by rw [(frameEnds_same _).2]; exact x

theorem attentionEnds_same (r : LinkPort) : r.SameSettings r.attentionEnds ∧ r.attentionEnds.rejects = r.rejects := by
  unfold LinkPort.attentionEnds
  split <;> exact ⟨⟨rfl, rfl, rfl, rfl, rfl, rfl, rfl⟩, rfl⟩

theorem attentionEnds (h : Kept o a) : Kept o (a.modPort p LinkPort.attentionEnds) :=
  h.modPort (attentionEnds_same _).1 fun x => by rw [(attentionEnds_same _).2]; exact x

theorem slotDrained {w : Owner} (h : Kept o a) : Kept o (a.slotDrained k w) := by
  unfold Lubran.slotDrained
  split
  · simp only
    have h1 := fun i p t (w : Owner) => offer (p := p) (t := t) (freeSlot (k := k) (modEntry (i := i) (w := w)
      (f := fun e => { e with blocksDone := e.blocksDone + 1 }) h))
    split
    · split
      · exact (h1 _ _ _ _).conclude
      · exact h1 _ _ _ _
    · exact h1 _ _ _ _
  · exact h.freeSlot

theorem dataEnds (h : Kept o a) : Kept o (a.dataEnds p) := by
  unfold Lubran.dataEnds
  split
  · have h1 := modPort (p := p) (f := fun r => { r with sending := none }) h
    simp only
    split
    · exact h1
    · split
      · exact h1.freeSlot
      · split
        · exact h1.modSlot
        · exact h1.slotDrained
  · exact h

/-! ## Commands -/

theorem onUp {f : Lubran → Lubran} (h : Kept o a) (hf : ∀ {b}, Kept o b → Kept o (f b)) : Kept o (a.onUp p f) := by
  unfold Lubran.onUp
  split
  · exact hf h.reload
  · exact h

theorem receive {n : Nat} {f : HostFrame} {act : Lubran → Lubran} (h : Kept o a)
    (hf : ∀ {b}, Kept o b → Kept o (act b)) : Kept o (a.receive p n f act) := by
  refine h.onUp fun hb => ?_
  split
  · split
    · exact hb.pushReject
    · split
      · exact hf hb
      · exact hb.pushReject
  · exact hb

theorem endNamedAllegiance {x : Ask} (h : Kept o a) : Kept o (a.endNamedAllegiance p x) := by
  unfold Lubran.endNamedAllegiance
  split
  · exact h.endAllegianceOf
  · exact h

/-- A command whose effect, once it is accepted, keeps. -/
theorem command {α : Type} {n : Nat} {f : HostFrame} {x : Option (Ask × α)} {eff : Ask → α → Lubran → Lubran}
    (h : Kept o a)
    (hf : ∀ {y z b}, x = some (y, z) → b.refusal p y = none → Kept o b → Kept o (eff y z b)) :
    Kept o (a.command p n f x eff) := by
  refine h.receive fun hb => ?_
  unfold Lubran.intake
  split
  · exact hb.pushEnding
  · simp only
    split
    · exact hb.endNamedAllegiance.pushEnding
    · rename_i hr
      exact hf rfl hr hb.endNamedAllegiance

theorem answer {x : Ask} {n : Nat} {c : EndCode} {l : List Byte} (h : Kept o a) : Kept o (a.answer p x n c l) :=
  h.pushEnding

/-- A queued command whose checks pass finds room. -/
theorem placeFor {x : Ask} {w : EntryKind} {c : TrackCmd} (h : Kept o a) (hr : a.refusal p x = none)
    (hq : x.queued = true) : Kept o (a.placeFor p x w c) := by
  unfold Lubran.placeFor
  split
  · rename_i i hi
    refine selectionEvent (modSp h.setTag ⟨rfl, rfl⟩ fun y => ⟨y.1, y.2.1, y.2.2.1, y.2.2.2.1, y.2.2.2.2.1, ?_⟩)
    have hroom : a.roomOk x = true := by
      unfold Lubran.refusal at hr
      repeat' (split at hr; · cases hr)
      rename_i hr'
      simpa using hr'
    simp only [Lubran.roomOk, hq, hi, decide_eq_true_eq] at hroom
    have hsp : (a.setTag p x.tag true).sp i = a.sp i := by rw [setTag_eq, modPort_sp]
    simp only [List.length_append, List.length_singleton]
    rw [hsp]
    exact hroom
  · exact h

theorem spinUp (h : Kept o a) : Kept o (a.spinUp i) := by
  have h1 := modSp (i := i) (f := fun u =>
    { u with life := .spinningUp, faultReason := .none, spin := true, spinTimer := some Config.spinUpLoad }) h
  unfold Lubran.spinUp
  simp only
  split
  · exact h1.spunUp
  · exact h1

theorem startSpindle (h : Kept o a) : Kept o (a.startSpindle i) := by
  unfold Lubran.startSpindle
  split
  · exact h.spinUp
  · exact h.spinUp
  all_goals exact h

theorem senseTaken (h : Kept o a) : Kept o (a.modPort p LinkPort.senseTaken) := h.modPort

theorem clearReservation (h : Kept o a) : Kept o (a.clearReservation i) := h.modSp

/-! ## Frames -/

theorem unrequested {e : Entry} (h : Kept o a) : Kept o (a.unrequested i e) := by
  unfold Lubran.unrequested
  split
  · exact h.decideEnding
  · exact h.handOver.dropEntry

theorem takeData {f : DataFrame} (h : Kept o a) : Kept o (a.takeData p f) := by
  unfold Lubran.takeData
  split
  · exact h
  · split
    · exact h
    · split
      · exact h
      · split
        · exact h.modSlot
        · exact h.unrequested

theorem dataFrameBad {t : Byte} (h : Kept o a) : Kept o (a.dataFrameBad p t) := by
  unfold Lubran.dataFrameBad
  split
  · exact h
  · split
    · exact h
    · split
      · exact h.decideEnding
      · exact h

theorem resume (h : Kept o a) : Kept o (a.resume p) := h.modPort

/-! ## CLOCK -/

theorem tick (h : Kept o a) : Kept o a.tick := by
  refine foldl (fun b i hb => ?_) _ (foldl (fun b p hb => ?_) _ h)
  · unfold Lubran.tickSpindle
    split
    · exact hb
    · split
      · exact hb.spinUpExpiry
      · exact hb.modSp
  · unfold Lubran.tickLink
    split
    · exact hb
    · split
      · exact hb.linkExpiry
      · exact hb.modPort

end Sys2Proof.Machine.Kept
end

