-- ==== Sys2Proof/Laws/KeptResets.lean ====
section
/-! SUPPORT. What the resets and the settings commands keep: string reset keeps what every other command keeps
(`Kept`), and the hard resets and the settings keep the ranges and capacities. -/

set_option Elab.async false

namespace Sys2Proof.Machine

variable {o a : Lubran}

theorem spindleReset_same (u : SpindleUnit) :
    u.SameSettings u.stringReset ∧ (u.Bounded → u.stringReset.Bounded) := by
  have h1 : u.SameSettings u.dropWork ∧ (u.Bounded → u.dropWork.Bounded) :=
    ⟨⟨rfl, rfl⟩, fun x => ⟨x.1, x.2.1, x.2.2.1, x.2.2.2.1, x.2.2.2.2.1, Nat.zero_le _⟩⟩
  have h2 : ∀ v : SpindleUnit, v.SameSettings v.toRecal ∧ (v.Bounded → v.toRecal.Bounded) := by
    intro v
    unfold SpindleUnit.toRecal
    split
    · exact ⟨⟨rfl, rfl⟩, id⟩
    · exact ⟨⟨rfl, rfl⟩, id⟩
  have h3 : ∀ v : SpindleUnit, v.SameSettings v.dropBuild ∧ (v.Bounded → v.dropBuild.Bounded) := by
    intro v
    unfold SpindleUnit.dropBuild
    split
    · exact ⟨⟨rfl, rfl⟩, fun x => ⟨x.1, x.2.1, x.2.2.1, x.2.2.2.1, Nat.zero_le _, x.2.2.2.2.2⟩⟩
    · exact ⟨⟨rfl, rfl⟩, id⟩
    · exact ⟨⟨rfl, rfl⟩, id⟩
  have g2 := h2 u.dropWork
  have g3 := h3 u.dropWork.toRecal
  exact ⟨⟨g3.1.1.trans (g2.1.1.trans h1.1.1), g3.1.2.trans (g2.1.2.trans h1.1.2)⟩, fun x => g3.2 (g2.2 (h1.2 x))⟩

theorem linkReset_same (r : LinkPort) : r.SameSettings r.stringReset ∧ r.stringReset.rejects = 0 :=
  ⟨⟨rfl, rfl, rfl, rfl, rfl, rfl, rfl⟩, rfl⟩

theorem clearString_sp (q : Lubran) (i : Spindle) : q.clearString.sp i = (q.sp i).stringReset := by
  have : q.noteCutWrite.spindles = q.spindles := by
    unfold Lubran.noteCutWrite; split
    · split <;> rfl
    · rfl
  simp [Lubran.clearString, Lubran.sp, vget]

theorem clearString_port (q : Lubran) (p : Port) : q.clearString.port p = (q.port p).stringReset := by
  simp [Lubran.clearString, Lubran.port, vget]

theorem noteCutWrite_same (q : Lubran) :
    q.noteCutWrite.straps = q.straps ∧ q.noteCutWrite.params = q.params := by
  unfold Lubran.noteCutWrite
  split
  · split <;> exact ⟨rfl, rfl⟩
  · exact ⟨rfl, rfl⟩

theorem Kept.clearString (h : Kept o a) : Kept o a.clearString := by
  have e := noteCutWrite_same a
  refine h.trans ⟨e.1, e.2, fun p => ?_, fun i => ?_, fun x => ⟨fun i => ?_, fun p => ?_, ?_, Nat.zero_le _, Nat.zero_le _⟩⟩
  · rw [clearString_port]; exact (linkReset_same _).1
  · rw [clearString_sp]; exact (spindleReset_same _).1
  · rw [clearString_sp]; exact (spindleReset_same _).2 (x.1 i)
  · rw [clearString_port, (linkReset_same _).2]; exact Nat.zero_le _
  · exact Nat.le_trans (List.length_filter_le _ _) x.2.2.1

theorem Kept.stringReset {p : Port} (h : Kept o a) : Kept o (a.stringReset p) := by
  unfold Lubran.stringReset
  simp only
  refine Kept.foldl (fun b i hb => ?_) _ h.clearString.raiseEach
  split
  · exact hb.startRecal
  · exact hb

/-! ## The hard resets -/

theorem initial_sp (straps : Straps) (lines : Vector Lines 8) (i : Spindle) :
    (Lubran.initial straps lines).sp i =
      SpindleUnit.initial (straps.present.get i) (straps.autostart.get i) (lines.get i) := by
  simp [Lubran.initial, Lubran.sp, vget]

theorem initial_port (straps : Straps) (lines : Vector Lines 8) (p : Port) :
    (Lubran.initial straps lines).port p = LinkPort.initial (primaryOf straps) (straps.authority.get p) := by
  simp [Lubran.initial, Lubran.port, vget]

theorem initial_slot (straps : Straps) (lines : Vector Lines 8) (k : Fin 8) :
    (Lubran.initial straps lines).slot k = StagingSlot.initial := by
  simp [Lubran.initial, Lubran.slot, vget]

theorem initial_bounded (straps : Straps) (lines : Vector Lines 8) : (Lubran.initial straps lines).Bounded := by
  refine ⟨fun i => ?_, fun p => ?_, Nat.zero_le _, Nat.zero_le _, Nat.zero_le _⟩
  · rw [initial_sp]
    exact ⟨Nat.zero_lt_succ _, Nat.zero_le _, Nat.zero_lt_succ _, Nat.zero_lt_succ _, Nat.zero_le _, Nat.zero_le _⟩
  · rw [initial_port]
    exact Nat.zero_le _

/-- A hard reset leaves the ranges and capacities kept, and its straps read. -/
theorem Kept.hardReset (straps : Straps) :
    Kept (Lubran.initial straps (Vector.ofFn fun i => (a.sp i).lines)) (a.hardReset straps) := by
  unfold Lubran.hardReset
  simp only
  refine Kept.foldl (fun b i hb => ?_) _ (Kept.refl _)
  split
  · exact hb.spunUp
  · exact hb

/-! ## Settings -/

theorem setString_bounded (x : StringSettings) (h : a.Bounded) : (a.setString x).Bounded := by
  refine ⟨fun i => ?_, h.2⟩
  have : (a.setString x).sp i = { a.sp i with autoSpare := bitOf x.autoSpare i.val, mask := portSet (x.masks.get i) } := by
    simp [Lubran.setString, Lubran.sp, vget]
  rw [this]
  exact h.1 i

theorem plain_rejects (l : List ReplyFrame) :
    ((l.map ReplyFrame.plain).filter ReplyFrame.isReject).length = (l.filter ReplyFrame.isReject).length := by
  induction l with
  | nil => rfl
  | cons f fs ih => cases f <;> simp [ReplyFrame.plain, ReplyFrame.isReject, List.filter_cons, ih]

theorem modPort_bounded {p : Port} {f : LinkPort → LinkPort} (h : a.Bounded)
    (hf : (f (a.port p)).rejects ≤ (a.port p).rejects) : (a.modPort p f).Bounded := by
  refine ⟨h.1, fun r => ?_, h.2.2⟩
  rw [port_modPort]
  split
  · rename_i e; subst e
    exact Nat.le_trans hf (h.2.1 _)
  · exact h.2.1 r

theorem setPort_bounded {p : Port} {x : Ask} {y : PortSettings} (h : a.Bounded) : (a.setPort p x y).Bounded := by
  have h1 : (a.modPort y.target fun r => r.configure y).Bounded := modPort_bounded h (Nat.le_refl _)
  unfold Lubran.setPort
  simp only
  split
  · refine modPort_bounded h1 ?_
    simp [LinkPort.rejects, ReplyFrame.isReject]
  · refine ((Kept.refl _).answer (a := _)).bounded (modPort_bounded h1 ?_)
    simp only [LinkPort.rejects]
    exact Nat.le_of_eq (plain_rejects _)

end Sys2Proof.Machine
end

