-- ==== Sys2Proof/Laws/Effects.lean ====
section
/-! SUPPORT. What a command keeps: every command but the hard resets and the settings keeps the settings, the
ranges and the capacities (`Kept`), and the settings commands keep the parameters within their ranges. -/

set_option Elab.async false

namespace Sys2Proof.Machine

def setsNone : Instr → Prop
  | .powerOnReset _ | .pinReset _ | .setString .. | .setPort .. => False
  | _ => True

theorem Kept.command_placeFor {α : Type} {q : Lubran} {p : Port} {n : Nat} {f : HostFrame} {x : Option (Ask × α)} {w : EntryKind}
    {g : α → TrackCmd}
    (hq : ∀ y z, x = some (y, z) → y.queued = true) :
    Kept q (q.command p n f x fun a c q => q.placeFor p a w (g c)) :=
  (Kept.refl q).command fun hx hr hb => hb.placeFor hr (hq _ _ hx)

theorem parseTransfer_queued {k l y z} (h : parseTransfer k l = some (y, z)) : y.queued = true := by
  unfold parseTransfer at h
  split at h
  · split at h
    · cases h
    · split at h
      · cases h; rfl
      · cases h
  · cases h

theorem parseGuarded_queued {l y z} (h : parseGuarded l = some (y, z)) : y.queued = true := by
  unfold parseGuarded at h
  split at h
  · split at h
    · cases h
    · split at h
      · cases h; rfl
      · cases h
  · cases h

theorem parseQueuedSpindle_queued {l y z} (h : parseQueuedSpindle l = some (y, z)) : y.queued = true := by
  unfold parseQueuedSpindle at h
  obtain ⟨w, hw, e⟩ := Option.map_eq_some_iff.1 h
  cases e; rfl

/-- commands that set nothing keep -/
theorem exec_kept (c : Instr) (s t : State) (h : exec c s = .next t) (hc : setsNone c) : Kept s.part t.part := by
  rw [exec_effect] at h
  refine Kept.run ?_ h
  clear h
  have hr := Kept.refl s.part
  generalize s.part = q at hr ⊢
  clear s t
  cases c with
  | powerOnReset _ => exact hc.elim
  | pinReset _ => exact hc.elim
  | setString _ _ => exact hc.elim
  | setPort _ _ => exact hc.elim
  | read p f => simp only [effect]; exact (Kept.command_placeFor fun _ _ h => parseTransfer_queued h)
  | write p f => simp only [effect]; exact (Kept.command_placeFor fun _ _ h => parseTransfer_queued h)
  | verify p f => simp only [effect]; exact (Kept.command_placeFor fun _ _ h => parseTransfer_queued h)
  | guardedWrite p f => simp only [effect]; exact (Kept.command_placeFor fun _ _ h => parseGuarded_queued h)
  | recalibrate p f => simp only [effect]; exact (Kept.command_placeFor fun _ _ h => parseQueuedSpindle_queued h)
  | reserve p f => simp only [effect]; exact (Kept.command_placeFor fun _ _ h => parseQueuedSpindle_queued h)
  | stopSpindle p f => simp only [effect]; exact (Kept.command_placeFor fun _ _ h => parseQueuedSpindle_queued h)
  | startSpindle p f =>
    simp only [effect]; refine (hr.command fun hx _ hb => ?_)
    split
    · exact hb.startSpindle.answer
    · exact hb
  | release p f =>
    simp only [effect]; refine (hr.command fun hx _ hb => ?_)
    split
    · split
      · exact hb.clearReservation.answer
      · exact hb.answer
    · exact hb
  | breakReservation p f =>
    simp only [effect]; refine (hr.command fun hx _ hb => ?_)
    split
    · split
      · exact hb.clearReservation.raiseAt.answer
      · exact hb.answer
    · exact hb
  | querySpindle p f =>
    simp only [effect]; refine (hr.command fun hx _ hb => ?_)
    split
    · exact hb.answer
    · exact hb
  | cancel p f =>
    simp only [effect]; refine (hr.command fun hx _ hb => ?_)
    split
    · split
      · exact hb.answer
      · exact hb.dropEntry.giveEnding.answer
    · exact hb.answer
  | sense p f =>
    simp only [effect]; refine (hr.command fun hx _ hb => ?_)
    exact ((Kept.foldl (fun _ _ h => h.endAllegianceOf) _ hb).answer).senseTaken
  | resetString p f =>
    simp only [effect]; refine (hr.command fun hx _ hb => ?_)
    exact hb.stringReset.answer
  | spareTrack p f =>
    simp only [effect]; refine (hr.command fun hx _ hb => ?_)
    split
    · exact hb
    · split
      · exact hb.answer
      · split
        · rename_i hc
          exact hb.answer.admitSpare hc
        · exact hb.answer
  | notify p f =>
    simp only [effect]; refine (hr.command fun hx _ hb => ?_)
    exact hb.raiseEach.answer
  | queryString p f => simp only [effect]; exact (hr.command fun hx _ hb => hb.answer)
  | readSpareMap p f => simp only [effect]; exact (hr.command fun hx _ hb => hb.answer)
  | readSuspects p f => simp only [effect]; exact (hr.command fun hx _ hb => hb.answer)
  | data p f =>
    simp only [effect]; refine (hr.onUp fun hb => ?_)
    split
    · split
      · exact hb.takeData
      · exact hb.dataFrameBad
    · exact hb
  | dataFrameCheck p d =>
    simp only [effect]; refine (hr.onUp fun hb => ?_)
    split
    · split
      · exact hb.dataFrameBad
      · exact hb
    · split
      · split
        · exact hb.resume.dataFrameBad
        · exact hb.resume
      · exact hb.resume
  | resetPort p f =>
    simp only [effect]; refine (hr.receive fun hb => ?_)
    split
    · exact hb.teardown
    · exact hb.pushReject
  | unknownKind p a k =>
    simp only [effect]; refine (hr.onUp fun hb => ?_)
    split
    · exact hb.pushReject
    · exact hb
  | frameLength p a k len =>
    cases len with
    | long l =>
      simp only [effect, Lubran.refuseLength]; refine (hr.onUp fun hb => ?_)
      split
      · exact hb.pushReject
      · exact hb
    | whole l c =>
      simp only [effect, Lubran.refuseLength]
      split
      · refine hr.receive fun hb => ?_
        split
        · exact hb
        · exact hb.pushReject
      · exact hr.onUp fun hb => hb
  | frameCheck p k f =>
    simp only [effect]; refine (hr.onUp fun hb => ?_)
    split
    · exact hb.pushReject
    · exact hb
  | frameCut p l =>
    simp only [effect]; refine (hr.onUp fun hb => ?_)
    split
    · exact hb.resume.pushReject
    · exact hb.resume
  | linkSymbolReceived p x => simp only [effect]; exact hr.hear
  | hold p => simp only [effect]; exact hr.hearHold
  | linkTimerExpiry p => simp only [effect]; exact hr.linkExpiry
  | frameSent p => simp only [effect]; exact hr.frameEnds
  | dataFrameSent p => simp only [effect]; exact hr.dataEnds
  | attentionFrameSent p => simp only [effect]; exact hr.attentionEnds
  | spinUpTimerExpiry i => simp only [effect]; exact hr.spinUpExpiry
  | speedOkAsserted i => simp only [effect]; exact hr.speedRise
  | speedOkDeasserted i => simp only [effect]; exact hr.speedFall
  | indexMark i f => simp only [effect]; exact hr.indexMark
  | sectorMark i f => simp only [effect]; exact hr.sectorMark
  | crossing i f => simp only [effect]; exact hr.crossingPulse
  | guardAsserted i => simp only [effect]; exact hr.guardRise
  | faultAsserted i => simp only [effect]; exact hr.faultRise
  | onTrackAsserted i => simp only [effect]; exact hr.onTrackRise
  | settleCountExpiry i => simp only [effect]; exact hr.settleExpiry
  | seekDeadlineExpiry i => simp only [effect]; exact hr.deadlineExpiry
  | recalLimitExpiry i => simp only [effect]; exact hr.recalExpiry
  | allegianceExpiry i => simp only [effect]; exact hr.allegianceEnd
  | blockIdRead d => simp only [effect]; exact hr.takeId
  | fieldEnd b k => simp only [effect]; exact hr.endField
  | headerFieldEnd b w => simp only [effect]; exact hr.endHeader

theorem command_cases {α : Type} {P : Lubran → Prop} {q : Lubran} {p : Port} {n : Nat} {f : HostFrame}
    {x : Option (Ask × α)}
    {eff : Ask → α → Lubran → Lubran} (hk : ∀ r, Kept q r → P r)
    (he : ∀ a y r, x = some (a, y) → Kept q r → P (eff a y r)) : P (q.command p n f x eff) := by
  unfold Lubran.command Lubran.receive Lubran.onUp
  have hr := (Kept.refl q).reload (p := p)
  split
  · dsimp only
    split
    · split
      · exact hk _ hr.pushReject
      · split
        · unfold Lubran.intake
          split
          · exact hk _ hr.pushEnding
          · dsimp only
            split
            · exact hk _ hr.endNamedAllegiance.pushEnding
            · exact he _ _ _ rfl hr.endNamedAllegiance
        · exact hk _ hr.pushReject
    · exact hk _ hr
  · exact hk _ (Kept.refl q)

theorem effect_bounded (c : Instr) (q : Lubran) (hb : q.Bounded) (hc : ¬ setsNone c) : (effect c q).Bounded := by
  cases c with
  | powerOnReset x => simp only [effect]; exact (Kept.hardReset x).bounded (initial_bounded _ _)
  | pinReset x => simp only [effect]; exact (Kept.hardReset x).bounded (initial_bounded _ _)
  | setString p f =>
    simp only [effect]
    exact command_cases (fun r h => h.bounded hb) fun a y r _ h =>
      ((Kept.refl _).answer).bounded (setString_bounded y (h.bounded hb))
  | setPort p f =>
    simp only [effect]
    exact command_cases (fun r h => h.bounded hb) fun a y r _ h => setPort_bounded (h.bounded hb)
  | _ => exact absurd trivial hc

theorem clamp_mem (lo hi n : Nat) (h : lo ≤ hi) : lo ≤ clamp lo hi n ∧ clamp lo hi n ≤ hi := by
  unfold clamp; omega

theorem parseSetString_inRange {l a x} (h : parseSetString l = some (a, x)) : x.params.InRange := by
  unfold parseSetString at h
  split at h
  · obtain ⟨w, hw, e⟩ := Option.map_eq_some_iff.1 h
    cases e
    refine ⟨(clamp_mem _ _ _ (by decide)).1, (clamp_mem _ _ _ (by decide)).2, (clamp_mem _ _ _ (by decide)).1,
        (clamp_mem _ _ _ (by decide)).2, (clamp_mem _ _ _ (by decide)).2, (clamp_mem _ _ _ (by decide)).1, (clamp_mem
            _ _ _ (by decide)).2,(clamp_mem _ _ _ (by decide)).1, (clamp_mem _ _ _ (by
                decide)).2,(clamp_mem _ _ _ (by decide)).1, (clamp_mem _ _ _ (by decide)).2,  (clamp_mem _ _ _ (by decide)).2, (clamp_mem _ _ _ (by decide)).1, (clamp_mem _ _ _ (by decide)).2⟩
  · cases h

end Sys2Proof.Machine
end

