-- ==== Sys2Proof/Laws/Folds.lean ====
section
/-! SUPPORT. What an update made port by port or spindle by spindle comes to, one period of CLOCK, and the largest
code of a distance (R34). -/

set_option Elab.async false

namespace Sys2Proof.Machine

theorem port_foldl_modPort (l : List Port) (q : Lubran) (f : Port → LinkPort → LinkPort) (hn : l.Nodup) (p : Port) :
    (l.foldl (fun q p => q.modPort p (f p)) q).port p = if p ∈ l then f p (q.port p) else q.port p := by
  induction l generalizing q with
  | nil => simp
  | cons x xs ih =>
    simp only [List.foldl_cons, List.nodup_cons] at hn ⊢
    rw [ih _ hn.2, port_modPort]
    by_cases h : p = x
    · subst h; simp [hn.1]
    · simp [h]

theorem sp_foldl_modSp (l : List Spindle) (q : Lubran) (f : Spindle → SpindleUnit → SpindleUnit) (hn : l.Nodup)
    (p : Spindle) :
    (l.foldl (fun q p => q.modSp p (f p)) q).sp p = if p ∈ l then f p (q.sp p) else q.sp p := by
  induction l generalizing q with
  | nil => simp
  | cons x xs ih =>
    simp only [List.foldl_cons, List.nodup_cons] at hn ⊢
    rw [ih _ hn.2, sp_modSp]
    by_cases h : p = x
    · subst h; simp [hn.1]
    · simp [h]

theorem largest_spec (acc r n : Nat) :
    largestCode acc r n ≤ n ∧ 8 * largestCode acc r n * largestCode acc r n ≤ acc * r ∧
    ∀ k, k ≤ n → 8 * k * k ≤ acc * r → k ≤ largestCode acc r n := by
  induction n with
  | zero => simp [largestCode]
  | succ n ih =>
    unfold largestCode
    split
    · exact ⟨Nat.le_refl _, by assumption, fun k h _ => h⟩
    · refine ⟨Nat.le_succ_of_le ih.1, ih.2.1, fun k hk hh => ?_⟩
      rcases Nat.lt_or_ge n k with h | h
      · have : k = n + 1 := by omega
        subst this; contradiction
      · exact ih.2.2 k h hh

end Sys2Proof.Machine
end

