-- ==== Sys2Proof/Laws/Taking.lean ====
section
/-! SUPPORT. What taking a command frame leaves as it was, what a refused request answers, and the rest that
handing over endings and raising notices keeps. -/

set_option Elab.async false

namespace Sys2Proof.Machine

theorem parseGuarded_count {l a c} (h : parseGuarded l = some (a, c)) : c.count = 1 ∧ c.writeVerify = false := by
  unfold parseGuarded at h
  split at h
  · split at h
    · cases h
    · split at h
      · cases h; exact ⟨rfl, rfl⟩
      · cases h
  · cases h

theorem exec_of_request_none {α : Type} {c : Instr} {s : State} {p : Port} {f : HostFrame} {k : Nat} {x : Option (Ask × α)}
    {eff : Ask → α → Lubran → Lubran}
   (he : effect c = fun q => q.command p k f x eff) (hx : x.map Prod.fst = none) (h : s.part.atRest =
       true) (hh : s.part.Hears p k f) :
   exec c s = .next { s with part :=
       ((s.part.modPort p LinkPort.reload).refuse p k f.payload .badField).kickAll } := by
  refine exec_atRest ?_ ?_
  · rw [he]
    have : x = none := by simpa using hx
    subst this
    dsimp only
    rw [command_badField hh]
  · simpa [Lubran.refuse] using h

theorem exec_of_request_some {α : Type} {c : Instr} {s : State} {p : Port} {f : HostFrame} {k : Nat} {x : Option (Ask × α)}
    {eff : Ask → α → Lubran → Lubran} {a : Ask} {code : EndCode}
   (he : effect c = fun q => q.command p k f x eff) (hx : x.map Prod.fst = some a) (h : s.part.atRest =
       true) (hh : s.part.Hears p k f)
   (hn : s.part.NoEvent p a) (hr : (s.part.taking p a).refusal p a = some code) :
   exec c s = .next { s with part := ((s.part.taking p a).refuse p k f.payload code).kickAll } := by
  refine exec_atRest ?_ ?_
  · rw [he]
    obtain ⟨y, hy, e⟩ := Option.map_eq_some_iff.1 hx
    obtain ⟨b, z⟩ := y
    cases e
    subst hy
    dsimp only
    rw [command_refused hh hr]
  · simpa [Lubran.refuse] using taking_atRest h hn

theorem answer_eq_withEnding {q : Lubran} {p : Port} {a : Ask} {k : Nat} {c : EndCode} {l : List Byte} :
    q.answer p a k c l = q.withEnding p a.tag k c l := rfl

theorem sp_of_atRest {q : Lubran} (h : q.atRest = true) (i : Spindle) : (q.sp i).settleReady = false ∧
    (q.sp i).waitReady = false ∧ (q.sp i).selectDue = false := by
  have := (atRest_iff _).1 h
  exact ⟨this.1 i, this.2.1 i, this.2.2.2.1 i⟩

theorem parseStart_queued {l a n} (h : parseStart l = some (a, n)) : a.queued = false := by
  unfold parseStart at h
  obtain ⟨w, hw, e⟩ := Option.map_eq_some_iff.1 h
  cases e; rfl

theorem taking_life {q : Lubran} {p : Port} {a : Ask} (hn : q.NoEvent p a) (i : Spindle) :
   ((q.taking p a).sp i).life = (q.sp i).life ∧ ((q.taking p a).sp i).lines = (q.sp i).lines ∧ ((q.taking p a).sp
       i).waitReq = (q.sp i).waitReq
   ∧ ((q.taking p a).sp i).reservation = (q.sp i).reservation ∧ ((q.taking p a).sp i).internal = (q.sp
       i).internal ∧ ((q.taking p a).sp i).queue = (q.sp i).queue := by
  rw [taking_sp hn]; exact ⟨rfl, rfl, rfl, rfl, rfl, rfl⟩

theorem taking_params {q : Lubran} {p : Port} {a : Ask} : (q.taking p a).params = q.params := by
  unfold Lubran.taking Lubran.endNamedAllegiance
  split
  · unfold Lubran.endAllegianceOf Lubran.endAllegiance Lubran.selectionEvent
    split
    · split
      · split <;> rfl
      · rfl
    · rfl
  · rfl

theorem startSpindle_eq {q : Lubran} {i : Spindle} (h : (q.sp i).life = .stopped ∨ (q.sp i).life = .faulted) :
    q.startSpindle i = q.spinUp i := by
  unfold Lubran.startSpindle
  rcases h with h | h <;> rw [h]

theorem atRest_withEnding {q : Lubran} {p : Port} {t : Tag} {k : Nat} {c : EndCode} {l : List Byte} (h : q.atRest = true) :
    (q.withEnding p t k c l).atRest = true :=
  (atRest_modPort ..).trans h

theorem atRest_raiseAt {q : Lubran} {r : Port} {k : NoticeKey} {d : Detail} : (q.raiseAt r k d).atRest = q.atRest := by
  unfold Lubran.raiseAt; split
  · exact atRest_modPort ..
  · rfl

theorem atRest_raiseEach {q : Lubran} {l : List Port} {k : NoticeKey} {d : Detail} :
    (q.raiseEach l k d).atRest = q.atRest := by
  unfold Lubran.raiseEach
  induction l generalizing q with
  | nil => rfl
  | cons x xs ih => simp only [List.foldl_cons]; rw [ih, atRest_raiseAt]

theorem taking_findEntry {q : Lubran} {p : Port} {a : Ask} (hn : q.NoEvent p a) (o : Owner) :
    (q.taking p a).findEntry o = q.findEntry o := by
  unfold Lubran.findEntry
  congr
  funext i
  have : ((q.taking p a).sp i).findEntry o = (q.sp i).findEntry o := by
    rw [taking_sp hn]; cases o <;> rfl
  rw [this]

theorem findEntry_owner {q : Lubran} {o : Owner} {i : Spindle} {e : Entry} {p : Port} {t : Tag} (ho : o = .host p t)
    (h : q.findEntry o = some (i, e)) : e.owner = o := by
  subst ho
  unfold Lubran.findEntry at h
  obtain ⟨j, _, hj⟩ := List.exists_of_findSome?_eq_some h
  obtain ⟨x, hx, e⟩ := Option.map_eq_some_iff.1 hj
  cases e
  have := List.find?_some hx
  simpa using this

theorem foldl_congr_list {α β : Type} (l : List α) (f g : β → α → β) (b : β) (h : ∀ b a, a ∈ l → f b a = g b a) :
    l.foldl f b = l.foldl g b := by
  induction l generalizing b with
  | nil => rfl
  | cons x xs ih => simp only [List.foldl_cons]; rw [h b x (by simp)]; exact ih _ (fun b a ha => h b a (by simp [ha]))

theorem modSp_congr_at {q : Lubran} {i : Spindle} {f g : SpindleUnit → SpindleUnit} (h : f (q.sp i) = g (q.sp i)) :
    q.modSp i f = q.modSp i g := by
  unfold Lubran.modSp; rw [h]

/-- folding over the spindles one by one -/
theorem foldl_endAllegianceOf {l : List Spindle} (hn : l.Nodup) {q : Lubran} {p : Port}
    (he : ∀ i, (q.sp i).allegiance.map Prod.fst = some p → q.Engaged i) :
    l.foldl (fun q i => q.endAllegianceOf p i) q =
        l.foldl (fun q i => q.modSp i fun u => if u.allegiance.map Prod.fst = some p then { u with allegiance :=
            none } else u) q := by
  induction l generalizing q with
  | nil => rfl
  | cons x xs ih =>
    simp only [List.foldl_cons, List.nodup_cons] at hn ⊢
    have e : q.endAllegianceOf p x = q.modSp x fun u => if u.allegiance.map Prod.fst =
        some p then { u with allegiance := none } else u := by
      unfold Lubran.endAllegianceOf
      cases h : (q.sp x).allegiance with
      | none => exact (modSp_id q x (by simp [h])).symm
      | some y =>
        obtain ⟨r, n⟩ := y
        simp only
        split
        · rename_i hr
          rw [endAllegiance_engaged (he x (by rw [h, hr]; rfl))]
          exact modSp_congr_at (by simp [h, hr])
        · rename_i hr
          exact (modSp_id q x (by simp [h, hr])).symm
    rw [e]
    refine ih hn.2 fun i hi => ?_
    rw [sp_modSp] at hi
    have hi' : (q.sp i).allegiance.map Prod.fst = some p := by
      split at hi
      · split at hi
        · simp at hi
        · exact hi
      · exact hi
    have := he i hi'
    unfold Lubran.Engaged Lubran.current at *
    rw [sp_modSp]
    split
    · exact this
    · exact this

theorem foldl_modSp_eq_map (q : Lubran) (f : SpindleUnit → SpindleUnit) :
    allSpindles.foldl (fun q i => q.modSp i f) q = { q with spindles := q.spindles.map f } := by
  have gen : ∀ (l : List Spindle) (q : Lubran), l.Nodup → ∀ i, ((l.foldl (fun q i => q.modSp i f) q).sp i =
      if i ∈ l then f (q.sp i) else q.sp i) ∧
     l.foldl (fun q i => q.modSp i f) q =
       { l.foldl (fun q i => q.modSp i f) q with
         straps := q.straps, params := q.params, ports := q.ports, path := q.path, slots := q.slots
         waiting := q.waiting, served := q.served, spareMap := q.spareMap, suspects := q.suspects
         sparing := q.sparing, seq := q.seq, writeOut := q.writeOut } := by
    intro l
    induction l with
    | nil => intro q _ i; exact ⟨by simp, rfl⟩
    | cons x xs ih =>
      intro q hn i
      simp only [List.foldl_cons, List.nodup_cons] at hn ⊢
      obtain ⟨h1, h2⟩ := ih (q.modSp x f) hn.2 i
      refine ⟨?_, h2⟩
      rw [h1, sp_modSp]
      by_cases e : i = x
      · subst e; simp [hn.1]
      · simp [e]
  have h := gen allSpindles q (by decide)
  rw [(h 0).2]
  apply Lubran.ext_records <;> intros <;> try rfl
  rename_i i
  have := (h i).1
  rw [if_pos (mem_allSpindles i)] at this
  unfold Lubran.sp at *
  simp only at *
  rw [this, vget, vget]; simp

theorem taking_frame {q : Lubran} {p : Port} {a : Ask} : (q.taking p a).sparing = q.sparing ∧
    (q.taking p a).seq = q.seq ∧ (q.taking p a).slots = q.slots ∧ (q.taking p a).waiting = q.waiting ∧
        (q.taking p a).spareMap = q.spareMap ∧ (q.taking p a).suspects = q.suspects ∧ (q.taking p a).path = q.path ∧
            (q.taking p a).params = q.params ∧ (q.taking p a).straps = q.straps ∧ (q.taking p a).served = q.served ∧
                (q.taking p a).writeOut = q.writeOut := by
  unfold Lubran.taking Lubran.endNamedAllegiance Lubran.endAllegianceOf Lubran.endAllegiance Lubran.selectionEvent
  split <;> (try split) <;> (try split) <;> (try split) <;> exact ⟨rfl, rfl, rfl, rfl, rfl, rfl, rfl, rfl, rfl, rfl,
      rfl⟩

theorem isSparing_congr {a b : Lubran} (h1 : b.sparing = a.sparing) (h2 : b.seq = a.seq) (i : Spindle) (t : Track) :
    b.isSparing i t = a.isSparing i t := by
  unfold Lubran.isSparing; rw [h1, h2]

theorem atRest_raiseMasked {q : Lubran} {i : Spindle} {d : Detail} :
    (q.raiseMasked i d).atRest = q.atRest := atRest_raiseEach

theorem takeWork_single {q : Lubran} {r : SpareReq} (h : q.sparing = []) :
    ({ q with sparing := q.sparing ++ [r] } : Lubran).takeWork =
      if (q.sp r.spindle).life = .ready then
        ({ q with seq := { Sequencer.initial with
            state := .select, spindle := some r.spindle, home := some r.home, trigger :=
                some r.trigger } } : Lubran).placeReassign r.spindle
      else q.raiseMasked r.spindle (spareFailedDetail .notReady r.home 0 none r.trigger) := by
  cases q
  simp only at h
  subst h
  rfl

theorem logical_physical {c : Nat} : logicalCyl (physicalCyl c) = c := by
  unfold physicalCyl logicalCyl
  omega

end Sys2Proof.Machine
end

