-- ==== Sys2Proof/Laws/Service.lean ====
section
/-! SUPPORT. Recalibrations and hard resets of a string without work, and what becomes of a command that is placed,
selected and served at once on a quiet string. -/

set_option Elab.async false

namespace Sys2Proof.Machine

theorem startRecal_none {q : Lubran} {i : Spindle} (h : q.current i = none) : q.startRecal i = q.modSp i fun u =>
    { u with chan := u.chan.beginRecal q.params.vmax q.params.settle u.lines.guard } := by
  unfold Lubran.startRecal Lubran.syncEntry
  have : Lubran.current (q.modSp i fun u =>
      { u with chan := u.chan.beginRecal q.params.vmax q.params.settle u.lines.guard }) i = none := by
    unfold Lubran.current at *
    rw [sp_modSp_self]; exact h
  rw [this]

/-- the spindle a hard reset leaves -/
def afterReset (u : SpindleUnit) : SpindleUnit :=
  if u.life = .spinningUp ∧ u.lines.speedOk then { u with missing := 0, life := .recalibrating, spinTimer := none, chan := u.chan.beginRecal 48 16 u.lines.guard } else u

theorem hard_step {q : Lubran} {i : Spindle} (h : q.current i = none) (hp : q.params = Params.default) :
   (if (q.sp i).life = .spinningUp ∧ (q.sp i).lines.speedOk then q.spunUp i else q) = q.modSp i afterReset := by
  split
  · rename_i hc
    unfold Lubran.spunUp Lubran.enterRecalibrating
    simp only [modSp_modSp]
    rw [startRecal_none]
    · rw [modSp_modSp]
      simp only [modSp_params, hp]
      apply modSp_congr_at
      unfold afterReset
      rw [if_pos hc]
      rfl
    · unfold Lubran.current at *
      rw [sp_modSp_self]; exact h
  · rename_i hc
    refine (modSp_id q i ?_).symm
    unfold afterReset
    rw [if_neg hc]

theorem hard_fold {l : List Spindle} (hn : l.Nodup) {q : Lubran} (h : ∀ i, q.current i = none)
    (hp : q.params = Params.default) :
   l.foldl (fun q i => if (q.sp i).life = .spinningUp ∧
       (q.sp i).lines.speedOk then q.spunUp i else q) q = l.foldl (fun q i => q.modSp i afterReset) q := by
  induction l generalizing q with
  | nil => rfl
  | cons x xs ih =>
    simp only [List.foldl_cons, List.nodup_cons] at hn ⊢
    rw [hard_step (h x) hp]
    refine ih hn.2 (fun i => ?_) hp
    have := h i
    unfold Lubran.current at *
    rw [sp_modSp]
    split
    · unfold afterReset
      split
      · exact this
      · exact this
    · exact this

theorem hardReset_eq (q : Lubran) (x : Straps) : q.hardReset x =
    { Lubran.initial x (Vector.ofFn fun i => (q.sp i).lines) with
      spindles := (Lubran.initial x (Vector.ofFn fun i => (q.sp i).lines)).spindles.map afterReset } := by
  unfold Lubran.hardReset
  dsimp only
  rw [hard_fold (by decide), foldl_modSp_eq_map]
  · intro i
    unfold Lubran.current
    rw [initial_sp]
    rfl
  · rfl

theorem beginRecal_settle (c : Channel) (g : Bool) : (c.beginRecal 48 16 g).state = .settling →
    (c.beginRecal 48 16 g).settle = 16 := by
  unfold Channel.beginRecal
  cases g
  · intro h; cases h
  · intro h; rfl

theorem settleReady_of_count {u : SpindleUnit} (h : u.chan.state = .settling → u.chan.settle ≠ 0) : u.settleReady = false := by
  unfold SpindleUnit.settleReady
  by_cases h1 : u.chan.state = .settling
  · simp [h h1]
  · simp [h1]

/-- no slot is held, nobody waits, the path is idle -/
structure Calm (q : Lubran) (p : Port) : Prop where
  path : q.path = PathRec.idle
  waiting : q.waiting = []
  slots : ∀ k, (q.slot k).owner = none
  requests : (q.port p).requests = []
  drains : (q.port p).drains = []

theorem calm_slotsOf {q : Lubran} {p : Port} (h : Calm q p) (o : Owner) : q.slotsOf o = [] := by
  unfold Lubran.slotsOf
  rw [List.filter_eq_nil_iff]
  intro k _; simp [h.slots k]

theorem calm_modSp {q : Lubran} {p : Port} {i f} (h : Calm q p) : Calm
    (q.modSp i f) p := ⟨h.path, h.waiting, h.slots, h.requests, h.drains⟩

theorem calm_modPort {q : Lubran} {p : Port} {f} (h : Calm q p) (h1 : (f (q.port p)).requests = [])
    (h2 : (f (q.port p)).drains = []) : Calm (q.modPort p f) p :=
        ⟨h.path, h.waiting, h.slots, by rw [port_modPort_self]; exact h1, by rw [port_modPort_self]; exact h2⟩

theorem leaveWaiting_calm {q : Lubran} {o : Owner} (h : q.waiting = []) : q.leaveWaiting o = q := by
  unfold Lubran.leaveWaiting; rw [h]; cases q; simp only at h; subst h; rfl

theorem leaveQueue_calm {q : Lubran} {p : Port} {t : Tag} {i : Spindle} (h : Calm q p) :
   q.leaveQueue i (.host p t) = (q.modSp i fun u => { u.dropEntry (.host p t) with
      xfer := u.entryXfer fun _ => XferRec.clear, waitReq := none,
      chan := { u.chan with orphan := decide (u.life = .ready) && (u.chan.target.isSome || u.chan.held.isSome) } }).selectionEvent i := by
  unfold Lubran.leaveQueue
  have h1 : q.releaseHeld i (.host p t) = q := by
    unfold Lubran.releaseHeld Lubran.pathHeldBy
    rw [h.path]; rfl
  simp only [h1]
  rw [leaveWaiting_calm (by exact h.waiting)]
  have h2 : ∀ f, (q.modSp i f).dropTransmit (.host p t) = q.modSp i f := by
    intro f
    unfold Lubran.dropTransmit
    refine modPort_id _ _ ?_
    simp [h.requests, h.drains]
    have a := h.requests; have b := h.drains
    generalize q.port p = r at a b
    cases r; simp only at a b; subst a; subst b; rfl
  rw [h2]
  unfold Lubran.freeSlotsOf
  rw [calm_slotsOf (calm_modSp h)]
  rfl

theorem filter_map_owner {p : Port} {t : Tag} (l : List Entry) (g : Entry → Entry)
    (hg : ∀ e, (g e).owner = e.owner) : (l.map fun e => if e.owner =
        .host p t then g e else e).filter (fun e => decide (e.owner ≠ .host p t)) =
            l.filter (fun e => decide (e.owner ≠ .host p t)) := by
  induction l with
  | nil => rfl
  | cons x xs ih =>
    simp only [List.map_cons, List.filter_cons]
    by_cases hxo : x.owner = .host p t
    · simp only [hxo, if_true, hg, ne_eq, not_true, decide_false, Bool.false_eq_true, if_false]
      exact ih
    · simp only [if_neg hxo, ih]

theorem conclude_calm {q : Lubran} {p : Port} {t : Tag} {i : Spindle} {e : Entry} {d : Ending}
   (h : Calm q p) (hc : q.current i = some e) (ho : e.owner = .host p t) (hd : e.decided =
       some d) (hcode : isCheck d.code = false) :
   q.conclude i = (((q.modPort p fun r =>
       { r with replies := r.replies ++ [.ending (byteOf t.val) (byteOf (kindCode e.kind)) d.code (byteOf e.residual) d.reply none], tags := r.tags.set t false }).modSp i fun u => { u.dropEntry (.host p t) with
      xfer := u.entryXfer fun _ => XferRec.clear, waitReq := none,
      chan := { u.chan with orphan := decide (u.life = .ready) && (u.chan.target.isSome || u.chan.held.isSome) } })).selectionEvent i := by
  unfold Lubran.conclude
  rw [hc]
  simp only [ho, hd]
  have h1 : ∀ o, q.releaseHeld i o = q := by
    intro o
    unfold Lubran.releaseHeld Lubran.pathHeldBy
    rw [h.path]; rfl
  rw [h1]
  have hz : Calm (q.modSp i fun u => { u with xfer := u.entryXfer fun x => { x with next := none, cont := none } }) p := calm_modSp h
  generalize hQ : (q.modSp i fun u => { u with xfer := u.entryXfer fun x => { x with next := none, cont := none } }) = Q at hz ⊢
  have h2 : ∀ (g : DataRequest → Bool), (Q.modPort p fun r => { r with requests := r.requests.filter g }) = Q := by
    intro g
    refine modPort_id _ _ ?_
    simp [hz.requests]
    have a := hz.requests
    generalize Q.port p = r at a
    cases r; simp only at a; subst a; rfl
  rw [h2]
  unfold Lubran.disposeSlots
  simp only [calm_slotsOf hz, List.foldl_nil, if_true]
  unfold Lubran.handOver Lubran.giveEnding
  simp only [hcode, Bool.false_eq_true, if_false, ho]
  unfold Lubran.pushEnding Lubran.pushReply
  rw [setTag_eq, modPort_modPort, leaveQueue_calm]
  · subst hQ
    congr 1
    apply Lubran.ext_records <;> intros <;> try rfl
    simp only [sp_modSp, modPort_sp]
    split
    · rename_i j hj
      subst hj
      unfold SpindleUnit.entryXfer SpindleUnit.dropEntry
      by_cases hb : (q.sp j).life = .buildingMap
      · simp only [if_pos hb]; rfl
      · simp only [if_neg hb]; rfl
    · rfl
  · exact calm_modPort hz hz.requests hz.drains

theorem decide_calm {q : Lubran} {p : Port} {t : Tag} {i : Spindle} {e : Entry} {code : EndCode} {reply : List Byte}
   (h : Calm q p) (hc : q.current i = some e) (hi : (q.sp i).internal = none) (ho : e.owner =
       .host p t) (hd : e.decided = none) (ha : e.abandoned = false) (hcode : isCheck code = false) 
   (hu : ∃ l, (q.sp i).queue = l ++ [e] ∧ ∀ x ∈ l, x.inService = false ∧ x.owner ≠ e.owner) :
   q.decideEnding i code reply = (((q.modPort p fun r =>
       { r with replies := r.replies ++ [.ending (byteOf t.val) (byteOf (kindCode e.kind)) code (byteOf e.residual) reply none], tags := r.tags.set t false }).modSp i fun u => { u.dropEntry (.host p t) with
      xfer := u.entryXfer fun _ => XferRec.clear, waitReq := none,
      chan := { u.chan with orphan := decide (u.life = .ready) && (u.chan.target.isSome || u.chan.held.isSome) } })).selectionEvent i := by
  unfold Lubran.decideEnding
  rw [hc]
  simp only
  rw [if_neg (by simp [ho, hd, ha])]
  have hq : (q.modEntry i e.owner fun e =>
      { e with state := .ending, decided := some { code := code, reply := reply } }) =
     q.modSp i fun u => u.modEntry e.owner fun e => { e with state := .ending, decided := some { code := code, reply := reply } } := rfl
  rw [hq, leaveWaiting_calm (by exact h.waiting)]
  have hcar : ∀ f, (q.modSp i f).carrying i e.owner = false := by
    intro f; unfold Lubran.carrying Lubran.pathHeldBy; rw [modSp_path, h.path]; rfl
  rw [hcar]
  simp only [Bool.false_eq_true, if_false]
  obtain ⟨l, hl, hx⟩ := hu
  have hcur : Lubran.current (q.modSp i fun u => u.modEntry e.owner fun e =>
      { e with state := .ending, decided := some { code := code, reply := reply } }) i =
          some { e with state := .ending, decided := some { code := code, reply := reply } } := by
    unfold Lubran.current
    rw [sp_modSp_self, ho]
    unfold SpindleUnit.modEntry SpindleUnit.current
    simp only [hi, hl]
    rw [← ho]
    have : (l ++ [e]).map (fun x => if x.owner =
        e.owner then { x with state := .ending, decided := some { code := code, reply := reply } } else x) =
            l ++ [{ e with state := .ending, decided := some { code := code, reply := reply } }] := by
      rw [List.map_append]
      congr 1
      · refine (List.map_congr_left (g := id) fun x h => ?_).trans (List.map_id _)
        rw [if_neg (hx x h).2]; rfl
      · simp
    rw [this, List.find?_append]
    have : l.find? Entry.inService = none := by
      rw [List.find?_eq_none]; intro x h; simp [(hx x h).1]
    rw [this]
    simp [Entry.inService]
  rw [conclude_calm (calm_modSp h) hcur ho rfl hcode]
  congr 1
  apply Lubran.ext_records <;> intros <;> try rfl
  simp only [sp_modSp, modPort_sp]
  split
  · rename_i j hj
    subst hj
    simp only [ho]
    unfold SpindleUnit.modEntry SpindleUnit.dropEntry
    simp only
    congr 1
    exact filter_map_owner _ _ (fun _ => rfl)
  · rfl

theorem exec_drain {c : Instr} {s : State} {q r : Lubran} (n : Nat) (hn : n ≤ Config.settleFuel)
    (he : effect c s.part = q) (h : q.drain n = some r) : exec c s = .next { s with part := r.kickAll } := by
  have mono : ∀ (n : Nat) (q r : Lubran), q.drain n = some r → q.drain (n + 1) = some r := by
    intro n
    induction n with
    | zero =>
      intro q r h
      simp only [Lubran.drain] at h
      split at h
      · rename_i hr; cases h; exact drain_atRest hr 1
      · cases h
    | succ n ih =>
      intro q r h
      simp only [Lubran.drain] at h
      split at h
      · rename_i hq; cases h; simp [Lubran.drain, hq]
      · rename_i x hq; rw [drain_step hq]; exact ih _ _ h
  have mono' : ∀ k, q.drain (n + k) = some r := by
    intro k
    induction k with
    | zero => exact h
    | succ k ih => exact mono _ _ _ ih
  subst he
  rw [exec_effect]
  unfold State.run
  have : (effect c s.part).finish = some r.kickAll := by
    unfold Lubran.finish
    have := mono' (Config.settleFuel - n)
    rw [show n + (Config.settleFuel - n) = Config.settleFuel by omega] at this
    rw [this]; rfl
  rw [this]

/-- next task of a part that is at rest but for selections due -/
theorem nextTask_select {q : Lubran} {i : Spindle} (h1 : ∀ j, (q.sp j).settleReady = false)
    (h2 : ∀ j, (q.sp j).waitReady = false)
   (h3 : ¬ ((∃ k, (q.slot k).state = .free) ∧ q.waiting ≠ [])) (h4 : ∀ j, (q.sp j).selectDue = decide (j =
       i)) : q.nextTask = some (q.select i) := by
  unfold Lubran.nextTask
  rw [(allSpindles_find_none).2 h1, (allSpindles_find_none).2 h2]
  have hc : q.canGrant = false := by
    cases h : q.canGrant with
    | false => rfl
    | true => exact absurd ((canGrant_iff q).1 h) h3
  simp only [hc, Bool.false_eq_true, if_false]
  have : (allSpindles.find? fun j => (q.sp j).selectDue) = some i := by
    simp only [h4]
    have key : ∀ i : Spindle, allSpindles.find? (fun j => decide (j = i)) = some i := by decide
    exact key i
  rw [this]

theorem accepts_tag {q : Lubran} {p : Port} {n : Nat} {f : HostFrame} {a : Ask} (h : q.Accepts p n f a) :
    ((q.taking p a).port p).tags.get a.tag = false := by
  have := h.2.2.2
  unfold Lubran.refusal at this
  split at this
  · cases this
  · rename_i h; simpa using h

theorem place_ready {q : Lubran} {p : Port} {i : Spindle} {t : Tag} {k : EntryKind} {c : TrackCmd}
    (h1 : (q.sp i).life = .ready) (h2 : (q.sp i).queue = []) (h3 : (q.sp i).internal = none) :
    q.place p i t k c = ((q.modPort p fun r => { r with tags := r.tags.set t true }).modSp i fun u =>
      { u with queue := [newEntry (.host p t) k c.cyl c.head c.first c.count c.writeVerify
                                    c.cmpOffset c.cmpBytes u.revs], selectDue := true }) := by
  unfold Lubran.place
  unfold Lubran.selectionEvent
  rw [if_pos, modSp_modSp]
  · apply modSp_congr_at
    simp [setTag_eq, h2]
  · refine ⟨by rw [sp_modSp_self]; exact h1, ?_⟩
    unfold Lubran.current
    rw [sp_modSp_self]
    unfold SpindleUnit.current
    simp [setTag_eq, h2, h3, newEntry, Entry.inService]

theorem taking_requests {q : Lubran} {p : Port} {a : Ask} (r : Port) : ((q.taking p a).port r).requests =
    (q.port r).requests ∧ ((q.taking p a).port r).drains = (q.port r).drains := by
  have : ∀ q : Lubran, ((q.modPort p LinkPort.reload).port r).requests = (q.port r).requests ∧ ((q.modPort p
      LinkPort.reload).port r).drains = (q.port r).drains := by
    intro q; rw [port_modPort]; split <;> exact ⟨rfl, rfl⟩
  unfold Lubran.taking Lubran.endNamedAllegiance Lubran.endAllegianceOf Lubran.endAllegiance Lubran.selectionEvent
  split <;> (try split) <;> (try split) <;> (try split) <;> exact this _

theorem calm_taking {q : Lubran} {p : Port} {a : Ask} (h : q.Quiet) : Calm (q.taking p a) p := by
  have hf := taking_frame (q := q) (p := p) (a := a)
  have hr := taking_requests (q := q) (p := p) (a := a) p
  have hs : ∀ k, (q.taking p a).slot k = q.slot k := by intro k; unfold Lubran.slot; rw [hf.2.2.1]
  exact ⟨by rw [hf.2.2.2.2.2.2.1]; exact h.1, by rw [hf.2.2.2.1]; exact h.2.1, fun k => by rw [hs]; exact (h.2.2.1
      k).2, by rw [hr.1]; exact (h.2.2.2.2.2.2 p).1, by rw [hr.2]; exact (h.2.2.2.2.2.2 p).2⟩

theorem choose_single {q : Lubran} {i : Spindle} {e : Entry} (h1 : (q.sp i).queue = [e])
    (h2 : (q.sp i).internal = none) (h3 : (q.sp i).allegiance = none) : q.choose i = some e := by
  unfold Lubran.choose
  rw [h2, h1]
  have : (q.sp i).eligible e = true := by unfold SpindleUnit.eligible; rw [h3]
  simp only [List.filter_cons, this, if_true, List.filter_nil]
  by_cases ha : q.params.ageLimit < q.age i e
  · simp [ha]
  · simp [ha, Lubran.leastCost]

theorem current_single {u : SpindleUnit} {e : Entry} (h1 : u.queue = [e]) (h2 : u.internal = none) :
    u.current = if e.inService then some e else none := by
  unfold SpindleUnit.current
  rw [h2, h1]
  simp only [List.find?_cons, List.find?_nil]
  cases e.inService <;> rfl

def serve (q : Lubran) (i : Spindle) (e : Entry) : Lubran :=
        match e.kind with
        | .read | .write | .verify | .guardedWrite => q.serveTrack i e
        | .recalibrate => q.serveRecalibrate i e
        | .reserve => q.serveReserve i e
        | .stopSpindle => q.serveStop i e
        | .reassign => q.serveReassign i

theorem select_single {q : Lubran} {i : Spindle} {e : Entry} (hl : (q.sp i).life = .ready)
    (h1 : (q.sp i).queue = [e]) (h2 : (q.sp i).internal = none) (h3 : (q.sp i).allegiance = none) (he : e.inService =
        false) :
   q.select i = serve (q.modSp i fun u => { u with selectDue := false }) i e := by
  unfold Lubran.select
  have hs : ∀ x, x = ((q.modSp i fun u => { u with selectDue := false }).sp
      i) → x.life = .ready ∧ x.queue = [e] ∧ x.internal = none ∧ x.allegiance = none := by
    intro x hx; rw [sp_modSp_self] at hx; subst hx; exact ⟨hl, h1, h2, h3⟩
  obtain ⟨a1, a2, a3, a4⟩ := hs _ rfl
  dsimp only
  rw [if_pos ⟨a1, by unfold Lubran.current; rw [current_single a2 a3, he]; rfl⟩, choose_single a2 a3 a4]
  rfl

theorem select_none {q : Lubran} {i : Spindle} (h1 : (q.sp i).queue = []) (h2 : (q.sp i).internal = none) :
   q.select i = (q.modSp i fun u => { u with selectDue := false }) := by
  unfold Lubran.select
  dsimp only
  have hc : Lubran.choose (q.modSp i fun u => { u with selectDue := false }) i = none := by
    unfold Lubran.choose
    rw [sp_modSp_self]
    simp only [h1, h2, List.filter_nil, List.find?_nil]
  rw [hc]
  split <;> rfl

theorem serveReserve_calm {q : Lubran} {i : Spindle} {e : Entry} {p : Port} {t : Tag} (h : Calm q p)
    (h1 : (q.sp i).queue = [e]) (h2 : (q.sp i).internal = none) (ho : e.owner = .host p t) (hk : e.kind =
        .reserve) (hd : e.decided = none) (ha : e.abandoned = false) (hr : (q.sp i).reservation =
            none) (hl : (q.sp i).life = .ready) :
   q.serveReserve i e = ((q.modPort p fun r =>
       { r with replies := r.replies ++ [.ending (byteOf t.val) 6 .good 0 [] none], tags := r.tags.set t false }).modSp i fun u => { u with
      queue := [], reservation := some p, xfer := XferRec.clear, waitReq := none, selectDue := true, chan :=
          { u.chan with orphan := u.chan.target.isSome || u.chan.held.isSome } }) := by
  cases e
  simp only at ho hk hd ha
  subst ho hk hd ha
  unfold Lubran.serveReserve
  rename_i cyl head first count wv off by_ arr st tr bd re lo co
  let e' : Entry := { owner := .host p t, kind := .reserve, cyl := cyl, head := head, first := first, count := count, writeVerify := wv, cmpOffset := off, cmpBytes := by_, arrival := arr, state := .ending, track := tr, blocksDone := bd, retries := re, lost := lo, decided := none, abandoned := false, compared := co }
  have hm : ∀ e0 : Entry, (q.sp i).queue = [e0] → { e0 with state := .ending } = e' → (q.modEntry i (.host p t) fun e
      => { e with state := .ending }) = q.modSp i fun u => { u with queue := [e'] } := by
    intro e0 hq he
    rw [modEntry_eq]
    apply modSp_congr_at
    unfold SpindleUnit.modEntry
    have ho : e0.owner = .host p t := by have := congrArg Entry.owner he; exact this
    simp only [hq, List.map_cons, List.map_nil, ho, if_true]
    rw [← he]; simp [ho]
  simp only [hm _ h1 rfl, sp_modSp_self, hr]
  have ht : Lubran.takeReservation (q.modSp i fun u =>
      { u with queue := [e'] }) i p = q.modSp i fun u => { u with queue := [e'], reservation := some p } := by
    unfold Lubran.takeReservation
    simp only [sp_modSp_self]
    have : ∀ (f : Entry → Bool), f e' = false → [e'].filter f = [] := by intro f h; simp [h]
    rw [this]
    · rw [List.foldl_nil, modSp_modSp]
      apply modSp_congr_at
      simp [Entry.inService, e']
    · simp [Entry.inService, e']
  rw [ht]
  have hc : Lubran.current (q.modSp i fun u => { u with queue := [e'], reservation := some p }) i = some e' := by
    unfold Lubran.current
    rw [sp_modSp_self]
    exact (current_single (e := e') rfl (by exact h2)).trans rfl
  rw [decide_calm (calm_modSp h) hc (by rw [sp_modSp_self]; exact h2) (t :=
      t) rfl rfl rfl rfl ⟨[], by rw [sp_modSp_self]; rfl, by simp⟩]
  unfold Lubran.selectionEvent
  rw [if_pos]
  · apply Lubran.ext_records <;> intros <;> try rfl
    simp only [sp_modSp, modPort_sp]
    split
    · rename_i j hj
      simp only [SpindleUnit.dropEntry, SpindleUnit.entryXfer]
      simp [e', hj, hl]
    · rfl
  · refine ⟨by rw [sp_modSp_self]; unfold SpindleUnit.dropEntry; simp [hl], ?_⟩
    unfold Lubran.current
    rw [sp_modSp_self]
    unfold SpindleUnit.current
    simp [SpindleUnit.dropEntry, h2, e']

theorem taking_same {q : Lubran} {p : Port} {a : Ask} {i : Spindle} (hu : a.unit = some i)
    (h : (q.sp i).allegiance = none) : (q.taking p a).spindles = q.spindles := by
    unfold Lubran.taking Lubran.endNamedAllegiance
    rw [hu]
    simp only
    unfold Lubran.endAllegianceOf
    rw [modPort_sp, h]
    rfl

/-- A queued command accepted on a quiet READY spindle: it is placed, selected and served. -/
theorem exec_served {c : Instr} {s : State} {q r : Lubran} {p : Port} {i : Spindle} {t : Tag} {k : EntryKind}
    {x : TrackCmd} {n : Nat}
    (ht : q.atRest = true) (heff : effect c s.part = q.place p i t k x) (hl : (q.sp i).life =
        .ready) (hqi : (q.sp i).queue = []) (hin : (q.sp i).internal = none) (hall : (q.sp i).allegiance = none)
    (hn : n + 1 ≤ Config.settleFuel)
    (hd : (serve ((q.modPort p fun r => { r with tags := r.tags.set t true }).modSp i fun u =>
        { u with queue := [newEntry (.host p t) k x.cyl x.head x.first x.count x.writeVerify x.cmpOffset x.cmpBytes u.revs] }) i (newEntry (.host p t) k x.cyl x.head x.first x.count x.writeVerify x.cmpOffset x.cmpBytes (q.sp i).revs)).drain n = some r) :
    exec c s = .next { s with part := r.kickAll } := by
  have hr := (atRest_iff _).1 ht
  rw [place_ready hl hqi hin] at heff
  obtain ⟨e, he⟩ : ∃ e, e = newEntry (.host p
      t) k x.cyl x.head x.first x.count x.writeVerify x.cmpOffset x.cmpBytes (q.sp i).revs := ⟨_, rfl⟩
  rw [← he] at hd
  obtain ⟨q1, hq1⟩ : ∃ q1, q1 = (q.modPort p fun r =>
      { r with tags := r.tags.set t true }).modSp i fun u => { u with queue := [e], selectDue := true } := ⟨_, rfl⟩
  have heff' : effect c s.part = q1 := by
    rw [heff, hq1]
    apply modSp_congr_at
    rw [he]; rfl
  have q1i : q1.sp i = { q.sp i with queue := [e], selectDue := true } := by rw [hq1, sp_modSp_self]; rfl
  have q1j : ∀ j, j ≠ i → q1.sp j = q.sp j := by intro j hj; rw [hq1, sp_modSp, if_neg hj]; rfl
  have n1 : q1.nextTask = some (q1.select i) := by
    refine nextTask_select (fun j => ?_) (fun j => ?_) (by rw [hq1]; exact hr.2.2.1) (fun j => ?_)
    · by_cases hj : j = i
      · subst hj; rw [q1i]; exact hr.1 j
      · rw [q1j j hj]; exact hr.1 j
    · by_cases hj : j = i
      · subst hj; rw [q1i]; exact hr.2.1 j
      · rw [q1j j hj]; exact hr.2.1 j
    · by_cases hj : j = i
      · subst hj; rw [q1i]; simp
      · rw [q1j j hj]; simp [hj, hr.2.2.2.1 j]
  have ein : e.inService = false := by rw [he]; rfl
  have s1 : q1.select i = serve ((q.modPort p fun r => { r with tags := r.tags.set t true }).modSp i fun u =>
      { u with queue := [newEntry (.host p t) k x.cyl x.head x.first x.count x.writeVerify x.cmpOffset x.cmpBytes u.revs] }) i e := by
    rw [select_single (by rw [q1i]; exact hl) (by rw [q1i]) (by rw [q1i]; exact hin) (by rw [q1i]; exact hall) ein]
    congr 1
    rw [hq1, modSp_modSp]
    apply modSp_congr_at
    have := hr.2.2.2.1 i
    rw [he, modPort_sp]
    generalize q.sp i = u at this
    cases u; simp only at this; subst this; rfl
  refine exec_drain (n + 1) hn heff' ?_
  rw [drain_step n1, s1]
  exact hd

theorem entry_mod {q : Lubran} {i : Spindle} {p : Port} {t : Tag} {e0 e' : Entry} {o : Owner} {f : Entry → Entry}
    (hoo : o = .host p t) (hq : (q.sp i).queue = [e0]) (ho : e0.owner = .host p t) (hf : f e0 = e') :
   q.modEntry i o f = q.modSp i fun u => { u with queue := [e'] } := by
    subst hoo
    rw [modEntry_eq]
    apply modSp_congr_at
    unfold SpindleUnit.modEntry
    simp only [hq, List.map_cons, List.map_nil, ho, if_true]
    rw [← hf]

theorem startRecal_seeking {q : Lubran} {i : Spindle} {e : Entry} {p : Port} {t : Tag} (hq : (q.sp i).queue = [e])
    (hin : (q.sp i).internal = none) (ho : e.owner = .host p t) (hs : e.state =
        .seeking) (hg : (q.sp i).lines.guard = false) :
    q.startRecal i = q.modSp i fun u => { u with chan := u.chan.beginRecal q.params.vmax q.params.settle false } := by
  unfold Lubran.startRecal
  have hc : Lubran.current (q.modSp i fun u =>
      { u with chan := u.chan.beginRecal q.params.vmax q.params.settle u.lines.guard }) i = some e := by
    unfold Lubran.current
    rw [sp_modSp_self]
    refine (current_single (e := e) hq hin).trans ?_
    simp [Entry.inService, hs]
  unfold Lubran.syncEntry
  rw [hc]
  simp only [hs]
  have h2 : ∀ c : Channel, (c.beginRecal q.params.vmax q.params.settle false).state = .recal := fun c => rfl
  simp only [sp_modSp_self, hg, h2, reduceCtorEq, false_and, if_false]
  rw [entry_mod (p := p) (t := t) (e0 := e) (e' :=
      e) ho (by rw [sp_modSp_self]; exact hq) ho (by cases e; simp only at hs; subst hs; rfl), modSp_modSp]
  apply modSp_congr_at
  simp only [hg]
  generalize q.sp i = u at hq
  cases u; simp only at hq; subst hq; rfl

theorem endQueued_none {q : Lubran} {i : Spindle} {c : EndCode} (h : ∀ e ∈ (q.sp i).queue, e.inService = true) :
    q.endQueued i c = q := by
  unfold Lubran.endQueued
  have h1 : (q.sp i).queue.filter (fun e => !e.inService) = [] := by
    rw [List.filter_eq_nil_iff]; intro x hx; simp [h x hx]
  have h2 : (q.sp i).queue.filter Entry.inService = (q.sp i).queue := by
    rw [List.filter_eq_self]; exact h
  dsimp only
  rw [h1, List.foldl_nil]
  exact modSp_id q i (by simp only [h2])

end Sys2Proof.Machine
end

