-- ==== Sys2Proof/Laws/Fields.lean ====
section
/-! SUPPORT. What the operations at a field's end and at an entry's departure leave: the release of the path, a freed slot, a
report to Error Watch, a retirement, and the departure itself. Each lemma says once what its operation keeps or writes. -/

set_option Elab.async false

namespace Sys2Proof.Machine

/-- A command whose effect gives `q` is the run of that. -/
theorem exec_eq_run {c : Instr} {s : State} {q : Lubran} (h : effect c s.part = q) : exec c s = s.run fun _ => q := by
  rw [exec_effect]; unfold State.run; rw [h]

/-! ## What a report to Error Watch and a notice leave alone -/

/-- The path, the staging slots and the transfer records are as before. -/
structure SameWork (a b : Lubran) : Prop where
  path : b.path = a.path
  slots : b.slots = a.slots
  xfer : ∀ i, (b.sp i).xfer = (a.sp i).xfer

theorem SameWork.refl {a : Lubran} : SameWork a a := ⟨rfl, rfl, fun _ => rfl⟩

theorem SameWork.trans {a b c : Lubran} (h : SameWork a b) (g : SameWork b c) : SameWork a c :=
  ⟨g.path.trans h.path, g.slots.trans h.slots, fun i => (g.xfer i).trans (h.xfer i)⟩

/-- What is kept from a part with the same path, slots and transfer records. -/
theorem SameWork.pre {a a' b : Lubran} (g : SameWork a' b) (h1 : a'.path = a.path) (h2 : a'.slots = a.slots)
    (h3 : ∀ i, (a'.sp i).xfer = (a.sp i).xfer) : SameWork a b := SameWork.trans ⟨h1, h2, h3⟩ g

/-- A notice keeps them. -/
theorem sameWork_raiseAt {q : Lubran} {p k d} : SameWork q (q.raiseAt p k d) := by
  unfold Lubran.raiseAt
  split <;> exact ⟨rfl, rfl, fun _ => rfl⟩

theorem sameWork_foldl {α : Type} {f : Lubran → α → Lubran} (h : ∀ q x, SameWork q (f q x)) (l : List α) (q : Lubran) :
    SameWork q (l.foldl f q) := by
  induction l generalizing q with
  | nil => exact .refl
  | cons x xs ih => exact (h q x).trans (ih _)

theorem sameWork_raiseMasked {q : Lubran} {i d} : SameWork q (q.raiseMasked i d) := by
  unfold Lubran.raiseMasked
  exact sameWork_foldl (fun _ _ => sameWork_raiseAt) _ _

theorem sameWork_modSp {q : Lubran} {i : Spindle} {f : SpindleUnit → SpindleUnit} (h : ∀ u, (f u).xfer = u.xfer) :
    SameWork q (q.modSp i f) := by
  refine ⟨rfl, rfl, fun j => ?_⟩
  rw [sp_modSp]; split
  · rw [h]
  · rfl

/-- The work the sequencer takes keeps them. -/
theorem sameWork_takeWork {q : Lubran} : SameWork q q.takeWork := by
  unfold Lubran.takeWork
  split
  · exact .refl
  · dsimp only
    split
    · unfold Lubran.placeReassign Lubran.selectionEvent
      split
      · refine SameWork.pre (a' := _) (SameWork.trans (sameWork_modSp ?_) (sameWork_modSp ?_)) rfl rfl fun _ => rfl <;>
          exact fun _ => rfl
      · refine SameWork.pre (sameWork_modSp ?_) rfl rfl fun _ => rfl; exact fun _ => rfl
    · exact SameWork.pre sameWork_raiseMasked rfl rfl fun _ => rfl

theorem sameWork_admitSpare {q : Lubran} {r} : SameWork q (q.admitSpare r) := by
  unfold Lubran.admitSpare
  dsimp only
  split
  · exact SameWork.pre sameWork_takeWork rfl rfl fun _ => rfl
  · exact ⟨rfl, rfl, fun _ => rfl⟩

theorem sameWork_candidateAction {q : Lubran} {s} : SameWork q (q.candidateAction s) := by
  unfold Lubran.candidateAction
  split
  · exact .refl
  · split
    · exact .refl
    · split
      · exact sameWork_admitSpare
      · split
        · exact .refl
        · have : SameWork q (q.raiseMasked s.spindle (.spareAdvised (logicalCyl ‹Track›.cyl) ‹Track›.head s.soft s.hard
              (!isHomeCyl s.track.cyl))) := sameWork_raiseMasked
          exact this.trans ⟨rfl, rfl, fun _ => rfl⟩

theorem sameWork_enterSuspect {q : Lubran} {l s} : SameWork q (q.enterSuspect l s) := by
  unfold Lubran.enterSuspect
  split
  · exact SameWork.pre sameWork_candidateAction rfl rfl fun _ => rfl
  · exact ⟨rfl, rfl, fun _ => rfl⟩

/-- A report to Error Watch keeps the path, the slots and the transfer records (R119 to R126). -/
theorem sameWork_report {q : Lubran} {i t k} : SameWork q (q.report i t k) := by
  unfold Lubran.report
  split
  · exact .refl
  · dsimp only
    split
    · exact sameWork_enterSuspect
    · split
      · exact sameWork_enterSuspect
      · split
        · exact sameWork_enterSuspect
        · exact .refl

theorem SameWork.slotFor {a b : Lubran} (h : SameWork a b) (o n x) : b.slotFor o n x = a.slotFor o n x := by
  unfold Lubran.slotFor Lubran.slot; rw [h.slots]

/-! ## The release of the path -/

/-- A spindle whose entry of owner `o` has given the path back, with its next field. -/
def SpindleUnit.released (o : Owner) (next : Option NextField) (u : SpindleUnit) : SpindleUnit :=
          { u.modEntry o fun x => { x with state := if x.state = .transferring then .rotating else x.state } with
            readGate := false, writeGate := false, xfer := { u.xfer with next := next, cont := none } }

/-- The path is released from an entry, whose next field is then `next` (R72). -/
def Lubran.released (i : Spindle) (o : Owner) (q : Lubran) (next : Option NextField) : Lubran :=
      { q.modSp i (SpindleUnit.released o next) with path := PathRec.idle }

/-- Two parts with the same spindles, ports and slots, and otherwise the same, are the same. -/
theorem ext_spindles {a b : Lubran} (h1 : ∀ j, a.sp j = b.sp j) (h2 : a.ports = b.ports) (h3 : a.slots = b.slots)
   (h4 : { a with spindles := b.spindles, ports := b.ports, slots := b.slots } = b) : a = b := by
  have : a.spindles = b.spindles := Vector.ext fun n hn => h1 ⟨n, hn⟩
  rw [← h4]; cases a; simp_all

theorem modEntry_released (u : SpindleUnit) (o : Owner) :
    (u.modEntry o fun e => if e.state = .transferring then { e with state := .rotating } else e)
   = u.modEntry o fun x => { x with state := if x.state = .transferring then .rotating else x.state } := by
  congr 1; funext e; split <;> simp_all

theorem released_sp_ne {q : Lubran} {i j : Spindle} {o : Owner} {nx} (h : j ≠ i) :
    (Lubran.released i o q nx).sp j = q.sp j :=
  (sp_with_path _ j _).trans (sp_modSp_ne q i j h)

theorem released_sp {q : Lubran} {i : Spindle} {o : Owner} {nx} :
    (Lubran.released i o q nx).sp i = SpindleUnit.released o nx (q.sp i) :=
  (sp_with_path _ i _).trans (sp_modSp_self q i _)

theorem releasePath_sp {q : Lubran} {i : Spindle} (h : q.path.spindle = some i) (j : Spindle) : q.releasePath.sp j =
   (q.modSp i fun u => { u with readGate := false, writeGate := false }).sp j := by
  unfold Lubran.releasePath; rw [h]; rfl

/-- The release with a next field loaded (R72). -/
theorem releaseEntry_loadNext {q : Lubran} {i : Spindle} {o : Owner} {nx} (h : q.path.spindle = some i) :
    (q.releaseEntry i o).loadNext i nx = Lubran.released i o q nx := by
  refine ext_spindles (fun j => ?_) ?_ ?_ ?_
  · by_cases e : j = i
    · subst e
      rw [released_sp]
      simp only [Lubran.loadNext, Lubran.releaseEntry, modXfer_eq, modEntry_eq, sp_modSp_self, releasePath_sp h,
        modEntry_released]
      cases o <;> rfl
    · rw [released_sp_ne e]
      simp only [Lubran.loadNext, Lubran.releaseEntry, modXfer_eq, modEntry_eq, sp_modSp_ne _ _ _ e, releasePath_sp h]
  all_goals
    unfold Lubran.releaseEntry Lubran.loadNext Lubran.releasePath
    rw [h]
    rfl

/-- The release with the next field as it is (R72). -/
theorem releaseEntry_eq {q : Lubran} {i : Spindle} {o : Owner} {nx} (h : q.path.spindle = some i) (hn :
    (q.sp i).xfer.next = nx) :
    q.releaseEntry i o = Lubran.released i o q nx := by
  rw [← releaseEntry_loadNext h]
  unfold Lubran.loadNext
  rw [modXfer_eq, modSp_id]
  have : ((q.releaseEntry i o).sp i).xfer.next = nx := by
    simp only [Lubran.releaseEntry, modXfer_eq, modEntry_eq, sp_modSp_self, releasePath_sp h, modEntry_xfer]
    exact hn
  rw [← this]

/-- Without a continuing grant a field's end releases the path (R72). -/
theorem pathAfter_none {q : Lubran} {i : Spindle} {e : Entry} {ok fx} (h : (q.sp i).xfer.cont = none) :
    q.pathAfter i e ok fx = q.releaseEntry i e.owner := by
  unfold Lubran.pathAfter; rw [h]

/-- Two changes of one entry are one. -/
theorem modEntry_modEntry {q : Lubran} {i : Spindle} {o : Owner} {f g : Entry → Entry} (h : ∀ e,
    (f e).owner = e.owner) :
    (q.modEntry i o f).modEntry i o g = q.modEntry i o fun e => g (f e) := by
  simp only [modEntry_eq, modSp_modSp]
  congr 1; funext u
  cases o with
  | internal => simp [SpindleUnit.modEntry, Function.comp_def]
  | host p t =>
    simp only [SpindleUnit.modEntry, List.map_map]
    congr 1
    apply List.map_congr_left
    intro e _
    by_cases he : e.owner = .host p t <;> simp [he, h]

/-- A change that keeps a slot's binding keeps where a block is found. -/
theorem slotFor_modSlot {q : Lubran} {k : Fin 8} {f : StagingSlot → StagingSlot} {o b x}
    (h : (f (q.slot k)).owner = (q.slot k).owner ∧ (f (q.slot k)).block = (q.slot k).block ∧
      (f (q.slot k)).source = (q.slot k).source) :
    (q.modSlot k f).slotFor o b x = q.slotFor o b x := by
  unfold Lubran.slotFor
  congr 1; funext l
  rw [slot_modSlot]
  split
  · rename_i e; subst e; rw [h.1, h.2.1, h.2.2]
  · rfl

/-- The same slots give a block the same slot. -/
theorem slotFor_frame {q r : Lubran} {o b x} (h : r.slots = q.slots) : r.slotFor o b x = q.slotFor o b x := by
  unfold Lubran.slotFor Lubran.slot; rw [h]

/-- The path and the transfer records are as before. -/
structure SamePath (a b : Lubran) : Prop where
  path : b.path = a.path
  xfer : ∀ i, (b.sp i).xfer = (a.sp i).xfer

theorem SamePath.refl {a : Lubran} : SamePath a a := ⟨rfl, fun _ => rfl⟩

theorem SamePath.trans {a b c : Lubran} (h : SamePath a b) (g : SamePath b c) : SamePath a c :=
  ⟨g.path.trans h.path, fun i => (g.xfer i).trans (h.xfer i)⟩

theorem SamePath.of (h : SameWork a b) : SamePath a b := ⟨h.path, h.xfer⟩

theorem samePath_modSlot {q : Lubran} {k f} : SamePath q (q.modSlot k f) := ⟨rfl, fun _ => rfl⟩

theorem samePath_modSp {q : Lubran} {i : Spindle} {f : SpindleUnit → SpindleUnit} (h : ∀ u, (f u).xfer = u.xfer) :
    SamePath q (q.modSp i f) := SamePath.of (sameWork_modSp h)

theorem samePath_modEntry {q : Lubran} {i o f} :
    SamePath q (q.modEntry i o f) := samePath_modSp fun _ => modEntry_xfer _ _ _

theorem samePath_offer {q : Lubran} {p t} : SamePath q (q.offer p t) := by
  unfold Lubran.offer
  first
    | exact ⟨rfl, fun _ => rfl⟩
    | (split <;> exact ⟨rfl, fun _ => rfl⟩)

theorem samePath_freeSlot {q : Lubran} {k} : SamePath q (q.freeSlot k) := by
  unfold Lubran.freeSlot
  dsimp only
  split
  · exact ⟨rfl, fun _ => rfl⟩
  · unfold Lubran.joinIfShort Lubran.withdrawRequest
    split <;> split <;> exact ⟨rfl, fun _ => rfl⟩

/-- The bound slot is freed (R74). -/
theorem freeBlockSlot_some {q : Lubran} {o b x k} (h : q.slotFor o b x = some k) :
    q.freeBlockSlot o b x = q.freeSlot k := by
  unfold Lubran.freeBlockSlot; rw [h]

/-- A block with no slot frees none. -/
theorem freeBlockSlot_none {q : Lubran} {o b x} (h : q.slotFor o b x = none) : q.freeBlockSlot o b x = q := by
  unfold Lubran.freeBlockSlot; rw [h]

/-! ## Entries and being at rest -/

/-- A changed entry is found changed. -/
theorem findEntry_modEntry {u : SpindleUnit} {p t} {f : Entry → Entry} (h : ∀ e, (f e).owner = e.owner) :
    (u.modEntry (.host p t) f).findEntry (.host p t) = (u.findEntry (.host p t)).map f := by
  simp only [SpindleUnit.findEntry, SpindleUnit.modEntry]
  induction u.queue with
  | nil => rfl
  | cons x xs ih =>
    simp only [List.map_cons, List.find?_cons]
    by_cases hx : x.owner = .host p t
    · simp [hx, h]
    · simp [hx]; simpa using ih

/-- The release of the path adds no consequence. -/
theorem atRest_released {q : Lubran} {i o n} (h : q.atRest = true) : (Lubran.released i o q n).atRest = true := by
  have h' := atRest_modSp (q := q) (i := i) (f := SpindleUnit.released o n) h
  have hi := (atRest_iff q).1 h
  have g : (q.modSp i (SpindleUnit.released o n)).atRest = true := by
    apply h'
    · have := hi.1 i; unfold SpindleUnit.settleReady at this ⊢
      simpa [SpindleUnit.released] using this
    · have := hi.2.1 i; unfold SpindleUnit.waitReady at this ⊢
      simpa [SpindleUnit.released] using this
    · have := hi.2.2.2.1 i
      simpa [SpindleUnit.released] using this
  rw [atRest_iff] at g ⊢
  exact g

theorem atRest_offer {q : Lubran} {p t} (h : q.atRest = true) : (q.offer p t).atRest = true := by
  unfold Lubran.offer; split
  · rw [atRest_modPort]; exact h
  · exact h

theorem atRest_modEntry {q : Lubran} {i : Spindle} {o f} (h : q.atRest = true) : (q.modEntry i o f).atRest = true := by
  have hi := (atRest_iff q).1 h
  refine atRest_modSp h ?_ ?_ ?_
  · have := hi.1 i; unfold SpindleUnit.settleReady at this ⊢
    simpa using this
  · have := hi.2.1 i; unfold SpindleUnit.waitReady at this ⊢
    simpa using this
  · have := hi.2.2.2.1 i
    simpa using this

theorem atRest_modSlot {q : Lubran} {k} {f : StagingSlot → StagingSlot} (h : q.atRest = true) (hf : (f
    (q.slot k)).state = .free → (q.slot k).state = .free) :
    (q.modSlot k f).atRest = true := by
  refine atRest_congr (a := q) (fun j => ⟨rfl, rfl, rfl⟩) (fun l => ?_) rfl rfl rfl h
  rw [slot_modSlot]; split
  · rename_i e; subst e; exact hf
  · exact fun h => h

theorem modSlot_modSlot {q : Lubran} {k} {f g : StagingSlot → StagingSlot} :
    (q.modSlot k f).modSlot k g = q.modSlot k fun x => g (f x) := by
  apply Lubran.ext_records <;> intros <;> simp [slot_modSlot]
  split <;> rfl
/-! ## Slots freed, records retired, an entry that leaves -/

theorem freeSlot_seq {q : Lubran} {k} : (q.freeSlot k).seq = q.seq ∧ (q.freeSlot k).spareMap = q.spareMap := by
  unfold Lubran.freeSlot
  dsimp only
  split
  · exact ⟨rfl, rfl⟩
  · unfold Lubran.joinIfShort Lubran.withdrawRequest
    split <;> split <;> exact ⟨rfl, rfl⟩

theorem freeSlot_sp {q : Lubran} {k i} : (q.freeSlot k).sp i = q.sp i := by
  unfold Lubran.freeSlot
  dsimp only
  split
  · rfl
  · unfold Lubran.joinIfShort Lubran.withdrawRequest
    split <;> split <;> rfl

/-- A freed slot is clear, and the others are as before (R74). -/
theorem freeSlot_slot {q : Lubran} {k l} : (q.freeSlot k).slot l = if l = k then (q.slot l).clear else q.slot l := by
  have : ∀ r : Lubran, r.slots = (q.modSlot k StagingSlot.clear).slots →
      r.slot l = if l = k then (q.slot l).clear else q.slot l := by
    intro r hr
    unfold Lubran.slot; rw [hr]; exact slot_modSlot q k l _
  refine this _ ?_
  unfold Lubran.freeSlot
  dsimp only
  split
  · rfl
  · unfold Lubran.joinIfShort Lubran.withdrawRequest
    split <;> split <;> rfl

theorem foldl_keeps {α : Type} {β : Type} (g : Lubran → β) (f : Lubran → α → Lubran) (h : ∀ q x, g (f q x) = g q)
    (l : List α) (q : Lubran) :
    g (l.foldl f q) = g q := by
  induction l generalizing q with
  | nil => rfl
  | cons x xs ih => rw [List.foldl_cons, ih, h]

/-- An entry whose slots are freed holds none (R74). -/
theorem freeSlotsOf_owner {q : Lubran} {o : Owner} {k} : ((q.freeSlotsOf o).slot k).owner ≠ some o := by
  unfold Lubran.freeSlotsOf
  have : ∀ (l : List (Fin 8)) (q : Lubran), ((q.slot k).owner = some o → k ∈ l) →
      ((l.foldl Lubran.freeSlot q).slot k).owner ≠ some o := by
    intro l
    induction l with
    | nil => intro q h h'; exact absurd (h h') (by simp)
    | cons x xs ih =>
      intro q h
      rw [List.foldl_cons]
      refine ih _ ?_
      rw [freeSlot_slot]
      split
      · intro h; simp [StagingSlot.clear] at h
      · rename_i hne
        intro h'
        have := h h'
        simp only [List.mem_cons, hne, false_or] at this
        exact this
  refine this _ q ?_
  intro h
  unfold Lubran.slotsOf
  rw [List.mem_filter]
  exact ⟨mem_allSlots k, by simp [h]⟩

/-- A notice at the ports of the mask keeps the sequencer, the spindles and the slots. -/
theorem raiseMasked_keeps {q : Lubran} {i d} :
    (q.raiseMasked i d).seq = q.seq ∧ (∀ j, (q.raiseMasked i d).sp j = q.sp j) ∧
    (q.raiseMasked i d).slots = q.slots := by
  unfold Lubran.raiseMasked
  have h : ∀ (q : Lubran) p k d, (q.raiseAt p k d).seq = q.seq ∧ (∀ j, (q.raiseAt p k d).sp j = q.sp j) ∧
      (q.raiseAt p k d).slots = q.slots := by
    intro q p k d; unfold Lubran.raiseAt; split <;> exact ⟨rfl, fun _ => rfl, rfl⟩
  refine ⟨foldl_keeps (fun q => q.seq) _ (fun q x => (h q _ _ _).1) _ _,
    fun j => foldl_keeps (fun q => q.sp j) _ (fun q x => (h q _ _ _).2.1 j) _ _,
    foldl_keeps (fun q => q.slots) _ (fun q x => (h q _ _ _).2.2) _ _⟩

/-- A retirement keeps the sequencer, the slots, and the transfer record and internal entry of its spindle (R100). -/
theorem retire_keeps {q : Lubran} {i alt} :
    (q.retire i alt).seq = q.seq ∧ (q.retire i alt).slots = q.slots ∧ ((q.retire i alt).sp i).xfer = (q.sp i).xfer ∧
    ((q.retire i alt).sp i).internal = (q.sp i).internal := by
  unfold Lubran.retire
  split
  · unfold Lubran.poolLowTest Lubran.setPool
    dsimp only
    split
    · rw [raiseMasked_keeps.1, raiseMasked_keeps.2.1, raiseMasked_keeps.2.2]; simp
    · simp
  · simp

theorem freeSlotsOf_keeps {q : Lubran} {o i} : (q.freeSlotsOf o).seq = q.seq ∧ (q.freeSlotsOf o).sp i = q.sp i := by
  unfold Lubran.freeSlotsOf
  exact ⟨foldl_keeps (fun q => q.seq) _ (fun q x => freeSlot_seq.1) _ _,
    foldl_keeps (fun q => q.sp i) _ (fun q x => freeSlot_sp) _ _⟩

theorem releaseHeld_sp_ne {q : Lubran} {o' : Owner} {i j : Spindle} (h : j ≠ i) :
    (q.releaseHeld i o').sp j = q.sp j := by
  unfold Lubran.releaseHeld
  split
  · rename_i hh
    simp only [Lubran.pathHeldBy, decide_eq_true_eq] at hh
    rw [releasePath_sp hh.2, sp_modSp_ne _ _ _ h]
  · rfl

theorem selectionEvent_sp_ne {q : Lubran} {i j : Spindle} (h : j ≠ i) : (q.selectionEvent i).sp j = q.sp j := by
  unfold Lubran.selectionEvent
  split
  · rw [sp_modSp_ne _ _ _ h]
  · rfl

theorem departure_sp {q : Lubran} {o' : Owner} {j : Spindle} : ((q.leaveWaiting o').dropTransmit o').sp j = q.sp j := by
  unfold Lubran.leaveWaiting Lubran.dropTransmit
  cases o' <;> rfl

/-- A departure leaves the other spindles as they are. -/
theorem leaveQueue_sp_ne {q : Lubran} {o' : Owner} {i j : Spindle} (h : j ≠ i) : (q.leaveQueue i o').sp j = q.sp j := by
  unfold Lubran.leaveQueue
  dsimp only
  rw [selectionEvent_sp_ne h, freeSlotsOf_keeps.2, departure_sp, sp_modSp_ne _ _ _ h, releaseHeld_sp_ne h]

theorem selectionEvent_findEntry {q : Lubran} {i : Spindle} {o' : Owner} :
    ((q.selectionEvent i).sp i).findEntry o' = (q.sp i).findEntry o' := by
  unfold Lubran.selectionEvent
  split
  · rw [sp_modSp_self]; cases o' <;> rfl
  · rfl

theorem selectionEvent_frame {q : Lubran} {i : Spindle} :
    (q.selectionEvent i).slots = q.slots ∧ (q.selectionEvent i).path = q.path := by
  unfold Lubran.selectionEvent
  split <;> exact ⟨rfl, rfl⟩

/-- An entry that has left is found no more (R42). -/
theorem leaveQueue_find {q : Lubran} {i : Spindle} {p t} :
    ((q.leaveQueue i (.host p t)).sp i).findEntry (.host p t) = none := by
  unfold Lubran.leaveQueue
  dsimp only
  rw [selectionEvent_findEntry, freeSlotsOf_keeps.2, departure_sp, sp_modSp_self]
  simp only [SpindleUnit.findEntry, SpindleUnit.dropEntry, List.find?_eq_none, List.mem_filter, decide_eq_true_eq]
  intro x hx; exact hx.2

/-- An entry that has left holds no slot (R64). -/
theorem leaveQueue_slots {q : Lubran} {i : Spindle} {o' : Owner} {k} :
    ((q.leaveQueue i o').slot k).owner ≠ some o' := by
  unfold Lubran.leaveQueue
  dsimp only
  have : ∀ r : Lubran, ((r.freeSlotsOf o').selectionEvent i).slot k = (r.freeSlotsOf o').slot k := by
    intro r; unfold Lubran.slot; rw [selectionEvent_frame.1]
  rw [this]; exact freeSlotsOf_owner

theorem freeSlotsOf_path {q : Lubran} {o'} : (q.freeSlotsOf o').path = q.path := by
  unfold Lubran.freeSlotsOf
  exact foldl_keeps (fun q => q.path) _ (fun q x => samePath_freeSlot.path) _ _

/-- An entry that leaves without the path leaves the path as it is. -/
theorem leaveQueue_path {q : Lubran} {i : Spindle} {o' : Owner} (h : q.path.holder ≠ some (.entry o')) :
    (q.leaveQueue i o').path = q.path := by
  unfold Lubran.leaveQueue
  dsimp only
  rw [selectionEvent_frame.2, freeSlotsOf_path]
  have : q.releaseHeld i o' = q := by
    unfold Lubran.releaseHeld Lubran.pathHeldBy
    rw [if_neg]; simp [h]
  rw [this]
  unfold Lubran.leaveWaiting Lubran.dropTransmit
  cases o' <;> rfl

end Sys2Proof.Machine
end

