-- ==== Sys2Proof/Laws/PerInstr.lean ====
section
/-! SUPPORT. A property of every command as its row writes it: a well-formed command stands for at most the 261 bytes of a
DATA frame on the link (R165). One lemma a constructor. -/

namespace Sys2Proof.Laws.LineFits

open Sys2Proof Sys2Proof.Machine

/-- A well-formed command's bytes on the link are at most those of a DATA frame: address, kind, tag, sequence, 256
data bytes and check (R165). -/
def Statement (i : Instr) : Prop := i.wellFormed = true → i.line.length ≤ 261

/-- A short command frame fits. -/
theorem of_sound {f : HostFrame} {kind : Nat} {k : Byte} (h : f.sound kind = true) : (f.line k).length ≤ 261 := by
  simp only [HostFrame.sound, Config.maxPayload, decide_eq_true_eq] at h
  simp only [HostFrame.line, List.length_cons, List.length_append, List.length_nil]
  omega

/-- A DATA frame is 261 bytes. -/
theorem data_line (f : DataFrame) : f.line.length = 261 := by simp [DataFrame.line]

theorem read (p : Port) (f : HostFrame) : Statement (.read p f) := fun h => of_sound h

theorem write (p : Port) (f : HostFrame) : Statement (.write p f) := fun h => of_sound h

theorem verify (p : Port) (f : HostFrame) : Statement (.verify p f) := fun h => of_sound h

theorem guardedWrite (p : Port) (f : HostFrame) : Statement (.guardedWrite p f) := fun h => of_sound h

theorem recalibrate (p : Port) (f : HostFrame) : Statement (.recalibrate p f) := fun h => of_sound h

theorem reserve (p : Port) (f : HostFrame) : Statement (.reserve p f) := fun h => of_sound h

theorem stopSpindle (p : Port) (f : HostFrame) : Statement (.stopSpindle p f) := fun h => of_sound h

theorem startSpindle (p : Port) (f : HostFrame) : Statement (.startSpindle p f) := fun h => of_sound h

theorem release (p : Port) (f : HostFrame) : Statement (.release p f) := fun h => of_sound h

theorem breakReservation (p : Port) (f : HostFrame) : Statement (.breakReservation p f) := fun h => of_sound h

theorem querySpindle (p : Port) (f : HostFrame) : Statement (.querySpindle p f) := fun h => of_sound h

theorem cancel (p : Port) (f : HostFrame) : Statement (.cancel p f) := fun h => of_sound h

theorem sense (p : Port) (f : HostFrame) : Statement (.sense p f) := fun h => of_sound h

theorem resetString (p : Port) (f : HostFrame) : Statement (.resetString p f) := fun h => of_sound h

theorem spareTrack (p : Port) (f : HostFrame) : Statement (.spareTrack p f) := fun h => of_sound h

theorem notify (p : Port) (f : HostFrame) : Statement (.notify p f) := fun h => of_sound h

theorem queryString (p : Port) (f : HostFrame) : Statement (.queryString p f) := fun h => of_sound h

theorem readSpareMap (p : Port) (f : HostFrame) : Statement (.readSpareMap p f) := fun h => of_sound h

theorem readSuspects (p : Port) (f : HostFrame) : Statement (.readSuspects p f) := fun h => of_sound h

theorem setString (p : Port) (f : HostFrame) : Statement (.setString p f) := fun h => of_sound h

theorem setPort (p : Port) (f : HostFrame) : Statement (.setPort p f) := fun h => of_sound h

theorem data (p : Port) (f : DataFrame) : Statement (.data p f) := fun _ => Nat.le_of_eq (data_line f)

theorem resetPort (p : Port) (f : HostFrame) : Statement (.resetPort p f) := fun h => by
  simp only [Instr.wellFormed, Bool.and_eq_true] at h
  exact of_sound h.1

theorem dataFrameCheck (p : Port) (d : DamagedData) : Statement (.dataFrameCheck p d) := fun h => by
  cases d with
  | badCheck f => exact Nat.le_of_eq (data_line f)
  | cut bytes =>
    match bytes, h with
    | addr :: kind :: rest, h =>
      simp only [Instr.wellFormed, cutsData, decide_eq_true_eq] at h
      exact Nat.le_of_lt h.2

theorem unknownKind (p : Port) (addr kind : Byte) : Statement (.unknownKind p addr kind) := fun _ => by
  simp [Instr.line]

theorem frameLength (p : Port) (addr kind : Byte) (len : RefusedLength) : Statement (.frameLength p addr kind len) :=
    fun h => by
  cases len with
  | long n => simp [Instr.line]
  | whole payload check =>
    simp only [Instr.wellFormed, Bool.and_eq_true] at h
    exact of_sound h.1.2

theorem frameCheck (p : Port) (kind : Byte) (f : HostFrame) : Statement (.frameCheck p kind f) := fun h => by
  simp only [Instr.wellFormed, decide_eq_true_eq, Config.maxPayload] at h
  have := h.2.2.1
  simp only [Instr.line, HostFrame.line, List.length_cons, List.length_append, List.length_nil]
  omega

theorem frameCut (p : Port) (bytes : List Byte) : Statement (.frameCut p bytes) := fun h => by
  match bytes, h with
  | [], _ => simp [Instr.line]
  | [_], _ => simp [Instr.line]
  | [_, _], _ => simp [Instr.line]
  | addr :: kind :: len :: payload, h =>
    simp only [Instr.wellFormed, cutsFrame, decide_eq_true_eq] at h
    have := len.isLt
    simp only [Instr.line]
    omega

theorem powerOnReset (straps : Straps) : Statement (.powerOnReset straps) := fun _ => Nat.zero_le _

theorem pinReset (straps : Straps) : Statement (.pinReset straps) := fun _ => Nat.zero_le _

theorem linkSymbolReceived (p : Port) (sym : LinkSymbol) : Statement (.linkSymbolReceived p sym) := fun _ => Nat.zero_le _

theorem hold (p : Port) : Statement (.hold p) := fun _ => Nat.zero_le _

theorem linkTimerExpiry (p : Port) : Statement (.linkTimerExpiry p) := fun _ => Nat.zero_le _

theorem frameSent (p : Port) : Statement (.frameSent p) := fun _ => Nat.zero_le _

theorem dataFrameSent (p : Port) : Statement (.dataFrameSent p) := fun _ => Nat.zero_le _

theorem attentionFrameSent (p : Port) : Statement (.attentionFrameSent p) := fun _ => Nat.zero_le _

theorem spinUpTimerExpiry (sp : Spindle) : Statement (.spinUpTimerExpiry sp) := fun _ => Nat.zero_le _

theorem speedOkAsserted (sp : Spindle) : Statement (.speedOkAsserted sp) := fun _ => Nat.zero_le _

theorem speedOkDeasserted (sp : Spindle) : Statement (.speedOkDeasserted sp) := fun _ => Nat.zero_le _

theorem indexMark (sp : Spindle) (falls : Falls) : Statement (.indexMark sp falls) := fun _ => Nat.zero_le _

theorem sectorMark (sp : Spindle) (falls : Falls) : Statement (.sectorMark sp falls) := fun _ => Nat.zero_le _

theorem crossing (sp : Spindle) (falls : Falls) : Statement (.crossing sp falls) := fun _ => Nat.zero_le _

theorem guardAsserted (sp : Spindle) : Statement (.guardAsserted sp) := fun _ => Nat.zero_le _

theorem faultAsserted (sp : Spindle) : Statement (.faultAsserted sp) := fun _ => Nat.zero_le _

theorem onTrackAsserted (sp : Spindle) : Statement (.onTrackAsserted sp) := fun _ => Nat.zero_le _

theorem settleCountExpiry (sp : Spindle) : Statement (.settleCountExpiry sp) := fun _ => Nat.zero_le _

theorem seekDeadlineExpiry (sp : Spindle) : Statement (.seekDeadlineExpiry sp) := fun _ => Nat.zero_le _

theorem recalLimitExpiry (sp : Spindle) : Statement (.recalLimitExpiry sp) := fun _ => Nat.zero_le _

theorem allegianceExpiry (sp : Spindle) : Statement (.allegianceExpiry sp) := fun _ => Nat.zero_le _

theorem blockIdRead (id : BlockId) : Statement (.blockIdRead id) := fun _ => Nat.zero_le _

theorem fieldEnd (bytes : Vector Byte 1024) (check : Word32) : Statement (.fieldEnd bytes check) := fun _ => Nat.zero_le _

theorem headerFieldEnd (bytes : Vector Byte 13) (written : Bool) : Statement (.headerFieldEnd bytes written) := fun _ => Nat.zero_le _

end Sys2Proof.Laws.LineFits
end

