-- ==== Sys2Proof/Tests/Slice0.lean ====
section
/-! SUPPORT. The model's own tests: the well-formedness checks refuse, the worked values of the manual come out, single
commands do what their rules say, and for every statement that has hypotheses a concrete state and operands that meet
them. -/

set_option Elab.async false

namespace Sys2Proof.Tests

open Sys2Proof Sys2Proof.Machine

/-! ## Helpers -/

/-- A mark or pulse before which no line fell. -/
def steady : Falls := { onTrack := false, guard := false, fault := false }

/-- A command frame to address 1 with a good check. -/
def frame (kind : Nat) (payload : List Byte) : HostFrame :=
  { addr := 1, payload := payload, check := Machine.frameCheck 1 (byteOf kind) payload }

/-- A DATA frame to address 1 with a good check. -/
def dataFrame (tag seq : Byte) (bytes : Vector Byte 256) : DataFrame :=
  { addr := 1, tag := tag, seq := seq, bytes := bytes, check := dataCheck 1 tag seq bytes.toList }

/-- A READY spindle whose heads rest on track at cylinder 0. -/
def resting : SpindleUnit :=
  { SpindleUnit.initial false false Lines.quiet with
    life := .ready, chan := { Channel.initial with state := .onTrack, posKnown := true } }

/-- A port that is UP at address 1. -/
def upPort : LinkPort := { LinkPort.initial 1 true with link := .up, timer := some 100 }

/-- Eight resting spindles, four ports that are UP, and no work. -/
def calm : State :=
  { part := { State.reset.part with spindles := Vector.replicate 8 resting, ports := Vector.replicate 4 upPort }
    pending := [] }

/-- `calm` with spindle 0 changed. -/
def withSp (f : SpindleUnit → SpindleUnit) : State := { calm with part := calm.part.modSp 0 f }

/-- `calm` with port A changed. -/
def withPort (f : LinkPort → LinkPort) : State := { calm with part := calm.part.modPort 0 f }

/-- An entry of port A and tag 1 on track (0, 0). -/
def entry (kind : EntryKind) (state : EntryState) : Entry :=
  { newEntry (.host 0 1) kind 0 0 0 4 false 0 [] 0 with state := state, track := some { cyl := 0, head := 0 } }

/-- Spindle 0 with one entry of port A and tag 1, and the next field of a read of block 0. -/
def working (kind : EntryKind) (state : EntryState) (u : SpindleUnit) : SpindleUnit :=
  { u with
    queue := [entry kind state]
    xfer := { next := some { action := firstAction kind, field := .block 0 }, bind := 4, mismatch := false, cont := none } }

/-- A slot held by that entry for a block. -/
def held (state : SlotState) (source : SlotSource) (block : Nat) : StagingSlot :=
  { StagingSlot.initial with state := state, owner := some (.host 0 1), block := some block, source := some source }

/-- `calm` with that entry on spindle 0, and slot 0 as given. -/
def busy (kind : EntryKind) (state : EntryState) (sl : StagingSlot) : State :=
  { calm with part := (calm.part.modSp 0 (working kind state)).modSlot 0 fun _ => sl }

/-- `calm` with the path carrying block 0 of that entry. -/
def carrying (kind : EntryKind) (source : SlotSource) (path : PathState) (id : Option BlockId) : State :=
  let s := busy kind .transferring (held .filling source 0)
  { s with part := { s.part with
      path := { state := path, holder := some (.entry (.host 0 1)), spindle := some 0, field := some (.block 0)
                id := id, faulted := false } } }

/-- The track and the block ID of block 0 of (0, 0). -/
def track0 : Track := { cyl := 0, head := 0 }

/-- The first alternate. -/
def track1 : Track := { cyl := 68, head := 0 }

def block0 : BlockId := { cyl := 0, head := 0, block := 0, flags := 0 }

/-- `calm` with the path carrying block 0 of an entry of spindle 0, in its queue or in the internal place, with an action
of the transfer record and a slot of that entry. -/
def passing (act : Action) (e : Entry) (sl : StagingSlot) : State :=
  let q := (calm.part.modSp 0 fun u =>
    { u with queue := if e.owner = .internal then [] else [e], internal := if e.owner = .internal then some e else none
             xfer := { next := some { action := act, field := .block 0 }, bind := 4, mismatch := false, cont := none } }).modSlot
      0 fun _ => sl
  { calm with part := { q with
      path := { state := pathStateFor act, holder := some (.entry e.owner), spindle := some 0, field := some (.block 0)
                id := some block0, faulted := false } } }

/-- A command answers a next state, and that state meets a test. -/
def gives (c : Instr) (s : State) (f : Lubran → Bool) : Bool :=
  match exec c s with
  | .next t => f t.part
  | .fault _ | .refused _ => false

/-- The ask that the field check makes of a payload. -/
def askOf {α : Type} (x : Option (Ask × α)) : Ask := (x.map Prod.fst).getD { tag := 0 }

/-! ## Well-formedness refuses -/

theorem test_long_payload_refused :
    (Instr.read 0 { addr := 1, payload := List.replicate 49 0, check := 0 }).wellFormed = false := by decide +kernel

theorem test_bad_check_refused :
    (Instr.sense 0 { frame 20 [0] with check := (frame 20 [0]).check + 1 }).wellFormed = false := by decide +kernel

theorem test_bad_data_check_refused (f : DataFrame) :
    (Instr.data 0 { f with check := dataCheck f.addr f.tag f.seq f.bytes.toList + 1 }).wellFormed = false := by
  simp only [Instr.wellFormed, dataGood, decide_eq_false_iff_not]
  bv_omega

theorem test_reset_port_payload_refused : (Instr.resetPort 0 (frame 80 [1])).wellFormed = false := by decide +kernel

theorem test_good_data_is_not_damaged (addr tag seq : Byte) (bytes : Vector Byte 256) :
    (Instr.dataFrameCheck 0 (.badCheck ⟨addr, tag, seq, bytes, dataCheck addr tag seq bytes.toList⟩)).wellFormed =
      false := by
  simp [Instr.wellFormed, dataGood]

theorem test_cut_of_no_data_refused : (Instr.dataFrameCheck 0 (.cut [1, 1])).wellFormed = false := by decide +kernel

theorem test_known_kind_is_not_unknown : (Instr.unknownKind 0 1 80).wellFormed = false := by decide +kernel

theorem test_good_length_refused : (Instr.frameLength 0 1 1 (.long 48)).wellFormed = false := by decide +kernel

theorem test_empty_reset_port_is_no_length_error :
    (Instr.frameLength 0 1 80 (.whole [] (frame 80 []).check)).wellFormed = false := by decide +kernel

/-- R179: a RESET PORT with a payload is refused for its length only when its check has passed. -/
theorem test_bad_reset_port_is_a_check_error :
    let bad : HostFrame := { frame 80 [1] with check := (frame 80 [1]).check + 1 }
    (Instr.frameCheck 0 80 bad).wellFormed = true ∧ (Instr.frameLength 0 1 80 (.whole bad.payload bad.check)).wellFormed = false := by
  decide +kernel

theorem test_good_check_is_no_check_error : (Instr.frameCheck 0 20 (frame 20 [0])).wellFormed = false := by
  decide +kernel

theorem test_whole_frame_is_not_cut : (Instr.frameCut 0 [1, 20, 0, 5]).wellFormed = false := by decide +kernel

theorem test_sound_command : (Instr.read 0 (frame 1 [1, 0, 0, 5, 3, 0, 4, 0])).wellFormed = true := by decide +kernel

/-! ## Worked values of the manual -/

/-- R1: logical 205 is in group 3 and maps to physical 211; logical 196 to 200; physical 348 is a spare. -/
theorem test_cylinders : physicalCyl 205 = 211 ∧ physicalCyl 196 = 200 ∧ isHomeCyl 348 = false ∧ logicalCyl 211 = 205 := by
  decide

/-- The demand codes of section 2.4. -/
theorem test_demand_codes :
    [0, 1, 5, 10, 11, 50, 167, 168, 400].map (demandCode 110 48) = [0, 3, 8, 11, 12, 26, 47, 48, 48] ∧
      demandCode 1023 255 509 = 255 ∧ demandCode 1023 255 508 = 254 := by decide +kernel

/-- Section 3.8: d = 107 takes 127 slots, d = 10 takes 39. -/
theorem test_travel_times : triangularTime 110 107 = 127 ∧ triangularTime 110 10 = 39 := by decide +kernel

/-- R99: with every alternate FREE the nearest to 308 is (279, 0), and to 313 (279, 0). -/
theorem test_allocation :
    let s := withSp fun u => { u with mapState := .built, pool := List.replicate 192 .free }
    s.part.allocate 0 308 = some { cyl := 279, head := 0 } ∧ s.part.allocate 0 313 = some { cyl := 279, head := 0 } := by
  decide +kernel

/-- R165: a frame check of all ones over no bytes, and the residue after a check byte is 0. -/
theorem test_frame_check : crc8 [] = 255 ∧ crc8 [1, 20, 1, 0, crc8 [1, 20, 1, 0]] = 0 := by decide +kernel

/-- R30 and the worked seek of section 1.3: from cylinder 200 to (211, 4) the deadline is 153 and DEMAND 12. -/
theorem test_worked_seek :
    gives (.read 0 (frame 1 [1, 0, 0, 205, 4, 14, 1, 0])) (withSp fun u => { u with chan := { u.chan with cyl := 200, head := 4 } })
      (fun q => (q.sp 0).chan.demand == 12 && (q.sp 0).chan.deadline == 153 && (q.sp 0).chan.remaining == 11) = true := by
  decide +kernel

/-- R10: STOP SPINDLE stops. -/
theorem test_stop : gives (.stopSpindle 0 (frame 7 [0, 0])) calm (fun q => (q.sp 0).life == .stopped) = true := by
  decide +kernel

/-- R180: the fifth reject is not queued. -/
theorem test_fifth_reject :
    gives (.unknownKind 0 1 99)
      (withPort fun r => { r with paused := true, replies := List.replicate 4 (.reject .frameCut 0 0) })
      (fun q => (q.port 0).replies.length == 4) = true := by decide +kernel

/-- R179: a RESET PORT with a payload and a good check is rejected FRAME LENGTH. -/
theorem test_reset_port_length :
    gives (.frameLength 0 1 80 (.whole [1] (frame 80 [1]).check)) (withPort fun r => { r with paused := true })
      (fun q => (q.port 0).replies == [.reject .frameLength 80 255]) = true := by decide +kernel

/-- R168: a READ of blocks 14 and 15 is refused ADDRESS OUT OF RANGE with its count as the residual. -/
theorem test_refused :
    gives (.read 0 (frame 1 [1, 0, 0, 5, 3, 14, 2, 0])) (withPort fun r => { r with paused := true })
      (fun q => (q.port 0).replies == [.ending 1 1 .addressOutOfRange 2 [] none]) = true := by decide +kernel

/-- R15: a crossing of a seek of two cylinders leaves one, at the demand code 3. -/
theorem test_crossing :
    gives (.crossing 0 steady)
      (withSp fun u => { u with chan := { u.chan with state := .seeking, remaining := 2, direction := .inward } })
      (fun q => (q.sp 0).chan.cyl == 1 && (q.sp 0).chan.demand == 3) = true := by decide +kernel

/-- R86: a block of a WRITE that has been written whole is done, and the next block is the next field. -/
theorem test_field_end :
    gives (.fieldEnd (Vector.replicate 1024 0) 0)
      (carrying .write .host .writing (some { cyl := 0, head := 0, block := 0, flags := 0 }))
      (fun q => ((q.sp 0).queue.map Entry.blocksDone) == [1] && q.path == PathRec.idle &&
        (q.sp 0).xfer.next == some { action := .write, field := .block 1 }) = true := by decide +kernel

/-- R65, R89, R107: a READ that kept its ending through a fault leaves while its spindle builds its map, and the header read
that the build waits for stays loaded. -/
theorem test_ending_read_leaves_a_build :
    let waits : Option NextField := some { action := .headerRead, field := .header }
    let s := busy .read .ending { held .draining .disk 0 with sent := 3 }
    let q := (s.part.modSp 0 fun u =>
      { u with life := .buildingMap, queue := [{ entry .read .ending with decided := some ⟨.dataCheck, []⟩ }]
               xfer := { XferRec.clear with next := waits } }).modPort 0 fun r =>
      { r with paused := true, sending := some (.data 1 0 3 [] (some 0)), drains := [1] }
    gives (.dataFrameSent 0) { s with part := q } (fun q => (q.sp 0).queue == [] && (q.sp 0).xfer.next == waits &&
      (q.port 0).replies.length == 1) = true := by decide +kernel

/-! ## States and operands that meet the hypotheses of the statements -/

theorem meets_StepRunsTheFrontCommand :
    ({ calm with pending := [.hold 0, .hold 1] } : State).pending = .hold 0 :: [.hold 1] := rfl

theorem meets_IdleStepLowersTheTimers :
    let s : State := withSp fun u => { u with spinTimer := some 2 }
    s.pending = [] ∧ s.part.Settled ∧ (∀ p n, (s.part.port p).timer = some n → 1 < n) ∧
      ∀ i n, (s.part.sp i).spinTimer = some n → 1 < n := by
  refine ⟨rfl, ⟨by decide +kernel, by decide +kernel⟩, fun p n h => ?_, fun i n h => ?_⟩
  · have e : ∀ p, ((withSp fun u => { u with spinTimer := some 2 }).part.port p).timer = some 100 := by decide +kernel
    rw [e] at h; cases h; decide
  · have e : ∀ i, ((withSp fun u => { u with spinTimer := some 2 }).part.sp i).spinTimer = none ∨
        ((withSp fun u => { u with spinTimer := some 2 }).part.sp i).spinTimer = some 2 := by decide +kernel
    rcases e i with e | e <;> rw [e] at h <;> cases h
    decide

/-- A step from the reset state answers a next state, and the reset state is bounded. -/
theorem meets_EveryStep : (∃ t, step State.reset = .next t) ∧ State.reset.part.Bounded ∧ State.reset.part.params.InRange := by
  refine ⟨?_, by decide +kernel, by decide +kernel⟩
  have h : (match step State.reset with | .next _ => true | .fault _ | .refused _ => false) = true := by decide +kernel
  generalize step State.reset = o at h
  cases o with
  | next t => exact ⟨t, rfl⟩
  | fault _ | refused _ => cases h

theorem meets_OnlySettingsCommandsChangeSettings :
    (∃ t, exec (.hold 0) calm = .next t) ∧ (∀ x, Instr.hold 0 ≠ .powerOnReset x) ∧ (∀ x, Instr.hold 0 ≠ .pinReset x) ∧
      (∀ p f, Instr.hold 0 ≠ .setString p f) ∧ ∀ p f, Instr.hold 0 ≠ .setPort p f := by
  refine ⟨?_, by simp, by simp, by simp, by simp⟩
  have h : (match exec (.hold 0) calm with | .next _ => true | .fault _ | .refused _ => false) = true := by decide +kernel
  generalize exec (.hold 0) calm = o at h
  cases o with
  | next t => exact ⟨t, rfl⟩
  | fault _ | refused _ => cases h

theorem meets_CylinderMappingIsOneToOne : 543 < Config.homeCylinders ∧ 557 < Config.cylinders ∧ isHomeCyl 557 = true := by decide

theorem meets_TravelTimesAreLeast : 16 ≤ 1023 ∧ 559 ≤ 559 ∧ 0 < triangularTime 16 1 ∧ 0 < coastingTime 16 1 559 := by
  repeat' refine And.intro ?_ ?_
  all_goals decide +kernel

theorem meets_DemandCodeIsLargest : 3 ≤ 48 ∧ 8 * 3 * 3 ≤ 110 * 1 ∧ 4 ≤ 5 := by decide

theorem meets_RotationalWaitReachesTheLeadSlot : 95 < 96 := by decide

theorem meets_AllocationIsNearest :
    let s (gen : Nat) := withSp fun u => { u with mapState := .built, pool := [.retired, .free], generation := gen }
    (s 0).part.allocate 0 0 = some { cyl := 68, head := 1 } ∧
      ((s 0).part.sp 0).pool[altIndex { cyl := 68, head := 0 }]? = some .retired ∧
      ((s 0).part.sp 0).pool[altIndex { cyl := 68, head := 1 }]? = some .free ∧
      ((s 65534).part.sp 0).generation < 65535 ∧ ((s 65535).part.sp 0).generation = 65535 := by
  repeat' refine And.intro ?_ ?_
  all_goals decide +kernel

/-- R100: with POOL_LOW 8 the retirement that leaves eight FREE records raises POOL LOW, and the one before does not. -/
theorem test_pool_low :
    let q (n : Nat) := (withSp fun u => { u with mapState := .built, pool := List.replicate n .free }).part
    (((q 10).retire 0 track1).port 0).notices.length = 0 ∧ (((q 9).retire 0 track1).port 0).notices.length = 1 := by
  decide +kernel

theorem meets_SelectorChoosesByItsRules :
    (withSp fun u => { u with internal := some (newEntry .internal .reassign 0 0 0 0 false 0 [] 0) }).part.choose 0 =
      some (newEntry .internal .reassign 0 0 0 0 false 0 [] 0) ∧
    (withSp (working .read .queued)).part.choose 0 = some (entry .read .queued) ∧ calm.part.choose 0 = none := by
  repeat' refine And.intro ?_ ?_
  all_goals decide +kernel

theorem meets_PriorityArbiterOrder :
    let q : Lubran := { calm.part with
      params := { calm.part.params with arbMode := .priority }, waiting := [.host 1 0, .host 0 0] }
    q.params.arbMode = .priority ∧ q.winner = some (.host 0 0, q.served) ∧
      ({ q with waiting := [.host 1 0, .internal] } : Lubran).winner = some (.internal, q.served) := by
  repeat' refine And.intro ?_ ?_
  all_goals decide +kernel

/-- R78: with both ports in the served set it is emptied first; a port in it waits for the other. -/
theorem meets_PriorityArbiterOrder_fair :
    let q (served : List Port) (w : List Owner) : Lubran := { calm.part with served := served, waiting := w }
    (q [] []).params.arbMode = .fair ∧ (q [0] [.host 1 0, .internal]).winner = some (.internal, [0]) ∧
      (q [0, 1] [.host 1 0, .host 0 0]).winner = some (.host 1 0, [1]) ∧
      (q [1] [.host 1 0, .host 0 0]).winner = some (.host 0 0, [1, 0]) ∧ (q [1] [.host 1 0, .host 0 0]).canGrant = true := by
  repeat' refine And.intro ?_ ?_
  all_goals decide +kernel

theorem meets_OneNoticeOfAPair :
    let n : Notice := { key := .port 0, detail := .notify [1, 2, 3, 4], sending := true, follow := none }
    [n].Pairwise (fun a b => ¬ (a.detail.kind = b.detail.kind ∧ a.key = b.key)) := by decide

theorem meets_SpareMapStaysInOrder :
    let m (c : Nat) : MapEntry := { spindle := 0, home := { cyl := c, head := 0 }, alt := { cyl := 68, head := 0 } }
    [m 1, m 5].Pairwise (fun a b => a.before b = true) ∧
      ∀ e ∈ [m 1, m 5], ¬ (e.spindle = (m 3).spindle ∧ e.home = (m 3).home) := by decide

theorem meets_SpareMapStaysInOrder_commit :
    let m (n : Nat) : MapEntry :=
      { spindle := ⟨n / 64 % 8, by omega⟩, home := { cyl := n % 64, head := 0 }, alt := track1 }
    let q (n : Nat) : Lubran := { calm.part with spareMap := (List.range n).map m }
    (q 0).forward 0 track0 = none ∧ (q 0).spareMap.length < 384 ∧ (q 1).forward 0 track0 = some track1 ∧
      (q 384).forward 6 track0 = none ∧ 384 ≤ (q 384).spareMap.length ∧
      (q 5).spareMap.Pairwise (fun a b => a.before b = true) := by
  repeat' refine And.intro ?_ ?_
  all_goals decide +kernel

theorem meets_AcceptanceChecksInOrder :
    let read : Ask := askOf (parseTransfer .read [1, 0, 0, 5, 3, 0, 4, 0])
    let far : Ask := { read with track := some (544, 0) }
    let long : Ask := { read with blocks := some (14, 2) }
    (withPort fun r => { r with tags := r.tags.set 1 true }).part.refusal 0 read = some .tagInUse ∧
    calm.part.refusal 0 { read with spindle := some 8 } = some .addressOutOfRange ∧
    (withSp fun u => { u with life := .absent }).part.refusal 0 read = some .addressOutOfRange ∧
    calm.part.refusal 0 far = some .addressOutOfRange ∧ calm.part.refusal 0 long = some .addressOutOfRange ∧
    (withPort fun r => { r with authority := false }).part.refusal 0 (askOf (parseReset [0])) = some .notAuthorized ∧
    (withPort fun r => { r with fencesOn := true }).part.refusal 0 read = some .extentViolation ∧
    (withSp fun u => { u with reservation := some 3 }).part.refusal 0 read = some .reservedElsewhere ∧
    (withSp fun u => { u with life := .stopped }).part.refusal 0 read = some .notReady ∧
    (withSp fun u => { u with queue := List.replicate 8 (entry .read .queued) }).part.refusal 0 read = some .queueFull ∧
    (withSp fun u => { u with queue := List.replicate 7 (entry .read .queued) }).part.refusal 0 read = none ∧
    calm.part.refusal 0 (askOf (parseStart [0, 0])) = none := by
  repeat' refine And.intro ?_ ?_
  all_goals decide +kernel

/-- A spindle with an entry of port B in service, which takes commands of port A into its queue. -/
def engaged : State :=
  withSp fun u =>
    { u with queue := [{ newEntry (.host 1 0) .recalibrate 0 0 0 0 false 0 [] 0 with state := .seeking }]
             chan := { u.chan with state := .recal, purpose := .recal } }

theorem meets_TransferCommandIsPlaced :
    let payload : List Byte := [1, 0, 0, 5, 3, 0, 4, 1]
    engaged.part.Engaged 0 ∧
      engaged.part.Accepts 0 1 (frame 1 payload) (trackAsk .read 1 ⟨0, 5, 3, 0, 4, false, 0, []⟩) ∧
      engaged.part.Accepts 0 2 (frame 2 payload) (trackAsk .write 1 ⟨0, 5, 3, 0, 4, true, 0, []⟩) ∧
      engaged.part.Accepts 0 3 (frame 3 payload) (trackAsk .verify 1 ⟨0, 5, 3, 0, 4, false, 0, []⟩) := by
  repeat' refine And.intro ?_ ?_
  all_goals decide +kernel

theorem meets_OtherQueuedCommandIsPlaced :
    let guarded : List Byte := [1, 0, 0, 5, 3, 0, 0, 0, 1, 9]
    engaged.part.Engaged 0 ∧ (parseGuarded guarded).isSome = true ∧
      engaged.part.Accepts 0 4 (frame 4 guarded) (askOf (parseGuarded guarded)) ∧
      parseQueuedSpindle [1, 0] = some (askOf (parseQueuedSpindle [1, 0]), 0) ∧
      (askOf (parseQueuedSpindle [1, 0])).unit = some 0 ∧
      engaged.part.Accepts 0 5 (frame 5 [1, 0]) (askOf (parseQueuedSpindle [1, 0])) ∧
      engaged.part.Accepts 0 6 (frame 6 [1, 0]) (askOf (parseQueuedSpindle [1, 0])) ∧
      engaged.part.Accepts 0 7 (frame 7 [1, 0]) (askOf (parseQueuedSpindle [1, 0])) := by
  repeat' refine And.intro ?_ ?_
  all_goals decide +kernel

theorem meets_RefusedCommandEndsAtOnce :
    calm.part.atRest = true ∧ calm.part.Hears 0 1 (frame 1 [9]) ∧
      request (.read 0 (frame 1 [9])) = some (0, frame 1 [9], 1, none) ∧
      calm.part.Hears 0 17 (frame 17 [0, 9]) ∧
      request (.release 0 (frame 17 [0, 9])) = some (0, frame 17 [0, 9], 17, some { tag := 0, spindle := some 9 }) ∧
      calm.part.NoEvent 0 { tag := 0, spindle := some 9 } ∧
      (calm.part.taking 0 { tag := 0, spindle := some 9 }).refusal 0 { tag := 0, spindle := some 9 } =
        some .addressOutOfRange := by
  repeat' refine And.intro ?_ ?_
  all_goals decide +kernel

theorem meets_quiet_commands :
    let a := askOf (parseQueuedSpindle [1, 0])
    parseQueuedSpindle [1, 0] = some (a, 0) ∧ a.unit = some 0 ∧ calm.part.Quiet ∧ (calm.part.sp 0).life = .ready ∧
      (calm.part.sp 0).reservation = none ∧ (calm.part.sp 0).allegiance = none ∧ (calm.part.sp 0).chan.state = .onTrack ∧
      (calm.part.sp 0).waitReq = none ∧ (calm.part.sp 0).lines.guard = false ∧
      calm.part.Accepts 0 6 (frame 6 [1, 0]) a ∧ calm.part.Accepts 0 7 (frame 7 [1, 0]) a ∧
      calm.part.Accepts 0 5 (frame 5 [1, 0]) a := by
  repeat' refine And.intro ?_ ?_
  all_goals decide +kernel

theorem meets_ReadStartsItsSeek :
    let payload : List Byte := [1, 0, 0, 5, 3, 0, 4, 0]
    let c : TrackCmd := ⟨0, 5, 3, 0, 4, false, 0, []⟩
    parseTransfer .read payload = some (trackAsk .read 1 c, c) ∧ (trackAsk .read 1 c).unit = some 0 ∧
      calm.part.Accepts 0 1 (frame 1 payload) (trackAsk .read 1 c) ∧ calm.part.Quiet ∧
      (calm.part.sp 0).chan.posKnown = true ∧ (calm.part.sp 0).chan.orphan = false ∧
      distance ((calm.part.forward 0 { cyl := physicalCyl 5, head := 3 }).getD { cyl := physicalCyl 5, head := 3 }).cyl
        (calm.part.sp 0).chan.cyl ≠ 0 := by
  repeat' refine And.intro ?_ ?_
  all_goals decide +kernel

theorem meets_StartSpindleSpinsUp :
    let a := askOf (parseStart [1, 0])
    let off (speedOk : Bool) : State := withSp fun u => { u with life := .stopped, lines := { u.lines with speedOk := speedOk } }
    parseStart [1, 0] = some (a, 0) ∧ a.unit = some 0 ∧
      (off false).part.Accepts 0 16 (frame 16 [1, 0]) a ∧ ((off false).part.sp 0).life = .stopped ∧
      ((off false).part.sp 0).lines.speedOk = false ∧
      (off true).part.Accepts 0 16 (frame 16 [1, 0]) a ∧ ((off true).part.sp 0).lines.speedOk = true ∧
      ((off true).part.sp 0).lines.guard = false ∧ (off true).part.current 0 = none ∧ ((off true).part.sp 0).waitReq = none ∧
      calm.part.Accepts 0 16 (frame 16 [1, 0]) a ∧ (calm.part.sp 0).life ≠ .stopped ∧ (calm.part.sp 0).life ≠ .faulted := by
  repeat' refine And.intro ?_ ?_
  all_goals decide +kernel

theorem meets_ReleaseAndBreakReservation :
    let a := askOf (parsePlainSpindle [1, 0])
    let b := askOf (parseBreak [1, 0])
    let mine : State := withSp fun u => { u with reservation := some 0 }
    parsePlainSpindle [1, 0] = some (a, 0) ∧ a.unit = some 0 ∧ mine.part.Accepts 0 17 (frame 17 [1, 0]) a ∧
      (mine.part.sp 0).reservation = some 0 ∧ calm.part.Accepts 0 17 (frame 17 [1, 0]) a ∧
      (calm.part.sp 0).reservation ≠ some 0 ∧ parseBreak [1, 0] = some (b, 0) ∧ b.unit = some 0 ∧
      mine.part.Accepts 0 18 (frame 18 [1, 0]) b ∧ calm.part.Accepts 0 18 (frame 18 [1, 0]) b ∧
      (calm.part.sp 0).reservation = none := by
  repeat' refine And.intro ?_ ?_
  all_goals decide +kernel

theorem meets_CancelRemovesAQueuedEntry :
    let a := askOf (parseCancel [0, 1])
    let queued : State := withSp fun u => { working .read .queued u with life := .recalibrating }
    let served : State := withSp fun u =>
      { working .read .seeking u with life := .ready, chan := { u.chan with state := .seeking } }
    parseCancel [0, 1] = some (a, 1) ∧ queued.part.Accepts 0 19 (frame 19 [0, 1]) a ∧
      queued.part.findEntry (.host 0 1) = some (0, entry .read .queued) ∧
      served.part.Accepts 0 19 (frame 19 [0, 1]) a ∧ served.part.findEntry (.host 0 1) = some (0, entry .read .seeking) ∧
      calm.part.Accepts 0 19 (frame 19 [0, 1]) a ∧ calm.part.findEntry (.host 0 1) = none := by
  repeat' refine And.intro ?_ ?_
  all_goals decide +kernel

theorem meets_SenseTakesTheRecord :
    let s : State := withSp fun u => { u with life := .recalibrating, allegiance := some (0, 5) }
    let a := askOf (parseSense [0])
    parseSense [0] = some (a, ()) ∧ s.part.Accepts 0 20 (frame 20 [0]) a ∧
      ∀ i, (s.part.sp i).allegiance.map Prod.fst = some 0 → s.part.Engaged i := by
  repeat' refine And.intro ?_ ?_
  all_goals decide +kernel

theorem meets_SpareTrackAdmits :
    let payload : List Byte := [0, 0, 0, 5, 0]
    let a := askOf (parseSpare payload)
    let f := frame 21 payload
    let home : Track := { cyl := physicalCyl 5, head := 0 }
    let r (c : Nat) : SpareReq := { spindle := 1, home := { cyl := c, head := 0 }, trigger := .automatic }
    let copying : Sequencer := { Sequencer.initial with state := .copy, spindle := some 1 }
    let with_ (l : List SpareReq) : State := { calm with part := { calm.part with sparing := l, seq := copying } }
    let listed := with_ [{ spindle := 0, home := home, trigger := .automatic }]
    let full := with_ ((List.range 8).map r)
    let stopped : State := withSp fun u => { u with life := .stopped }
    let s : State := withSp fun u => { working .recalibrate .seeking u with chan := { u.chan with state := .recal, purpose := .recal } }
    parseSpare payload = some (a, 0, 5, 0) ∧ a.unit = some 0 ∧
      listed.part.Accepts 0 21 f a ∧ listed.part.isSparing 0 home = true ∧
      full.part.Accepts 0 21 f a ∧ full.part.isSparing 0 home = false ∧ 8 ≤ full.part.sparing.length ∧
      (with_ [r 1]).part.Accepts 0 21 f a ∧ (with_ [r 1]).part.isSparing 0 home = false ∧
      (with_ [r 1]).part.seq.state ≠ .idle ∧
      stopped.part.Accepts 0 21 f a ∧ stopped.part.isSparing 0 home = false ∧ stopped.part.sparing = [] ∧
      (stopped.part.sp 0).life ≠ .ready ∧
      s.part.Accepts 0 21 f a ∧ s.part.isSparing 0 home = false ∧ s.part.seq.state = .idle ∧ s.part.current 0 ≠ none ∧
      (s.part.sp 0).internal = none ∧ (s.part.sp 0).life = .ready := by
  repeat' refine And.intro ?_ ?_
  all_goals decide +kernel

/-- The REASSIGN entry of spindle 0, and the sequencer at work for it. -/
def reassign (state : EntryState) (retries : Nat) : Entry :=
  { newEntry .internal .reassign 0 0 0 0 false 0 [] 0 with state := state, retries := retries }

def sparing (step : CopyStep) : Sequencer :=
  { Sequencer.initial with
    state := .copy, spindle := some 0, home := some track0, trigger := some .automatic, source := some track0
    newAlt := some track1, lastAlt := some track1, tried := 1, roundSize := 4, step := step }

theorem meets_SpareTrackAdmits_select :
    let q (gen : Nat) (map : List MapEntry) (pool : List PoolRec) : Lubran :=
      { (withSp fun u =>
          { u with mapState := .built, pool := pool, generation := gen, internal := some (reassign .seeking 0)
                   chan := { u.chan with cyl := 5 } }).part with
        spareMap := map, seq := { Sequencer.initial with state := .select, spindle := some 0, home := some track0 } }
    let m : MapEntry := { spindle := 0, home := track0, alt := track1 }
    (q 0 [] []).seq.home = some track0 ∧ ((q 65535 [] []).sp 0).generation = 65535 ∧
      (q 0 (List.replicate 384 { m with spindle := 1 }) []).forward 0 track0 = none ∧
      384 ≤ (q 0 (List.replicate 384 { m with spindle := 1 }) []).spareMap.length ∧
      ((q 0 [] []).sp 0).generation < 65535 ∧ (q 0 [] []).spareMap.length < 384 ∧
      (q 0 [m] []).forward 0 track0 ≠ none ∧ (q 0 [] []).allocate 0 0 = none ∧
      (q 0 [] [.free]).allocate 0 0 = some track1 ∧ ((q 0 [] [.free]).sp 0).chan.state = .onTrack ∧
      ((q 0 [] [.free]).sp 0).chan.posKnown = true ∧ ((q 0 [] [.free]).sp 0).chan.orphan = false ∧
      ((q 0 [] [.free]).sp 0).chan.cyl ≠ track0.cyl := by
  repeat' refine And.intro ?_ ?_
  all_goals decide +kernel

theorem meets_SpareTrackAdmits_copy :
    let at_ (act : Action) (step : CopyStep) (retries : Nat) (lost : Bool) : State :=
      let s := passing act (reassign .transferring retries)
        { held .filling .disk 0 with owner := some .internal, lost := lost }
      { s with part := { s.part with seq := sparing step } }
    ∀ retries ∈ [0, 7, 8], ∀ lost ∈ [false, true], ∀ x ∈ [(Action.read, CopyStep.read), (.write, .write), (.reread, .verify)],
      let s := at_ x.1 x.2 retries lost
      let e := reassign .transferring retries
      s.part.path.state ≠ .idle ∧ s.part.path.spindle = some 0 ∧ s.part.path.holder = some (.entry .internal) ∧
        s.part.path.field = some (.block 0) ∧ s.part.path.id = some block0 ∧
        (s.part.sp 0).xfer.next = some { action := x.1, field := .block 0 } ∧ (s.part.sp 0).xfer.cont = none ∧
        (s.part.sp 0).internal = some e ∧ e.owner = .internal ∧ e.kind = .reassign ∧ e.abandoned = false ∧
        e.decided = none ∧ s.part.seq.track = some (if x.1 = .read then track0 else track1) ∧
        s.part.slotFor .internal 0 .disk = some 0 ∧ (s.part.slot 0).lost = lost ∧
        s.part.seq.trigger = some .automatic ∧ s.part.seq.newAlt = some track1 := by
  decide +kernel

theorem meets_NotifyRaisesAtItsTargets :
    parseNotify [0, 6, 1, 2, 3, 4] = some (askOf (parseNotify [0, 6, 1, 2, 3, 4]), portSet 6, [1, 2, 3, 4]) ∧
      calm.part.Accepts 0 22 (frame 22 [0, 6, 1, 2, 3, 4]) (askOf (parseNotify [0, 6, 1, 2, 3, 4])) := by
  repeat' refine And.intro ?_ ?_
  all_goals decide +kernel

theorem meets_QueriesAnswer :
    parsePlainSpindle [1, 7] = some (askOf (parsePlainSpindle [1, 7]), 7) ∧ (askOf (parsePlainSpindle [1, 7])).unit = some 7 ∧
      calm.part.Accepts 0 32 (frame 32 [1, 7]) (askOf (parsePlainSpindle [1, 7])) ∧
      parseQueryString [0, 1] = some ({ tag := 0 }, 1) ∧ calm.part.Accepts 0 33 (frame 33 [0, 1]) { tag := 0 } ∧
      parseReadMap [0, 0, 3] = some ({ tag := 0 }, 3) ∧ calm.part.Accepts 0 34 (frame 34 [0, 0, 3]) { tag := 0 } ∧
      parseReadSuspects [0, 2] = some ({ tag := 0 }, 2) ∧ calm.part.Accepts 0 35 (frame 35 [0, 2]) { tag := 0 } := by
  repeat' refine And.intro ?_ ?_
  all_goals decide +kernel

theorem meets_SetStringReplacesTheParameters :
    let payload : List Byte := [0, 255, 255, 0, 200, 0, 0, 0, 255, 0, 1, 3, 15, 0, 1, 2, 4, 8, 15, 15]
    (parseSetString payload).isSome = true ∧
      calm.part.Accepts 0 48 (frame 48 payload) (askOf (parseSetString payload)) := by
  repeat' refine And.intro ?_ ?_
  all_goals decide +kernel

theorem meets_SetPortReplacesTheRecord :
    let other : List Byte := [0, 2, 30, 9, 200, 1, 1, 7, 0, 0, 2, 31, 3]
    let own : List Byte := [0, 0, 0, 0, 63, 0, 0]
    (parseSetPort other).isSome = true ∧ calm.part.Accepts 0 49 (frame 49 other) (askOf (parseSetPort other)) ∧
      (parseSetPort own).isSome = true ∧ calm.part.Accepts 0 49 (frame 49 own) (askOf (parseSetPort own)) := by
  repeat' refine And.intro ?_ ?_
  all_goals decide +kernel

theorem meets_ResetStringResetsEveryBlock :
    parseReset [0] = some (askOf (parseReset [0]), ()) ∧ engaged.part.Accepts 0 50 (frame 50 [0]) (askOf (parseReset [0])) ∧
      ∀ i, (engaged.part.sp i).atSpeed = true → (engaged.part.sp i).lines.guard = false := by
  repeat' refine And.intro ?_ ?_
  all_goals decide +kernel

/-! ### Frames and the transmitter -/

/-- A HOST slot that waits for its fragment n. -/
def awaiting (n : Nat) : State :=
  busy .write .rotating { held (if n = 0 then .reserved else .filling) .host 0 with frags := n }

theorem meets_DataFragmentIsPlaced (bytes : Vector Byte 256) :
    (∀ seq, let f := dataFrame 1 seq bytes
      f.check = dataCheck f.addr f.tag f.seq f.bytes.toList ∧ f.tag.toNat = 1 ∧ f.addr = 1 ∧ f.seq = seq) ∧
    ∀ n, n < 4 →
      (awaiting n).part.atRest = true ∧ ((awaiting n).part.port 0).link = .up ∧
      ((awaiting n).part.port 0).keeps 1 64 = true ∧
      (awaiting n).part.findEntry (.host 0 1) = some (0, entry .write .rotating) ∧
      (awaiting n).part.slotFor (.host 0 1) ((byteOf n).toNat / 4) .host = some 0 ∧
      (((awaiting n).part.slot 0).state = .reserved ∨ ((awaiting n).part.slot 0).state = .filling) ∧
      ((awaiting n).part.slot 0).frags = (byteOf n).toNat % 4 :=
  ⟨fun _ => ⟨rfl, rfl, rfl, rfl⟩, by decide +kernel⟩

/-- A RECALIBRATING spindle with a READ that waits QUEUED. -/
def queuedRead : State := withSp fun u => { working .read .queued u with life := .recalibrating }

theorem meets_UnrequestedDataEndsAQueuedCommand (bytes : Vector Byte 256) :
    let f := dataFrame 1 0 bytes
    f.check = dataCheck f.addr f.tag f.seq f.bytes.toList ∧ f.tag.toNat = 1 ∧
      (queuedRead.part.port 0).keeps f.addr 64 = true ∧
      queuedRead.part.atRest = true ∧ queuedRead.part.findEntry (.host 0 1) = some (0, entry .read .queued) ∧
      calm.part.atRest = true ∧ calm.part.findEntry (.host 0 1) = none := by
  refine ⟨rfl, rfl, ?_, by decide +kernel, by decide +kernel, by decide +kernel, by decide +kernel⟩
  show (queuedRead.part.port 0).keeps 1 64 = true
  decide +kernel

theorem ne_next (c : Byte) : c + 1 ≠ c := by bv_omega

/-- A DATA frame of tag 1 whose check byte is one too high. -/
def damaged (bytes : Vector Byte 256) : DataFrame :=
  { addr := 1, tag := 1, seq := 0, bytes := bytes, check := dataCheck 1 1 0 bytes.toList + 1 }

theorem damaged_check (bytes : Vector Byte 256) :
    (damaged bytes).check ≠
      dataCheck (damaged bytes).addr (damaged bytes).tag (damaged bytes).seq (damaged bytes).bytes.toList :=
  ne_next (dataCheck 1 1 0 bytes.toList)

theorem meets_DamagedDataDecidesTheEnding (bytes : Vector Byte 256) :
    (damaged bytes).tag.toNat = 1 ∧ (damaged bytes).addr = 1 ∧
    (damaged bytes).check ≠
      dataCheck (damaged bytes).addr (damaged bytes).tag (damaged bytes).seq (damaged bytes).bytes.toList ∧
    let s := carrying .write .host .writing none
    s.part.atRest = true ∧ (s.part.port 0).link = .up ∧ (s.part.port 0).keeps 1 64 = true ∧
      s.part.findEntry (.host 0 1) = some (0, entry .write .transferring) ∧
      s.part.current 0 = some (entry .write .transferring) ∧ s.part.carrying 0 (.host 0 1) = true ∧
      calm.part.atRest = true ∧ calm.part.findEntry (.host 0 1) = none :=
  ⟨rfl, rfl, damaged_check bytes, by decide +kernel⟩

theorem calm_unserved (p : Port) : calm.part.Unserved p := by
  have e : ∀ i, (calm.part.sp i).queue = [] ∧ (calm.part.sp i).internal = none := by decide +kernel
  intro i x h
  rw [(e i).1, (e i).2] at h
  simp at h

theorem meets_ResetPortTearsThePortDown :
    calm.part.atRest = true ∧ calm.part.Hears 0 80 (frame 80 []) ∧ calm.part.Unserved 0 ∧
      ∀ i, (calm.part.sp i).allegiance.map Prod.fst = some 0 → calm.part.Engaged i :=
  ⟨by decide +kernel, by decide +kernel, calm_unserved 0, by decide +kernel⟩

theorem only_entry (st : EntryState) (j : Spindle) (x : Entry) (h : j ≠ 0) :
    let q := (busy .read st (held .filling .disk 0)).part
    x ∈ (q.sp j).queue ∨ (q.sp j).internal = some x → x.owner ≠ .host 0 1 := by
  have e : ∀ j, j ≠ 0 → let q := (busy .read st (held .filling .disk 0)).part
      (q.sp j).queue = [] ∧ (q.sp j).internal = none := by cases st <;> decide +kernel
  have f := e j h
  intro q
  rw [f.1, f.2]
  simp

/-- One state for each clause of the in-service entry: SEEKING to TRANSFERRING, and ENDING with its block passing. -/
theorem meets_ResetPortTearsThePortDown_in_service :
    (∀ st, let s := busy .read st (held .filling .disk 0)
      s.part.current 0 = (if st = .queued then none else some (entry .read st)) ∧ (entry .read st).owner = .host 0 1 ∧
      (s.part.sp 0).findEntry (.host 0 1) = some (entry .read st)) ∧
    (∀ st j x, j ≠ 0 → let q := (busy .read st (held .filling .disk 0)).part
      x ∈ (q.sp j).queue ∨ (q.sp j).internal = some x → x.owner ≠ .host 0 1) ∧
    (carrying .read .disk .reading none).part.path.spindle = some 0 ∧
    let s := passing .read (entry .read .ending) (held .filling .disk 0)
    s.part.current 0 = some (entry .read .ending) ∧ s.part.path.state ≠ .idle ∧ s.part.path.spindle = some 0 ∧
      s.part.path.holder = some (.entry (.host 0 1)) ∧ s.part.path.field = some (.block 0) ∧
      (s.part.sp 0).xfer.next = some { action := .read, field := .block 0 } :=
  ⟨fun st => by cases st <;> decide +kernel, only_entry, by decide +kernel, by decide +kernel⟩

/-- R64: teardown takes an ENDING entry off its queue at once, and the path carries its block on. -/
theorem test_teardown_of_an_ending_entry :
    let s := passing .read { entry .read .ending with decided := some ⟨.dataCheck, []⟩ } (held .filling .disk 0)
    gives (.resetPort 0 (frame 80 [])) s (fun q => (q.sp 0).queue == [] && q.path.state == .reading &&
      (q.slot 0).state == .free) = true := by decide +kernel

theorem meets_LinkTimerRunsOut :
    let sync := withPort fun r => { r with link := .sync }
    let down := withPort fun r => { r with link := .down }
    sync.part.atRest = true ∧ (sync.part.port 0).link = .sync ∧ (sync.part.port 0).timer = some 100 ∧
      calm.part.atRest = true ∧ (calm.part.port 0).link = .up ∧ (calm.part.port 0).timer = some 100 ∧
      calm.part.Unserved 0 ∧ (∀ i, (calm.part.sp i).allegiance.map Prod.fst = some 0 → calm.part.Engaged i) ∧
      down.part.atRest = true ∧ (down.part.port 0).link = .down :=
  ⟨by decide +kernel, by decide +kernel, by decide +kernel, by decide +kernel, by decide +kernel, by decide +kernel,
    calm_unserved 0, by decide +kernel, by decide +kernel, by decide +kernel⟩

theorem meets_SymbolsMoveTheLink :
    let at_ (l : LinkState) (n : Nat) : State := withPort fun r => { r with link := l, idleCount := n }
    (at_ .down 0).part.atRest = true ∧ ((at_ .lost 0).part.port 0).link = .lost ∧
      (at_ .sync 14).part.atRest = true ∧ ((at_ .sync 14).part.port 0).idleCount < 15 ∧
      15 ≤ ((at_ .sync 15).part.port 0).idleCount ∧ (at_ .up 0).part.atRest = true := by
  repeat' refine And.intro ?_ ?_
  all_goals decide +kernel

theorem meets_FramesNotForThePortAreIgnored :
    let s := withPort fun r => { r with link := .sync }
    let c : Instr := .sense 0 { addr := 2, payload := [0], check := 0 }
    framePort c = some 0 ∧ s.part.Settled ∧ (s.part.port 0).link ≠ .up ∧ calm.part.Settled ∧ isCut c = false ∧
      c.line.head? = some 2 ∧ (calm.part.port 0).link = .up ∧ (calm.part.port 0).recognise 2 = .no := by
  repeat' refine And.intro ?_ ?_
  all_goals decide +kernel

theorem meets_RejectsAreQueued :
    let r := calm.part.port 0
    calm.part.atRest = true ∧ r.link = .up ∧ r.keeps 1 99 = true ∧ isHostKind 99 = false ∧
      r.keeps 1 1 = true ∧ isHostKind 1 = true ∧ 48 < (49 : Byte).toNat ∧
      r.keeps 1 80 = true ∧ isHostKind 80 = true ∧ (1 : Byte) ≠ 0 ∧
      ({ addr := 1, payload := [0], check := 0 } : HostFrame).check ≠ Machine.frameCheck 1 20 [0] ∧
      isHostKind 20 = true ∧ 1 ≤ (48 : Byte).toNat ∧ (48 : Byte).toNat ≤ 48 ∧ r.recognise 1 ≠ .no ∧
      (frame 80 [1]).payload ≠ [] ∧ (frame 80 [1]).payload.length ≤ 48 ∧
      (frame 80 [1]).check = Machine.frameCheck 1 80 [1] := by
  repeat' refine And.intro ?_ ?_
  all_goals decide +kernel

theorem meets_FrameEndBeginsTheNext :
    let reply : ReplyFrame := .reject .frameCut 0 0
    let sends (f : LinkPort → LinkPort) : State := withPort fun r => f { r with sending := some (.reply reply) }
    let notice : Notice := { key := .nothing, detail := .stringReset 1, sending := false, follow := none }
    let noted := sends fun r => { r with notices := [notice] }
    let draining : State :=
      let s := busy .read .rotating (held .full .disk 0)
      { s with part := s.part.modPort 0 fun r => { r with sending := some (.request ⟨1, 0⟩), drains := [1] } }
    let asked := sends fun r => { r with requests := [⟨1, 0⟩] }
    (sends id).part.atRest = true ∧ ((sends id).part.port 0).paused = false ∧
      ((sends id).part.port 0).sending = some (.reply reply) ∧
      ((sends fun r => { r with replies := [reply] }).part.port 0).replies = [reply] ∧
      (asked.part.port 0).replies = [] ∧ (asked.part.port 0).requests = [⟨1, 0⟩] ∧
      draining.part.atRest = true ∧ (draining.part.port 0).replies = [] ∧ (draining.part.port 0).requests = [] ∧
      draining.part.readyDrain 0 = some (1, 0) ∧
      noted.part.readyDrain 0 = none ∧ ((noted.part.port 0).notices.find? fun n => !n.sending) = some notice := by
  repeat' refine And.intro ?_ ?_
  all_goals decide +kernel

theorem meets_AttentionFrameEndSettlesItsNotice :
    let n : Notice := { key := .nothing, detail := .stringReset 1, sending := true, follow := some (.stringReset 2) }
    let s := withPort fun r => { r with sending := some (.attention .nothing (.stringReset 1)), notices := [n] }
    s.part.atRest = true ∧ (s.part.port 0).sending = some (.attention .nothing (.stringReset 1)) ∧
      (s.part.port 0).notices = [] ++ n :: [] ∧ n.sending = true ∧ ∀ m ∈ ([] ++ [] : List Notice), m.sending = false := by
  repeat' refine And.intro ?_ ?_
  all_goals decide +kernel

theorem meets_DataFrameEndDrainsItsSlot :
    let sends (slot : Option (Fin 8)) (s : State) : State :=
      { s with part := s.part.modPort 0 fun r => { r with sending := some (.data 1 0 0 [] slot), drains := [1] } }
    let first := sends (some 0) (busy .read .rotating (held .draining .disk 0))
    let last : State :=
      let s := sends (some 0) (busy .read .rotating { held .draining .disk 0 with sent := 3 })
      { s with part := ([1, 2, 3] : List (Fin 8)).foldl (fun q k => q.modSlot k fun _ => held .reserved .disk k.val) s.part }
    (sends none calm).part.atRest = true ∧ ((sends none calm).part.port 0).sending = some (.data 1 0 0 [] none) ∧
      first.part.atRest = true ∧ (first.part.slot 0).owner = some (.host 0 1) ∧ (first.part.slot 0).sent < 3 ∧
      last.part.atRest = true ∧ (last.part.slot 0).sent = 3 ∧ (last.part.slot 0).source = some .disk ∧
      last.part.findEntry (.host 0 1) = some (0, entry .read .rotating) ∧ last.part.waiting = [] ∧
      min 4 ((entry .read .rotating).count - ((entry .read .rotating).blocksDone + 1)) <
        (last.part.slotsOf (.host 0 1)).length := by
  repeat' refine And.intro ?_ ?_
  all_goals decide +kernel

/-! ### Marks, pulses and fields -/

theorem meets_MarksMoveTheSlot :
    let at_ (n : Nat) (a : Option (Port × Nat)) : State := withSp fun u => { u with slot := n, allegiance := a }
    let spinning : State := withSp fun u => { u with life := .spinningUp }
    let off : State := withSp fun u => { u with life := .stopped }
    (at_ 94 none).part.atRest = true ∧ ((at_ 94 none).part.sp 0).xfer.next = none ∧
      ((at_ 94 none).part.sp 0).chan.state = .onTrack ∧ ((at_ 94 none).part.sp 0).slot < 95 ∧
      (at_ 95 none).part.atRest = true ∧ ((at_ 95 none).part.sp 0).missing = 0 ∧
      (at_ 95 (some (0, 2))).part.atRest = true ∧ ((at_ 95 (some (0, 2))).part.sp 0).allegiance = some (0, 2) ∧
      (at_ 0 none).part.path.spindle ≠ some 0 ∧ spinning.part.atRest = true ∧ (spinning.part.sp 0).life = .spinningUp ∧
      off.part.atRest = true ∧ (off.part.sp 0).life = .stopped := by
  repeat' refine And.intro ?_ ?_
  all_goals decide +kernel

theorem meets_SlotBoundaryCountsForTheChannel :
    let seek (st : ActState) : State :=
      withSp fun u => { u with slot := 94, chan := { u.chan with state := st, deadline := 2, settle := 2 } }
    let recal : State :=
      withSp fun u => { u with slot := 94, chan := { u.chan with state := .recal, purpose := .recal, recalLimit := 2 } }
    (seek .seeking).part.atRest = true ∧ (seek .settling).part.atRest = true ∧ recal.part.atRest = true ∧
      ((seek .seeking).part.modSp 0 fun u => { u with slot := u.slot + 1 }).windowAt 0 = none ∧
      ((seek .settling).part.modSp 0 fun u => { u with slot := u.slot + 1 }).windowAt 0 = none ∧
      (recal.part.modSp 0 fun u => { u with slot := u.slot + 1 }).windowAt 0 = none ∧
      (seek .seeking).part.path.spindle ≠ some 0 ∧ 1 < ((seek .seeking).part.sp 0).chan.deadline := by
  repeat' refine And.intro ?_ ?_
  all_goals decide +kernel

theorem meets_WindowIsGrantedOrMissed :
    let e := entry .read .rotating
    let nx : NextField := { action := .read, field := .block 0 }
    let ready (st : SlotState) : State :=
      let s := busy .read .rotating (held st .disk 0)
      { s with part := s.part.modSp 0 fun u => { u with slot := 0 } }
    (ready .reserved).part.atRest = true ∧ ((ready .reserved).part.sp 0).life = .ready ∧
      (ready .reserved).part.current 0 = some e ∧ ((ready .reserved).part.sp 0).xfer.next = some nx ∧
      ((ready .reserved).part.sp 0).slot + 1 = leadSlot nx.field ∧ (ready .reserved).part.path.holder = none ∧
      (ready .reserved).part.staged e nx = true ∧
      (ready .full).part.atRest = true ∧ (ready .full).part.staged e nx = false ∧
      min 64 (e.lost + 1) ≤ (ready .full).part.params.lostRevLimit := by
  repeat' refine And.intro ?_ ?_
  all_goals decide +kernel

theorem meets_GrantedFieldBegins :
    let s : State :=
      let s := carrying .read .disk .idle none
      { s with part := s.part.modSp 0 fun u => { u with slot := 1 } }
    let build : State :=
      { calm with part := { calm.part.modSp 0 (fun u =>
            { u with life := .buildingMap, slot := 95, xfer := { u.xfer with next := some { action := .headerRead, field := .header } } }) with
          path := { PathRec.idle with holder := some .build, spindle := some 0, field := some .header } } }
    s.part.atRest = true ∧ (s.part.sp 0).life = .ready ∧ (s.part.sp 0).chan.state = .onTrack ∧
      s.part.path.spindle = some 0 ∧ s.part.path.state = .idle ∧ s.part.path.holder = some (.entry (.host 0 1)) ∧
      s.part.path.field = some (.block 0) ∧ (s.part.sp 0).xfer.next = some { action := .read, field := .block 0 } ∧
      (s.part.sp 0).slot + 1 = firstSlot (.block 0) ∧
      build.part.atRest = true ∧ build.part.path.holder = some .build ∧ (build.part.sp 0).slot = 95 ∧
      (build.part.sp 0).xfer.next = some { action := .headerRead, field := .header } ∧
      (build.part.sp 0).allegiance = none := by
  repeat' refine And.intro ?_ ?_
  all_goals decide +kernel

/-- A READ of spindle 0 that was abandoned in the lead slot of its granted block. -/
def leadAbandoned : State :=
  let s := passing .read { entry .read .transferring with abandoned := true } (held .reserved .disk 0)
  { s with part := { s.part.modSp 0 (fun u => { u with slot := 1 }) with
      path := { s.part.path with state := .idle, id := none } } }

theorem meets_GrantedFieldBegins_abandoned :
    leadAbandoned.part.atRest = true ∧ (leadAbandoned.part.sp 0).life = .ready ∧
      (leadAbandoned.part.sp 0).chan.state = .onTrack ∧ leadAbandoned.part.path.spindle = some 0 ∧
      leadAbandoned.part.path.state = .idle ∧ leadAbandoned.part.path.holder = some (.entry (.host 0 1)) ∧
      leadAbandoned.part.path.field = some (.block 0) ∧
      (leadAbandoned.part.sp 0).xfer.next = some { action := .read, field := .block 0 } ∧
      (leadAbandoned.part.sp 0).queue = [{ entry .read .transferring with abandoned := true }] ∧
      (leadAbandoned.part.sp 0).internal = none ∧
      (∀ j, j ≠ 0 → (leadAbandoned.part.sp j).findEntry (.host 0 1) = none) ∧ leadAbandoned.part.waiting = [] ∧
      (leadAbandoned.part.sp 0).slot + 1 = firstSlot (.block 0) := by
  repeat' refine And.intro ?_ ?_
  all_goals decide +kernel

theorem meets_CrossingMovesTheHeads :
    let at_ (st : ActState) (c r : Nat) (d : Direction) : State :=
      withSp fun u => { u with chan := { u.chan with state := st, cyl := c, remaining := r, direction := d, settle := 1 } }
    let recal : State := withSp fun u =>
      { u with life := .recalibrating, chan := { u.chan with state := .recal, purpose := .recal } }
    let stopped : State := withSp fun u => { u with life := .stopped, chan := { u.chan with state := .idle } }
    (at_ .seeking 2 2 .outward).part.atRest = true ∧ ((at_ .seeking 2 2 .outward).part.sp 0).chan.purpose = .normal ∧
      0 < ((at_ .seeking 1 2 .outward).part.sp 0).chan.cyl ∧ (at_ .seeking 558 1 .inward).part.atRest = true ∧
      ((at_ .seeking 558 1 .inward).part.sp 0).chan.cyl < 559 ∧ 0 < ((at_ .seeking 558 1 .inward).part.sp 0).chan.sSettle ∧
      (at_ .settling 1 0 .outward).part.atRest = true ∧ ((at_ .settling 1 0 .outward).part.sp 0).chan.overshoots < 2 ∧
      (at_ .onTrack 5 0 .outward).part.atRest = true ∧ (at_ .onTrack 5 0 .outward).part.current 0 = none ∧
      ((at_ .onTrack 5 0 .outward).part.sp 0).lines.guard = false ∧ ((at_ .onTrack 5 0 .outward).part.sp 0).waitReq = none ∧
      (at_ .onTrack 5 0 .outward).part.path.spindle ≠ some 0 ∧ ((at_ .onTrack 5 0 .outward).part.sp 0).life = .ready ∧
      recal.part.atRest = true ∧ (recal.part.sp 0).chan.state = .recal ∧ (recal.part.sp 0).life = .recalibrating ∧
      stopped.part.atRest = true ∧ (stopped.part.sp 0).chan.state = .idle ∧ (stopped.part.sp 0).life = .stopped := by
  repeat' refine And.intro ?_ ?_
  all_goals decide +kernel

theorem meets_FirstSeekCheckKeepsTheSeek :
    let s : State := withSp fun u => { u with chan := { u.chan with state := .seeking, cyl := 1, deadline := 1 } }
    s.part.atRest = true ∧ (s.part.sp 0).chan.reissued = false ∧ (s.part.sp 0).chan.purpose = .normal ∧
      0 < s.part.params.settle ∧ (s.part.sp 0).waitReq = none ∧ (s.part.sp 0).chan.deadline ≤ 1 ∧
      s.part.path.spindle ≠ some 0 ∧ 0 < (s.part.sp 0).chan.cyl := by
  repeat' refine And.intro ?_ ?_
  all_goals decide +kernel

theorem meets_GuardEndsTheOutwardMotion :
    engaged.part.atRest = true ∧ (engaged.part.sp 0).chan.purpose = .recal ∧ 0 < (engaged.part.sp 0).chan.sSettle ∧
      (engaged.part.sp 0).chan.state = .recal ∧ calm.part.atRest = true ∧ (calm.part.sp 0).chan.state = .onTrack := by
  repeat' refine And.intro ?_ ?_
  all_goals decide +kernel

theorem meets_SettleCompletesTheSeek :
    let s (n : Nat) (on : Bool) : State := withSp fun u =>
      { working .read .settling u with
        chan := { u.chan with state := .settling, settle := n }, lines := { u.lines with onTrack := on } }
    (s 0 false).part.atRest = true ∧ (s 1 true).part.atRest = true ∧ ((s 1 true).part.sp 0).life = .ready ∧
      ((s 0 false).part.sp 0).chan.purpose = .normal ∧ ((s 0 false).part.sp 0).chan.orphan = false ∧
      ((s 0 false).part.sp 0).waitReq = none ∧ (s 0 false).part.current 0 = some (entry .read .settling) ∧
      (s 1 true).part.current 0 = some (entry .read .settling) ∧ ((s 1 true).part.sp 0).lines.onTrack = true := by
  repeat' refine And.intro ?_ ?_
  all_goals decide +kernel

theorem meets_FaultStopsTheSpindle :
    let up : State := withSp fun u => { u with life := .spinningUp, spinTimer := some 1 }
    let recal : State := withSp fun u => { u with chan := { u.chan with state := .recal, purpose := .recal, recalLimit := 1 } }
    let lost : State := withSp fun u => { u with slot := 95, missing := 1 }
    calm.part.atRest = true ∧ (calm.part.sp 0).queue = [] ∧ (calm.part.sp 0).internal = none ∧
      calm.part.path.spindle ≠ some 0 ∧ calm.part.seq = Sequencer.initial ∧ calm.part.sparing = [] ∧
      up.part.atRest = true ∧ (up.part.sp 0).spinTimer.isSome = true ∧
      recal.part.atRest = true ∧ (recal.part.sp 0).chan.recalLimit ≤ 1 ∧
      lost.part.atRest = true ∧ 95 ≤ (lost.part.sp 0).slot ∧ 1 ≤ (lost.part.sp 0).missing ∧
      (lost.part.sp 0).allegiance = none := by
  repeat' refine And.intro ?_ ?_
  all_goals decide +kernel

theorem meets_SpeedOkStartsTheRecalibration :
    let s : State := withSp fun u => { u with life := .spinningUp }
    s.part.atRest = true ∧ (s.part.sp 0).life = .spinningUp ∧ s.part.current 0 = none ∧ (s.part.sp 0).waitReq = none ∧
      (s.part.sp 0).lines.guard = false ∧ calm.part.atRest = true ∧ (calm.part.sp 0).life ≠ .spinningUp := by
  repeat' refine And.intro ?_ ?_
  all_goals decide +kernel

theorem meets_AllegianceExpires :
    let s : State := withSp fun u => { u with life := .recalibrating, allegiance := some (2, 1) }
    s.part.atRest = true ∧ (s.part.sp 0).allegiance = some (2, 1) ∧ s.part.Engaged 0 ∧
      (s.part.sp 0).life = .recalibrating := by
  repeat' refine And.intro ?_ ?_
  all_goals decide +kernel

theorem meets_BlockIdDecidesTheBlock :
    let r := carrying .read .disk .reading none
    let w := carrying .write .host .writing none
    let good : BlockId := { cyl := 0, head := 0, block := 0, flags := 0 }
    let t : Track := { cyl := 0, head := 0 }
    r.part.atRest = true ∧ r.part.path.state ≠ .idle ∧ r.part.path.spindle = some 0 ∧ r.part.path.id = none ∧
      (r.part.sp 0).xfer.next = some { action := .read, field := .block 0 } ∧
      (r.part.sp 0).findEntry (.host 0 1) = some (entry .read .transferring) ∧
      r.part.current 0 = some (entry .read .transferring) ∧ (entry .read .transferring).track = some t ∧
      idNames good t 0 = true ∧ idLost good = false ∧ r.part.slotFor (.host 0 1) 0 .disk = some 0 ∧
      w.part.atRest = true ∧ (w.part.sp 0).xfer.next = some { action := .write, field := .block 0 } ∧
      w.part.current 0 = some (entry .write .transferring) ∧
      idNames { good with cyl := 1 } t 0 = false ∧ (r.part.sp 0).xfer.mismatch = false ∧
      (r.part.sp 0).lines.guard = false ∧ (r.part.sp 0).waitReq = none := by
  repeat' refine And.intro ?_ ?_
  all_goals decide +kernel

theorem meets_BlockIdDecidesTheBlock_ends :
    let at_ (t : Track) : State :=
      let s := passing .read { entry .read .transferring with track := some t } (held .reserved .disk 0)
      { s with part := { s.part.modSp 0 (fun u => { u with xfer := { u.xfer with mismatch := true } }) with
          path := { s.part.path with id := none } } }
    idNames { block0 with flags := 0x80 } track0 0 = true ∧ idLost { block0 with flags := 0x80 } = true ∧
    ∀ t ∈ [track0, track1],
      (at_ t).part.atRest = true ∧ (at_ t).part.path.state ≠ .idle ∧ (at_ t).part.path.id = none ∧
      (at_ t).part.current 0 = some { entry .read .transferring with track := some t } ∧
      ((at_ t).part.sp 0).findEntry (.host 0 1) = some { entry .read .transferring with track := some t } ∧
      ((at_ t).part.sp 0).xfer.next = some { action := .read, field := .block 0 } ∧
      idNames { block0 with cyl := 1 } t 0 = false ∧ ((at_ t).part.sp 0).xfer.mismatch = true ∧
      isHomeCyl t.cyl = decide (t = track0) := by
  repeat' refine And.intro ?_ ?_
  all_goals decide +kernel

theorem meets_FieldEndPassesOrFailsARead (bytes : Vector Byte 1024) :
    let id : BlockId := { cyl := 0, head := 0, block := 0, flags := 0 }
    let s := carrying .read .disk .reading (some id)
    let good := crc32 (idBytes id ++ bytes.toList)
    s.part.atRest = true ∧ s.part.path.id = some id ∧
      (s.part.sp 0).xfer.next = some { action := .read, field := .block 0 } ∧ (s.part.sp 0).xfer.cont = none ∧
      (s.part.sp 0).findEntry (.host 0 1) = some (entry .read .transferring) ∧
      s.part.slotFor (.host 0 1) 0 .disk = some 0 ∧ (entry .read .transferring).retries = 0 ∧
      0 < (entry .read .transferring).first + (entry .read .transferring).count - 1 ∧
      crc32 (idBytes id ++ bytes.toList) = good ∧ crc32 (idBytes id ++ bytes.toList) ≠ good + 1 := by
  refine ⟨by decide +kernel, by decide +kernel, by decide +kernel, by decide +kernel, by decide +kernel,
    by decide +kernel, by decide +kernel, by decide +kernel, rfl, ?_⟩
  intro h
  generalize crc32 _ = c at h
  bv_omega

/-- Every action of a host entry's block, at the retry counts where its clauses meet. -/
theorem meets_FieldEndPassesOrFailsARead_actions :
    ∀ x ∈ [(Action.read, EntryKind.read, SlotSource.disk, false), (.verify, .verify, .disk, false),
        (.compareRead, .guardedWrite, .disk, false), (.write, .write, .host, false), (.write, .write, .host, true),
        (.write, .guardedWrite, .host, false), (.reread, .write, .host, true)],
      ∀ y ∈ [(1, false, none), (2, true, none), (8, false, some (⟨.dataFrameCheck, []⟩ : Ending))],
      let e : Entry :=
        { entry x.2.1 .transferring with retries := y.1, writeVerify := x.2.2.2, abandoned := y.2.1, decided := y.2.2 }
      let s := passing x.1 e (held .filling x.2.2.1 0)
      s.part.atRest = true ∧ s.part.path.state = pathStateFor x.1 ∧ s.part.path.state ≠ .idle ∧
        s.part.path.spindle = some 0 ∧ s.part.path.holder = some (.entry (.host 0 1)) ∧
        s.part.path.field = some (.block 0) ∧ s.part.path.id = some block0 ∧
        (s.part.sp 0).xfer.next = some { action := x.1, field := .block 0 } ∧ (s.part.sp 0).xfer.cont = none ∧
        (s.part.sp 0).findEntry (.host 0 1) = some e ∧ e.owner = .host 0 1 ∧ e.kind ≠ .reassign ∧
        e.track = some track0 ∧ s.part.slotFor (.host 0 1) 0 x.2.2.1 = some 0 ∧
        (x.2.2.1 = .host → s.part.slotFor (.host 0 1) 0 .disk = none) := by
  decide +kernel

theorem meets_HeaderEndBuildsTheMap :
    let b : BuildRec := { next := 0, failed := 7, mismatch := false, highest := none }
    let s : State :=
      { calm with part := { calm.part.modSp 0 (fun u =>
            { u with life := .buildingMap, build := some b, chan := { u.chan with cyl := 68 } }) with
          path := { state := .header, holder := some .build, spindle := some 0, field := some .header, id := none, faulted := false } } }
    let body : List Byte := [1, 0, 68, 0, 0, 0, 0, 0, 5]
    let raw := body ++ bytesOf32 (crc32 body)
    let bytes : Vector Byte 13 := Vector.ofFn fun i => raw.getD i.val 0
    let h : Header := { own := altTrack 0, cls := .free, gen := 5 }
    s.part.atRest = true ∧ s.part.path.state = .header ∧ s.part.path.holder = some .build ∧
      (s.part.sp 0).build = some b ∧ parseHeader (List.replicate 13 0) = none ∧ b.failed < 8 ∧
      s.part.path.faulted = false ∧ parseHeader bytes.toList = some h ∧ h.own = altTrack b.next ∧
      (s.part.sp 0).chan.state = .onTrack ∧ (s.part.sp 0).chan.posKnown = true ∧
      (s.part.sp 0).chan.cyl = (altTrack b.next).cyl ∧ (s.part.sp 0).chan.head = (altTrack b.next).head ∧
      s.part.current 0 = none ∧ (s.part.sp 0).waitReq = none := by
  repeat' refine And.intro ?_ ?_
  all_goals decide +kernel

/-- The header writes of the sequencer, and its steps. -/
theorem meets_HeaderEndBuildsTheMap_sequencer :
    (∀ h ∈ [HeaderUse.claim, .retireFailed, .retireOld, .retireRefused], ∀ tried ∈ [2, 3],
      let s := passing .headerWrite (reassign .transferring 0) StagingSlot.initial
      let q : Lubran := { s.part with
        path := { s.part.path with field := some .header, id := none }
        seq := { sparing .verify with oldAlt := some track1, hdr := some h, tried := tried, generation := some 7 } }
      q.path.state = .header ∧ q.path.spindle = some 0 ∧ q.path.holder = some (.entry .internal) ∧
        q.seq.track = some track1 ∧ q.seq.home = some track0 ∧ q.seq.newAlt = some track1 ∧ q.seq.hdr = some h ∧
        q.path.faulted = false) ∧
    (∀ st ∈ [EntryState.rotating, .transferring], ∀ gen ∈ [65534, 65535], ∀ b ∈ [3, 4, 14],
      let q : Lubran := { (withSp fun u =>
          { u with generation := gen, internal := some (reassign st 0) }).part with
        seq := { sparing .verify with roundFirst := b - 3, generation := some 7 } }
      q.seq.home = some track0 ∧ q.seq.newAlt = some track1 ∧ (q.sp 0).internal = some (reassign st 0) ∧
        (q.sp 0).generation = gen ∧ q.seq.generation = some 7 ∧ b = q.seq.roundFirst + q.seq.roundSize - 1 ∧
        0 ≠ q.seq.roundFirst + q.seq.roundSize - 1) ∧
    let m : MapEntry := { spindle := 0, home := track0, alt := track1 }
    let answer (map : List MapEntry) := (({ calm.part with spareMap := map } : Lubran).commit 0 track0 { cyl := 68, head := 1 } 7).2
    answer [] = .committed ∧ answer [m] = .retargeted track1 ∧
      answer (List.replicate 384 { m with spindle := 1 }) = .mapFull := by
  repeat' refine And.intro ?_ ?_
  all_goals decide +kernel

theorem meets_ReportsAreCounted :
    let m (c : Nat) (cand : Bool) : Suspect :=
      { spindle := 0, track := { cyl := c, head := 0 }, soft := 15, hard := 0, lastSeen := 0, candidate := cand, advised := false }
    let list (n : Nat) (cand : Bool) : Lubran := { calm.part with suspects := (List.range n).map fun c => m c cand }
    let spared : Lubran := { calm.part with
      spareMap := [{ spindle := 0, home := { cyl := 1, head := 0 }, alt := { cyl := 68, head := 0 } }] }
    isHomeCyl 1 = true ∧ (spared.forward 0 { cyl := 1, head := 0 }).isSome = true ∧
      calm.part.forward 0 { cyl := 1, head := 0 } = none ∧
      ((list 2 true).suspects.find? fun x => x.isOf 0 { cyl := 1, head := 0 }) = some (m 1 true) ∧
      ((list 32 false).suspects.find? fun x => x.isOf 0 { cyl := 40, head := 0 }) = none ∧
      32 ≤ (list 32 false).suspects.length ∧ (∃ x ∈ (list 32 false).suspects, x.candidate = false) ∧
      ((list 32 true).suspects.find? fun x => x.isOf 0 { cyl := 40, head := 0 }) = none ∧
      ∀ x ∈ (list 32 true).suspects, x.candidate = true := by
  repeat' refine And.intro ?_ ?_
  all_goals decide +kernel

end Sys2Proof.Tests
end

section
/-!
The rotational wait (R37): what is added to the arrival slot to reach the lead slot.
-/
namespace Sys2Proof.Machine

theorem rotationalWait_lt (slot e lead : Nat) : rotationalWait slot e lead < 96 :=
  Nat.mod_lt _ (by decide)

/-- The subtraction in the wait is exact, as the arrival slot is below 96: the two together are the lead slot and a whole
revolution. -/
theorem arrival_add_rotationalWait_mod (slot e lead : Nat) :
    ((slot + e) % 96 + rotationalWait slot e lead) % 96 = lead % 96 := by
  have hexact : (slot + e) % 96 + (lead + 96 - (slot + e) % 96) = lead + 96 :=
    Nat.add_sub_cancel' (by omega)
  calc ((slot + e) % 96 + rotationalWait slot e lead) % 96
      = ((slot + e) % 96 + (lead + 96 - (slot + e) % 96)) % 96 := by rw [rotationalWait, Nat.add_mod_mod]
    _ = (lead + 96) % 96 := by rw [hexact]
    _ = lead % 96 := Nat.add_mod_right lead 96

/-- Settles O10: a slot number below 96 is its own residue, so the arrival slot and the wait reach the lead slot itself. -/
theorem rotationalWaitReachesTheLeadSlot : Obligations.RotationalWaitReachesTheLeadSlot := by
  intro s e l hl
  exact ⟨rotationalWait_lt s e l, (arrival_add_rotationalWait_mod s e l).trans (Nat.mod_eq_of_lt hl)⟩

end Sys2Proof.Machine
end

section
/-!
CANCEL (R61): what it makes of the part that took it, for each thing its tag can name.
-/
namespace Sys2Proof.Machine

/-- The ENDING of a host entry and the release of its tag are one change of its port's record (R56, R167). -/
theorem giveEnding_host {q : Lubran} {e : Entry} {p : Port} {t : Tag} {code : EndCode} {reply : List Byte}
    (ho : e.owner = .host p t) :
    q.giveEnding e code reply = q.modPort p fun r =>
      { r with replies := r.replies ++ [.ending (byteOf t.val) (byteOf (kindCode e.kind)) code (byteOf e.residual)
                 reply none]
               tags := r.tags.set t false } := by
  simp only [Lubran.giveEnding, ho, Lubran.pushEnding, Lubran.pushReply, setTag_eq, modPort_modPort]

/-- An entry that leaves a queue is no consequence to take: neither a settle, nor a motion held back, nor a selection
that is due reads the entries. -/
theorem atRest_dropEntry {q : Lubran} {i : Spindle} {o : Owner} (h : q.atRest = true) :
    (q.modSp i fun u => u.dropEntry o).atRest = true := by
  obtain ⟨hsettle, hwait, hdue⟩ := sp_of_atRest h i
  refine atRest_modSp h ?_ ?_ ((dropEntry_selectDue _ _).trans hdue)
  · simpa [SpindleUnit.settleReady] using hsettle
  · simpa [SpindleUnit.waitReady] using hwait

section
variable {s : State} {p : Port} {f : HostFrame} {a : Ask} {t : Tag}

/-- The effect of a CANCEL that is taken; taking its frame has changed no entry. -/
theorem effect_cancel_accepted (hf : parseCancel f.payload = some (a, t)) (ha : s.part.Accepts p 19 f a) :
    (∀ i e, s.part.findEntry (.host p t) = some (i, e) → e.inService = false →
      effect (.cancel p f) s.part =
        (((s.part.taking p a).modSp i fun u => u.dropEntry e.owner).giveEnding e .cancelled []).answer p a 19 .good) ∧
    ((∀ i e, s.part.findEntry (.host p t) = some (i, e) → e.inService = true) →
      effect (.cancel p f) s.part = (s.part.taking p a).answer p a 19 .notCancellable) := by
  have hfind : (s.part.taking p a).findEntry (.host p t) = s.part.findEntry (.host p t) :=
    taking_findEntry ha.2.2.1 _
  simp only [effect, hf, accepted ha, hfind]
  refine ⟨fun i e he hq => by simp [he, hq], fun hs => ?_⟩
  cases he : s.part.findEntry (.host p t) with
  | none => rfl
  | some x => simp [hs x.1 x.2 he]

/-- R61: a QUEUED entry leaves, its CANCELLED is handed over before the GOOD of CANCEL, and its tag is free. -/
theorem exec_cancel_queued (hf : parseCancel f.payload = some (a, t)) (ha : s.part.Accepts p 19 f a) {i : Spindle}
    {e : Entry} (he : s.part.findEntry (.host p t) = some (i, e)) (hq : e.inService = false) :
    exec (.cancel p f) s = .next { s with part :=
      ((((s.part.taking p a).modSp i fun u => u.dropEntry (.host p t)).modPort p fun r =>
          { r with replies := r.replies ++ [.ending (byteOf t.val) (byteOf (kindCode e.kind)) .cancelled
                     (byteOf e.residual) [] none]
                   tags := r.tags.set t false }).withEnding p a.tag 19 .good []).kickAll } := by
  have ho : e.owner = .host p t := findEntry_owner rfl he
  have heff := (effect_cancel_accepted hf ha).1 i e he hq
  rw [giveEnding_host ho, ho, answer_eq_withEnding] at heff
  refine exec_atRest heff (atRest_withEnding ((atRest_modPort _ _ _).trans (atRest_dropEntry ?_)))
  exact taking_atRest ha.1 ha.2.2.1

/-- R61: where the tag names no QUEUED entry, CANCEL ends NOT CANCELLABLE, and that ending is all. -/
theorem exec_cancel_notCancellable (hf : parseCancel f.payload = some (a, t)) (ha : s.part.Accepts p 19 f a)
    (hs : ∀ i e, s.part.findEntry (.host p t) = some (i, e) → e.inService = true) :
    exec (.cancel p f) s = .next { s with part :=
      ((s.part.taking p a).withEnding p a.tag 19 .notCancellable []).kickAll } :=
  exec_atRest ((effect_cancel_accepted hf ha).2 hs) (atRest_withEnding (taking_atRest ha.1 ha.2.2.1))

end

/-- Settles O27: an entry that the tag names is QUEUED or in service, and without one there is nothing to cancel. -/
theorem cancelRemovesAQueuedEntry : Obligations.CancelRemovesAQueuedEntry := by
  intro s p f a t hf ha
  refine ⟨fun i e he hq => exec_cancel_queued hf ha he (by simp [Entry.inService, hq]), fun h => ?_⟩
  refine exec_cancel_notCancellable hf ha fun j x hx => ?_
  rcases h with ⟨i, e, he, hs⟩ | hn
  · obtain ⟨-, rfl⟩ : i = j ∧ e = x := by simpa [he] using hx
    simpa [Entry.inService] using hs
  · simp [hn] at hx

end Sys2Proof.Machine
end

section
/-!
The service selector (R52): where the chosen entry stands among the eligible host entries.
-/
namespace Sys2Proof.Machine

section
variable (q : Lubran) (i : Spindle)

/-- The scan for the least cost answers an entry of the list it ran over that costs less than every entry before it
and no more than every entry after it. -/
theorem leastCost_split (best : Entry) (es : List Entry) :
    ∃ before after : List Entry, best :: es = before ++ q.leastCost i best es :: after ∧
      (∀ x ∈ before, q.cost i (q.leastCost i best es) < q.cost i x) ∧
      ∀ x ∈ after, q.cost i (q.leastCost i best es) ≤ q.cost i x := by
  induction es generalizing best with
  | nil => exact ⟨[], [], rfl, by simp, by simp⟩
  | cons e es ih =>
    by_cases hlt : q.cost i e < q.cost i best
    · -- the later entry takes over, and the one it beats joins those before
      rw [show q.leastCost i best (e :: es) = q.leastCost i e es from if_pos hlt]
      obtain ⟨before, after, hsplit, hbefore, hafter⟩ := ih e
      have hle : q.cost i (q.leastCost i e es) ≤ q.cost i e := by
        have hmem : e ∈ before ++ q.leastCost i e es :: after := hsplit ▸ List.mem_cons_self
        grind
      refine ⟨best :: before, after, by rw [hsplit, List.cons_append], ?_, hafter⟩
      exact List.forall_mem_cons.2 ⟨Nat.lt_of_le_of_lt hle hlt, hbefore⟩
    · -- the best so far stays, and the later entry stands right behind it
      rw [show q.leastCost i best (e :: es) = q.leastCost i best es from if_neg hlt]
      obtain ⟨before, after, hsplit, hbefore, hafter⟩ := ih best
      cases before with
      | nil =>
        obtain ⟨hbest, rfl⟩ := List.cons.inj hsplit
        rw [← hbest] at hafter ⊢
        exact ⟨[], e :: es, rfl, by simp, List.forall_mem_cons.2 ⟨Nat.le_of_not_lt hlt, hafter⟩⟩
      | cons b before =>
        obtain ⟨rfl, hes⟩ := List.cons.inj hsplit
        obtain ⟨hb, hrest⟩ := List.forall_mem_cons.1 hbefore
        refine ⟨best :: e :: before, after, congrArg (best :: e :: ·) hes, ?_, hafter⟩
        have he : q.cost i (q.leastCost i best es) < q.cost i e := Nat.lt_of_lt_of_le hb (Nat.le_of_not_lt hlt)
        exact List.forall_mem_cons.2 ⟨hb, List.forall_mem_cons.2 ⟨he, hrest⟩⟩

variable {q i}

/-- R52, step 1. -/
theorem choose_internal {e : Entry} (h : (q.sp i).internal = some e) : q.choose i = some e := by
  simp [Lubran.choose, h]

/-- R52, step 2. -/
theorem choose_aged {e : Entry} (hi : (q.sp i).internal = none)
    (he : ((q.sp i).queue.filter (q.sp i).eligible).find? (fun x => decide (q.params.ageLimit < q.age i x)) = some e) :
    q.choose i = some e := by
  simp only [Lubran.choose, hi, he]

/-- R52, step 3. -/
theorem choose_leastCost {e : Entry} {es : List Entry} (hi : (q.sp i).internal = none)
    (hl : (q.sp i).queue.filter (q.sp i).eligible = e :: es)
    (hy : ∀ x ∈ e :: es, q.age i x ≤ q.params.ageLimit) : q.choose i = some (q.leastCost i e es) := by
  have hnone : (e :: es).find? (fun x => decide (q.params.ageLimit < q.age i x)) = none := by
    simpa only [List.find?_eq_none, decide_eq_true_eq, Nat.not_lt] using hy
  simp only [Lubran.choose, hi, hl, hnone]

/-- R52: no step yields an entry where no host entry is eligible. -/
theorem choose_none (hi : (q.sp i).internal = none) (hl : (q.sp i).queue.filter (q.sp i).eligible = []) :
    q.choose i = none := by
  simp [Lubran.choose, hi, hl]

/-- R52, steps 2 and 3: among eligible host entries, one is chosen: the first whose age exceeds AGE_LIMIT, or where
no age does, the first of least cost. -/
theorem choose_host (hi : (q.sp i).internal = none) (hne : (q.sp i).queue.filter (q.sp i).eligible ≠ []) :
    ∃ (e : Entry) (before after : List Entry), q.choose i = some e ∧
      (q.sp i).queue.filter (q.sp i).eligible = before ++ e :: after ∧
      ((q.params.ageLimit < q.age i e ∧ ∀ x ∈ before, q.age i x ≤ q.params.ageLimit) ∨
        ((∀ x ∈ before ++ e :: after, q.age i x ≤ q.params.ageLimit) ∧
          (∀ x ∈ before, q.cost i e < q.cost i x) ∧ ∀ x ∈ after, q.cost i e ≤ q.cost i x)) := by
  cases ha : ((q.sp i).queue.filter (q.sp i).eligible).find? fun x => decide (q.params.ageLimit < q.age i x) with
  | some e =>
    obtain ⟨hage, before, after, hsplit, hyoung⟩ := List.find?_eq_some_iff_append.1 ha
    refine ⟨e, before, after, choose_aged hi ha, hsplit, .inl ⟨by simpa using hage, ?_⟩⟩
    simpa using hyoung
  | none =>
    obtain ⟨first, rest, hl⟩ := List.exists_cons_of_ne_nil hne
    have hyoung : ∀ x ∈ first :: rest, q.age i x ≤ q.params.ageLimit := by
      simpa only [hl, List.find?_eq_none, decide_eq_true_eq, Nat.not_lt] using ha
    obtain ⟨before, after, hsplit, hbefore, hafter⟩ := leastCost_split q i first rest
    exact ⟨_, before, after, choose_leastCost hi hl hyoung, hl.trans hsplit,
      .inr ⟨hsplit ▸ hyoung, hbefore, hafter⟩⟩

end

/-- Settles O12: the internal entry goes first; without it `choose_host` names the entry chosen, and an empty list of
eligible entries gives none. -/
theorem selectorChoosesByItsRules : Obligations.SelectorChoosesByItsRules := by
  intro q i
  refine ⟨fun e he => choose_internal he, fun hi => ?_⟩
  by_cases hne : (q.sp i).queue.filter (q.sp i).eligible = []
  · have hc := choose_none hi hne
    exact ⟨fun e he => absurd (hc.symm.trans he) (by simp), iff_of_true hc hne⟩
  · obtain ⟨e, before, after, hc, hsplit, hrule⟩ := choose_host hi hne
    refine ⟨fun x hx => ?_, iff_of_false (by simp [hc]) hne⟩
    obtain rfl : e = x := Option.some.inj (hc.symm.trans hx)
    exact ⟨before, after, hsplit, hrule⟩

end Sys2Proof.Machine
end

section
/-!
RELEASE and BREAK RESERVATION (R143, R144): what each makes of the part that took it, by the holder of the spindle named.
-/
namespace Sys2Proof.Machine

/-- An accepted command finds each reservation as it was before its frame. -/
theorem reservation_of_accepts {q : Lubran} {p : Port} {k : Nat} {f : HostFrame} {a : Ask} (h : q.Accepts p k f a)
    (i : Spindle) : ((q.taking p a).sp i).reservation = (q.sp i).reservation := by
  obtain ⟨-, -, hevent, -⟩ := h
  rw [taking_sp hevent]

/-- An accepted command finds the part at rest. -/
theorem atRest_of_accepts {q : Lubran} {p : Port} {k : Nat} {f : HostFrame} {a : Ask} (h : q.Accepts p k f a) :
    (q.taking p a).atRest = true := by
  obtain ⟨hrest, -, hevent, -⟩ := h
  exact taking_atRest hrest hevent

/-- A reservation that is cleared is no consequence to take: nothing that a step could take reads the holder. -/
theorem atRest_clearReservation {q : Lubran} {i : Spindle} (h : q.atRest = true) :
    (q.clearReservation i).atRest = true := by
  obtain ⟨hsettle, hwait, hdue⟩ := sp_of_atRest h i
  exact atRest_modSp h hsettle hwait hdue

/-- An immediate command whose effect is an ENDING on a part at rest: the ENDING goes to the port's transmitter, and
nothing follows (R167). -/
theorem exec_answer {c : Instr} {s : State} {q : Lubran} {p : Port} {a : Ask} {k : Nat} {code : EndCode}
    (he : effect c s.part = q.answer p a k code) (h : q.atRest = true) :
    exec c s = .next { s with part := (q.withEnding p a.tag k code []).kickAll } :=
  exec_atRest (he.trans answer_eq_withEnding) (atRest_withEnding h)

section
variable {s : State} {p : Port} {f : HostFrame} {a : Ask} {n : Nat} {i : Spindle}

/-- The effect of a RELEASE that is taken, by whether its sender is the holder. -/
theorem effect_release_accepted (hu : a.unit = some i) (hf : parsePlainSpindle f.payload = some (a, n))
    (ha : s.part.Accepts p 17 f a) :
    effect (.release p f) s.part =
      if (s.part.sp i).reservation = some p then ((s.part.taking p a).clearReservation i).answer p a 17 .good
      else (s.part.taking p a).answer p a 17 .notHolder := by
  simp only [effect, hf, accepted ha, hu, reservation_of_accepts ha]

/-- R143: the holder's RELEASE clears the reservation and ends GOOD. -/
theorem exec_release_holder (hu : a.unit = some i) (hf : parsePlainSpindle f.payload = some (a, n))
    (ha : s.part.Accepts p 17 f a) (hr : (s.part.sp i).reservation = some p) :
    exec (.release p f) s = .next { s with part :=
      (((s.part.taking p a).clearReservation i).withEnding p a.tag 17 .good []).kickAll } :=
  exec_answer ((effect_release_accepted hu hf ha).trans (if_pos hr))
    (atRest_clearReservation (atRest_of_accepts ha))

/-- R143: from any other port, or with no holder, RELEASE ends NOT HOLDER, and that ending is all. -/
theorem exec_release_notHolder (hu : a.unit = some i) (hf : parsePlainSpindle f.payload = some (a, n))
    (ha : s.part.Accepts p 17 f a) (hr : (s.part.sp i).reservation ≠ some p) :
    exec (.release p f) s = .next { s with part :=
      ((s.part.taking p a).withEnding p a.tag 17 .notHolder []).kickAll } :=
  exec_answer ((effect_release_accepted hu hf ha).trans (if_neg hr)) (atRest_of_accepts ha)

/-- The effect of a BREAK RESERVATION that is taken, for a spindle with a holder and for one with none. -/
theorem effect_breakReservation_accepted (hu : a.unit = some i) (hf : parseBreak f.payload = some (a, n))
    (ha : s.part.Accepts p 18 f a) :
    (∀ r, (s.part.sp i).reservation = some r →
      effect (.breakReservation p f) s.part =
        (((s.part.taking p a).clearReservation i).raiseAt r (.spindle i) (.reservationBroken p)).answer p a 18 .good) ∧
    ((s.part.sp i).reservation = none →
      effect (.breakReservation p f) s.part = (s.part.taking p a).answer p a 18 .good) := by
  simp only [effect, hf, accepted ha, hu, reservation_of_accepts ha]
  exact ⟨fun r hr => by rw [hr], fun hr => by rw [hr]⟩

/-- R144: a reservation is cleared, whoever holds it, its former holder is told by whom, and the command ends GOOD. -/
theorem exec_breakReservation_held (hu : a.unit = some i) (hf : parseBreak f.payload = some (a, n))
    (ha : s.part.Accepts p 18 f a) {r : Port} (hr : (s.part.sp i).reservation = some r) :
    exec (.breakReservation p f) s = .next { s with part :=
      ((((s.part.taking p a).clearReservation i).raiseAt r (.spindle i) (.reservationBroken p)).withEnding p a.tag 18
        .good []).kickAll } :=
  exec_answer ((effect_breakReservation_accepted hu hf ha).1 r hr)
    (atRest_raiseAt.trans (atRest_clearReservation (atRest_of_accepts ha)))

/-- R144: with no holder, BREAK RESERVATION ends GOOD, and that ending is all. -/
theorem exec_breakReservation_unheld (hu : a.unit = some i) (hf : parseBreak f.payload = some (a, n))
    (ha : s.part.Accepts p 18 f a) (hr : (s.part.sp i).reservation = none) :
    exec (.breakReservation p f) s = .next { s with part :=
      ((s.part.taking p a).withEnding p a.tag 18 .good []).kickAll } :=
  exec_answer ((effect_breakReservation_accepted hu hf ha).2 hr) (atRest_of_accepts ha)

end

/-- Settles O26: RELEASE asks whether its sender is the holder, BREAK RESERVATION whether there is one. -/
theorem releaseAndBreakReservation : Obligations.ReleaseAndBreakReservation := by
  intro s p f a n i hu
  refine ⟨fun hf ha => ⟨?_, ?_⟩, fun hf ha => ⟨fun r => ?_, ?_⟩⟩
  · exact exec_release_holder hu hf ha
  · exact exec_release_notHolder hu hf ha
  · exact exec_breakReservation_held hu hf ha
  · exact exec_breakReservation_unheld hu hf ha

end Sys2Proof.Machine
end

section
/-!
NOTIFY (R160): taking its frame has left every link as it was, so the ports that its effect tells are those that were UP
before it, and each of them takes the notice into its table.
-/
namespace Sys2Proof.Machine

/-- A selection event marks a spindle, and no port. -/
theorem selectionEvent_port {q : Lubran} {i : Spindle} (r : Port) : (q.selectionEvent i).port r = q.port r := by
  unfold Lubran.selectionEvent
  split <;> rfl

/-- An allegiance is a matter of its spindle: with its end, no port's record changes. -/
theorem endAllegianceOf_port {q : Lubran} {p : Port} {i : Spindle} (r : Port) :
    (q.endAllegianceOf p i).port r = q.port r := by
  unfold Lubran.endAllegianceOf
  split
  · split
    · exact selectionEvent_port r
    · rfl
  · rfl

/-- Of the port records, taking a command changes the sender's, by the reload of its timer alone (R177). -/
theorem taking_port {q : Lubran} {p : Port} {a : Ask} (r : Port) :
    (q.taking p a).port r = (q.modPort p LinkPort.reload).port r := by
  unfold Lubran.taking Lubran.endNamedAllegiance
  split
  · exact endAllegianceOf_port r
  · rfl

/-- Taking a command moves no link to another state. -/
theorem taking_link {q : Lubran} {p : Port} {a : Ask} (r : Port) :
    ((q.taking p a).port r).link = (q.port r).link := by
  rw [taking_port, port_modPort]
  split <;> rfl

/-- R160: the ports that take a NOTIFY are the same before its frame is taken and after. -/
theorem notifyTakers_taking {q : Lubran} {p : Port} {a : Ask} {targets : Vector Bool 4} :
    (q.taking p a).notifyTakers p targets = q.notifyTakers p targets := by
  simp only [Lubran.notifyTakers, taking_link]

/-- A port that takes a NOTIFY is UP. -/
theorem link_of_mem_notifyTakers {q : Lubran} {p r : Port} {targets : Vector Bool 4}
    (h : r ∈ q.notifyTakers p targets) : (q.port r).link = .up := by
  obtain ⟨-, htaker⟩ := List.mem_filter.1 h
  obtain ⟨-, htells⟩ := Bool.and_eq_true_iff.1 htaker
  exact (of_decide_eq_true htells).2

/-- Raised at ports that are all UP, a notice is dropped by none of them: each takes it into its table, and the others
stay UP meanwhile (R158). -/
theorem raiseEach_up {q : Lubran} {ports : List Port} {key : NoticeKey} {d : Detail}
    (hup : ∀ r ∈ ports, (q.port r).link = .up) :
    q.raiseEach ports key d =
      ports.foldl (fun q r => q.modPort r fun x => { x with notices := raiseInto x.notices key d }) q := by
  induction ports generalizing q with
  | nil => rfl
  | cons r rest ih =>
    obtain ⟨hr, hrest⟩ := List.forall_mem_cons.1 hup
    have htaken : q.raiseAt r key d = q.modPort r fun x => { x with notices := raiseInto x.notices key d } :=
      if_pos hr
    have hstill : ∀ t ∈ rest, ((q.raiseAt r key d).port t).link = .up := by
      intro t ht
      rw [htaken, port_modPort]
      split <;> exact hrest t ht
    calc q.raiseEach (r :: rest) key d = (q.raiseAt r key d).raiseEach rest key d := rfl
      _ = _ := by rw [ih hstill, htaken, List.foldl_cons]

/-- The effect of a NOTIFY that is taken: its raise at the ports that were UP, and its ENDING with their set. -/
theorem effect_notify_accepted {q : Lubran} {p : Port} {f : HostFrame} {a : Ask} {targets : Vector Bool 4}
    {bytes : List Byte} (hf : parseNotify f.payload = some (a, targets, bytes)) (ha : q.Accepts p 22 f a) :
    effect (.notify p f) q =
      ((q.taking p a).raiseEach (q.notifyTakers p targets) (.port p) (.notify bytes)).answer p a 22 .good
        [portSetByte (Vector.ofFn fun r => decide (r ∈ q.notifyTakers p targets))] := by
  simp only [effect, hf, accepted ha, notifyTakers_taking]

/-- Settles O30: every port told is UP, so each raise is a change of its table, and nothing follows the ENDING. -/
theorem notifyRaisesAtItsTargets : Obligations.NotifyRaisesAtItsTargets := by
  intro s p f a targets bytes hf ha takers
  have hup : ∀ r ∈ takers, ((s.part.taking p a).port r).link = .up := fun r hr =>
    (taking_link r).trans (link_of_mem_notifyTakers hr)
  rw [← raiseEach_up hup]
  exact exec_atRest ((effect_notify_accepted hf ha).trans answer_eq_withEnding)
    (atRest_withEnding (atRest_raiseEach.trans (atRest_of_accepts ha)))

end Sys2Proof.Machine
end

section
/-!
Facts about lists, vectors and conditionals that core Lean does not have: the package is built without Mathlib.
-/
namespace Sys2Proof.Machine

theorem ite_eq_of_iff {α : Type} {b c : Prop} [Decidable b] [Decidable c] {x y u v : α} (h : b ↔ c) (ht : x = u)
    (he : y = v) : (if b then x else y) = if c then u else v :=
  ite_congr (propext h) (fun _ => ht) fun _ => he

theorem foldl_eq_self {α β : Type} {f : β → α → β} {q : β} (h : ∀ x, f q x = q) (l : List α) : l.foldl f q = q := by
  induction l with
  | nil => rfl
  | cons x xs ih => rw [List.foldl_cons, h, ih]

theorem get_replicate {α : Type} {n : Nat} (a : α) (i : Fin n) : (Vector.replicate n a).get i = a :=
  Vector.getElem_replicate i.isLt

/-- Two tests that agree but at one member of a list without repetition keep as many members, but for that one. -/
theorem length_filter_le_succ {α : Type} {f g : α → Bool} {k : α} {l : List α} (hl : l.Nodup)
    (h : ∀ x, x ≠ k → f x = true → g x = true) : (l.filter f).length ≤ (l.filter g).length + 1 := by
  induction l with
  | nil => exact Nat.zero_le _
  | cons x xs ih =>
    obtain ⟨hx, hxs⟩ := List.nodup_cons.1 hl
    by_cases hk : x = k
    · have hrest : (xs.filter f).length ≤ (xs.filter g).length := by
        rw [← List.countP_eq_length_filter, ← List.countP_eq_length_filter]
        exact List.countP_mono_left fun y hy => h y fun hyk => hx (hk ▸ hyk ▸ hy)
      have hcons := (List.sublist_cons_self x xs).filter g |>.length_le
      have hhead : ((x :: xs).filter f).length ≤ (xs.filter f).length + 1 := by
        rw [List.filter_cons]
        split
        · exact Nat.le_refl _
        · exact Nat.le_succ _
      omega
    · have hrest := ih hxs
      have hkeep := h x hk
      rw [List.filter_cons, List.filter_cons]
      by_cases hf : f x = true
      · rw [if_pos hf, if_pos (hkeep hf), List.length_cons, List.length_cons]
        omega
      · rw [if_neg hf]
        split
        · rw [List.length_cons]
          omega
        · exact hrest

end Sys2Proof.Machine
end

section
/-!
The machine as a whole: what every step keeps, from the run of an effect (`run_next`) and from what the commands keep
(`Kept`).
-/
namespace Sys2Proof.Machine

/-- Settles O3: a step is the run of an effect; its part comes out of the drain at rest, and the transmitters have chosen. -/
theorem everyStepEndsSettled : Obligations.EveryStepEndsSettled := by
  intro s t hstep
  obtain ⟨f, s', -, hrun⟩ := step_run s
  obtain ⟨r, hdrain, hpart, -⟩ := run_next (hrun ▸ hstep)
  rw [hpart]
  exact ⟨(kickAll_atRest r).trans (drain_some hdrain), kickAll_kickAll r⟩

/-- A command that takes settings keeps the bounds, as every other command does (R174, R175). -/
theorem exec_bounded {c : Instr} {s t : State} (h : exec c s = .next t) (hb : s.part.Bounded) : t.part.Bounded := by
  by_cases hc : setsNone c
  · exact (exec_kept c s t h hc).bounded hb
  · rw [exec_effect] at h
    exact (Kept.run (Kept.refl (effect c s.part)) h).bounded (effect_bounded c s.part hb hc)

/-- A hard reset loads the reset values of the string parameters, and each is within its range (R174). -/
theorem hardReset_inRange (q : Lubran) (x : Straps) : (q.hardReset x).params.InRange := by
  rw [hardReset_eq]
  show Params.default.InRange
  decide

/-- SET STRING brings each parameter into its range; where it is not taken, the parameters stay (R174). -/
theorem setString_inRange {q : Lubran} {p : Port} {f : HostFrame} (h : q.params.InRange) :
    (effect (.setString p f) q).params.InRange := by
  refine command_cases (P := fun r => r.params.InRange) (fun r hr => hr.params ▸ h) fun a x r hx _ => ?_
  exact parseSetString_inRange hx

/-- SET PORT has no string parameter (R175). -/
theorem setPort_params {q : Lubran} {p : Port} {f : HostFrame} : (effect (.setPort p f) q).params = q.params := by
  refine command_cases (P := fun r => r.params = q.params) (fun r hr => hr.params) fun a x r _ hr => ?_
  unfold Lubran.setPort
  dsimp only
  split <;> exact hr.params

/-- Every command keeps the string parameters within their ranges (R27, R174). -/
theorem effect_inRange (c : Instr) {q : Lubran} (hc : ¬ setsNone c) (h : q.params.InRange) :
    (effect c q).params.InRange := by
  cases c with
  | powerOnReset x => simp only [effect]; exact hardReset_inRange q x
  | pinReset x => simp only [effect]; exact hardReset_inRange q x
  | setString p f => exact setString_inRange h
  | setPort p f => rw [setPort_params]; exact h
  | _ => exact absurd trivial hc

theorem exec_inRange {c : Instr} {s t : State} (h : exec c s = .next t) (hr : s.part.params.InRange) :
    t.part.params.InRange := by
  by_cases hc : setsNone c
  · rw [(exec_kept c s t h hc).params]
    exact hr
  · rw [exec_effect] at h
    rw [(Kept.run (Kept.refl (effect c s.part)) h).params]
    exact effect_inRange c hc hr

/-- One period of CLOCK keeps all that the bounds and the ranges speak of. -/
theorem tick_kept {s t : State} (h : s.run Lubran.tick = .next t) : Kept s.part t.part :=
  Kept.run (f := Lubran.tick) (Kept.refl s.part).tick h

/-- Settles O4: by whether a command waits or a period of CLOCK passes. -/
theorem everyStepKeepsTheBounds : Obligations.EveryStepKeepsTheBounds := by
  intro s t hstep
  unfold step at hstep
  split at hstep
  next c rest _ =>
    obtain ⟨s', hpart, hs'⟩ : ∃ s' : State, s'.part = s.part ∧ exec c s' = .next t := ⟨{ s with pending := rest }, rfl, hstep⟩
    rw [← hpart]
    exact ⟨exec_bounded hs', exec_inRange hs'⟩
  next =>
    have hkept := tick_kept hstep
    refine ⟨hkept.bounded, fun hr => ?_⟩
    rw [hkept.params]
    exact hr

end Sys2Proof.Machine
end

section
/-!
The settings (R174, R175): SET STRING writes no port record and SET PORT no spindle's settings, and neither touches the
straps; every other command but the hard resets keeps them all (`Kept`).
-/
namespace Sys2Proof.Machine

theorem LinkPort.SameSettings.trans {a b c : LinkPort} (h : a.SameSettings b) (g : b.SameSettings c) :
    a.SameSettings c := by
  obtain ⟨h1, h2, h3, h4, h5, h6, h7⟩ := h
  obtain ⟨g1, g2, g3, g4, g5, g6, g7⟩ := g
  exact ⟨g1.trans h1, g2.trans h2, g3.trans h3, g4.trans h4, g5.trans h5, g6.trans h6, g7.trans h7⟩

/-- What SET STRING leaves alone (R174). -/
theorem setString_keeps {q : Lubran} {p : Port} {f : HostFrame} :
    (effect (.setString p f) q).straps = q.straps ∧
      ∀ r, (q.port r).SameSettings ((effect (.setString p f) q).port r) := by
  refine command_cases (P := fun b => b.straps = q.straps ∧ ∀ r, (q.port r).SameSettings (b.port r))
    (fun b hb => ⟨hb.straps, hb.ports⟩) fun a x b _ hb => ?_
  have hanswer : Kept (b.setString x) ((b.setString x).answer p a 48 .good) := (Kept.refl _).answer
  exact ⟨hanswer.straps.trans hb.straps, fun r => (hb.ports r).trans (hanswer.ports r)⟩

/-- What SET PORT leaves alone (R175): it writes port records, and nothing else. -/
theorem setPort_keeps {q : Lubran} {p : Port} {f : HostFrame} :
    (effect (.setPort p f) q).straps = q.straps ∧ (effect (.setPort p f) q).params = q.params ∧
      ∀ i, (q.sp i).SameSettings ((effect (.setPort p f) q).sp i) := by
  refine command_cases
    (P := fun b => b.straps = q.straps ∧ b.params = q.params ∧ ∀ i, (q.sp i).SameSettings (b.sp i))
    (fun b hb => ⟨hb.straps, hb.params, hb.spindles⟩) fun a x b _ hb => ?_
  unfold Lubran.setPort
  dsimp only
  split <;> exact ⟨hb.straps, hb.params, hb.spindles⟩

/-- Settles O6: SET STRING and SET PORT by what they leave alone, every other command by `exec_kept`. -/
theorem onlySettingsCommandsChangeSettings : Obligations.OnlySettingsCommandsChangeSettings := by
  intro c s t hexec hpower hpin
  have hrun := hexec
  rw [exec_effect] at hrun
  have hrest : Kept (effect c s.part) t.part := Kept.run (Kept.refl _) hrun
  by_cases hset : setsNone c
  · have hkept := exec_kept c s t hexec hset
    exact ⟨hkept.straps, fun _ => ⟨hkept.params, hkept.spindles⟩, fun _ => hkept.ports⟩
  cases c with
  | powerOnReset x => exact absurd rfl (hpower x)
  | pinReset x => exact absurd rfl (hpin x)
  | setString p f =>
    obtain ⟨hstraps, hports⟩ := setString_keeps (q := s.part) (p := p) (f := f)
    exact ⟨hrest.straps.trans hstraps, fun h => absurd rfl (h p f), fun _ r => (hports r).trans (hrest.ports r)⟩
  | setPort p f =>
    obtain ⟨hstraps, hparams, hspindles⟩ := setPort_keeps (q := s.part) (p := p) (f := f)
    refine ⟨hrest.straps.trans hstraps, fun _ => ⟨hrest.params.trans hparams, fun i => ?_⟩, fun h => absurd rfl (h p f)⟩
    exact ⟨(hrest.spindles i).1.trans (hspindles i).1, (hrest.spindles i).2.trans (hspindles i).2⟩
  | _ => exact absurd trivial hset

/-- Settles O1: a command is the run of its effect, and a run neither refuses nor touches the queue. -/
theorem stepRunsTheFrontCommand : Obligations.StepRunsTheFrontCommand := by
  refine ⟨fun s c rest hfront => by simp only [step, hfront], fun c s => ?_⟩
  rw [exec_effect]
  exact ⟨fun _ => run_refused, fun _ => run_pending⟩

end Sys2Proof.Machine
end

section
/-!
One period of CLOCK on a settled part (log entry 8): the timers that run on, port by port and spindle by spindle.
-/
namespace Sys2Proof.Machine

/-- A link timer that does not expire in this period is lowered by one, and a stopped one stays (R177). -/
theorem tickLink_running {q : Lubran} {p : Port} (h : ∀ n, (q.port p).timer = some n → 1 < n) :
    q.tickLink p = q.modPort p fun r => { r with timer := r.timer.map (· - 1) } := by
  unfold Lubran.tickLink
  cases htimer : (q.port p).timer with
  | none => exact (modPort_id q p (by rw [htimer, Option.map_none, ← htimer])).symm
  | some n =>
    dsimp only
    rw [if_neg (Nat.not_le.2 (h n htimer))]
    simp [Lubran.modPort, htimer]

/-- A spin-up timer that does not expire in this period is lowered by one, and a stopped one stays (R6). -/
theorem tickSpindle_running {q : Lubran} {i : Spindle} (h : ∀ n, (q.sp i).spinTimer = some n → 1 < n) :
    q.tickSpindle i = q.modSp i fun u => { u with spinTimer := u.spinTimer.map (· - 1) } := by
  unfold Lubran.tickSpindle
  cases htimer : (q.sp i).spinTimer with
  | none => exact (modSp_id q i (by rw [htimer, Option.map_none, ← htimer])).symm
  | some n =>
    dsimp only
    rw [if_neg (Nat.not_le.2 (h n htimer))]
    exact modSp_congr_at (by simp [htimer])

/-- A fold over ports, each step of which changes its own port alone: the steps may be taken as they stand at first. -/
theorem foldl_tickLink {l : List Port} (hn : l.Nodup) {q : Lubran}
    (h : ∀ p ∈ l, ∀ n, (q.port p).timer = some n → 1 < n) :
    l.foldl Lubran.tickLink q =
      l.foldl (fun q p => q.modPort p fun r => { r with timer := r.timer.map (· - 1) }) q := by
  induction l generalizing q with
  | nil => rfl
  | cons p rest ih =>
    obtain ⟨hp, hrest⟩ := List.nodup_cons.1 hn
    rw [List.foldl_cons, List.foldl_cons, tickLink_running (h p List.mem_cons_self)]
    refine ih hrest fun r hr n => ?_
    rw [port_modPort_ne _ _ _ fun e : r = p => hp (e ▸ hr)]
    exact h r (List.mem_cons_of_mem p hr) n

theorem foldl_tickSpindle {l : List Spindle} (hn : l.Nodup) {q : Lubran}
    (h : ∀ i ∈ l, ∀ n, (q.sp i).spinTimer = some n → 1 < n) :
    l.foldl Lubran.tickSpindle q =
      l.foldl (fun q i => q.modSp i fun u => { u with spinTimer := u.spinTimer.map (· - 1) }) q := by
  induction l generalizing q with
  | nil => rfl
  | cons i rest ih =>
    obtain ⟨hi, hrest⟩ := List.nodup_cons.1 hn
    rw [List.foldl_cons, List.foldl_cons, tickSpindle_running (h i List.mem_cons_self)]
    refine ih hrest fun j hj n => ?_
    rw [sp_modSp_ne _ _ _ fun e : j = i => hi (e ▸ hj)]
    exact h j (List.mem_cons_of_mem i hj) n

/-- The same change of every port record is a map over them. -/
theorem foldl_modPort_eq_map (q : Lubran) (f : LinkPort → LinkPort) :
    allPorts.foldl (fun q p => q.modPort p f) q = { q with ports := q.ports.map f } := by
  have hports (r : Port) : (allPorts.foldl (fun q p => q.modPort p f) q).port r = f (q.port r) := by
    rw [port_foldl_modPort allPorts q (fun _ => f) (by decide), if_pos (mem_allPorts r)]
  apply Lubran.ext_records
  case hp => intro r; rw [hports]; simp [Lubran.port, vget]
  all_goals intros; rfl

/-- A period of CLOCK in which no timer expires (R6, R177). -/
theorem tick_running {q : Lubran} (hlink : ∀ p n, (q.port p).timer = some n → 1 < n)
    (hspin : ∀ i n, (q.sp i).spinTimer = some n → 1 < n) :
    q.tick = { q with
      ports := q.ports.map fun r => { r with timer := r.timer.map (· - 1) }
      spindles := q.spindles.map fun u => { u with spinTimer := u.spinTimer.map (· - 1) } } := by
  have hspindles (r : Lubran) (h : r.spindles = q.spindles) : allSpindles.foldl Lubran.tickSpindle r =
      { r with spindles := r.spindles.map fun u => { u with spinTimer := u.spinTimer.map (· - 1) } } := by
    have hsp (i : Spindle) : r.sp i = q.sp i := by rw [Lubran.sp, h, Lubran.sp]
    rw [foldl_tickSpindle (by decide) fun i _ => hsp i ▸ hspin i, foldl_modSp_eq_map]
  unfold Lubran.tick
  rw [foldl_tickLink (by decide) fun p _ => hlink p, foldl_modPort_eq_map, hspindles]
  rfl

/-- What a READ offers is read from the entries and the slots (R81, R182). -/
theorem offeredSlot_congr {a b : Lubran} (hfind : ∀ o, b.findEntry o = a.findEntry o) (hslots : b.slots = a.slots)
    (p : Port) (t : Tag) : b.offeredSlot p t = a.offeredSlot p t := by
  have hslot : b.slot = a.slot := funext fun k => by rw [Lubran.slot, hslots, Lubran.slot]
  unfold Lubran.offeredSlot
  rw [hfind, hslot]

/-- A transmitter's choice does not look at the link timer (R182). -/
theorem canBegin_timer {a b : Lubran} {p : Port} {x : Option Nat} (hport : b.port p = { a.port p with timer := x })
    (hoffer : ∀ t, b.offeredSlot p t = a.offeredSlot p t) : b.canBegin p ↔ a.canBegin p := by
  simp only [Lubran.canBegin, Lubran.readyDrain, hport, hoffer]

/-- The timers have no part in being at rest, nor in the transmitters' choice. -/
theorem settled_of_timers {q : Lubran} {f : LinkPort → Option Nat} {g : SpindleUnit → Option Nat} (h : q.Settled) :
    Lubran.Settled { q with
      ports := q.ports.map fun r => { r with timer := f r }
      spindles := q.spindles.map fun u => { u with spinTimer := g u } } := by
  obtain ⟨hrest, hchosen⟩ := (settled_iff q).1 h
  generalize hb : ({ q with
    ports := q.ports.map fun r => { r with timer := f r }
    spindles := q.spindles.map fun u => { u with spinTimer := g u } } : Lubran) = b
  have hport (p : Port) : b.port p = { q.port p with timer := f (q.port p) } := by
    simp [← hb, Lubran.port, vget]
  have hsp (i : Spindle) : b.sp i = { q.sp i with spinTimer := g (q.sp i) } := by
    simp [← hb, Lubran.sp, vget]
  have hslots : b.slots = q.slots := by rw [← hb]
  have hfind (o : Owner) : b.findEntry o = q.findEntry o := by
    simp only [Lubran.findEntry, hsp]
    cases o <;> rfl
  refine (settled_iff b).2 ⟨?_, fun p => ?_⟩
  · refine atRest_congr (fun i => ?_) (fun k => ?_) ?_ ?_ ?_ hrest
    · rw [hsp]
      exact ⟨rfl, rfl, rfl⟩
    · simp [Lubran.slot, hslots]
    all_goals rw [← hb]
  · rw [canBegin_timer (hport p) (offeredSlot_congr hfind hslots p)]
    exact hchosen p

/-- Settles O2: no timer expires in the period, and lowering them leaves a settled part settled. -/
theorem idleStepLowersTheTimers : Obligations.IdleStepLowersTheTimers := by
  intro s hempty hsettled hlink hspin
  obtain ⟨hrest, hchosen⟩ := settled_of_timers (f := fun r => r.timer.map (· - 1))
    (g := fun u => u.spinTimer.map (· - 1)) hsettled
  have hstep : step s = s.run Lubran.tick := by simp only [step, hempty]
  have htick := tick_running hlink hspin
  rw [← htick] at hrest hchosen ⊢
  rw [hstep, run_atRest hrest, hchosen]

end Sys2Proof.Machine
end

section
/-!
The reset state: every record at its reset value, every link DOWN.
-/
namespace Sys2Proof.Machine

/-- Right after a reset nothing is left to be taken: no channel settles, no motion is held back, nobody waits for a slot, and
the sequencer has no work. -/
theorem initial_atRest (x : Straps) (lines : Vector Lines 8) : (Lubran.initial x lines).atRest = true := by
  refine (atRest_iff _).2 ⟨fun i => ?_, fun i => ?_, ?_, fun i => ?_, ?_⟩
  · rw [initial_sp]; rfl
  · rw [initial_sp]; rfl
  · exact fun h => h.2 rfl
  · rw [initial_sp]; rfl
  · exact fun h => h.2 rfl

/-- Right after a reset every link is DOWN, and no transmitter begins a frame (R177). -/
theorem initial_not_canBegin (x : Straps) (lines : Vector Lines 8) (p : Port) :
    ¬ (Lubran.initial x lines).canBegin p := by
  rintro ⟨⟨hup, -, -⟩, -⟩
  rw [initial_port] at hup
  cases hup

/-- Settles O5: the reset state is the initial part with nothing strapped. -/
theorem resetStateIsSound : Obligations.ResetStateIsSound :=
  ⟨(settled_iff _).2 ⟨initial_atRest _ _, initial_not_canBegin _ _⟩, initial_bounded _ _,
    show Params.default.InRange by decide, rfl⟩

end Sys2Proof.Machine
end

section
/-!
The mapping of cylinders (R1): each 70 physical cylinders hold 68 home cylinders.
-/
namespace Sys2Proof.Machine

theorem isHomeCyl_iff (p : Nat) : isHomeCyl p = true ↔ p % 70 < 68 := decide_eq_true_iff

theorem physicalCyl_home (c : Nat) : isHomeCyl (physicalCyl c) = true := by
  rw [isHomeCyl_iff, physicalCyl]
  omega

theorem physicalCyl_lt {c : Nat} (h : c < Config.homeCylinders) : physicalCyl c < Config.cylinders := by
  simp only [physicalCyl, Config.homeCylinders, Config.cylinders] at *
  omega

theorem logicalCyl_lt {p : Nat} (h : p < Config.cylinders) (hhome : isHomeCyl p = true) :
    logicalCyl p < Config.homeCylinders := by
  rw [isHomeCyl_iff] at hhome
  simp only [logicalCyl, Config.homeCylinders, Config.cylinders] at *
  omega

theorem physical_logical {p : Nat} (hhome : isHomeCyl p = true) : physicalCyl (logicalCyl p) = p := by
  rw [isHomeCyl_iff] at hhome
  simp only [physicalCyl, logicalCyl]
  omega

/-- Settles O7: the two mappings undo each other (`logical_physical`, `physical_logical`) and stay within their ranges. -/
theorem cylinderMappingIsOneToOne : Obligations.CylinderMappingIsOneToOne :=
  ⟨fun c hc => ⟨physicalCyl_home c, physicalCyl_lt hc, rfl, logical_physical⟩,
    fun _ hp hhome => ⟨logicalCyl_lt hp hhome, physical_logical hhome⟩⟩

end Sys2Proof.Machine
end

section
/-!
Travel times (R30, R31) and the demand code (R34): each is the least, or the largest, that its inequality allows.
-/
namespace Sys2Proof.Machine

/-- Below the answer of the search every candidate fails (R30). -/
theorem lt_of_lt_leastRoot {acc need u : Nat} (fuel from_ : Nat) (hfrom : from_ ≤ u)
    (hu : u < leastRoot acc need fuel from_) : u * u * acc < need := by
  induction fuel generalizing from_ with
  | zero => exact absurd hu (Nat.not_lt.2 hfrom)
  | succ fuel ih =>
    unfold leastRoot at hu
    split at hu
    next => exact absurd hu (Nat.not_lt.2 hfrom)
    next hneed =>
      rcases Nat.eq_or_lt_of_le hfrom with rfl | hlt
      · exact Nat.lt_of_not_le hneed
      · exact ih (from_ + 1) hlt hu

/-- The search answers a candidate that is enough, where one is within its reach (R30). -/
theorem le_leastRoot {acc need : Nat} (fuel from_ : Nat) (h : need ≤ (from_ + fuel) * (from_ + fuel) * acc) :
    need ≤ leastRoot acc need fuel from_ * leastRoot acc need fuel from_ * acc := by
  induction fuel generalizing from_ with
  | zero => exact h
  | succ fuel ih =>
    unfold leastRoot
    split
    next hneed => exact hneed
    next => exact ih (from_ + 1) (by rwa [Nat.add_right_comm, Nat.add_assoc])

/-- No clamped ACC needs a time beyond the search (R30, R33). -/
theorem le_triangularTime {acc d : Nat} (hacc : 16 ≤ acc) (hd : d ≤ 559) :
    16384 * d ≤ triangularTime acc d * triangularTime acc d * acc := by
  refine le_leastRoot 1024 0 ?_
  calc 16384 * d ≤ 1024 * 1024 * 16 := by omega
    _ ≤ (0 + 1024) * (0 + 1024) * acc := Nat.mul_le_mul_left _ hacc

theorem lt_of_lt_triangularTime {acc d u : Nat} (h : u < triangularTime acc d) : u * u * acc < 16384 * d :=
  lt_of_lt_leastRoot 1024 0 (Nat.zero_le u) h

/-- A seek of one cylinder takes 5 slots at the largest ACC (R33). -/
theorem five_le_triangularTime {acc d : Nat} (hacc : 16 ≤ acc) (hmax : acc ≤ 1023) (hd : d ≤ 559) (hpos : 1 ≤ d) :
    5 ≤ triangularTime acc d := by
  refine Nat.le_of_not_lt fun hshort => ?_
  have hreach := le_triangularTime hacc hd
  have hsmall : triangularTime acc d ≤ 4 := by omega
  have hle : triangularTime acc d * triangularTime acc d * acc ≤ 4 * 4 * 1023 :=
    Nat.mul_le_mul (Nat.mul_le_mul hsmall hsmall) hmax
  omega

/-- The coasting time is a ceiling: it is enough (R31). -/
theorem le_coastingTime {acc vmax : Nat} (d : Nat) (hpos : 0 < acc * vmax) :
    256 * vmax * vmax + 16 * d * acc ≤ coastingTime acc vmax d * (acc * vmax) := by
  have h := Nat.lt_div_mul_add (a := 256 * vmax * vmax + 16 * d * acc + (acc * vmax - 1)) hpos
  unfold coastingTime
  omega

/-- The coasting time is a ceiling: nothing less is enough (R31). -/
theorem lt_of_lt_coastingTime {acc vmax d u : Nat} (hpos : 0 < acc * vmax) (h : u < coastingTime acc vmax d) :
    u * (acc * vmax) < 256 * vmax * vmax + 16 * d * acc := by
  have hle := (Nat.le_div_iff_mul_le hpos).1 (Nat.succ_le_of_lt h)
  rw [Nat.succ_mul] at hle
  omega

/-- Settles O8: the search for the least root, and the ceiling of the quotient. -/
theorem travelTimesAreLeast : Obligations.TravelTimesAreLeast := by
  refine ⟨fun acc d hacc hmax hd => ?_, by decide, fun acc vmax d hacc hv => ?_, by decide⟩
  · exact ⟨le_triangularTime hacc hd, fun u => lt_of_lt_triangularTime, five_le_triangularTime hacc hmax hd⟩
  · have hpos : 0 < acc * vmax := Nat.mul_pos (by omega) hv
    exact ⟨le_coastingTime d hpos, fun u => lt_of_lt_coastingTime hpos⟩

/-- Settles O9: `largest_spec` is the code's meaning; a longer distance allows every code that a shorter one does. -/
theorem demandCodeIsLargest : Obligations.DemandCodeIsLargest := by
  intro acc vmax r
  obtain ⟨hle, hcode, hlargest⟩ := largest_spec acc r vmax
  refine ⟨hle, hcode, hlargest, fun hacc hv hr => ?_, fun r' hr => ?_⟩
  · refine hlargest 1 hv ?_
    calc 8 * 1 * 1 ≤ 16 * 1 := by decide
      _ ≤ acc * r := Nat.mul_le_mul hacc hr
  · exact (largest_spec acc r' vmax).2.2 _ hle (Nat.le_trans hcode (Nat.mul_le_mul_left acc hr))

end Sys2Proof.Machine
end

section
/-!
Allocation, retirement and generations (R99, R100, R102, R103).
-/
namespace Sys2Proof.Machine

/-- What a scan of the pool has found before record `i`: no FREE record, or the nearest, which is the first of those equally
near (R99). -/
def BestBefore (p : Nat) (pool : List PoolRec) (i : Nat) : Option Nat → Prop
  | none => ∀ m < i, pool[m]? ≠ some .free
  | some b => b < i ∧ pool[b]? = some .free ∧ ∀ m < i, pool[m]? = some .free →
      distance (altTrack b).cyl p < distance (altTrack m).cyl p ∨
        (distance (altTrack b).cyl p = distance (altTrack m).cyl p ∧ b ≤ m)

theorem isFree_iff (r : PoolRec) : r.isFree = true ↔ r = .free := by cases r <;> simp [PoolRec.isFree]

/-- A record that is not FREE leaves the scan as it was. -/
theorem BestBefore.skip {p i : Nat} {pool : List PoolRec} {best : Option Nat} (h : BestBefore p pool i best)
    (hi : pool[i]? ≠ some .free) : BestBefore p pool (i + 1) best := by
  have hbefore {m : Nat} (hm : m < i + 1) (hfree : pool[m]? = some .free) : m < i :=
    Nat.lt_of_le_of_ne (Nat.le_of_lt_succ hm) fun e => hi (e ▸ hfree)
  cases best with
  | none => exact fun m hm hfree => h m (hbefore hm hfree) hfree
  | some b =>
    obtain ⟨hb, hfree, hnear⟩ := h
    exact ⟨Nat.lt_succ_of_lt hb, hfree, fun m hm hf => hnear m (hbefore hm hf) hf⟩

/-- A FREE record takes over where it is the first found or strictly nearer; otherwise the earlier one stands. -/
theorem BestBefore.take {p i : Nat} {pool : List PoolRec} {best : Option Nat} (hi : pool[i]? = some .free) :
    BestBefore p pool i best → BestBefore p pool (i + 1)
      (match best with
        | none => some i
        | some b => if distance (altTrack i).cyl p < distance (altTrack b).cyl p then some i else best) := by
  intro h
  cases best with
  | none =>
    refine ⟨Nat.lt_succ_self i, hi, fun m hm hfree => .inr ?_⟩
    obtain rfl : m = i := (Nat.eq_or_lt_of_le (Nat.le_of_lt_succ hm)).resolve_right fun hlt => h m hlt hfree
    exact ⟨rfl, Nat.le_refl m⟩
  | some b =>
    obtain ⟨hb, hfree, hnear⟩ := h
    dsimp only
    split
    next hlt =>
      refine ⟨Nat.lt_succ_self i, hi, fun m hm hf => ?_⟩
      rcases Nat.eq_or_lt_of_le (Nat.le_of_lt_succ hm) with rfl | hmi
      · exact .inr ⟨rfl, Nat.le_refl m⟩
      · have := hnear m hmi hf
        omega
    next hnlt =>
      refine ⟨Nat.lt_succ_of_lt hb, hfree, fun m hm hf => ?_⟩
      rcases Nat.eq_or_lt_of_le (Nat.le_of_lt_succ hm) with rfl | hmi
      · omega
      · exact hnear m hmi hf

/-- The scan finds the nearest FREE record of the whole pool (R99). -/
theorem nearestFree_best {p : Nat} {pool : List PoolRec} (rs : List PoolRec) (i : Nat) (best : Option Nat)
    (hrs : pool.drop i = rs) (h : BestBefore p pool i best) (hi : i ≤ pool.length) :
    BestBefore p pool pool.length (nearestFree p i rs best) := by
  induction rs generalizing i best with
  | nil =>
    obtain rfl : i = pool.length := Nat.le_antisymm hi (List.drop_eq_nil_iff.1 hrs)
    exact h
  | cons r rs ih =>
    have hr : pool[i]? = some r := by rw [← List.head?_drop, hrs]; rfl
    have hlt : i < pool.length := (List.getElem?_eq_some_iff.1 hr).1
    have hrest : pool.drop (i + 1) = rs := by rw [← List.tail_drop, hrs]; rfl
    unfold nearestFree
    refine ih (i + 1) _ hrest ?_ hlt
    split
    next hfree => exact BestBefore.take (hr.trans (congrArg some ((isFree_iff r).1 hfree))) h
    next hfree =>
      refine h.skip fun hf => hfree ?_
      rw [isFree_iff]
      exact Option.some.inj (hr.symm.trans hf)

/-- Pool records stand in the order of cylinder, then head (R98). -/
theorem altTrack_order {b m : Nat} (h : b ≤ m) : (altTrack b).cyl < (altTrack m).cyl ∨
    ((altTrack b).cyl = (altTrack m).cyl ∧ (altTrack b).head ≤ (altTrack m).head) := by
  simp only [altTrack, spareCyl]
  omega

section
variable (q : Lubran) (i : Spindle) (p : Nat)

/-- What an allocation on a BUILT spindle has scanned (R99). -/
theorem allocate_scan : BestBefore p (q.sp i).pool (q.sp i).pool.length (nearestFree p 0 (q.sp i).pool none) :=
  nearestFree_best _ 0 none (List.drop_zero ..) (fun m hm => absurd hm (Nat.not_lt_zero m)) (Nat.zero_le _)

theorem allocate_nearest (t : Track) (h : q.allocate i p = some t) : (q.sp i).mapState = .built ∧
    ∃ n : Nat, n < (q.sp i).pool.length ∧ t = altTrack n ∧ (q.sp i).pool[n]? = some .free ∧
      (∀ m : Nat, (q.sp i).pool[m]? = some .free →
        distance t.cyl p < distance (altTrack m).cyl p ∨
        (distance t.cyl p = distance (altTrack m).cyl p ∧
          (t.cyl < (altTrack m).cyl ∨ (t.cyl = (altTrack m).cyl ∧ t.head ≤ (altTrack m).head)))) := by
  unfold Lubran.allocate at h
  split at h
  next hbuilt =>
    obtain ⟨n, hn, rfl⟩ := Option.map_eq_some_iff.1 h
    have hscan := allocate_scan q i p
    rw [hn] at hscan
    obtain ⟨hlt, hfree, hnear⟩ := hscan
    refine ⟨hbuilt, n, hlt, rfl, hfree, fun m hm => ?_⟩
    exact (hnear m (List.getElem?_eq_some_iff.1 hm).1 hm).imp id fun ⟨hd, hle⟩ => ⟨hd, altTrack_order hle⟩
  next => cases h

theorem allocate_eq_none :
    q.allocate i p = none ↔ (q.sp i).mapState ≠ .built ∨ ∀ m : Nat, (q.sp i).pool[m]? ≠ some .free := by
  unfold Lubran.allocate
  split
  next hbuilt =>
    have hscan := allocate_scan q i p
    rw [Option.map_eq_none_iff]
    constructor
    · intro hnone
      rw [hnone] at hscan
      exact .inr fun m hfree => hscan m (List.getElem?_eq_some_iff.1 hfree).1 hfree
    · rintro (hnot | hempty)
      · exact absurd hbuilt hnot
      · cases hn : nearestFree p 0 (q.sp i).pool none with
        | none => rfl
        | some n =>
          rw [hn] at hscan
          exact absurd hscan.2.1 (hempty n)
  next hnot => simp [hnot]

end

/-- A FREE record made RETIRED moves from the one count to the other (R100). -/
theorem counts_retire {pool : List PoolRec} {n : Nat} (h : pool[n]? = some .free) :
    ((pool.set n .retired).filter PoolRec.isFree).length + 1 = (pool.filter PoolRec.isFree).length ∧
      ((pool.set n .retired).filter PoolRec.isRetired).length = (pool.filter PoolRec.isRetired).length + 1 := by
  obtain ⟨hlt, hn⟩ := List.getElem?_eq_some_iff.1 h
  have hpos : 0 < pool.countP PoolRec.isFree :=
    List.countP_pos_iff.2 ⟨pool[n], List.getElem_mem hlt, by rw [hn]; rfl⟩
  simp only [← List.countP_eq_length_filter, List.countP_set hlt, hn, PoolRec.isFree, PoolRec.isRetired]
  simp only [if_true, Bool.false_eq_true, if_false]
  omega

section
variable {q : Lubran} {i : Spindle} {alt : Track}

/-- R100: a FREE record becomes RETIRED, and the POOL LOW test follows. -/
theorem retire_free (h : (q.sp i).pool[altIndex alt]? = some .free) :
    q.retire i alt = (q.setPool i alt .retired).poolLowTest i := by
  simp only [Lubran.retire, h]

theorem retire_retired (h : (q.sp i).pool[altIndex alt]? = some .retired) : q.retire i alt = q := by
  simp only [Lubran.retire, h]

end

/-- Settles O11: the scan of the pool for an allocation, the counts of a retirement, and the generation counter. -/
theorem allocationIsNearest : Obligations.AllocationIsNearest := by
  refine ⟨fun q i p => ⟨allocate_nearest q i p, allocate_eq_none q i p⟩,
    fun q i alt => ⟨fun hfree => ?_, retire_retired⟩, fun q i => ⟨fun hlt => if_pos hlt, fun hlast => ?_⟩⟩
  · obtain ⟨hfewer, hmore⟩ := counts_retire hfree
    rw [retire_free hfree]
    simp only [SpindleUnit.freeCount, SpindleUnit.retiredCount, Lubran.setPool, Lubran.poolLowTest, sp_modSp_self,
      modSp_params]
    exact ⟨hfewer, hmore, fun hlow => if_pos hlow, fun henough => if_neg (Nat.not_le.2 henough)⟩
  · exact if_neg (by omega)

end Sys2Proof.Machine
end

section
/-!
The slot arbiter (R77, R78): the winner under PRIORITY and under FAIR, and what a grant makes of the served set.
-/
namespace Sys2Proof.Machine

section
variable (q : Lubran)

/-- The rank of a waiting host entry under PRIORITY, as one number: the port priority, then the letter downwards (R77). -/
def Lubran.rank : Owner → Nat
  | .host p _ => 4 * (q.port p).priority + (3 - p.val)
  | .internal => 0

/-- Among host entries, to outrank is to have the higher rank (R77). -/
theorem outranks_iff {a b : Owner} (ha : a ≠ .internal) (hb : b ≠ .internal) :
    q.outranks a b = true ↔ q.rank b < q.rank a := by
  cases a with
  | internal => exact absurd rfl ha
  | host p t =>
    cases b with
    | internal => exact absurd rfl hb
    | host r u =>
      simp only [Lubran.outranks, Owner.port, Lubran.rank, decide_eq_true_eq]
      omega

/-- The best of a list of host entries has a higher rank than each before it, and each after it has no higher one. -/
theorem bestOf_split (best : Owner) (ws : List Owner) (hhost : ∀ w ∈ best :: ws, w ≠ .internal) :
    ∃ before after : List Owner, best :: ws = before ++ q.bestOf best ws :: after ∧
      (∀ w ∈ before, q.rank w < q.rank (q.bestOf best ws)) ∧ ∀ w ∈ after, q.rank w ≤ q.rank (q.bestOf best ws) := by
  induction ws generalizing best with
  | nil => exact ⟨[], [], rfl, by simp, by simp⟩
  | cons w ws ih =>
    obtain ⟨hbest, hw, hws⟩ : best ≠ .internal ∧ w ≠ .internal ∧ ∀ x ∈ ws, x ≠ .internal := by simpa using hhost
    have hiff := outranks_iff q hw hbest
    by_cases hlt : q.outranks w best = true
    · -- the later entry takes over, and the one it outranks joins those before
      rw [show q.bestOf best (w :: ws) = q.bestOf w ws from if_pos hlt]
      obtain ⟨before, after, hsplit, hbefore, hafter⟩ := ih w (List.forall_mem_cons.2 ⟨hw, hws⟩)
      have hle : q.rank w ≤ q.rank (q.bestOf w ws) := by
        have hmem : w ∈ before ++ q.bestOf w ws :: after := hsplit ▸ List.mem_cons_self
        grind
      refine ⟨best :: before, after, by rw [hsplit, List.cons_append], ?_, hafter⟩
      exact List.forall_mem_cons.2 ⟨Nat.lt_of_lt_of_le (hiff.1 hlt) hle, hbefore⟩
    · -- the best so far stays, and the later entry stands somewhere behind it
      rw [show q.bestOf best (w :: ws) = q.bestOf best ws from if_neg hlt]
      have hle : q.rank w ≤ q.rank best := Nat.le_of_not_lt fun h => hlt (hiff.2 h)
      obtain ⟨before, after, hsplit, hbefore, hafter⟩ := ih best (List.forall_mem_cons.2 ⟨hbest, hws⟩)
      cases before with
      | nil =>
        obtain ⟨hb, rfl⟩ := List.cons.inj hsplit
        rw [← hb] at hafter ⊢
        exact ⟨[], w :: ws, rfl, by simp, List.forall_mem_cons.2 ⟨hle, hafter⟩⟩
      | cons b before =>
        obtain ⟨rfl, hrest⟩ := List.cons.inj hsplit
        obtain ⟨hb, hbs⟩ := List.forall_mem_cons.1 hbefore
        refine ⟨best :: w :: before, after, congrArg (best :: w :: ·) hrest, ?_, hafter⟩
        exact List.forall_mem_cons.2 ⟨hb, List.forall_mem_cons.2 ⟨Nat.lt_of_le_of_lt hle hb, hbs⟩⟩

/-- R77: what the winner under PRIORITY is. -/
theorem winner_priority {o : Owner} {served : List Port} (hmode : q.params.arbMode = .priority)
    (h : q.winner = some (o, served)) : served = q.served ∧
      ((Owner.internal ∈ q.waiting ∧ o = .internal) ∨
        (Owner.internal ∉ q.waiting ∧ ∃ before after p t, q.waiting = before ++ o :: after ∧ o = .host p t ∧
          ∀ w ∈ q.waiting, ∀ r u, w = .host r u →
            (q.port r).priority < (q.port p).priority ∨
            ((q.port r).priority = (q.port p).priority ∧ (p.val < r.val ∨ (p = r ∧ w ∉ before))))) := by
  unfold Lubran.winner at h
  split at h
  next hin =>
    cases h
    exact ⟨rfl, .inl ⟨hin, rfl⟩⟩
  next hin =>
    rw [hmode] at h
    dsimp only at h
    cases hwait : q.waiting with
    | nil => rw [hwait] at h; cases h
    | cons w ws =>
      rw [hwait] at h hin
      obtain ⟨before, after, hsplit, hbefore, hafter⟩ := bestOf_split q w ws fun x hx e => hin (e ▸ hx)
      cases h
      refine ⟨rfl, .inr ⟨hin, before, after, ?_⟩⟩
      cases ho : q.bestOf w ws with
      | internal => exact absurd (hsplit ▸ List.mem_append_right before (ho ▸ List.mem_cons_self)) hin
      | host p t =>
        rw [ho] at hsplit hbefore hafter
        refine ⟨p, t, hsplit, rfl, fun x hx r u hru => ?_⟩
        subst hru
        have hle : q.rank (.host r u) ≤ q.rank (.host p t) ∧
            (Owner.host r u ∈ before → q.rank (.host r u) < q.rank (.host p t)) := by
          rw [hsplit] at hx
          grind
        by_cases hb : Owner.host r u ∈ before
        · have := hle.2 hb
          simp only [Lubran.rank] at this
          omega
        · have := hle.1
          simp only [Lubran.rank, hb, not_false_eq_true, and_true, Fin.ext_iff] at this ⊢
          omega

/-- R78: the served set that a FAIR grant starts from. -/
theorem servedNow_eq (hin : Owner.internal ∉ q.waiting) {start : List Port}
    (hall : (∀ p t, Owner.host p t ∈ q.waiting → p ∈ q.served) → start = [])
    (hsome : (∃ p t, Owner.host p t ∈ q.waiting ∧ p ∉ q.served) → start = q.served) : q.servedNow = start := by
  have hserved : (q.waiting.all fun w => (w.port.map fun p => decide (p ∈ q.served)).getD true) = true ↔
      ∀ p t, Owner.host p t ∈ q.waiting → p ∈ q.served := by
    rw [List.all_eq_true]
    refine ⟨fun h p t hw => by simpa [Owner.port] using h _ hw, fun h w hw => ?_⟩
    cases w with
    | internal => exact absurd hw hin
    | host p t => simpa [Owner.port] using h p t hw
  unfold Lubran.servedNow
  split
  next h => exact (hall (hserved.1 h)).symm
  next h =>
    refine (hsome ?_).symm
    exact Classical.byContradiction fun hno =>
      h (hserved.2 fun p t hw => Classical.byContradiction fun hp => hno ⟨p, t, hw, hp⟩)

/-- R78: a FAIR grant without the internal entry looks for the first entry whose port is not in the set. -/
theorem winner_fair (hmode : q.params.arbMode = .fair) (hin : Owner.internal ∉ q.waiting) :
    q.winner = (q.waiting.find? fun w => (w.port.map fun p => decide (p ∉ q.servedNow)).getD false).map fun w =>
      (w, match w.port with
        | some p => q.servedNow ++ [p]
        | none => q.servedNow) := by
  unfold Lubran.winner
  rw [if_neg hin, hmode] <;> rfl

theorem winner_fair_first (hmode : q.params.arbMode = .fair) (hin : Owner.internal ∉ q.waiting)
    {before after : List Owner} {p : Port} {t : Tag} (hsplit : q.waiting = before ++ .host p t :: after)
    (hp : p ∉ q.servedNow) (hbefore : ∀ r u, Owner.host r u ∈ before → r ∈ q.servedNow) :
    q.winner = some (.host p t, q.servedNow ++ [p]) := by
  have hfind : (q.waiting.find? fun w => (w.port.map fun p => decide (p ∉ q.servedNow)).getD false) =
      some (.host p t) := by
    refine List.find?_eq_some_iff_append.2 ⟨by simp [Owner.port, hp], before, after, hsplit, fun w hw => ?_⟩
    cases w with
    | internal => exact absurd (hsplit ▸ List.mem_append_left _ hw) hin
    | host r u => simp [Owner.port, hbefore r u hw]
  rw [winner_fair q hmode hin, hfind]
  rfl

theorem winner_fair_exists (hmode : q.params.arbMode = .fair) (hin : Owner.internal ∉ q.waiting)
    (hne : q.waiting ≠ []) :
    ∃ p t, p ∉ q.servedNow ∧ Owner.host p t ∈ q.waiting ∧ q.winner = some (.host p t, q.servedNow ++ [p]) := by
  rw [winner_fair q hmode hin]
  cases hfind : q.waiting.find? fun w => (w.port.map fun p => decide (p ∉ q.servedNow)).getD false with
  | none =>
    obtain ⟨w, hw, hunserved⟩ := exists_unserved hin hne
    exact absurd hunserved (List.find?_eq_none.1 hfind w hw)
  | some w =>
    have hw := List.find?_some hfind
    cases w with
    | internal => simp [Owner.port] at hw
    | host p t => exact ⟨p, t, by simpa [Owner.port] using hw, List.mem_of_find?_eq_some hfind, rfl⟩

/-- Binding a slot is no matter of the served set (R75). -/
theorem bindSlot_served (k : Fin 8) (i : Spindle) (e : Entry) : (q.bindSlot k i e).served = q.served := by
  unfold Lubran.bindSlot
  cases e.kind <;> cases e.owner <;> dsimp only <;> (try split) <;> rfl

/-- R77, R78: a grant leaves the served set that its winner came with. -/
theorem grantOne_served {w : Owner × List Port} (hgrant : q.canGrant = true) (hw : q.winner = some w) :
    q.grantOne.served = w.2 := by
  obtain ⟨k, hk⟩ := Option.isSome_iff_exists.1 (Bool.and_eq_true_iff.1 hgrant).1
  unfold Lubran.grantOne
  rw [hk, hw]
  dsimp only
  split
  · rfl
  · split
    · split
      · exact bindSlot_served ..
      · exact bindSlot_served ..
    · rfl

end

/-- Settles O13: PRIORITY by rank, FAIR by the first entry whose port is not served. -/
theorem priorityArbiterOrder : Obligations.PriorityArbiterOrder := by
  refine ⟨fun q o served hmode hw => winner_priority q hmode hw, fun q hmode => ⟨fun hin => if_pos hin, ?_⟩,
    fun q w hgrant hw => grantOne_served q hgrant hw⟩
  intro hin start hall hsome
  obtain rfl := servedNow_eq q hin hall hsome
  exact ⟨fun before after p t hsplit hp hbefore => winner_fair_first q hmode hin hsplit hp hbefore,
    winner_fair_exists q hmode hin⟩

end Sys2Proof.Machine
end

section
/-!
The attention table (R157, R158): what a raise makes of the notices of its pair and of the others.
-/

namespace Sys2Proof.Machine

theorem isFor_iff {n : Notice} {kind : NoticeKind} {key : NoticeKey} :
    n.isFor kind key = true ↔ n.detail.kind = kind ∧ n.key = key := decide_eq_true_iff

/-- A notice that takes a raise of its own kind keeps its pair. -/
theorem retake_pair {n : Notice} {d : Detail} (h : n.detail.kind = d.kind) :
    (n.retake d).detail.kind = n.detail.kind ∧ (n.retake d).key = n.key := by
  unfold Notice.retake
  split
  · exact ⟨rfl, rfl⟩
  · exact ⟨h.symm, rfl⟩

section
variable {table : List Notice} {key : NoticeKey} {d : Detail}

theorem raiseInto_pending (h : table.any (fun n => n.isFor d.kind key) = true) :
    raiseInto table key d = table.map fun n => if n.isFor d.kind key then n.retake d else n := if_pos h

theorem raiseInto_new (h : ¬ table.any (fun n => n.isFor d.kind key) = true) :
    raiseInto table key d = table ++ [{ key := key, detail := d, sending := false, follow := none }] := if_neg h

/-- Whether the notice of the pair takes the raise or another passes by, its kind and key stay. -/
theorem retaken_pair (n : Notice) :
    (if n.isFor d.kind key then n.retake d else n).detail.kind = n.detail.kind ∧
      (if n.isFor d.kind key then n.retake d else n).key = n.key := by
  split
  next h => exact retake_pair (isFor_iff.1 h).1
  next => exact ⟨rfl, rfl⟩

theorem raiseInto_pairwise (h : table.Pairwise fun a b => ¬ (a.detail.kind = b.detail.kind ∧ a.key = b.key)) :
    (raiseInto table key d).Pairwise fun a b => ¬ (a.detail.kind = b.detail.kind ∧ a.key = b.key) := by
  by_cases hp : table.any (fun n => n.isFor d.kind key) = true
  · rw [raiseInto_pending hp, List.pairwise_map]
    refine h.imp fun {a b} hab => ?_
    rw [(retaken_pair a).1, (retaken_pair a).2, (retaken_pair b).1, (retaken_pair b).2]
    exact hab
  · rw [raiseInto_new hp]
    refine List.pairwise_append.2 ⟨h, List.pairwise_singleton _ _, fun a ha b hb hab => hp ?_⟩
    rw [List.mem_singleton.1 hb] at hab
    exact List.any_eq_true.2 ⟨a, ha, isFor_iff.2 hab⟩

/-- R158: the notices of the other pairs are the same before and after a raise. -/
theorem mem_raiseInto_other {n : Notice} (hn : ¬ (n.detail.kind = d.kind ∧ n.key = key)) :
    n ∈ raiseInto table key d ↔ n ∈ table := by
  by_cases hp : table.any (fun n => n.isFor d.kind key) = true
  · rw [raiseInto_pending hp, List.mem_map]
    constructor
    · rintro ⟨m, hm, rfl⟩
      rw [(retaken_pair m).1, (retaken_pair m).2] at hn
      rw [if_neg fun hf => hn (isFor_iff.1 hf)]
      exact hm
    · exact fun hm => ⟨n, hm, if_neg fun hf => hn (isFor_iff.1 hf)⟩
  · rw [raiseInto_new hp, List.mem_append, List.mem_singleton]
    refine or_iff_left ?_
    rintro rfl
    exact hn ⟨rfl, rfl⟩

theorem exists_raised : ∃ n ∈ raiseInto table key d, n.key = key ∧
    ((n.sending = false ∧ n.detail = d) ∨ (n.sending = true ∧ n.detail.kind = d.kind ∧ n.follow = some d)) := by
  by_cases hp : table.any (fun n => n.isFor d.kind key) = true
  · obtain ⟨n, hn, hf⟩ := List.any_eq_true.1 hp
    obtain ⟨hkind, hkey⟩ := isFor_iff.1 hf
    refine ⟨n.retake d, ?_, (retake_pair hkind).2.trans hkey, ?_⟩
    · rw [raiseInto_pending hp]
      exact List.mem_map.2 ⟨n, hn, if_pos hf⟩
    · unfold Notice.retake
      cases hs : n.sending with
      | true => rw [if_pos rfl]; exact .inr ⟨rfl, hkind, rfl⟩
      | false => rw [if_neg Bool.false_ne_true]; exact .inl ⟨rfl, rfl⟩
  · rw [raiseInto_new hp]
    exact ⟨_, List.mem_append_right _ (List.mem_singleton_self _), rfl, .inl ⟨rfl, rfl⟩⟩

end

/-- Settles O14: a raise changes one notice's detail, or its follow-on, and no notice's pair. -/
theorem oneNoticeOfAPair : Obligations.OneNoticeOfAPair := fun _ _ _ h =>
  ⟨raiseInto_pairwise h, fun _ hn ho => (mem_raiseInto_other ho).2 hn, fun _ hn ho => (mem_raiseInto_other ho).1 hn,
    exists_raised⟩

end Sys2Proof.Machine
end

section
/-!
The Spare Map (R95, R101, R102): the place of a new entry, and what a commit makes of the map and the pool.
-/

namespace Sys2Proof.Machine

/-! ## The order of the map -/

theorem before_iff {a b : MapEntry} : a.before b = true ↔ a.spindle.val < b.spindle.val ∨
    (a.spindle = b.spindle ∧ (a.home.cyl < b.home.cyl ∨ (a.home.cyl = b.home.cyl ∧ a.home.head < b.home.head))) :=
  decide_eq_true_iff

theorem before_trans {a b c : MapEntry} (hab : a.before b = true) (hbc : b.before c = true) : a.before c = true := by
  rw [before_iff, Fin.ext_iff] at *
  omega

/-- Two entries of different home tracks are in order one way or the other. -/
theorem before_of_not {a b : MapEntry} (hne : ¬ (b.spindle = a.spindle ∧ b.home = a.home))
    (h : ¬ a.before b = true) : b.before a = true := by
  rw [before_iff] at *
  rw [Fin.ext_iff] at *
  have hhome : b.home = a.home ↔ b.home.cyl = a.home.cyl ∧ b.home.head = a.home.head := by
    obtain ⟨c, d⟩ := a.home
    obtain ⟨c', d'⟩ := b.home
    exact Track.mk.injEq .. ▸ Iff.rfl
  rw [hhome] at hne
  omega

theorem mem_insertEntry {m e : MapEntry} {map : List MapEntry} : e ∈ insertEntry m map ↔ e = m ∨ e ∈ map := by
  induction map with
  | nil => exact List.mem_singleton.trans (or_iff_left List.not_mem_nil).symm
  | cons x xs ih =>
    unfold insertEntry
    split
    · exact List.mem_cons
    · rw [List.mem_cons, ih, List.mem_cons]
      exact or_left_comm

theorem insertEntry_pairwise {m : MapEntry} {map : List MapEntry} (h : map.Pairwise fun a b => a.before b = true)
    (hne : ∀ e ∈ map, ¬ (e.spindle = m.spindle ∧ e.home = m.home)) :
    (insertEntry m map).Pairwise fun a b => a.before b = true := by
  induction map with
  | nil => exact List.pairwise_singleton _ _
  | cons x xs ih =>
    obtain ⟨hx, hxs⟩ := List.pairwise_cons.1 h
    unfold insertEntry
    split
    next hm =>
      refine List.pairwise_cons.2 ⟨fun e he => ?_, h⟩
      rcases List.mem_cons.1 he with rfl | he
      · exact hm
      · exact before_trans hm (hx e he)
    next hm =>
      refine List.pairwise_cons.2 ⟨fun e he => ?_, ih hxs fun e he => hne e (List.mem_cons_of_mem _ he)⟩
      rcases mem_insertEntry.1 he with rfl | he
      · exact before_of_not (hne x List.mem_cons_self) hm
      · exact hx e he

/-- A retarget changes no entry's place. -/
theorem retargetEntry_pairwise {i : Spindle} {home alt : Track} {map : List MapEntry}
    (h : map.Pairwise fun a b => a.before b = true) :
    (retargetEntry i home alt map).Pairwise fun a b => a.before b = true := by
  have hplace : ∀ m : MapEntry, (if m.spindle = i ∧ m.home = home then { m with alt := alt } else m).spindle = m.spindle ∧
      (if m.spindle = i ∧ m.home = home then { m with alt := alt } else m).home = m.home := by
    intro m
    split <;> exact ⟨rfl, rfl⟩
  refine List.pairwise_map.2 (h.imp fun {a b} hab => ?_)
  rw [before_iff] at *
  rw [(hplace a).1, (hplace a).2, (hplace b).1, (hplace b).2]
  exact hab

/-! ## A commit -/

section
variable {q : Lubran} {i : Spindle} {home alt : Track} {gen : Nat}

theorem forward_none (h : q.forward i home = none) : ∀ e ∈ q.spareMap, ¬ (e.spindle = i ∧ e.home = home) := by
  have := List.find?_eq_none.1 (Option.map_eq_none_iff.1 h)
  exact fun e he => by simpa only [decide_eq_true_eq] using this e he

theorem raiseAt_spareMap (q : Lubran) (p : Port) (key : NoticeKey) (d : Detail) :
    (q.raiseAt p key d).spareMap = q.spareMap := by
  unfold Lubran.raiseAt
  split <;> rfl

theorem poolLowTest_spareMap (q : Lubran) (i : Spindle) : (q.poolLowTest i).spareMap = q.spareMap := by
  unfold Lubran.poolLowTest
  dsimp only
  split
  · exact foldl_keeps Lubran.spareMap _ (fun q p => raiseAt_spareMap q p _ _) _ _
  · rfl

theorem commit_new (h : q.forward i home = none) (hc : q.spareMap.length < 384) : q.commit i home alt gen =
    (({ q.modSp i (fun u => { u with pool := u.pool.set (altIndex alt) (.inUse home gen) }) with
        spareMap := insertEntry { spindle := i, home := home, alt := alt } q.spareMap } : Lubran).poolLowTest i,
      .committed) := by
  unfold Lubran.commit
  rw [h]
  exact if_pos hc

theorem commit_full (h : q.forward i home = none) (hc : 384 ≤ q.spareMap.length) : q.commit i home alt gen =
    (({ q.modSp i (fun u => { u with pool := u.pool.set (altIndex alt) .retired }) with
        spareMap := q.spareMap } : Lubran).poolLowTest i, .mapFull) := by
  unfold Lubran.commit
  rw [h]
  exact if_neg (Nat.not_lt.2 hc)

theorem commit_retarget {old : Track} (h : q.forward i home = some old) : q.commit i home alt gen =
    (({ q.modSp i (fun u =>
          { u with pool := (u.pool.set (altIndex alt) (.inUse home gen)).set (altIndex old) .retired }) with
        spareMap := retargetEntry i home alt q.spareMap } : Lubran).poolLowTest i, .retargeted old) := by
  unfold Lubran.commit Lubran.setPool
  rw [h]
  simp only [modSp_modSp]
  rfl

theorem commit_pairwise (h : q.spareMap.Pairwise fun a b => a.before b = true) :
    (q.commit i home alt gen).1.spareMap.Pairwise fun a b => a.before b = true := by
  cases hf : q.forward i home with
  | some old =>
    rw [commit_retarget hf, poolLowTest_spareMap]
    exact retargetEntry_pairwise h
  | none =>
    by_cases hc : q.spareMap.length < 384
    · rw [commit_new hf hc, poolLowTest_spareMap]
      exact insertEntry_pairwise h (forward_none hf)
    · rw [commit_full hf (Nat.not_lt.1 hc), poolLowTest_spareMap]
      exact h

end

/-- Settles O15: the order of the map by its place of a new entry, and a commit by its three answers. -/
theorem spareMapStaysInOrder : Obligations.SpareMapStaysInOrder :=
  ⟨fun _ _ h hne => ⟨insertEntry_pairwise h hne, fun _ => mem_insertEntry⟩, fun _ _ _ _ _ =>
    ⟨commit_new, commit_full, fun _ => commit_retarget, commit_pairwise⟩⟩

end Sys2Proof.Machine
end

section
/-!
Error Watch (R119 to R124): what a report makes of the suspect list.
-/

namespace Sys2Proof.Machine

section
variable (q : Lubran)

/-! ## What leaves the suspect list alone -/

theorem raiseAt_suspects (p : Port) (key : NoticeKey) (d : Detail) : (q.raiseAt p key d).suspects = q.suspects := by
  unfold Lubran.raiseAt
  split <;> rfl

theorem raiseMasked_suspects (i : Spindle) (d : Detail) : (q.raiseMasked i d).suspects = q.suspects :=
  foldl_keeps Lubran.suspects _ (fun q p => raiseAt_suspects q p _ _) _ _

theorem selectionEvent_suspects (i : Spindle) : (q.selectionEvent i).suspects = q.suspects := by
  unfold Lubran.selectionEvent
  split <;> rfl

theorem takeWork_suspects : q.takeWork.suspects = q.suspects := by
  unfold Lubran.takeWork
  split
  · rfl
  · dsimp only
    split
    · exact selectionEvent_suspects _ _
    · exact raiseMasked_suspects _ _ _

theorem admitSpare_suspects (r : SpareReq) : (q.admitSpare r).suspects = q.suspects := by
  unfold Lubran.admitSpare
  dsimp only
  split
  · exact takeWork_suspects _
  · rfl

/-! ## A suspect that has taken a report -/

variable {q}

theorem isOf_iff {s : Suspect} {i : Spindle} {t : Track} : s.isOf i t = true ↔ s.spindle = i ∧ s.track = t :=
  decide_eq_true_iff

/-- R124: the candidate action at most marks the suspect as advised. -/
theorem candidateAction_suspects {others : List Suspect} {s : Suspect}
    (hne : ∀ m ∈ others, m.isOf s.spindle s.track = false) :
    ∃ b, (({ q with suspects := others ++ [s] } : Lubran).candidateAction s).suspects =
      others ++ [{ s with advised := b }] := by
  unfold Lubran.candidateAction
  dsimp only
  split
  · exact ⟨s.advised, rfl⟩
  · split
    · exact ⟨s.advised, rfl⟩
    · split
      · exact ⟨s.advised, admitSpare_suspects _ _⟩
      · split
        · exact ⟨s.advised, rfl⟩
        · refine ⟨true, ?_⟩
          have hothers : (others.map fun m =>
              if m.spindle = s.spindle ∧ m.track = s.track then { m with advised := true } else m) = others :=
            (List.map_congr_left fun m hm => if_neg fun hs =>
              Bool.false_ne_true ((hne m hm).symm.trans (isOf_iff.2 hs))).trans (List.map_id others)
          rw [raiseMasked_suspects, List.map_append, List.map_singleton, if_pos ⟨rfl, rfl⟩, hothers]

/-- R121, R122, R124: the suspect stands at the tail, a candidate if it was one or if its counts make it one. -/
theorem enterSuspect_suspects {others : List Suspect} {s : Suspect}
    (hne : ∀ m ∈ others, m.isOf s.spindle s.track = false) :
    ∃ b, (q.enterSuspect others s).suspects =
      others ++ [{ s with candidate := s.candidate || q.isCandidate s, advised := b }] := by
  unfold Lubran.enterSuspect
  split
  next h =>
    obtain ⟨b, hb⟩ := candidateAction_suspects (q := q) (s := { s with candidate := true }) hne
    refine ⟨b, hb.trans ?_⟩
    rw [h, Bool.or_true]
  next h =>
    refine ⟨s.advised, ?_⟩
    rw [eq_false_of_ne_true h, Bool.or_false]

theorem count_eq (s : Suspect) (k : ReportKind) (rev : Nat) : s.count k rev =
    { s with soft := if k = .soft then min 15 (s.soft + 1) else s.soft
             hard := if k = .hard then min 15 (s.hard + 1) else s.hard, lastSeen := rev } := by
  cases k <;> rfl

theorem enterSuspect_count {others : List Suspect} {s : Suspect} {k : ReportKind} {rev : Nat}
    (hne : ∀ m ∈ others, m.isOf s.spindle s.track = false) :
    ∃ m, (q.enterSuspect others (s.count k rev)).suspects = others ++ [m] ∧ m.spindle = s.spindle ∧
      m.track = s.track ∧ m.lastSeen = rev ∧ m.soft = (if k = .soft then min 15 (s.soft + 1) else s.soft) ∧
      m.hard = (if k = .hard then min 15 (s.hard + 1) else s.hard) ∧
      m.candidate = (s.candidate || decide (q.params.softLimit ≤ m.soft ∨ 1 ≤ m.hard)) := by
  rw [count_eq]
  obtain ⟨b, hb⟩ := enterSuspect_suspects (q := q) (others := others) (s :=
    { s with soft := if k = .soft then min 15 (s.soft + 1) else s.soft
             hard := if k = .hard then min 15 (s.hard + 1) else s.hard, lastSeen := rev }) hne
  exact ⟨_, hb, rfl, rfl, rfl, rfl, rfl, rfl⟩

/-! ## The place of a report -/

variable {i : Spindle} {t : Track} {k : ReportKind}

theorem report_forwarded (hh : isHomeCyl t.cyl = true) (hf : (q.forward i t).isSome = true) : q.report i t k = q :=
  if_pos ⟨hh, hf⟩

/-- The suspect that a first report on a track makes (R121). -/
def newSuspect (i : Spindle) (t : Track) : Suspect :=
  { spindle := i, track := t, soft := 0, hard := 0, lastSeen := 0, candidate := false, advised := false }

theorem report_known (h : ¬ (isHomeCyl t.cyl = true ∧ (q.forward i t).isSome = true)) {s : Suspect}
    (hs : (q.suspects.find? fun m => m.isOf i t) = some s) :
    q.report i t k = q.enterSuspect (q.suspects.filter fun m => !m.isOf i t) (s.count k (q.sp i).revs) := by
  unfold Lubran.report
  rw [if_neg h, hs]

theorem newSuspect_count : ({ newSuspect i t with lastSeen := (q.sp i).revs } : Suspect).count k (q.sp i).revs =
    (newSuspect i t).count k (q.sp i).revs := by cases k <;> rfl

theorem report_room (h : ¬ (isHomeCyl t.cyl = true ∧ (q.forward i t).isSome = true))
    (hs : (q.suspects.find? fun m => m.isOf i t) = none) (hc : q.suspects.length < 32) :
    q.report i t k = q.enterSuspect q.suspects ((newSuspect i t).count k (q.sp i).revs) := by
  unfold Lubran.report
  rw [if_neg h, hs, ← newSuspect_count]
  exact if_pos hc

theorem report_evict (h : ¬ (isHomeCyl t.cyl = true ∧ (q.forward i t).isSome = true))
    (hs : (q.suspects.find? fun m => m.isOf i t) = none) (hc : 32 ≤ q.suspects.length) :
    (∀ others, evictOldest q.suspects = some others →
      q.report i t k = q.enterSuspect others ((newSuspect i t).count k (q.sp i).revs)) ∧
    (evictOldest q.suspects = none → q.report i t k = q) := by
  unfold Lubran.report
  simp only [if_neg h, hs, if_neg (show ¬ q.suspects.length < Config.suspectCapacity from Nat.not_lt.2 hc)]
  constructor
  · intro others he
    simp only [he, ← newSuspect_count (q := q)]
    rfl
  · intro he
    simp only [he]

/-- R122: the suspect that makes room is the one nearest the head that is no candidate. -/
theorem evictOldest_some {l others : List Suspect} (h : evictOldest l = some others) :
    ∃ before gone after, l = before ++ gone :: after ∧ (∀ x ∈ before, x.candidate = true) ∧
      gone.candidate = false ∧ others = before ++ after := by
  induction l generalizing others with
  | nil => cases h
  | cons x xs ih =>
    unfold evictOldest at h
    split at h
    next hx =>
      obtain ⟨ys, hys, rfl⟩ := Option.map_eq_some_iff.1 h
      obtain ⟨before, gone, after, rfl, hb, hg, rfl⟩ := ih hys
      refine ⟨x :: before, gone, after, rfl, fun y hy => ?_, hg, rfl⟩
      rcases List.mem_cons.1 hy with rfl | hy
      · exact hx
      · exact hb y hy
    next hx =>
      obtain rfl := Option.some.inj h
      exact ⟨[], x, xs, rfl, fun _ hy => absurd hy List.not_mem_nil, eq_false_of_ne_true hx, rfl⟩

theorem evictOldest_none {l : List Suspect} : evictOldest l = none ↔ ∀ m ∈ l, m.candidate = true := by
  induction l with
  | nil => exact ⟨fun _ _ hm => absurd hm List.not_mem_nil, fun _ => rfl⟩
  | cons x xs ih =>
    unfold evictOldest
    split
    next hx => rw [Option.map_eq_none_iff, ih, List.forall_mem_cons, and_iff_right hx]
    next hx => exact ⟨nofun, fun h => absurd (h x List.mem_cons_self) hx⟩

end

theorem find_isOf_none {l : List Suspect} {i : Spindle} {t : Track} (h : (l.find? fun m => m.isOf i t) = none) :
    ∀ m ∈ l, m.isOf i t = false := fun m hm => eq_false_of_ne_true (List.find?_eq_none.1 h m hm)

/-- Settles O60: where the track's suspect stands already, where there is room for a new one, and where one makes room. -/
theorem reportsAreCounted : Obligations.ReportsAreCounted := by
  intro q i t k
  refine ⟨fun hh hf => report_forwarded hh hf, fun hopen => ?_⟩
  have hnot : ¬ (isHomeCyl t.cyl = true ∧ (q.forward i t).isSome = true) := by
    rintro ⟨hh, hf⟩
    rcases hopen with h | h
    · exact Bool.false_ne_true (h.symm.trans hh)
    · rw [h] at hf; exact Bool.false_ne_true hf
  dsimp only
  cases hs : q.suspects.find? fun m => m.isOf i t with
  | some s =>
    obtain ⟨rfl, rfl⟩ := isOf_iff.1 (List.find?_some (p := fun m : Suspect => m.isOf i t) hs)
    obtain ⟨m, hm, hmi, hmt, hrev, hsoft, hhard, hcand⟩ := enterSuspect_count (q := q) (k := k)
      (rev := (q.sp s.spindle).revs) (s := s)
      (others := q.suspects.filter fun m : Suspect => !m.isOf s.spindle s.track) fun m hm => by
        simpa using (List.mem_filter.1 hm).2
    rw [← report_known hnot hs] at hm
    exact ⟨fun _ => ⟨_, m, hm, hmi, hmt, hrev, hsoft, hhard, hcand, fun _ => rfl, nofun⟩, nofun⟩
  | none =>
    have hother := find_isOf_none hs
    have hall : (q.suspects.filter fun m => !m.isOf i t) = q.suspects :=
      List.filter_eq_self.2 fun m hm => by rw [hother m hm]; rfl
    have hentered := fun (others : List Suspect) (ho : ∀ m ∈ others, m ∈ q.suspects) =>
      enterSuspect_count (q := q) (s := newSuspect i t) (k := k) (rev := (q.sp i).revs) fun m hm => hother m (ho m hm)
    rw [hall]
    by_cases hc : q.suspects.length < 32
    · obtain ⟨m, hm, hrest⟩ := hentered q.suspects fun _ => id
      obtain ⟨hmi, hmt, hrev, hsoft, hhard, hcand⟩ := hrest
      rw [← report_room hnot hs hc] at hm
      exact ⟨fun _ => ⟨_, m, hm, hmi, hmt, hrev, hsoft, hhard, hcand, fun _ => rfl,
        fun _ hfull => absurd hc (Nat.not_lt.2 hfull)⟩, fun _ hfull => absurd hc (Nat.not_lt.2 hfull)⟩
    · have hr := report_evict (k := k) hnot hs (Nat.not_lt.1 hc)
      cases he : evictOldest q.suspects with
      | none =>
        have hfull := evictOldest_none.1 he
        refine ⟨?_, fun _ _ _ => hr.2 he⟩
        rintro (h | h | ⟨m, hm, h⟩)
        · exact absurd h Bool.false_ne_true
        · exact absurd h hc
        · exact absurd (h.symm.trans (hfull m hm)) Bool.false_ne_true
      | some others =>
        obtain ⟨before, gone, after, hl, hb, hg, rfl⟩ := evictOldest_some he
        obtain ⟨m, hm, hmi, hmt, hrev, hsoft, hhard, hcand⟩ := hentered (before ++ after) fun m hm => by
          rw [hl]
          exact List.mem_append.2 ((List.mem_append.1 hm).imp_right (List.mem_cons_of_mem _))
        rw [← hr.1 _ he] at hm
        refine ⟨fun _ => ⟨_, m, hm, hmi, hmt, hrev, hsoft, hhard, hcand, ?_,
          fun _ _ => ⟨before, gone, after, hl, hb, hg, rfl⟩⟩, fun _ _ hfull => ?_⟩
        · rintro (h | h)
          · exact absurd h Bool.false_ne_true
          · exact absurd h hc
        · exact absurd (hg.symm.trans (hfull gone (hl ▸ List.mem_append_right _ List.mem_cons_self)))
            Bool.false_ne_true

end Sys2Proof.Machine
end

section
/-!
Taking a command (R168): the acceptance checks in their order, and the answer to a command that fails one.
-/

namespace Sys2Proof.Machine

/-! ## The checks in their order -/

section
variable {q : Lubran} {p : Port} {a : Ask} {i : Spindle}

theorem addressOk_spindle {n : Nat} (hn : a.spindle = some n)
    (h : 8 ≤ n ∨ ∃ h : n < 8, (q.sp ⟨n, h⟩).life = .absent) : q.addressOk a = false := by
  unfold Lubran.addressOk
  rw [hn]
  rcases h with h | ⟨h, hl⟩
  · simp [spindleOf, Nat.not_lt.2 h]
  · simp [spindleOf, h, hl]

theorem addressOk_track {c h : Nat} (ht : a.track = some (c, h)) (hout : 544 ≤ c ∨ 12 ≤ h) :
    q.addressOk a = false := by
  have : ¬ (c < Config.homeCylinders ∧ h < Config.heads) := by
    simp only [Config.homeCylinders, Config.heads]
    omega
  simp only [Lubran.addressOk, ht, decide_eq_false this, Bool.and_false, Bool.false_and]

theorem addressOk_blocks {b n : Nat} (hb : a.blocks = some (b, n)) (hout : 15 ≤ b ∨ 15 < b + n) :
    q.addressOk a = false := by
  have : ¬ (b < Config.blocksPerTrack ∧ b + n ≤ Config.blocksPerTrack) := by
    simp only [Config.blocksPerTrack]
    omega
  simp only [Lubran.addressOk, hb, decide_eq_false this, Bool.and_false]

/-- Check 6 passes a command that does not ask for the reservation, or whose spindle no other port holds. -/
theorem reservationOk_iff (hu : a.unit = some i) : q.reservationOk p a = true ↔
    a.reserved = false ∨ (q.sp i).reservation = none ∨ (q.sp i).reservation = some p := by
  unfold Lubran.reservationOk
  rw [hu]
  cases a.reserved with
  | false => simp
  | true => cases hr : (q.sp i).reservation <;> simp [hr]

/-- Check 7 passes a command that is not queued, or whose spindle takes queued commands. -/
theorem stateOk_iff (hu : a.unit = some i) : q.stateOk a = true ↔ a.queued = false ∨
    (q.sp i).life = .ready ∨ (q.sp i).life = .recalibrating ∨ (q.sp i).life = .buildingMap := by
  unfold Lubran.stateOk
  rw [hu]
  cases a.queued with
  | false => simp
  | true => cases hl : (q.sp i).life <;> simp [hl]

/-- Check 8 passes a command that is not queued, or whose spindle's queue has room. -/
theorem roomOk_iff (hu : a.unit = some i) : q.roomOk a = true ↔ a.queued = false ∨ (q.sp i).queue.length < 8 := by
  unfold Lubran.roomOk
  rw [hu]
  cases a.queued <;> simp [Config.queueCapacity]

theorem refusal_tag (h : (q.port p).tags.get a.tag = true) : q.refusal p a = some .tagInUse := if_pos h

theorem refusal_address (h1 : (q.port p).tags.get a.tag = false) (h : q.addressOk a = false) :
    q.refusal p a = some .addressOutOfRange := by
  unfold Lubran.refusal
  rw [h1, if_neg Bool.false_ne_true, if_pos h]

/-- The checks from 4 on, of a command whose tag is free and whose address is in range. -/
theorem refusal_addressed (h1 : (q.port p).tags.get a.tag = false) (h2 : q.addressOk a = true) : q.refusal p a =
    if a.authority ∧ (q.port p).authority = false then some .notAuthorized
    else if (q.port p).fenceOk a = false then some .extentViolation
    else if q.reservationOk p a = false then some .reservedElsewhere
    else if q.stateOk a = false then some .notReady
    else if q.roomOk a = false then some .queueFull
    else none := by
  unfold Lubran.refusal
  rw [h1, if_neg Bool.false_ne_true, h2, if_neg Bool.true_eq_false.mp]

end

/-- Settles O17: each check of the chain, by the condition of its own under which it passes. -/
theorem acceptanceChecksInOrder : Obligations.AcceptanceChecksInOrder := by
  intro q p a
  refine ⟨refusal_tag, fun htag => ⟨fun n hn h => refusal_address htag (addressOk_spindle hn h),
    fun c h ht hout => refusal_address htag (addressOk_track ht hout),
    fun b n hb hout => refusal_address htag (addressOk_blocks hb hout), fun haddr => ?_⟩⟩
  rw [refusal_addressed htag haddr]
  refine ⟨fun h1 h2 => if_pos ⟨h1, h2⟩, fun hauth => ?_⟩
  rw [if_neg (by rintro ⟨h1, h2⟩; simp [h1, h2] at hauth)]
  refine ⟨fun hf => if_pos hf, fun hf i hu => ?_⟩
  rw [hf, if_neg Bool.true_eq_false.mp]
  have hres := reservationOk_iff (q := q) (p := p) hu
  have hstate := stateOk_iff (q := q) hu
  have hroom := roomOk_iff (q := q) hu
  refine ⟨fun r ha hr hne => if_pos (eq_false_of_ne_true fun h => ?_), fun hheld => ?_⟩
  · rcases hres.1 h with h | h | h
    · exact Bool.false_ne_true (h.symm.trans ha)
    · exact absurd (hr.symm.trans h) nofun
    · exact hne (Option.some.inj (hr.symm.trans h))
  rw [hres.2 hheld, if_neg Bool.true_eq_false.mp]
  refine ⟨fun hq hlife => if_pos (eq_false_of_ne_true fun h => ?_), fun hq hlife => ?_, fun hq => ?_⟩
  · rcases hstate.1 h with h | h
    · exact Bool.false_ne_true (h.symm.trans hq)
    · rcases hlife with hl | hl | hl <;> simp [hl] at h
  · rw [hstate.2 (.inr hlife), if_neg Bool.true_eq_false.mp]
    refine ⟨fun hfull => if_pos (eq_false_of_ne_true fun h => ?_), fun hlt => ?_⟩
    · rcases hroom.1 h with h | h
      · exact Bool.false_ne_true (h.symm.trans hq)
      · exact absurd h (Nat.not_lt.2 hfull)
    · rw [hroom.2 (.inr hlt), if_neg Bool.true_eq_false.mp]
  · rw [hstate.2 (.inl hq), if_neg Bool.true_eq_false.mp, hroom.2 (.inl hq), if_neg Bool.true_eq_false.mp]

/-! ## A refusal -/

/-- Every command row takes a frame of its kind, with its payload's fields. -/
theorem effect_of_request {c : Instr} {p : Port} {f : HostFrame} {k : Nat} {x : Option Ask}
    (h : request c = some (p, f, k, x)) : ∃ (α : Type) (fields : Option (Ask × α)) (eff : Ask → α → Lubran → Lubran),
      effect c = (fun q => q.command p k f fields eff) ∧ fields.map Prod.fst = x := by
  cases c <;> cases h <;> exact ⟨_, _, _, rfl, rfl⟩

/-- Settles O20: a row that fails the field check, and one that fails a later check, is refused. -/
theorem refusedCommandEndsAtOnce : Obligations.RefusedCommandEndsAtOnce := by
  intro c s p f k hrest hhears
  refine ⟨fun hreq => ?_, fun a code hreq hevent hcode => ?_⟩
  · obtain ⟨α, fields, eff, heff, hnone⟩ := effect_of_request hreq
    exact exec_of_request_none heff hnone hrest hhears
  · obtain ⟨α, fields, eff, heff, hsome⟩ := effect_of_request hreq
    exact exec_of_request_some heff hsome hrest hhears hevent hcode

end Sys2Proof.Machine
end

section
/-!
The queued commands on a spindle where nothing is selected (R43, R166): each joins the tail of its queue.
-/

namespace Sys2Proof.Machine

/-- A queued command that is accepted on an engaged spindle is placed, and nothing follows. -/
theorem exec_placed {c : Instr} {s : State} {p : Port} {f : HostFrame} {a : Ask} {n : Nat} {i : Spindle} {k : EntryKind}
    {x : TrackCmd} (he : effect c s.part = (s.part.taking p a).placeFor p a k x) (hu : a.unit = some i)
    (ha : s.part.Accepts p n f a) (hi : s.part.Engaged i) : exec c s = .next { s with part :=
      (((s.part.taking p a).modPort p fun r => { r with tags := r.tags.set a.tag true }).modSp i fun u =>
        { u with queue := u.queue ++ [newEntry (.host p a.tag) k x.cyl x.head x.first x.count x.writeVerify
                                        x.cmpOffset x.cmpBytes u.revs] }).kickAll } := by
  obtain ⟨hrest, -, hevent, -⟩ := ha
  have htaken : (s.part.taking p a).Engaged i := taking_engaged (q := s.part) hevent hi
  rw [placeFor_eq hu, place_engaged htaken] at he
  exact exec_atRest he (place_atRest (taking_atRest hrest hevent))

/-- The fields that READ, WRITE and VERIFY name (R166). -/
theorem parseTransfer_fields {k : EntryKind} {tag : Tag} {t sp c1 c0 h b n fl : Byte} {i : Spindle}
    (ht : t.toNat = tag.val) (hsp : sp.toNat = i.val) (h1 : 1 ≤ n.toNat) (h15 : n.toNat ≤ 15) :
    parseTransfer k [t, sp, c1, c0, h, b, n, fl] =
      some (trackAsk k tag ⟨i.val, c1.toNat * 256 + c0.toNat, h.toNat, b.toNat, n.toNat, k == .write && fl.getLsbD 0, 0, []⟩,
        ⟨i.val, c1.toNat * 256 + c0.toNat, h.toNat, b.toNat, n.toNat, k == .write && fl.getLsbD 0, 0, []⟩) := by
  simp only [parseTransfer, tagOf_val ht, h1, h15, and_self, if_true, hsp]
  rfl

/-- A transfer command that is accepted on an engaged spindle is placed with the fields that its payload parses to. -/
theorem exec_transfer {c : Instr} {s : State} {p : Port} {f : HostFrame} {n : Nat} {i : Spindle} {k : EntryKind}
    {x : TrackCmd} {tag : Tag}
    (he : effect c = fun q => q.command p n f (parseTransfer k f.payload) fun a x q => q.placeFor p a k x)
    (hx : parseTransfer k f.payload = some (trackAsk k tag x, x)) (hsp : x.spindle = i.val) (hi : s.part.Engaged i)
    (ha : s.part.Accepts p n f (trackAsk k tag x)) : exec c s = .next { s with part :=
      (((s.part.taking p (trackAsk k tag x)).modPort p fun r => { r with tags := r.tags.set tag true }).modSp i fun u =>
        { u with queue := u.queue ++ [newEntry (.host p tag) k x.cyl x.head x.first x.count x.writeVerify
                                        x.cmpOffset x.cmpBytes u.revs] }).kickAll } := by
  have heff : effect c s.part = (s.part.taking p (trackAsk k tag x)).placeFor p (trackAsk k tag x) k x := by
    rw [he, hx]
    exact accepted ha
  have hu : (trackAsk k tag x).unit = some i := by
    rw [← spindleOf_val i, ← hsp]
    rfl
  exact exec_placed heff hu ha hi

/-- Settles O18: each of the three kinds is placed with the fields that its payload parses to. -/
theorem transferCommandIsPlaced : Obligations.TransferCommandIsPlaced := by
  intro s p f tag i t sp c1 c0 h b n fl hpay ht hsp h1 h15 hi placed ask
  have hfields (k : EntryKind) := parseTransfer_fields (k := k) (c1 := c1) (c0 := c0) (h := h) (b := b) (fl := fl)
    ht hsp h1 h15
  rw [← hpay] at hfields
  exact ⟨fun ha => exec_transfer rfl (hfields .read) rfl hi ha, fun ha => exec_transfer rfl (hfields .write) rfl hi ha,
    fun ha => exec_transfer rfl (hfields .verify) rfl hi ha⟩

/-- Settles O19: each of the four kinds is placed with the fields that its payload parses to. -/
theorem otherQueuedCommandIsPlaced : Obligations.OtherQueuedCommandIsPlaced := by
  intro s p f a i hu hi
  refine ⟨fun c hc ha => ?_, fun n hn => ⟨fun ha => ?_, fun ha => ?_, fun ha => ?_⟩⟩
  · obtain ⟨hcount, hverify⟩ := parseGuarded_count hc
    refine ⟨?_, hcount⟩
    have := exec_placed (c := .guardedWrite p f) (k := .guardedWrite) (x := c) ?_ hu ha hi
    · rw [hverify] at this; exact this
    · simp only [effect]
      rw [hc]
      exact accepted ha
  · refine exec_placed (k := .recalibrate) (x := .bare n) ?_ hu ha hi
    simp only [effect]
    rw [hn]
    exact accepted ha
  · refine exec_placed (k := .reserve) (x := .bare n) ?_ hu ha hi
    simp only [effect]
    rw [hn]
    exact accepted ha
  · refine exec_placed (k := .stopSpindle) (x := .bare n) ?_ hu ha hi
    simp only [effect]
    rw [hn]
    exact accepted ha

end Sys2Proof.Machine
end

section
/-!
The two hard resets (R4 to R6, R13, R174): the initial part, with the spindles whose drives are already at speed
recalibrating.
-/

namespace Sys2Proof.Machine

section
variable {u : SpindleUnit}

/-- R6: a spindle that waits for SPEED-OK, or for nothing, stays as the reset made it. -/
theorem afterReset_still (h : ¬ (u.life = .spinningUp ∧ u.lines.speedOk = true)) : afterReset u = u := if_neg h

/-- R6, R21: a spindle whose drive is at speed goes on to its recalibration. -/
theorem afterReset_recal (h : u.life = .spinningUp ∧ u.lines.speedOk = true) : afterReset u =
    { u with missing := 0, life := .recalibrating, spinTimer := none,
             chan := u.chan.beginRecal 48 16 u.lines.guard } := if_pos h

theorem initial_spinningUp {present autostart : Bool} {lines : Lines} :
    (SpindleUnit.initial present autostart lines).life = .spinningUp ↔ present = true ∧ autostart = true := by
  cases present <;> cases autostart <;> simp [SpindleUnit.initial]

/-- A spindle right after a reset has no consequence of its own to take. -/
theorem afterReset_rests (present autostart : Bool) (lines : Lines) :
    (afterReset (SpindleUnit.initial present autostart lines)).settleReady = false ∧
    (afterReset (SpindleUnit.initial present autostart lines)).waitReady = false ∧
    (afterReset (SpindleUnit.initial present autostart lines)).selectDue = false := by
  by_cases h : (SpindleUnit.initial present autostart lines).life = .spinningUp ∧ lines.speedOk = true
  · rw [afterReset_recal h]
    refine ⟨settleReady_of_count fun hs => ?_, rfl, rfl⟩
    rw [beginRecal_settle _ _ hs]
    decide
  · rw [afterReset_still h]
    exact ⟨rfl, rfl, rfl⟩

end

section
variable (q : Lubran) (x : Straps)

theorem hardReset_sp (i : Spindle) : (q.hardReset x).sp i =
    afterReset (SpindleUnit.initial (x.present.get i) (x.autostart.get i) (q.sp i).lines) := by
  rw [hardReset_eq]
  have hlines : (Vector.ofFn fun i => (q.sp i).lines).get i = (q.sp i).lines := by simp [vget]
  have := initial_sp x (Vector.ofFn fun i => (q.sp i).lines) i
  rw [hlines] at this
  rw [← this]
  exact Vector.getElem_map _ _

theorem hardReset_port (p : Port) :
    (q.hardReset x).port p = LinkPort.initial (primaryOf x) (x.authority.get p) := by
  rw [hardReset_eq]
  exact initial_port x (Vector.ofFn fun i => (q.sp i).lines) p

theorem hardReset_slot (k : Fin 8) : (q.hardReset x).slot k = StagingSlot.initial := by
  rw [hardReset_eq]
  exact initial_slot x (Vector.ofFn fun i => (q.sp i).lines) k

theorem hardReset_atRest : (q.hardReset x).atRest = true := by
  refine (atRest_iff _).2 ⟨fun i => ?_, fun i => ?_, ?_, fun i => ?_, ?_⟩
  · rw [hardReset_sp]; exact (afterReset_rests _ _ _).1
  · rw [hardReset_sp]; exact (afterReset_rests _ _ _).2.1
  · rw [hardReset_eq]; exact fun h => h.2 rfl
  · rw [hardReset_sp]; exact (afterReset_rests _ _ _).2.2
  · rw [hardReset_eq]; exact fun h => h.2 rfl

/-- Every link is DOWN, so no transmitter begins a frame (R177). -/
theorem hardReset_kickAll : (q.hardReset x).kickAll = q.hardReset x := by
  refine (kickAll_eq_self _).2 fun p hbegin => ?_
  have hup := hbegin.1.1
  rw [hardReset_port] at hup
  cases hup

end

/-- Settles O16: each record of the part that `hardReset_eq` names, the spindles by whether they go on to recalibrate. -/
theorem hardResetLeavesTheResetValues : Obligations.HardResetLeavesTheResetValues := by
  intro s x
  have hexec (c : Instr) (hc : effect c s.part = s.part.hardReset x) :
      exec c s = .next { s with part := s.part.hardReset x } :=
    (exec_atRest hc (hardReset_atRest _ _)).trans (by rw [hardReset_kickAll])
  refine ⟨s.part.hardReset x, hexec (.powerOnReset x) rfl, hexec (.pinReset x) rfl, ?_, ?_, fun i => ?_, fun p => ?_,
    fun k => ?_, ?_⟩
  · rw [hardReset_eq]; rfl
  · rw [hardReset_eq]; rfl
  · rw [hardReset_sp]
    by_cases h : (SpindleUnit.initial (x.present.get i) (x.autostart.get i) (s.part.sp i).lines).life = .spinningUp ∧
        (s.part.sp i).lines.speedOk = true
    · rw [afterReset_recal h]
      obtain ⟨hlife, hspeed⟩ := h
      obtain ⟨hp, ha⟩ := initial_spinningUp.1 hlife
      cases hg : (s.part.sp i).lines.guard <;>
        simp [SpindleUnit.initial, Channel.initial, Channel.beginRecal, Channel.atZero, Config.recalLimit, hp, ha,
          hspeed, hg, get_replicate]
    · rw [afterReset_still h]
      rw [initial_spinningUp] at h
      cases hp : x.present.get i <;> cases ha : x.autostart.get i <;>
        simp [hp, ha, SpindleUnit.initial, Channel.initial, Config.spinUpLoad, get_replicate] at h ⊢
      exact h
  · rw [hardReset_port]
    refine ⟨rfl, rfl, rfl, ?_, rfl, rfl, rfl, rfl, fun t => ?_, rfl, rfl, rfl, rfl, rfl, rfl⟩
    · simp [LinkPort.initial, primaryOf]
    · exact get_replicate false t
  · rw [hardReset_slot]
    exact ⟨rfl, rfl⟩
  · rw [hardReset_eq]
    exact ⟨rfl, rfl, rfl, rfl, rfl, rfl, rfl, rfl⟩

end Sys2Proof.Machine
end

section
/-!
The immediate commands that read or replace settings (R164, R172 to R175): the queries, SET STRING, SET PORT and SENSE.
-/

namespace Sys2Proof.Machine

/-- An immediate command whose effect is an ENDING with a reply on a part at rest (R167, R170). -/
theorem exec_replied {c : Instr} {s : State} {q : Lubran} {p : Port} {a : Ask} {k : Nat} {code : EndCode}
    {reply : List Byte} (he : effect c s.part = q.answer p a k code reply) (h : q.atRest = true) :
    exec c s = .next { s with part := (q.withEnding p a.tag k code reply).kickAll } :=
  exec_atRest (he.trans answer_eq_withEnding) (atRest_withEnding h)

/-- A command that names no spindle ends no allegiance when it is taken (R149). -/
theorem taking_unnamed {q : Lubran} {p : Port} {a : Ask} (h : a.unit = none) :
    q.taking p a = q.modPort p LinkPort.reload := by
  unfold Lubran.taking Lubran.endNamedAllegiance
  rw [h]

/-! ## Queries -/

theorem bytesOf16_length (n : Nat) : (bytesOf16 n).length = 2 := rfl

theorem currentBytes_length (e : Option Entry) : (currentBytes e).length = 4 := by cases e <;> rfl

theorem queryReply_length (u : SpindleUnit) : u.queryReply.length = 23 := by
  simp only [SpindleUnit.queryReply, List.length_append, List.length_cons, List.length_nil, bytesOf16_length,
    currentBytes_length]

theorem pageParams_length (q : Lubran) : q.pageParams.length = 19 := by
  simp only [Lubran.pageParams, List.length_append, List.length_cons, List.length_nil, List.length_map, bytesOf16_length]
  rfl

theorem seqQueryBytes_length (x : Sequencer) : x.queryBytes.length = 7 := by
  unfold Sequencer.queryBytes
  split <;> rfl

theorem pageStatus_length (q : Lubran) : q.pageStatus.length = 16 := by
  simp only [Lubran.pageStatus, List.length_append, List.length_cons, List.length_nil, List.length_map, bytesOf16_length,
    seqQueryBytes_length]
  rfl

/-- Entries of one length, at most four of a list from its place `n` on. -/
theorem shown_length {α : Type} (l : List α) (n k : Nat) (f : α → List Byte) (hf : ∀ x, (f x).length = k) :
    (((l.drop n).take 4).flatMap f).length = k * min 4 (l.length - n) := by
  rw [List.length_flatMap, List.map_congr_left fun x _ => hf x, List.map_const', List.sum_replicate_nat,
    List.length_take, List.length_drop, Nat.mul_comm]

theorem mapReply_length (q : Lubran) (n : Nat) :
    (q.mapReply n).length = 5 + 9 * min 4 (q.spareMap.length - n) := by
  simp only [Lubran.mapReply, List.length_append, List.length_cons, List.length_nil, bytesOf16_length]
  rw [shown_length _ _ 9 _ fun _ => rfl]

theorem suspectsReply_length (q : Lubran) (n : Nat) :
    (q.suspectsReply n).length = 3 + 9 * min 4 (q.suspects.length - n) := by
  simp only [Lubran.suspectsReply, List.length_append, List.length_cons, List.length_nil]
  rw [shown_length _ _ 9 _ fun _ => rfl]

section
variable {s : State} {p : Port} {f : HostFrame} {a : Ask}

theorem exec_querySpindle {n : Nat} {i : Spindle} (hf : parsePlainSpindle f.payload = some (a, n)) (hu : a.unit = some i)
    (ha : s.part.Accepts p 32 f a) : exec (.querySpindle p f) s = .next { s with part :=
      ((s.part.taking p a).withEnding p a.tag 32 .good ((s.part.taking p a).sp i).queryReply).kickAll } := by
  refine exec_replied ?_ (atRest_of_accepts ha)
  simp only [effect]
  rw [hf, accepted ha, hu]

theorem exec_queryString {page : Nat} (hf : parseQueryString f.payload = some (a, page))
    (ha : s.part.Accepts p 33 f a) : exec (.queryString p f) s = .next { s with part :=
      ((s.part.taking p a).withEnding p a.tag 33 .good ((s.part.taking p a).page page)).kickAll } := by
  refine exec_replied ?_ (atRest_of_accepts ha)
  simp only [effect]
  rw [hf]
  exact accepted ha

theorem exec_readSpareMap {n : Nat} (hf : parseReadMap f.payload = some (a, n))
    (ha : s.part.Accepts p 34 f a) : exec (.readSpareMap p f) s = .next { s with part :=
      ((s.part.taking p a).withEnding p a.tag 34 .good ((s.part.taking p a).mapReply n)).kickAll } := by
  refine exec_replied ?_ (atRest_of_accepts ha)
  simp only [effect]
  rw [hf]
  exact accepted ha

theorem exec_readSuspects {n : Nat} (hf : parseReadSuspects f.payload = some (a, n))
    (ha : s.part.Accepts p 35 f a) : exec (.readSuspects p f) s = .next { s with part :=
      ((s.part.taking p a).withEnding p a.tag 35 .good ((s.part.taking p a).suspectsReply n)).kickAll } := by
  refine exec_replied ?_ (atRest_of_accepts ha)
  simp only [effect]
  rw [hf]
  exact accepted ha

end

/-- Settles O31: each query's effect is its ENDING, and each reply has its length; taking the frame leaves the map and the
suspects as they are. -/
theorem queriesAnswer : Obligations.QueriesAnswer := by
  intro s p f a
  obtain ⟨-, -, -, -, hmap, hsuspects, -⟩ := taking_frame (q := s.part) (p := p) (a := a)
  refine ⟨fun n i hf hu ha => ⟨exec_querySpindle hf hu ha, queryReply_length _⟩,
    fun page hf ha => ⟨exec_queryString hf ha, ?_, ?_⟩,
    fun n hf ha => ⟨exec_readSpareMap hf ha, ?_⟩, fun n hf ha => ⟨exec_readSuspects hf ha, ?_⟩⟩
  · rintro rfl; exact pageParams_length _
  · rintro rfl; exact pageStatus_length _
  · rw [mapReply_length, hmap]
  · rw [suspectsReply_length, hsuspects]

/-! ## SET STRING -/

/-- New parameters, flags and masks are no consequence to take. -/
theorem atRest_setString {q : Lubran} {x : StringSettings} (h : q.atRest = true) : (q.setString x).atRest = true := by
  have hsp (i : Spindle) : (q.setString x).sp i =
      { q.sp i with autoSpare := bitOf x.autoSpare i.val, mask := portSet (x.masks.get i) } :=
    Vector.getElem_ofFn i.isLt
  exact atRest_congr (a := q) (fun i => by rw [hsp]; exact ⟨rfl, rfl, rfl⟩) (fun _ => id) rfl rfl rfl h

/-- Settles O32: the payload's bytes go through the clamps of `parseSetString` into the record. -/
theorem setStringReplacesTheParameters : Obligations.SetStringReplacesTheParameters := by
  intro s p f a x t a1 a0 v st age lrl soft low al arb auto m0 m1 m2 m3 m4 m5 m6 m7 hpay hf ha
  have heff : effect (.setString p f) s.part = ((s.part.taking p a).setString x).answer p a 48 .good := by
    simp only [effect]
    rw [hf]
    exact accepted ha
  have hexec := exec_replied heff (atRest_setString (atRest_of_accepts ha))
  rw [hpay] at hf
  obtain ⟨tag, -, hax⟩ := Option.map_eq_some_iff.1 hf
  obtain ⟨rfl, rfl⟩ := Prod.mk.inj hax
  rw [hexec, taking_unnamed rfl]
  rfl

/-! ## SET PORT -/

theorem parseFences_length {n : Nat} {l : List Byte} {fs : List Fence} (h : parseFences n l = some fs) :
    fs.length = n := by
  fun_induction parseFences n l generalizing fs with
  | case1 => obtain rfl := Option.some.inj h; rfl
  | case2 _ _ _ _ _ _ _ _ _ _ hrest _ _ ih =>
    obtain rfl := Option.some.inj h
    exact congrArg (· + 1) (ih hrest)
  | case3 => cases h
  | case4 => cases h
  | case5 => cases h

/-- R175: the field check of a SET PORT that passes, and that it names no spindle. -/
theorem parseSetPort_ranges {l : List Byte} {a : Ask} {x : PortSettings} (h : parseSetPort l = some (a, x)) :
    (x.second ≤ 30 ∧ x.priority ≤ 7 ∧ x.divisor ≤ 63 ∧ x.fences.length ≤ 4) := by
  unfold parseSetPort at h
  split at h
  next =>
    split at h
    next hfences =>
      split at h
      next hr =>
        obtain ⟨rfl, rfl⟩ := Prod.mk.inj (Option.some.inj h)
        exact ⟨hr.1, Nat.min_le_left _ _, Nat.min_le_left _ _, Nat.le_trans (Nat.le_of_eq (parseFences_length hfences)) hr.2⟩
      next => cases h
    next => cases h
  next => cases h

theorem setPort_other {q : Lubran} {p : Port} {a : Ask} {x : PortSettings} (h : x.target ≠ p) :
    q.setPort p a x = (q.modPort x.target fun r => { r.configure x with
      rateNext := x.divisor, replies := r.replies.map ReplyFrame.plain }).answer p a 49 .good := by
  unfold Lubran.setPort
  rw [if_neg h, modPort_modPort]
  rfl

theorem setPort_own {q : Lubran} {p : Port} {a : Ask} {x : PortSettings} (h : x.target = p) :
    q.setPort p a x = q.modPort p fun r => { r.configure x with
      replies := r.replies ++ [.ending (byteOf a.tag.val) 49 .good 0 [] (some x.divisor)] } := by
  subst h
  unfold Lubran.setPort
  rw [if_pos rfl]
  exact modPort_modPort _ _ _ _

/-- Settles O33: SET PORT for another port and for the sender's own. -/
theorem setPortReplacesTheRecord : Obligations.SetPortReplacesTheRecord := by
  intro s p f a x hf ha
  have heff : effect (.setPort p f) s.part = (s.part.taking p a).setPort p a x := by
    simp only [effect]
    rw [hf]
    exact accepted ha
  have hrest := atRest_of_accepts ha
  obtain ⟨hsecond, hpriority, hdivisor, hfences⟩ := parseSetPort_ranges hf
  refine ⟨hsecond, hpriority, hdivisor, hfences, fun hother => ?_, fun hown => ?_⟩
  · rw [setPort_other hother] at heff
    exact exec_answer heff ((atRest_modPort _ _ _).trans hrest)
  · rw [setPort_own hown] at heff
    exact exec_atRest heff ((atRest_modPort _ _ _).trans hrest)

/-! ## SENSE -/

theorem parseSense_unnamed {l : List Byte} {a : Ask} (h : parseSense l = some (a, ())) : a.unit = none := by
  unfold parseSense at h
  split at h
  next =>
    obtain ⟨tag, -, hax⟩ := Option.map_eq_some_iff.1 h
    obtain ⟨rfl, -⟩ := Prod.mk.inj hax
    rfl
  next => cases h

/-- A spindle whose allegiance to a port has ended (R149). -/
def SpindleUnit.freed (p : Port) (u : SpindleUnit) : SpindleUnit :=
  if u.allegiance.map Prod.fst = some p then { u with allegiance := none } else u

/-- The end of a port's allegiances, spindle by spindle, where nothing is selected of it. -/
theorem endAllegiances_map {q : Lubran} {p : Port}
    (he : ∀ i, (q.sp i).allegiance.map Prod.fst = some p → q.Engaged i) :
    allSpindles.foldl (fun q i => q.endAllegianceOf p i) q = { q with spindles := q.spindles.map (SpindleUnit.freed p) } :=
  (foldl_endAllegianceOf (by decide) he).trans (foldl_modSp_eq_map _ _)

/-- Nothing that a step could take reads an allegiance. -/
theorem atRest_endAllegiances {q : Lubran} {p : Port} (h : q.atRest = true) :
    Lubran.atRest { q with spindles := q.spindles.map (SpindleUnit.freed p) } = true := by
  refine atRest_congr (a := q) (fun i => ?_) (fun _ => id) rfl rfl rfl h
  have hsp : Lubran.sp { q with spindles := q.spindles.map (SpindleUnit.freed p) } i = (q.sp i).freed p :=
    Vector.getElem_map _ _
  rw [hsp]
  unfold SpindleUnit.freed
  split <;> exact ⟨rfl, rfl, rfl⟩

/-- Settles O28: the allegiances end one by one (`endAllegiances_map`), then the record is answered and marked taken. -/
theorem senseTakesTheRecord : Obligations.SenseTakesTheRecord := by
  intro s p f a hf ha hengaged
  have htaken : s.part.taking p a = s.part.modPort p LinkPort.reload := taking_unnamed (parseSense_unnamed hf)
  have hends := endAllegiances_map (q := s.part.modPort p LinkPort.reload) (p := p) hengaged
  have heff : effect (.sense p f) s.part = (Lubran.answer
      ({ s.part.modPort p LinkPort.reload with spindles := s.part.spindles.map (SpindleUnit.freed p) } : Lubran) p a 20 .good
        (senseReply (s.part.port p).sense)).modPort p LinkPort.senseTaken := by
    simp only [effect]
    rw [hf, accepted ha, htaken, hends]
    have hsense : ((s.part.modPort p LinkPort.reload).port p).sense = (s.part.port p).sense := by
      rw [port_modPort_self]; rfl
    rw [← hsense]
    rfl
  rw [htaken]
  refine exec_atRest heff ?_
  rw [atRest_modPort]
  refine atRest_withEnding (atRest_endAllegiances (q := s.part.modPort p LinkPort.reload) (p := p) ?_)
  rw [atRest_modPort]
  exact ha.1

end Sys2Proof.Machine
end

section
/-!
Queued commands that an idle READY spindle serves at once (R48, R57 to R59): RESERVE, STOP SPINDLE and RECALIBRATE.
-/

namespace Sys2Proof.Machine

/-- A part at rest whose path, slots and transmitter are clear for a port, with a READY spindle that has no entry and no
allegiance, and a free tag: a command placed there is selected at once. -/
structure Lubran.Serves (q : Lubran) (p : Port) (i : Spindle) (t : Tag) : Prop where
  rest : q.atRest = true
  calm : Calm q p
  ready : (q.sp i).life = .ready
  queue : (q.sp i).queue = []
  internal : (q.sp i).internal = none
  allegiance : (q.sp i).allegiance = none
  tag : (q.port p).tags.get t = false

theorem serves_of_accepts {q : Lubran} {p : Port} {k : Nat} {f : HostFrame} {a : Ask} {i : Spindle}
    (ha : q.Accepts p k f a) (hquiet : q.Quiet) (hu : a.unit = some i) (hl : (q.sp i).life = .ready)
    (hall : (q.sp i).allegiance = none) : (q.taking p a).Serves p i a.tag where
  rest := atRest_of_accepts ha
  calm := calm_taking hquiet
  tag := accepts_tag ha
  ready := by unfold Lubran.sp; rw [taking_same hu hall]; exact hl
  queue := by unfold Lubran.sp; rw [taking_same hu hall]; exact (hquiet.2.2.2.1 i).1
  internal := by unfold Lubran.sp; rw [taking_same hu hall]; exact (hquiet.2.2.2.1 i).2
  allegiance := by unfold Lubran.sp; rw [taking_same hu hall]; exact hall

/-- A part with one entry placed, its tag in use. -/
def Lubran.serving (q : Lubran) (p : Port) (i : Spindle) (t : Tag) (e : Entry) : Lubran :=
  (q.modPort p fun r => { r with tags := r.tags.set t true }).modSp i fun u => { u with queue := [e] }

/-- The entry that a command without a track makes (R43). -/
def bareEntry (p : Port) (t : Tag) (k : EntryKind) (revs : Nat) : Entry :=
  newEntry (.host p t) k 0 0 0 0 false 0 [] revs

section
variable {q : Lubran} {p : Port} {i : Spindle} {t : Tag}

theorem Lubran.Serves.exec {c : Instr} {s : State} {k : EntryKind} {x : TrackCmd} {n : Nat} {r : Lubran}
    (h : q.Serves p i t) (heff : effect c s.part = q.place p i t k x) (hn : n + 1 ≤ Config.settleFuel)
    (hd : (serve (q.serving p i t (newEntry (.host p t) k x.cyl x.head x.first x.count x.writeVerify x.cmpOffset
        x.cmpBytes (q.sp i).revs)) i (newEntry (.host p t) k x.cyl x.head x.first x.count x.writeVerify x.cmpOffset
        x.cmpBytes (q.sp i).revs)).drain n = some r) : exec c s = .next { s with part := r.kickAll } := by
  refine exec_served h.rest heff h.ready h.queue h.internal h.allegiance hn ?_
  rw [← hd]
  unfold Lubran.serving
  congr 2

theorem serving_calm {e : Entry} (h : Calm q p) : Calm (q.serving p i t e) p :=
  calm_modSp (calm_modPort h h.requests h.drains)

theorem serving_sp (e : Entry) : (q.serving p i t e).sp i = { q.sp i with queue := [e] } := sp_modSp_self _ _ _

/-- A tag taken and freed again is as it was. -/
theorem tag_restored {v : Vector Bool 4} (h : v.get t = false) : (v.set t true).set t false = v := by
  rw [Vector.set_set]
  have : v[t.val] = false := h
  rw [← this]
  exact Vector.set_getElem_self _

theorem modPort_congr_at {f g : LinkPort → LinkPort} (h : f (q.port p) = g (q.port p)) :
    q.modPort p f = q.modPort p g := by
  unfold Lubran.modPort
  rw [h]

theorem modSp_modPort_comm (q : Lubran) (i : Spindle) (p : Port) (f : SpindleUnit → SpindleUnit)
    (g : LinkPort → LinkPort) : (q.modSp i f).modPort p g = (q.modPort p g).modSp i f := rfl

/-- The ENDING of a command that was taken and is over: its tag is as it was. -/
theorem ending_restores (h : (q.port p).tags.get t = false) (k : Nat) :
    ((q.modPort p fun r => { r with tags := r.tags.set t true }).modPort p fun r =>
      { r with replies := r.replies ++ [.ending (byteOf t.val) (byteOf k) .good 0 [] none]
               tags := r.tags.set t false }) = q.withEnding p t k .good [] := by
  rw [modPort_modPort]
  refine modPort_congr_at ?_
  dsimp only
  rw [tag_restored h]

/-- A selection event on a spindle without an entry selects nothing (R48). -/
theorem drain_select_none (hrest : q.atRest = true) (hq : (q.sp i).queue = []) (hin : (q.sp i).internal = none) :
    (q.modSp i fun u => { u with selectDue := true }).drain 1 = some q := by
  obtain ⟨hsettle, hwait, hgrant, hdue, -⟩ := (atRest_iff q).1 hrest
  have hsp (j : Spindle) : (q.modSp i fun u => { u with selectDue := true }).sp j =
      { q.sp j with selectDue := decide (j = i) } := by
    by_cases hj : j = i
    · subst hj
      rw [sp_modSp_self, decide_eq_true rfl]
    · rw [sp_modSp_ne _ _ _ hj, decide_eq_false hj, ← hdue j]
  have hnext : (q.modSp i fun u => { u with selectDue := true }).nextTask = some q := by
    refine (nextTask_select (i := i) (fun j => ?_) (fun j => ?_) ?_ fun j => ?_).trans ?_
    · rw [hsp]; exact hsettle j
    · rw [hsp]; exact hwait j
    · exact hgrant
    · rw [hsp]
    · rw [select_none (by rw [hsp]; exact hq) (by rw [hsp]; exact hin), modSp_modSp]
      refine congrArg some (modSp_id _ _ ?_)
      dsimp only
      rw [← hdue i]
  rw [drain_step hnext]
  exact drain_atRest hrest 0

/-! ## RESERVE -/

/-- R57, R53: a spindle whose holder has just taken the reservation; a seek outstanding is an orphan. -/
def SpindleUnit.reserved (p : Port) (u : SpindleUnit) : SpindleUnit :=
  { u with reservation := some p, xfer := XferRec.clear, waitReq := none,
           chan := { u.chan with orphan := u.chan.target.isSome || u.chan.held.isSome } }

/-- A served RESERVE takes the reservation, ends, and its departure is a selection event. -/
theorem serveReserve_serving (h : q.Serves p i t) (hres : (q.sp i).reservation = none) :
    (q.serving p i t (bareEntry p t .reserve (q.sp i).revs)).serveReserve i (bareEntry p t .reserve (q.sp i).revs) =
      ((q.modSp i (SpindleUnit.reserved p)).withEnding p t 6 .good []).modSp i fun u => { u with selectDue := true } := by
  have hsp := serving_sp (q := q) (p := p) (i := i) (t := t) (bareEntry p t .reserve (q.sp i).revs)
  rw [serveReserve_calm (t := t) (serving_calm h.calm) (by rw [hsp]) (by rw [hsp]; exact h.internal) rfl rfl rfl rfl
    (by rw [hsp]; exact hres) (by rw [hsp]; exact h.ready)]
  have hpart : ((q.serving p i t (bareEntry p t .reserve (q.sp i).revs)).modPort p fun r =>
      { r with replies := r.replies ++ [.ending (byteOf t.val) 6 .good 0 [] none], tags := r.tags.set t false }) =
      (q.withEnding p t 6 .good []).modSp i fun u => { u with queue := [bareEntry p t .reserve (q.sp i).revs] } := by
    rw [← ending_restores h.tag 6]
    rfl
  rw [hpart, modSp_modSp]
  refine Eq.trans (modSp_congr_at ?_) (modSp_modSp _ _ (SpindleUnit.reserved p) _).symm
  have hempty : ((q.withEnding p t 6 .good []).sp i).queue = [] := h.queue
  unfold SpindleUnit.reserved
  dsimp only
  rw [hempty]

/-- Settles O21: the entry is served, leaves, and the selection event that follows finds no entry. -/
theorem reserveTakesTheReservation : Obligations.ReserveTakesTheReservation := by
  intro s p f a n i hf hu ha hquiet hl hres hall
  have hserves := serves_of_accepts ha hquiet hu hl hall
  have heff : effect (.reserve p f) s.part = (s.part.taking p a).place p i a.tag .reserve (.bare n) := by
    simp only [effect]
    rw [hf]
    exact (accepted ha).trans (placeFor_eq hu)
  rw [← reservation_of_accepts ha] at hres
  generalize s.part.taking p a = q at hserves heff hres
  refine hserves.exec heff (n := 1) (by decide) ?_
  refine (congrArg (Lubran.drain 1) (serveReserve_serving hserves hres)).trans (drain_select_none ?_ ?_ ?_)
  · obtain ⟨hsettle, hwait, hdue⟩ := sp_of_atRest hserves.rest i
    exact atRest_withEnding (atRest_modSp hserves.rest hsettle rfl hdue)
  · exact (congrArg SpindleUnit.queue (sp_modSp_self q i _)).trans hserves.queue
  · exact (congrArg SpindleUnit.internal (sp_modSp_self q i _)).trans hserves.internal

/-! ## STOP SPINDLE -/

/-- The part of a spindle that a stop leaves (R10, R115). -/
def SpindleUnit.halted (u : SpindleUnit) : SpindleUnit :=
  { u with life := .stopped, spin := false, spinTimer := none, waitReq := none, xfer := XferRec.clear, pool := []
           generation := 0, mapState := .notBuilt, build := none, chan := u.chan.stop }

/-- What a stop forgets of a spindle beside its own record (R115, R127). -/
def Lubran.forgotten (q : Lubran) (i : Spindle) : Lubran :=
  { q with spareMap := q.spareMap.filter fun m => decide (m.spindle ≠ i)
           suspects := q.suspects.filter fun m => decide (m.spindle ≠ i) }

theorem atRest_forgotten (h : q.atRest = true) : (q.forgotten i).atRest = true :=
  atRest_congr (a := q) (fun _ => ⟨rfl, rfl, rfl⟩) (fun _ => id) rfl rfl rfl h

/-- The entry of a STOP SPINDLE that is served. -/
def stopEntry (p : Port) (t : Tag) (revs : Nat) : Entry := { bareEntry p t .stopSpindle revs with state := .ending }

/-- A served STOP SPINDLE up to its ending: the spindle is halted, and its entry stays until the ending is handed over. -/
theorem serveStop_halts (h : q.Serves p i t) :
    (q.serving p i t (bareEntry p t .stopSpindle (q.sp i).revs)).serveStop i (bareEntry p t .stopSpindle (q.sp i).revs) =
      Lubran.decideEnding (((q.forgotten i).modPort p fun r => { r with tags := r.tags.set t true }).modSp i fun u =>
        { u.halted with xfer := u.xfer, queue := [stopEntry p t (q.sp i).revs] }) i .good := by
  have hsp := serving_sp (q := q) (p := p) (i := i) (t := t) (bareEntry p t .stopSpindle (q.sp i).revs)
  have hpath : (q.serving p i t (bareEntry p t .stopSpindle (q.sp i).revs)).dropPathOn i =
      q.serving p i t (bareEntry p t .stopSpindle (q.sp i).revs) := by
    refine if_neg ?_
    rw [(serving_calm h.calm).path]
    exact nofun
  have hentry := entry_mod (q := q.serving p i t (bareEntry p t .stopSpindle (q.sp i).revs)) (i := i) (p := p) (t := t)
    (f := fun e => { e with state := .ending }) (e' := stopEntry p t (q.sp i).revs) rfl (by rw [hsp]) rfl rfl
  have hhalted : Lubran.forgetSuspects (Lubran.dropMap (Lubran.modSp (Lubran.modEntry
      (q.serving p i t (bareEntry p t .stopSpindle (q.sp i).revs)) i (.host p t) fun e => { e with state := .ending }) i
        fun u => { u with life := .stopped, spin := false, spinTimer := none, chan := u.chan.stop, waitReq := none }) i) i =
      ((q.forgotten i).modPort p fun r => { r with tags := r.tags.set t true }).modSp i fun u =>
        { u.halted with xfer := u.xfer, queue := [stopEntry p t (q.sp i).revs] } := by
    rw [hentry]
    unfold Lubran.dropMap Lubran.serving
    dsimp only
    rw [modSp_modSp, modSp_modSp, modSp_modSp]
    rfl
  unfold Lubran.serveStop
  rw [hpath]
  refine Eq.trans (congrArg (fun x => Lubran.decideEnding (Lubran.endQueued x i .notReady) i .good) hhalted) ?_
  rw [endQueued_none]
  intro e he
  rw [sp_modSp_self] at he
  rw [List.mem_singleton.1 he]
  rfl

/-- The ending of a served STOP SPINDLE: its entry leaves, and nothing is selected on a spindle that is STOPPED. -/
theorem serveStop_serving (h : q.Serves p i t) :
    (q.serving p i t (bareEntry p t .stopSpindle (q.sp i).revs)).serveStop i (bareEntry p t .stopSpindle (q.sp i).revs) =
      ((q.forgotten i).modSp i SpindleUnit.halted).withEnding p t 7 .good [] := by
  have hcalm : Calm (q.forgotten i) p := ⟨h.calm.path, h.calm.waiting, h.calm.slots, h.calm.requests, h.calm.drains⟩
  rw [serveStop_halts h, decide_calm (t := t) (e := stopEntry p t (q.sp i).revs)
    (calm_modSp (calm_modPort hcalm h.calm.requests h.calm.drains)) ?_ ?_ rfl rfl rfl rfl
    ⟨[], by rw [sp_modSp_self]; rfl, fun _ hx => absurd hx List.not_mem_nil⟩]
  · have hstopped (x : Lubran) (hx : (x.sp i).life = .stopped) : x.selectionEvent i = x :=
      selectionEvent_engaged (.inl (by rw [hx]; exact nofun))
    rw [hstopped _ (by rw [sp_modSp_self, modPort_sp, sp_modSp_self]; rfl)]
    rw [modSp_modPort_comm, modSp_modSp]
    refine (congrArg (fun x => Lubran.modSp x i _) (ending_restores (q := q.forgotten i) h.tag 7)).trans
      (modSp_congr_at ?_)
    have hempty : (((q.forgotten i).withEnding p t 7 .good []).sp i).queue = [] := h.queue
    have hleft : [stopEntry p t (q.sp i).revs].filter (fun e => decide (e.owner ≠ .host p t)) = [] := by
      simp [stopEntry, bareEntry, newEntry]
    unfold SpindleUnit.halted SpindleUnit.dropEntry
    dsimp only
    rw [hempty, hleft]
    rfl
  · unfold Lubran.current
    rw [sp_modSp_self]
    exact (current_single (u := { (q.sp i).halted with
      xfer := (q.sp i).xfer, queue := [stopEntry p t (q.sp i).revs] }) rfl h.internal).trans rfl
  · rw [sp_modSp_self]
    exact h.internal

/-- Settles O22: the spindle is halted, its entry leaves, and nothing follows. -/
theorem stopSpindleStops : Obligations.StopSpindleStops := by
  intro s p f a n i hf hu ha hquiet hl hall
  have hserves := serves_of_accepts ha hquiet hu hl hall
  have heff : effect (.stopSpindle p f) s.part = (s.part.taking p a).place p i a.tag .stopSpindle (.bare n) := by
    simp only [effect]
    rw [hf]
    exact (accepted ha).trans (placeFor_eq hu)
  obtain ⟨-, -, -, -, hmap, hsuspects, -⟩ := taking_frame (q := s.part) (p := p) (a := a)
  rw [← hmap, ← hsuspects]
  generalize s.part.taking p a = q at hserves heff
  refine hserves.exec heff (n := 0) (by decide) ?_
  refine (congrArg (Lubran.drain 0) (serveStop_serving hserves)).trans (drain_atRest ?_ 0)
  obtain ⟨-, -, hdue⟩ := sp_of_atRest hserves.rest i
  exact atRest_withEnding (atRest_modSp (atRest_forgotten hserves.rest) rfl rfl hdue)

/-! ## RECALIBRATE -/

theorem waitReady_none {u : SpindleUnit} (h : u.waitReq = none) : u.waitReady = false := by
  unfold SpindleUnit.waitReady
  rw [h]

/-- A served RECALIBRATE whose heads rest off cylinder 0's guard: its recalibration starts at once (R21, R59). -/
theorem serveRecalibrate_serving (h : q.Serves p i t) (hc : (q.sp i).chan.state = .onTrack)
    (hg : (q.sp i).lines.guard = false) :
    (q.serving p i t (bareEntry p t .recalibrate (q.sp i).revs)).serveRecalibrate i
        (bareEntry p t .recalibrate (q.sp i).revs) =
      (q.modPort p fun r => { r with tags := r.tags.set t true }).modSp i fun u =>
        { u with queue := [{ bareEntry p t .recalibrate u.revs with state := .seeking }]
                 chan := u.chan.beginRecal q.params.vmax q.params.settle false } := by
  have hsp := serving_sp (q := q) (p := p) (i := i) (t := t) (bareEntry p t .recalibrate (q.sp i).revs)
  have hentry := entry_mod (q := q.serving p i t (bareEntry p t .recalibrate (q.sp i).revs)) (i := i) (p := p) (t := t)
    (f := fun e => { e with state := .seeking }) (e' := { bareEntry p t .recalibrate (q.sp i).revs with state := .seeking })
    rfl (by rw [hsp]) rfl rfl
  have hstill : ((q.serving p i t (bareEntry p t .recalibrate (q.sp i).revs)).sp i).chan.moving = false := by
    rw [hsp]
    unfold Channel.moving
    rw [hc]
  unfold Lubran.serveRecalibrate Lubran.requestRecal
  refine Eq.trans (congrArg (fun x : Lubran => if (x.sp i).chan.moving = true
    then x.modSp i fun u => { u with waitReq := some .recal } else x.startRecal i) hentry) ?_
  rw [if_neg (by rw [sp_modSp_self, hstill]; exact Bool.false_ne_true),
    startRecal_seeking (p := p) (t := t) (e := { bareEntry p t .recalibrate (q.sp i).revs with state := .seeking })
      (by rw [sp_modSp_self]) (by rw [sp_modSp_self, hsp]; exact h.internal) rfl rfl (by rw [sp_modSp_self, hsp]; exact hg)]
  unfold Lubran.serving
  rw [modSp_modSp, modSp_modSp]
  exact modSp_congr_at rfl

/-- Settles O23: the entry's recalibration starts, and nothing follows. -/
theorem recalibrateStartsItsMotion : Obligations.RecalibrateStartsItsMotion := by
  intro s p f a n i hf hu ha hquiet hl hall hc hw hg
  have hserves := serves_of_accepts ha hquiet hu hl hall
  have heff : effect (.recalibrate p f) s.part = (s.part.taking p a).place p i a.tag .recalibrate (.bare n) := by
    simp only [effect]
    rw [hf]
    exact (accepted ha).trans (placeFor_eq hu)
  have hsp : (s.part.taking p a).sp i = s.part.sp i := by unfold Lubran.sp; rw [taking_same hu hall]
  rw [← hsp] at hc hw hg
  rw [← taking_params (p := p) (a := a)]
  generalize s.part.taking p a = q at hserves heff hc hw hg
  refine hserves.exec heff (n := 0) (by decide) ?_
  refine (congrArg (Lubran.drain 0) (serveRecalibrate_serving hserves hc hg)).trans (drain_atRest ?_ 0)
  obtain ⟨-, -, hdue⟩ := sp_of_atRest hserves.rest i
  exact atRest_modSp ((atRest_modPort _ _ _).trans hserves.rest) rfl (waitReady_none hw) hdue

end

end Sys2Proof.Machine
end

section
/-!
START SPINDLE (R5, R6, R21): what it makes of a spindle that does not turn, by the level of SPEED-OK.
-/

namespace Sys2Proof.Machine

section
variable {q : Lubran} {i : Spindle}

theorem spinUp_waits (h : (q.sp i).lines.speedOk = false) : q.spinUp i = q.modSp i fun u =>
    { u with life := .spinningUp, faultReason := .none, spin := true, spinTimer := some Config.spinUpLoad } := by
  unfold Lubran.spinUp
  refine if_neg ?_
  rw [sp_modSp_self, h]
  exact Bool.false_ne_true

/-- R6, R21: with SPEED-OK asserted the recalibration of an idle spindle starts on the entry to SPINNING_UP. -/
theorem spinUp_recalibrates (h : (q.sp i).lines.speedOk = true) (hg : (q.sp i).lines.guard = false)
    (hc : q.current i = none) : q.spinUp i = q.modSp i fun u =>
    { u with life := .recalibrating, faultReason := .none, spin := true, spinTimer := none, missing := 0
             chan := u.chan.beginRecal q.params.vmax q.params.settle false } := by
  unfold Lubran.spinUp
  refine (if_pos (by rw [sp_modSp_self]; exact h)).trans ?_
  unfold Lubran.spunUp Lubran.enterRecalibrating
  rw [modSp_modSp, modSp_modSp, startRecal_none (by unfold Lubran.current; rw [sp_modSp_self]; exact hc), modSp_modSp]
  refine modSp_congr_at ?_
  dsimp only
  rw [hg]
  rfl

/-- R5: in any other state it changes nothing. -/
theorem startSpindle_running (h1 : (q.sp i).life ≠ .stopped) (h2 : (q.sp i).life ≠ .faulted) :
    q.startSpindle i = q := by
  unfold Lubran.startSpindle
  split
  next h => exact absurd h h1
  next h => exact absurd h h2
  all_goals rfl

end

/-- Settles O25: the spindle waits for its speed, recalibrates at once, or is left as it is. -/
theorem startSpindleSpinsUp : Obligations.StartSpindleSpinsUp := by
  intro s p f a n i hf hu ha
  have heff : effect (.startSpindle p f) s.part = ((s.part.taking p a).startSpindle i).answer p a 16 .good := by
    simp only [effect]
    rw [hf, accepted ha, hu]
  have hrest := atRest_of_accepts ha
  obtain ⟨hlife, hlines, hwait, -, -, -⟩ := taking_life (q := s.part) (p := p) (a := a) ha.2.2.1 i
  have hcurrent := taking_current (q := s.part) (p := p) (a := a) ha.2.2.1 i
  rw [← hlife, ← hlines, ← hwait, ← hcurrent, ← taking_params (p := p) (a := a)]
  generalize s.part.taking p a = q at heff hrest
  obtain ⟨hsettle, hw, hdue⟩ := sp_of_atRest hrest i
  refine ⟨fun hstop hspeed => ?_, fun hstop hspeed hguard hc hnone => ?_, fun h1 h2 => ?_⟩
  · rw [startSpindle_eq hstop, spinUp_waits hspeed] at heff
    exact exec_answer heff (atRest_modSp hrest hsettle hw hdue)
  · rw [startSpindle_eq hstop, spinUp_recalibrates hspeed hguard hc] at heff
    exact exec_answer heff (atRest_modSp hrest rfl (waitReady_none hnone) hdue)
  · rw [startSpindle_running h1 h2] at heff
    exact exec_answer heff hrest

end Sys2Proof.Machine
end

section
/-!
The link of a port (R177, R181) and the choice of its transmitter (R161, R182).
-/

namespace Sys2Proof.Machine

/-- A row whose effect is on one port alone, on a part at rest. -/
theorem exec_port {c : Instr} {s : State} {p : Port} {g : LinkPort → LinkPort} {x : LinkPort}
    (he : effect c s.part = s.part.modPort p g) (hx : g (s.part.port p) = x) (h : s.part.atRest = true) :
    exec c s = .next { s with part := (s.part.modPort p fun _ => x).kickAll } := by
  rw [← modPort_congr_at (f := g) (g := fun _ => x) hx]
  exact exec_atRest he ((atRest_modPort _ _ _).trans h)

/-! ## Symbols -/

section
variable {r : LinkPort}

theorem hear_off (h : r.link = .down ∨ r.link = .lost) (sym : LinkSymbol) :
    r.hear sym = { r.reload with link := .sync, idleCount := 0 } := by
  unfold LinkPort.hear
  rcases h with h | h <;> rw [h]

theorem hearHold_off (h : r.link = .down ∨ r.link = .lost) :
    r.hearHold = { r.reload with link := .sync, idleCount := 0 } := by
  unfold LinkPort.hearHold
  rcases h with h | h <;> rw [h]

theorem hear_sync_idle (h : r.link = .sync) : r.hear .idle =
    if r.idleCount + 1 < 16 then { r.reload with idleCount := r.idleCount + 1 }
    else { r.reload with link := .up, idleCount := 0 } := by
  unfold LinkPort.hear
  rw [h]

theorem hear_sync_other (h : r.link = .sync) {sym : LinkSymbol} (hs : sym ≠ .idle) :
    r.hear sym = { r.reload with idleCount := 0 } := by
  unfold LinkPort.hear
  rw [h]
  cases sym with
  | idle => exact absurd rfl hs
  | start => rfl
  | byte b => rfl

theorem hearHold_sync (h : r.link = .sync) : r.hearHold = { r.reload with idleCount := 0 } := by
  unfold LinkPort.hearHold
  rw [h]

theorem hear_up_symbol (h : r.link = .up) {sym : LinkSymbol} (hs : sym = .idle ∨ sym = .start) :
    r.hear sym = { r.reload with paused := false } := by
  unfold LinkPort.hear
  rw [h]
  rcases hs with rfl | rfl <;> rfl

theorem hear_up_byte (h : r.link = .up) (b : Byte) : r.hear (.byte b) = r.reload := by
  unfold LinkPort.hear
  rw [h]

theorem hearHold_up (h : r.link = .up) : r.hearHold = { r.reload with paused := true } := by
  unfold LinkPort.hearHold
  rw [h]

end

theorem exec_symbol {s : State} {p : Port} (hrest : s.part.atRest = true) {sym : LinkSymbol} {x : LinkPort}
    (h : (s.part.port p).hear sym = x) :
    exec (.linkSymbolReceived p sym) s = .next { s with part := (s.part.modPort p fun _ => x).kickAll } :=
  exec_port (g := fun r => r.hear sym) rfl h hrest

theorem exec_hold {s : State} {p : Port} (hrest : s.part.atRest = true) {x : LinkPort}
    (h : (s.part.port p).hearHold = x) :
    exec (.hold p) s = .next { s with part := (s.part.modPort p fun _ => x).kickAll } :=
  exec_port (g := LinkPort.hearHold) rfl h hrest

/-- Settles O40: each symbol in each state of the link, by the equation of `hear` or `hearHold` for it. -/
theorem symbolsMoveTheLink : Obligations.SymbolsMoveTheLink := by
  intro s p hrest
  refine ⟨fun hoff => ⟨fun sym => exec_symbol hrest (hear_off hoff sym), exec_hold hrest (hearHold_off hoff)⟩,
    fun hsync => ⟨fun hfew => ?_, fun henough => ?_, exec_symbol hrest (hear_sync_other hsync (sym := .start) nofun),
      fun b => exec_symbol hrest (hear_sync_other hsync (sym := .byte b) nofun), exec_hold hrest (hearHold_sync hsync)⟩,
    fun hup => ⟨exec_symbol hrest (hear_up_symbol hup (.inl rfl)), exec_symbol hrest (hear_up_symbol hup (.inr rfl)),
      fun b => exec_symbol hrest (hear_up_byte hup b), exec_hold hrest (hearHold_up hup)⟩⟩
  · exact exec_symbol hrest ((hear_sync_idle hsync).trans (if_pos (by omega)))
  · exact exec_symbol hrest ((hear_sync_idle hsync).trans (if_neg (by omega)))

/-! ## The choice of one transmitter among the four -/

section
variable {q : Lubran} {p : Port}

/-- What the choices of the other ports leave of a port: its record and the slot it would drain (R182). -/
structure Undisturbed (p : Port) (a b : Lubran) : Prop where
  same : SameButLinks a b
  port : b.port p = a.port p
  drain : b.readyDrain p = a.readyDrain p

theorem foldl_kick_other {l : List Port} (h : p ∉ l) : Undisturbed p q (l.foldl Lubran.kick q) := by
  induction l generalizing q with
  | nil => exact ⟨.rfl, rfl, rfl⟩
  | cons x xs ih =>
    obtain ⟨hx, hxs⟩ := not_or.1 (fun hor => h (List.mem_cons.2 hor))
    obtain ⟨hsame, hport, hdrain⟩ := ih (q := q.kick x) hxs
    exact ⟨(kick_same q x).trans hsame, hport.trans (kick_port_ne q x p hx), hdrain.trans (kick_readyDrain q x p)⟩

/-- The four choices are those of some other ports, that of the port, and those of the rest. -/
theorem kickAll_split (q : Lubran) (p : Port) : ∃ before : Lubran, Undisturbed p q before ∧
    Undisturbed p (before.kick p) q.kickAll := by
  obtain ⟨l, r, hsplit⟩ := List.append_of_mem (mem_allPorts p)
  have hnodup : (l ++ p :: r).Nodup := hsplit ▸ (by decide : allPorts.Nodup)
  obtain ⟨-, hcons, hdisjoint⟩ := List.nodup_append.1 hnodup
  refine ⟨l.foldl Lubran.kick q, foldl_kick_other fun hp => hdisjoint p hp p List.mem_cons_self rfl, ?_⟩
  unfold Lubran.kickAll
  rw [hsplit, List.foldl_append, List.foldl_cons]
  exact foldl_kick_other (List.nodup_cons.1 hcons).1

/-- What a slot holds for its DATA frames does not depend on the choices of the other ports. -/
theorem Undisturbed.slot {a b : Lubran} (h : Undisturbed p a b) (k : Fin 8) : (b.slot k).block = (a.slot k).block ∧
    (b.slot k).sent = (a.slot k).sent ∧ (b.slot k).bytes = (a.slot k).bytes := by
  rcases h.same.slots k with e | ⟨-, e⟩ <;> rw [e]
  · exact ⟨rfl, rfl, rfl⟩
  · exact ⟨rfl, rfl, rfl⟩

theorem draining_stays {a b : Lubran} (h : SameButLinks a b) {k : Fin 8} (hk : (a.slot k).state = .draining) :
    (b.slot k).state = .draining := by
  rcases h.slots k with e | ⟨hfull, -⟩
  · rw [e]; exact hk
  · rw [hk] at hfull; cases hfull

/-- A transmitter that can begin a frame: UP, not held and idle (R177, R181, R182). -/
abbrev LinkPort.Idles (r : LinkPort) : Prop := r.link = .up ∧ r.paused = false ∧ r.sending = none

theorem kickAll_reply (h : (q.port p).Idles) {f : ReplyFrame} {fs : List ReplyFrame}
    (hf : (q.port p).replies = f :: fs) :
    q.kickAll.port p = { (q.port p).begin (.reply f) with replies := fs } := by
  obtain ⟨b, hb, hrest⟩ := kickAll_split q p
  rw [hrest.port, ← hb.port]
  rw [← hb.port] at h hf
  unfold Lubran.kick
  simp only [if_pos h, hf, port_modPort_self]

theorem kickAll_request (h : (q.port p).Idles) (hreply : (q.port p).replies = []) {d : DataRequest}
    {ds : List DataRequest} (hd : (q.port p).requests = d :: ds) :
    q.kickAll.port p = { (q.port p).begin (.request d) with requests := ds } := by
  obtain ⟨b, hb, hrest⟩ := kickAll_split q p
  rw [hrest.port, ← hb.port]
  rw [← hb.port] at h hreply hd
  unfold Lubran.kick
  simp only [if_pos h, hreply, hd, port_modPort_self]

theorem kickAll_data (h : (q.port p).Idles) (hreply : (q.port p).replies = []) (hrequest : (q.port p).requests = [])
    {t : Tag} {k : Fin 8} (hk : q.readyDrain p = some (t, k)) :
    q.kickAll.port p = (q.port p).begin (.data t ((q.slot k).block.getD 0) (q.slot k).sent
      (fragmentOf (q.slot k).bytes (q.slot k).sent) (some k)) ∧ (q.kickAll.slot k).state = .draining := by
  obtain ⟨b, hb, hrest⟩ := kickAll_split q p
  obtain ⟨hblock, hsent, hbytes⟩ := hb.slot k
  rw [hrest.port, ← hb.port, ← hblock, ← hsent, ← hbytes]
  rw [← hb.port] at h hreply hrequest
  rw [← hb.drain] at hk
  have hkick : b.kick p = (b.modPort p fun r => r.begin (.data t ((b.slot k).block.getD 0) (b.slot k).sent
      (fragmentOf (b.slot k).bytes (b.slot k).sent) (some k))).modSlot k fun sl => { sl with state := .draining } := by
    unfold Lubran.kick
    simp only [if_pos h, hreply, hrequest, hk]
  refine ⟨?_, draining_stays hrest.same ?_⟩
  · rw [hkick, modSlot_port, port_modPort_self]
  · rw [hkick, slot_modSlot_self]

theorem kickAll_attention (h : (q.port p).Idles) (hreply : (q.port p).replies = [])
    (hrequest : (q.port p).requests = []) (hdrain : q.readyDrain p = none) :
    (∀ n, ((q.port p).notices.find? fun n => !n.sending) = some n → q.kickAll.port p =
      { (q.port p).begin (.attention n.key n.detail) with notices := markSending (q.port p).notices }) ∧
    (((q.port p).notices.find? fun n => !n.sending) = none → q.kickAll.port p = q.port p) := by
  obtain ⟨b, hb, hrest⟩ := kickAll_split q p
  rw [hrest.port, ← hb.port]
  rw [← hb.port] at h hreply hrequest
  rw [← hb.drain] at hdrain
  unfold Lubran.kick
  simp only [if_pos h, hreply, hrequest, hdrain]
  refine ⟨fun n hn => ?_, fun hn => ?_⟩
  · simp only [hn, port_modPort_self]
  · simp only [hn]

end

/-! ## The end of a frame -/

theorem frameEnds_eq {r : LinkPort} (h : (∃ f, r.sending = some (.reply f)) ∨ ∃ d, r.sending = some (.request d)) :
    r.frameEnds = { r with sending := none } := by
  unfold LinkPort.frameEnds
  rcases h with ⟨f, h⟩ | ⟨d, h⟩ <;> rw [h]

/-- Settles O43: the port is idle again, and its choice is the first class that holds a frame. -/
theorem frameEndBeginsTheNext : Obligations.FrameEndBeginsTheNext := by
  intro s p hrest hup hpaused hsending
  have hexec := exec_port (c := .frameSent p) (s := s) (p := p) (g := LinkPort.frameEnds) rfl (frameEnds_eq hsending) hrest
  refine ⟨_, hexec, rfl, ?_⟩
  generalize hq : (s.part.modPort p fun _ => { s.part.port p with sending := none }) = q
  have hport : q.port p = { s.part.port p with sending := none } := by rw [← hq]; exact port_modPort_self _ _ _
  have hopen : (q.port p).Idles := by rw [hport]; exact ⟨hup, hpaused, rfl⟩
  have hdrain : q.readyDrain p = s.part.readyDrain p := by
    unfold Lubran.readyDrain
    rw [hport, ← hq]
    rfl
  have hslot : q.slot = s.part.slot := by rw [← hq]; rfl
  refine ⟨fun f fs hf => ?_, fun hreply => ⟨fun d ds hd => ?_, fun hrequest => ⟨fun t k hk => ?_, fun hnone => ⟨fun n hn => ?_,
    fun hn => ?_⟩⟩⟩, fun i => ?_⟩
  · have := kickAll_reply hopen (by rw [hport]; exact hf)
    rw [this]
    exact ⟨rfl, rfl⟩
  · have := kickAll_request hopen (by rw [hport]; exact hreply) (by rw [hport]; exact hd)
    rw [this]
    exact ⟨rfl, rfl⟩
  · obtain ⟨hbegun, hdraining⟩ := kickAll_data hopen (by rw [hport]; exact hreply) (by rw [hport]; exact hrequest)
      (hdrain.trans hk)
    rw [hslot] at hbegun
    dsimp only
    refine ⟨?_, hdraining⟩
    rw [hbegun]
    rfl
  · rw [(kickAll_attention hopen (by rw [hport]; exact hreply) (by rw [hport]; exact hrequest) (hdrain.trans hnone)).1 n
      (by rw [hport]; exact hn)]
    rfl
  · rw [(kickAll_attention hopen (by rw [hport]; exact hreply) (by rw [hport]; exact hrequest) (hdrain.trans hnone)).2
      (by rw [hport]; exact hn), hport]
  · rw [kickAll_sp, ← hq]
    rfl

theorem settleNotice_eq {before after : List Notice} {n : Notice} (hn : n.sending = true)
    (hothers : ∀ m ∈ before ++ after, m.sending = false) : settleNotice (before ++ n :: after) =
      before ++ after ++ match n.follow with
        | none => []
        | some x => [{ key := n.key, detail := x, sending := false, follow := none }] := by
  have hfind : (before ++ n :: after).find? Notice.sending = some n :=
    List.find?_eq_some_iff_append.2 ⟨hn, before, after, rfl, fun m hm => by
      rw [hothers m (List.mem_append_left _ hm)]; rfl⟩
  have hrest : (before ++ n :: after).filter (fun m => !m.sending) = before ++ after := by
    rw [List.filter_append, List.filter_cons, hn]
    simp only [Bool.not_true, Bool.false_eq_true, if_false]
    rw [← List.filter_append]
    exact List.filter_eq_self.2 fun m hm => by rw [hothers m hm]; rfl
  unfold settleNotice
  rw [hfind]
  dsimp only
  rw [hrest]
  cases n.follow with
  | none => exact (List.append_nil _).symm
  | some x => rfl

/-- Settles O44: the frame's notice is the one that is sending (`settleNotice_eq`). -/
theorem attentionFrameEndSettlesItsNotice : Obligations.AttentionFrameEndSettlesItsNotice := by
  intro s p before after n key d hrest hsending hnotices hn hothers
  have hends : (s.part.port p).attentionEnds = { s.part.port p with
      sending := none, notices := settleNotice (s.part.port p).notices } := by
    unfold LinkPort.attentionEnds
    rw [hsending]
  rw [hnotices, settleNotice_eq hn hothers] at hends
  rw [exec_port (g := LinkPort.attentionEnds) rfl hends hrest]
  rfl

end Sys2Proof.Machine
end

section
/-!
The receiver (R177, R179, R180): frames that are ignored, and frames that are rejected.
-/

namespace Sys2Proof.Machine

/-! ## Frames that are ignored -/

/-- Every frame row is heard on an UP link alone (R177). -/
theorem effect_of_framePort {c : Instr} {p : Port} (h : framePort c = some p) (q : Lubran) :
    ∃ f : Lubran → Lubran, effect c q = q.onUp p f := by
  cases c with
  | frameLength r addr kind len =>
    cases h
    cases len with
    | long n => exact ⟨_, rfl⟩
    | whole payload check =>
      simp only [effect, Lubran.refuseLength]
      split
      · exact ⟨_, rfl⟩
      · exact ⟨_, rfl⟩
  | dataFrameCheck r d =>
    cases h
    simp only [effect]
    exact ⟨_, rfl⟩
  | frameCut r bytes =>
    cases h
    simp only [effect]
    exact ⟨_, rfl⟩
  | _ => cases h <;> exact ⟨_, rfl⟩

theorem frame_of_request {c : Instr} {p : Port} {f : HostFrame} {k : Nat} {x : Option Ask}
    (h : request c = some (p, f, k, x)) : framePort c = some p ∧ c.line.head? = some f.addr := by
  cases c <;> cases h <;> exact ⟨rfl, rfl⟩

section
variable {q : Lubran} {p : Port}

theorem onUp_up {f : Lubran → Lubran} (h : (q.port p).link = .up) : q.onUp p f = f (q.modPort p LinkPort.reload) :=
  if_pos h

theorem onUp_other {f : Lubran → Lubran} (h : (q.port p).link ≠ .up) : q.onUp p f = q := if_neg h

theorem keeps_not {r : LinkPort} {a : Byte} (h : r.recognise a = .no) (kind : Nat) : r.keeps a kind = false := by
  unfold LinkPort.keeps
  rw [h]

/-- Reloading the timer changes nothing of how the port recognises a frame. -/
theorem keeps_reload (a : Byte) (kind : Nat) :
    ((q.modPort p LinkPort.reload).port p).keeps a kind = (q.port p).keeps a kind := by
  rw [port_modPort_self]
  rfl

theorem receive_foreign {f : HostFrame} {act : Lubran → Lubran} (hup : (q.port p).link = .up)
    (h : (q.port p).recognise f.addr = .no) (k : Nat) : q.receive p k f act = q.modPort p LinkPort.reload := by
  unfold Lubran.receive
  rw [onUp_up hup, keeps_reload, keeps_not h]
  rfl

/-- R179: so does a row that is no command. -/
theorem effect_foreign_row {c : Instr} {a : Byte} (hrequest : request c = none) (hport : framePort c = some p)
    (hcut : isCut c = false) (hline : c.line.head? = some a) (hup : (q.port p).link = .up)
    (h : (q.port p).recognise a = .no) : effect c q = q.modPort p LinkPort.reload := by
  cases c with
  | frameCut r bytes => cases hcut
  | dataFrameCheck r d =>
    cases d with
    | cut bytes => cases hcut
    | badCheck f =>
      cases hport
      cases hline
      refine (onUp_up hup).trans (if_neg ?_)
      rw [keeps_reload, keeps_not h]
      exact fun hk => Bool.false_ne_true hk.1
  | data r f =>
    cases hport
    cases hline
    refine (onUp_up hup).trans (if_neg ?_)
    rw [keeps_reload, keeps_not h]
    exact Bool.false_ne_true
  | unknownKind r addr kind =>
    cases hport
    cases hline
    refine (onUp_up hup).trans (if_neg ?_)
    rw [keeps_reload, keeps_not h]
    exact fun hk => Bool.false_ne_true hk.1
  | frameCheck r kind f =>
    cases hport
    cases hline
    refine (onUp_up hup).trans (if_neg ?_)
    rw [keeps_reload, keeps_not h]
    exact fun hk => Bool.false_ne_true hk.1
  | frameLength r addr kind len =>
    cases hport
    cases len with
    | long n =>
      cases hline
      refine (onUp_up hup).trans (if_neg ?_)
      rw [keeps_reload, keeps_not h]
      exact fun hk => Bool.false_ne_true hk.1
    | whole payload check =>
      cases hline
      simp only [effect, Lubran.refuseLength]
      split
      · exact receive_foreign hup h _
      · exact onUp_up hup
  | resetPort r f =>
    cases hport
    cases hline
    exact receive_foreign hup h _
  | _ => cases hport <;> cases hrequest

/-- R179: a whole frame that is not for the port reloads the timer, and no more. -/
theorem effect_foreign {c : Instr} {a : Byte} (hport : framePort c = some p) (hcut : isCut c = false)
    (hline : c.line.head? = some a) (hup : (q.port p).link = .up) (h : (q.port p).recognise a = .no) :
    effect c q = q.modPort p LinkPort.reload := by
  cases hrequest : request c with
  | some x =>
    obtain ⟨r, f, k, fields⟩ := x
    obtain ⟨hport', hline'⟩ := frame_of_request hrequest
    obtain rfl := Option.some.inj (hport.symm.trans hport')
    obtain rfl := Option.some.inj (hline.symm.trans hline')
    obtain ⟨α, fields, eff, heff, -⟩ := effect_of_request hrequest
    rw [heff]
    exact receive_foreign hup h k
  | none => exact effect_foreign_row hrequest hport hcut hline hup h
/-- A reloaded timer gives no transmitter a frame. -/
theorem reload_kickAll (h : q.Settled) : (q.modPort p LinkPort.reload).kickAll = q.modPort p LinkPort.reload := by
  obtain ⟨-, hchosen⟩ := (settled_iff q).1 h
  refine (kickAll_eq_self _).2 fun r => ?_
  have hport : ∃ x, (q.modPort p LinkPort.reload).port r = { q.port r with timer := x } := by
    by_cases hr : r = p
    · subst hr
      exact ⟨_, port_modPort_self _ _ _⟩
    · exact ⟨_, port_modPort_ne _ _ _ hr⟩
  obtain ⟨x, hx⟩ := hport
  rw [canBegin_timer hx fun t => rfl]
  exact hchosen r

end

/-- Settles O41: a frame on a link that is not UP, and one that is not for the port. -/
theorem framesNotForThePortAreIgnored : Obligations.FramesNotForThePortAreIgnored := by
  intro c s p hport hsettled
  obtain ⟨hrest, hchosen⟩ := hsettled
  refine ⟨fun hdown => ?_, fun a hcut hline hup hforeign => ?_⟩
  · obtain ⟨f, hf⟩ := effect_of_framePort hport s.part
    rw [exec_atRest (hf.trans (onUp_other hdown)) hrest, hchosen]
  · rw [exec_atRest (effect_foreign hport hcut hline hup hforeign) ((atRest_modPort _ _ _).trans hrest),
      reload_kickAll ⟨hrest, hchosen⟩]

/-! ## Frames that are rejected -/

section
variable {s : State} {p : Port}

/-- A REJECT joins the transmitter's first class, unless four wait there (R180). -/
theorem pushReject_modPort {q : Lubran} {g : LinkPort → LinkPort} (hg : ∀ r, (g r).replies = r.replies)
    (reason : RejectReason) (kind tag : Byte) : (q.modPort p g).pushReject p reason kind tag = q.modPort p fun r =>
      { g r with replies := if r.rejects < 4 then r.replies ++ [.reject reason kind tag] else r.replies } := by
  unfold Lubran.pushReject
  rw [port_modPort_self, hg]
  by_cases h : (q.port p).rejects < 4
  · rw [if_pos (show ((q.port p).replies.filter ReplyFrame.isReject).length < Config.rejectCapacity from h)]
    refine (modPort_modPort _ _ _ _).trans (modPort_congr_at ?_)
    rw [if_pos h, ← hg (q.port p)]
  · rw [if_neg (show ¬ ((q.port p).replies.filter ReplyFrame.isReject).length < Config.rejectCapacity from h)]
    refine modPort_congr_at ?_
    rw [if_neg h, ← hg (q.port p)]

theorem exec_rejected {c : Instr} {g : LinkPort → LinkPort} {reason : RejectReason} {kind tag : Byte}
    (hg : ∀ r, (g r).replies = r.replies) (hrest : s.part.atRest = true)
    (he : effect c s.part = (s.part.modPort p g).pushReject p reason kind tag) :
    exec c s = .next { s with part := (s.part.modPort p fun r =>
      { g r with replies := if r.rejects < 4 then r.replies ++ [.reject reason kind tag] else r.replies }).kickAll } :=
  exec_atRest (he.trans (pushReject_modPort hg _ _ _)) ((atRest_modPort _ _ _).trans hrest)

/-- R181: a port whose frame a START cuts: the timer is reloaded and a hold is over. -/
def LinkPort.resumed (r : LinkPort) : LinkPort := { r.reload with paused := false }

theorem effect_cut (hup : (s.part.port p).link = .up) (bytes : List Byte) :
    (∀ kind tag, (s.part.port p).cutReject bytes = some (kind, tag) → effect (.frameCut p bytes) s.part =
      (s.part.modPort p LinkPort.resumed).pushReject p .frameCut kind tag) ∧
    ((s.part.port p).cutReject bytes = none →
      effect (.frameCut p bytes) s.part = s.part.modPort p LinkPort.resumed) := by
  have hresumed : (s.part.modPort p LinkPort.reload).resume p = s.part.modPort p LinkPort.resumed :=
    modPort_modPort _ _ _ _
  have hcut : ((s.part.modPort p LinkPort.resumed).port p).cutReject bytes = (s.part.port p).cutReject bytes := by
    rw [port_modPort_self]
    rfl
  simp only [effect]
  rw [onUp_up hup, hresumed, hcut]
  refine ⟨fun kind tag h => ?_, fun h => ?_⟩
  · rw [h]
  · rw [h]

theorem exec_cut (hrest : s.part.atRest = true) (hup : (s.part.port p).link = .up) {bytes : List Byte} {kind tag : Byte}
    (h : (s.part.port p).cutReject bytes = some (kind, tag)) :
    exec (.frameCut p bytes) s = .next { s with part := (s.part.modPort p fun r =>
      { r.resumed with replies :=
          if r.rejects < 4 then r.replies ++ [.reject .frameCut kind tag] else r.replies }).kickAll } :=
  exec_rejected (fun _ => rfl) hrest ((effect_cut hup bytes).1 kind tag h)

/-! ### What a cut frame's REJECT names (R180) -/

variable {r : LinkPort} {addr kind len : Byte}

theorem cutReject_address (h : r.recognise addr ≠ .no) : r.cutReject [addr] = some (255, 255) := if_neg h

theorem byte_ne {a : Byte} {n : Nat} (h : a ≠ BitVec.ofNat 8 n) (hn : n < 256) : a.toNat ≠ n := fun ha =>
  h (BitVec.eq_of_toNat_eq (by rw [BitVec.toNat_ofNat, Nat.mod_eq_of_lt hn, ha]))

theorem cutReject_kind (hk : r.keeps addr kind.toNat = true) (hh : isHostKind kind.toNat = true) (h64 : kind ≠ 64) :
    r.cutReject [addr, kind] = some (kind, 255) := if_pos ⟨hk, hh, byte_ne h64 (by decide)⟩

/-- A frame cut after a length byte of 48 at most. -/
theorem cutReject_length (hk : r.keeps addr kind.toNat = true) (hh : isHostKind kind.toNat = true) (h64 : kind ≠ 64)
    (hl : len.toNat ≤ 48) (rest : List Byte) : r.cutReject (addr :: kind :: len :: rest) =
      if len = 0 ∨ kind.toNat = kindResetPort then some (kind, 255) else some (kind, rest.headD 255) :=
  (if_pos ⟨hk, hh, byte_ne h64 (by decide)⟩).trans (if_neg (Nat.not_lt.2 hl))

theorem cutReject_long (hk : r.keeps addr kind.toNat = true) (hh : isHostKind kind.toNat = true) (h64 : kind ≠ 64)
    (hl : 48 < len.toNat) (rest : List Byte) : r.cutReject (addr :: kind :: len :: rest) = none :=
  (if_pos ⟨hk, hh, byte_ne h64 (by decide)⟩).trans (if_pos hl)

/-! ### Whole frames that are rejected (R179) -/

theorem effect_unknownKind (hup : (s.part.port p).link = .up) (hk : (s.part.port p).keeps addr kind.toNat = true)
    (hh : isHostKind kind.toNat = false) : effect (.unknownKind p addr kind) s.part =
      (s.part.modPort p LinkPort.reload).pushReject p .unknownKind kind 255 := by
  refine (onUp_up hup).trans (if_pos ?_)
  rw [keeps_reload]
  exact ⟨hk, hh⟩

theorem effect_long (hup : (s.part.port p).link = .up) (hk : (s.part.port p).keeps addr kind.toNat = true)
    (hh : isHostKind kind.toNat = true) (h64 : kind ≠ 64) (hl : 48 < len.toNat) :
    effect (.frameLength p addr kind (.long len)) s.part =
      (s.part.modPort p LinkPort.reload).pushReject p .frameLength kind 255 := by
  refine (onUp_up hup).trans (if_pos ?_)
  rw [keeps_reload]
  exact ⟨hk, hh, byte_ne h64 (by decide), hl⟩

theorem effect_frameCheck {f : HostFrame} (hup : (s.part.port p).link = .up)
    (hk : (s.part.port p).keeps f.addr kind.toNat = true) (hh : isHostKind kind.toNat = true) (h64 : kind ≠ 64)
    (hl : f.payload.length ≤ 48) (hc : f.check ≠ frameCheck f.addr kind f.payload) :
    effect (.frameCheck p kind f) s.part =
      (s.part.modPort p LinkPort.reload).pushReject p .frameCheck kind 255 := by
  refine (onUp_up hup).trans (if_pos ?_)
  rw [keeps_reload]
  exact ⟨hk, hh, byte_ne h64 (by decide), hl, hc⟩

/-- R178, R179: a RESET PORT with a payload and a good check. -/
theorem effect_resetPort_payload {f : HostFrame} (hh : s.part.Hears p 80 f) (hp : f.payload ≠ []) :
    effect (.frameLength p f.addr 80 (.whole f.payload f.check)) s.part =
      (s.part.modPort p LinkPort.reload).pushReject p .frameLength 80 255 := by
  simp only [effect, Lubran.refuseLength]
  rw [if_pos (by decide)]
  exact (receive_hears hh).trans (if_neg hp)

end

/-- Settles O42: the whole frames that are rejected, then the frames that a START cuts, by how far each had come. -/
theorem rejectsAreQueued : Obligations.RejectsAreQueued := by
  intro s p hrest hup after resumed
  refine ⟨fun addr kind hk hh => exec_rejected (fun _ => rfl) hrest (effect_unknownKind hup hk hh),
    fun addr kind len hk hh h64 hl => exec_rejected (fun _ => rfl) hrest (effect_long hup hk hh h64 hl),
    fun f hk hp hl hc => exec_rejected (fun _ => rfl) hrest (effect_resetPort_payload ⟨hup, hk, hl, hc⟩ hp),
    fun kind f hk hh h64 hl hc => exec_rejected (fun _ => rfl) hrest (effect_frameCheck hup hk hh h64 hl hc),
    exec_cut hrest hup rfl, fun addr ha => exec_cut hrest hup (cutReject_address ha), fun addr kind hk hh h64 => ?_⟩
  refine ⟨exec_cut hrest hup (cutReject_kind hk hh h64), fun len hl => ?_, fun len tag rest h80 h1 hl => ?_,
    fun len rest h80 hl => ?_, fun len rest hl => ?_⟩
  · refine exec_cut hrest hup ((cutReject_length hk hh h64 hl []).trans ?_)
    split <;> rfl
  · refine exec_cut hrest hup ((cutReject_length hk hh h64 hl (tag :: rest)).trans (if_neg ?_))
    rintro (rfl | h)
    · exact absurd h1 (by decide)
    · exact byte_ne h80 (by decide) h
  · refine exec_cut hrest hup ((cutReject_length hk hh h64 hl rest).trans (if_pos (.inr ?_)))
    rw [h80]
    rfl
  · refine exec_atRest ?_ ((atRest_modPort _ _ _).trans hrest)
    exact (effect_cut hup _).2 (cutReject_long hk hh h64 hl rest)

end Sys2Proof.Machine
end

section
/-!
DATA frames (R84, R85): a fragment that its slot waits for, one that its command did not ask for, and a damaged one.
-/

namespace Sys2Proof.Machine

theorem modSlot_congr_at {q : Lubran} {k : Fin 8} {f g : StagingSlot → StagingSlot} (h : f (q.slot k) = g (q.slot k)) :
    q.modSlot k f = q.modSlot k g := by
  unfold Lubran.modSlot
  rw [h]

section
variable {s : State} {p : Port} {f : DataFrame} {t : Tag}

/-- A DATA frame for the port with a good check reaches the Data Path. -/
theorem effect_data (hup : (s.part.port p).link = .up) (hk : (s.part.port p).keeps f.addr 64 = true)
    (hc : f.check = dataCheck f.addr f.tag f.seq f.bytes.toList) :
    effect (.data p f) s.part = (s.part.modPort p LinkPort.reload).takeData p f := by
  have hgood : dataGood f = true := decide_eq_true hc
  refine (onUp_up hup).trans ((if_pos ?_).trans (if_pos hgood))
  rw [keeps_reload]
  exact hk

theorem takeData_free {q : Lubran} (ht : f.tag.toNat = t.val) (h : q.findEntry (.host p t) = none) :
    q.takeData p f = q := by
  unfold Lubran.takeData
  rw [tagOf_val ht]
  dsimp only
  rw [h]

theorem takeData_some {q : Lubran} {i : Spindle} {e : Entry} (ht : f.tag.toNat = t.val)
    (h : q.findEntry (.host p t) = some (i, e)) (ha : e.abandoned = false) :
    (∀ k, q.fragmentSlot e (f.seq.toNat / 4) (f.seq.toNat % 4) = some k →
      q.takeData p f = q.modSlot k fun sl => sl.take (f.seq.toNat % 4) f.bytes.toList) ∧
    (q.fragmentSlot e (f.seq.toNat / 4) (f.seq.toNat % 4) = none → q.takeData p f = q.unrequested i e) := by
  unfold Lubran.takeData
  rw [tagOf_val ht]
  dsimp only
  rw [h]
  dsimp only
  rw [ha, if_neg Bool.false_ne_true]
  refine ⟨fun k hk => ?_, fun hk => ?_⟩
  · rw [hk]
  · rw [hk]

theorem fragmentSlot_some {q : Lubran} {e : Entry} {b n : Nat} {k : Fin 8} (hi : e.inService = true)
    (hkind : e.kind = .write ∨ e.kind = .guardedWrite) (hk : q.slotFor e.owner b .host = some k)
    (hs : (q.slot k).state = .reserved ∨ (q.slot k).state = .filling) (hn : (q.slot k).frags = n) :
    q.fragmentSlot e b n = some k := by
  refine (if_pos ⟨hi, hkind⟩).trans ?_
  rw [hk]
  exact if_pos ⟨hs, hn⟩

theorem fragmentSlot_queued {q : Lubran} {e : Entry} {b n : Nat} (h : e.inService = false) :
    q.fragmentSlot e b n = none :=
  if_neg fun hs => Bool.false_ne_true (h.symm.trans hs.1)

/-- A slot with its fourth fragment is FULL, and FILLING before. -/
theorem take_next {sl : StagingSlot} {n : Nat} (hn : sl.frags = n) (h4 : n < 4) (bytes : List Byte) :
    sl.take n bytes = { sl with
      bytes := sl.bytes.take (256 * n) ++ bytes ++ sl.bytes.drop (256 * n + 256), frags := n + 1
      state := if n = 3 then .full else .filling } := by
  unfold StagingSlot.take
  rw [hn]
  congr 1
  by_cases h : n = 3
  · rw [if_pos h, if_neg (by omega)]
  · rw [if_neg h, if_pos (by omega)]

end

/-- Settles O35: the fragment goes into the HOST slot of its block, which waits for it. -/
theorem dataFragmentIsPlaced : Obligations.DataFragmentIsPlaced := by
  intro s p f t i e k hrest hup hk hc ht he hservice ha hkind hslot hstate hfrags n
  have howner : e.owner = .host p t := findEntry_owner rfl he
  have hplace := (takeData_some (q := s.part.modPort p LinkPort.reload) ht he ha).1 k
    (fragmentSlot_some hservice hkind (by rw [howner]; exact hslot) hstate hfrags)
  have htake := modSlot_congr_at (q := s.part.modPort p LinkPort.reload) (k := k)
    (f := fun sl => sl.take n f.bytes.toList)
    (g := fun sl => { sl with
      bytes := sl.bytes.take (256 * n) ++ f.bytes.toList ++ sl.bytes.drop (256 * n + 256)
      frags := n + 1, state := if n = 3 then .full else .filling })
    (take_next hfrags (Nat.mod_lt _ (by decide)) _)
  refine exec_atRest ((effect_data hup hk hc).trans (hplace.trans htake)) ?_
  refine atRest_modSlot ((atRest_modPort _ _ _).trans hrest) fun hfree => ?_
  dsimp only at hfree
  split at hfree <;> cases hfree

/-! ## A frame that a QUEUED command did not ask for -/

section
variable {q : Lubran} {p : Port} {t : Tag} {i : Spindle} {e : Entry}

/-- What the port of a QUEUED command has after its ending UNREQUESTED DATA (R56, R163, R167). -/
def unrequestedPort (u : SpindleUnit) (i : Spindle) (e : Entry) (t : Tag) (r : LinkPort) : LinkPort :=
  { r with
    replies := r.replies ++
      [.ending (byteOf t.val) (byteOf (kindCode e.kind)) .unrequestedData (byteOf e.residual) [] none]
    tags := r.tags.set t false
    sense := some (senseOf i u e t .unrequestedData) }

theorem unrequested_queued (ho : e.owner = .host p t) (h : e.inService = false) :
    q.unrequested i e = (q.modPort p (unrequestedPort (q.sp i) i e t)).modSp i fun u =>
      { u with queue := u.queue.filter fun x => decide (x.owner ≠ .host p t)
               allegiance := some (p, q.params.allegianceTime) } := by
  unfold Lubran.unrequested Lubran.handOver
  rw [h, if_neg Bool.false_ne_true, giveEnding_host ho, ho]
  dsimp only
  rw [if_pos (by decide)]
  unfold Lubran.holdFor
  dsimp only
  rw [modPort_modPort, modSp_modSp]
  rfl

end

/-- Settles O36: a QUEUED entry has no slot that waits for a fragment. -/
theorem unrequestedDataEndsAQueuedCommand : Obligations.UnrequestedDataEndsAQueuedCommand := by
  intro s p f t hrest hup hk hc ht
  refine ⟨fun i e he hqueued ha => ?_, fun hnone => ?_⟩
  · have howner : e.owner = .host p t := findEntry_owner rfl he
    have hidle : e.inService = false := by
      unfold Entry.inService
      rw [hqueued]
      decide
    have heff := ((effect_data hup hk hc).trans ((takeData_some (q := s.part.modPort p LinkPort.reload) ht he ha).2 (fragmentSlot_queued hidle))).trans
      (unrequested_queued howner hidle)
    rw [modPort_modPort] at heff
    obtain ⟨hsettle, hwait, hselect⟩ := sp_of_atRest hrest i
    exact exec_atRest heff (atRest_modSp ((atRest_modPort _ _ _).trans hrest) hsettle hwait hselect)
  · exact exec_atRest ((effect_data hup hk hc).trans (takeData_free ht hnone)) ((atRest_modPort _ _ _).trans hrest)

/-! ## A damaged frame -/

section
variable {q : Lubran} {p : Port} {t : Tag} {i : Spindle} {e : Entry}

theorem atRest_leaveWaiting {o : Owner} (h : q.atRest = true) : (q.leaveWaiting o).atRest = true := by
  obtain ⟨hsettle, hwait, hgrant, hselect, hwork⟩ := (atRest_iff q).1 h
  refine (atRest_iff _).2 ⟨hsettle, hwait, fun ⟨hfree, hne⟩ => hgrant ⟨hfree, fun hnil => hne ?_⟩, hselect, hwork⟩
  show q.waiting.filter _ = []
  rw [hnil, List.filter_nil]

/-- An ending decided while a block of its entry passes waits for the block's end (R89). -/
theorem decideEnding_carrying {code : EndCode} {reply : List Byte} (hcur : q.current i = some e)
    (ho : e.owner = .host p t) (hd : e.decided = none) (ha : e.abandoned = false)
    (hc : q.carrying i (.host p t) = true) :
    q.decideEnding i code reply = (q.modEntry i (.host p t) fun e =>
      { e with state := .ending, decided := some { code := code, reply := reply } }).leaveWaiting (.host p t) := by
  unfold Lubran.decideEnding
  rw [hcur]
  dsimp only
  rw [ho, hd, ha, if_neg (by simp), if_pos]
  exact hc

theorem dataFrameBad_free {tag : Byte} (ht : tag.toNat = t.val) (h : q.findEntry (.host p t) = none) :
    q.dataFrameBad p tag = q := by
  unfold Lubran.dataFrameBad
  rw [tagOf_val ht]
  dsimp only
  rw [h]

theorem dataFrameBad_carrying {tag : Byte} (ht : tag.toNat = t.val) (he : q.findEntry (.host p t) = some (i, e))
    (hcur : q.current i = some e) (hservice : e.inService = true) (hkind : e.kind = .write ∨ e.kind = .guardedWrite)
    (hd : e.decided = none) (ha : e.abandoned = false) (hc : q.carrying i (.host p t) = true) :
    q.dataFrameBad p tag = (q.modEntry i (.host p t) fun e =>
      { e with state := .ending, decided := some { code := .dataFrameCheck, reply := [] } }).leaveWaiting (.host p t) := by
  unfold Lubran.dataFrameBad
  rw [tagOf_val ht]
  dsimp only
  rw [he]
  exact (if_pos ⟨hservice, hkind⟩).trans (decideEnding_carrying hcur (findEntry_owner rfl he) hd ha hc)

/-- The entry of a spindle that is in service is not QUEUED (R44). -/
theorem inService_of_current (h : q.current i = some e) : e.inService = true := by
  unfold Lubran.current SpindleUnit.current at h
  split at h
  · split at h
    · rename_i _ hservice
      exact Option.some.inj h ▸ hservice
    · exact List.find?_some h
  · exact List.find?_some h

end

section
variable {s : State} {p : Port} {t : Tag}

theorem effect_badCheck {f : DataFrame} (hup : (s.part.port p).link = .up)
    (hk : (s.part.port p).keeps f.addr 64 = true) (hc : f.check ≠ dataCheck f.addr f.tag f.seq f.bytes.toList) :
    effect (.dataFrameCheck p (.badCheck f)) s.part = (s.part.modPort p LinkPort.reload).dataFrameBad p f.tag := by
  refine (onUp_up hup).trans (if_pos ⟨?_, decide_eq_false hc⟩)
  rw [keeps_reload]
  exact hk

theorem effect_cutData {addr tag : Byte} {rest : List Byte} (hup : (s.part.port p).link = .up) :
    effect (.dataFrameCheck p (.cut (addr :: 64 :: tag :: rest))) s.part =
      if (s.part.port p).keeps addr 64 then (s.part.modPort p LinkPort.resumed).dataFrameBad p tag
      else s.part.modPort p LinkPort.resumed := by
  have hresumed : (s.part.modPort p LinkPort.reload).resume p = s.part.modPort p LinkPort.resumed :=
    modPort_modPort _ _ _ _
  have hkeeps : ((s.part.modPort p LinkPort.resumed).port p).keeps addr kindData = (s.part.port p).keeps addr 64 := by
    rw [port_modPort_self]
    rfl
  simp only [effect]
  rw [onUp_up hup, hresumed, hkeeps]
  by_cases hk : (s.part.port p).keeps addr 64 = true
  · rw [if_pos hk, if_pos ⟨rfl, hk⟩]
    rfl
  · rw [if_neg hk, if_neg fun h => hk h.2]

/-- A frame that names no command is discarded. -/
theorem effect_badCheck_free {f : DataFrame} (hup : (s.part.port p).link = .up) (ht : f.tag.toNat = t.val)
    (hnone : s.part.findEntry (.host p t) = none) :
    effect (.dataFrameCheck p (.badCheck f)) s.part = s.part.modPort p LinkPort.reload := by
  simp only [effect]
  rw [onUp_up hup, dataFrameBad_free (q := s.part.modPort p LinkPort.reload) ht hnone, ite_self]

end

/-- Settles O37: while the path carries a block of the entry, the ending decided waits (`decideEnding_carrying`). -/
theorem damagedDataDecidesTheEnding : Obligations.DamagedDataDecidesTheEnding := by
  intro s p t hrest hup
  refine ⟨?_, fun hnone => ⟨fun f ht => ?_, fun addr tag rest ht => ?_⟩⟩
  · intro i e he hcur hkind hd ha hc after
    refine ⟨fun f hk ht hbad => ?_, fun addr tag rest hk ht => ?_⟩
    · exact exec_atRest ((effect_badCheck hup hk hbad).trans
        (dataFrameBad_carrying ht he hcur (inService_of_current hcur) hkind hd ha hc))
        (atRest_leaveWaiting (atRest_modEntry ((atRest_modPort _ _ _).trans hrest)))
    · exact exec_atRest (((effect_cutData hup).trans (if_pos hk)).trans
        (dataFrameBad_carrying ht he hcur (inService_of_current hcur) hkind hd ha hc))
        (atRest_leaveWaiting (atRest_modEntry ((atRest_modPort _ _ _).trans hrest)))
  · exact exec_atRest (effect_badCheck_free hup ht hnone) ((atRest_modPort _ _ _).trans hrest)
  · refine exec_atRest ((effect_cutData hup).trans ?_) ((atRest_modPort _ _ _).trans hrest)
    rw [dataFrameBad_free (q := s.part.modPort p LinkPort.resumed) ht hnone, ite_self]
    rfl

end Sys2Proof.Machine
end

section
/-!
The teardown of a port (R63, R64, R178): where none of its entries is in service, all of it is given by `withoutPort`.
-/

namespace Sys2Proof.Machine

section
variable {q : Lubran} {p : Port}

/-- A spindle without the QUEUED entries of a port (R63). -/
def SpindleUnit.purged (p : Port) (u : SpindleUnit) : SpindleUnit :=
  { u with queue := u.queue.filter fun e => !e.queuedOf p }

/-- A part without the QUEUED entries of a port. -/
def Lubran.purged (q : Lubran) (p : Port) : Lubran := { q with spindles := q.spindles.map (SpindleUnit.purged p) }

theorem dropQueued_fold : allSpindles.foldl (fun q i => q.dropQueued p i) q = q.purged p :=
  foldl_modSp_eq_map q (SpindleUnit.purged p)

theorem purged_sp (i : Spindle) : (q.purged p).sp i = (q.sp i).purged p := Vector.getElem_map _ _

theorem queuedOf_inService {e : Entry} (h : e.inService = true) : e.queuedOf p = false := by
  unfold Entry.queuedOf
  rw [h]
  rfl

theorem queuedOf_queued {e : Entry} {t : Tag} (h : e.inService = false) (ho : e.owner = .host p t) :
    e.queuedOf p = true := by
  unfold Entry.queuedOf
  rw [h, ho]
  exact decide_eq_true rfl

/-- An entry in service stays. -/
theorem purged_current (u : SpindleUnit) : (u.purged p).current = u.current := by
  have hfind : (u.purged p).queue.find? Entry.inService = u.queue.find? Entry.inService := by
    refine List.find?_filter.trans (congrArg (fun f => List.find? f u.queue) (funext fun e => ?_))
    cases h : e.inService with
    | false => exact decide_eq_false fun hor => Bool.false_ne_true hor.2
    | true => rw [queuedOf_inService h]; rfl
  unfold SpindleUnit.current
  rw [hfind]
  rfl

theorem mem_of_current {i : Spindle} {e : Entry} (h : q.current i = some e) :
    e ∈ (q.sp i).queue ∨ (q.sp i).internal = some e := by
  unfold Lubran.current SpindleUnit.current at h
  split at h
  · next x hx =>
    split at h
    · exact .inr (hx.trans h)
    · exact .inl (List.mem_of_find?_eq_some h)
  · exact .inl (List.mem_of_find?_eq_some h)

/-- A port without an entry in service has none to abandon (R64). -/
theorem abandon_unserved (h : q.Unserved p) (i : Spindle) : q.abandon p i = q := by
  unfold Lubran.abandon
  cases hcur : q.current i with
  | none => rfl
  | some e =>
    dsimp only
    cases ho : e.owner with
    | internal => rfl
    | host r t =>
      dsimp only
      rw [if_neg]
      rintro rfl
      exact h i e (mem_of_current hcur) (inService_of_current hcur) t ho

theorem purged_unserved (h : q.Unserved p) : (q.purged p).Unserved p := by
  intro i e he hs
  rw [purged_sp] at he
  exact h i e (he.imp_left fun hmem => (List.mem_filter.1 hmem).1) hs

theorem findEntry_eq_none {o : Owner} : q.findEntry o = none ↔ ∀ i, (q.sp i).findEntry o = none := by
  unfold Lubran.findEntry
  rw [List.findSome?_eq_none_iff]
  exact ⟨fun h i => Option.map_eq_none_iff.1 (h i (mem_allSpindles i)), fun h i _ => Option.map_eq_none_iff.2 (h i)⟩

/-- Without QUEUED entries and entries in service a port has none, so no tag of it stays in use (R167). -/
theorem purged_findEntry (h : q.Unserved p) (t : Tag) : (q.purged p).findEntry (.host p t) = none := by
  refine findEntry_eq_none.2 fun i => List.find?_eq_none.2 fun e he => ?_
  rw [purged_sp] at he
  obtain ⟨hmem, hstays⟩ := List.mem_filter.1 he
  rw [decide_eq_true_eq]
  intro ho
  cases hs : e.inService with
  | true => exact h i e (.inl hmem) hs t ho
  | false =>
    rw [queuedOf_queued hs ho] at hstays
    cases hstays

theorem freed_findEntry (u : SpindleUnit) (o : Owner) : (u.freed p).findEntry o = u.findEntry o := by
  unfold SpindleUnit.freed
  split <;> cases o <;> rfl

/-- A spindle without the QUEUED entries of a port and without an allegiance to it. -/
def SpindleUnit.parted (p : Port) (u : SpindleUnit) : SpindleUnit :=
  { u with queue := u.queue.filter fun e => !e.queuedOf p
           allegiance := if u.allegiance.map Prod.fst = some p then none else u.allegiance }

/-- A part whose spindles and slot arbiter have nothing of a port. -/
def Lubran.parted (q : Lubran) (p : Port) : Lubran :=
  { q with spindles := q.spindles.map (SpindleUnit.parted p)
           waiting := q.waiting.filter fun w => decide (w.port ≠ some p)
           served := q.served.filter fun r => decide (r ≠ p) }

theorem parted_sp (i : Spindle) : (q.parted p).sp i = (q.sp i).parted p := Vector.getElem_map _ _

theorem withoutPort_parted : q.withoutPort p = (q.parted p).modPort p fun r =>
    { r.discardWaiting with tags := Vector.replicate 4 false, notices := [], sense := none } := rfl

theorem freed_purged (u : SpindleUnit) : (u.purged p).freed p = u.parted p := by
  by_cases hu : u.allegiance.map Prod.fst = some p
  · exact (if_pos hu).trans (by unfold SpindleUnit.parted; rw [if_pos hu]; rfl)
  · exact (if_neg hu).trans (by unfold SpindleUnit.parted; rw [if_neg hu]; rfl)

/-- The allegiances of a port end, and nothing is selected of it. -/
theorem purged_freed (he : ∀ i, (q.sp i).allegiance.map Prod.fst = some p → q.Engaged i) :
    allSpindles.foldl (fun q i => q.endAllegianceOf p i) (q.purged p) =
      { q with spindles := q.spindles.map (SpindleUnit.parted p) } := by
  have hengaged : ∀ i, ((q.purged p).sp i).allegiance.map Prod.fst = some p → (q.purged p).Engaged i := by
    intro i hi
    unfold Lubran.Engaged Lubran.current
    rw [purged_sp] at hi ⊢
    rw [purged_current]
    exact he i hi
  have hspindles : (q.purged p).spindles.map (SpindleUnit.freed p) = q.spindles.map (SpindleUnit.parted p) :=
    Vector.map_map.trans (congrArg (Vector.map · q.spindles) (funext freed_purged))
  rw [endAllegiances_map hengaged, hspindles]
  rfl

theorem parted_heldTags (h : q.Unserved p) : (q.parted p).heldTags p = Vector.replicate 4 false := by
  refine Vector.ext fun t ht => ?_
  have hnone : (q.parted p).findEntry (.host p ⟨t, ht⟩) = none := by
    refine findEntry_eq_none.2 fun i => ?_
    rw [parted_sp, ← freed_purged, freed_findEntry, ← purged_sp]
    exact findEntry_eq_none.1 (purged_findEntry h ⟨t, ht⟩) i
  rw [Vector.getElem_replicate]
  unfold Lubran.heldTags
  rw [Vector.getElem_ofFn, hnone]
  rfl

/-- The teardown of a port without an entry in service (R178). -/
theorem teardown_unserved (h : q.Unserved p) (he : ∀ i, (q.sp i).allegiance.map Prod.fst = some p → q.Engaged i) :
    q.teardown p = q.withoutPort p := by
  have habandon : allSpindles.foldl (fun (x : Lubran) i => x.abandon p i) (q.purged p) = q.purged p :=
    foldl_eq_self (abandon_unserved (purged_unserved h)) allSpindles
  have hheld := parted_heldTags h
  unfold Lubran.parted at hheld
  unfold Lubran.teardown
  rw [dropQueued_fold]
  dsimp only
  rw [habandon, purged_freed he]
  dsimp only
  rw [hheld, withoutPort_parted]
  rfl

/-- A part without a port has nothing to take that it did not have. -/
theorem atRest_withoutPort (h : q.atRest = true) : (q.withoutPort p).atRest = true := by
  obtain ⟨hsettle, hwait, hgrant, hselect, hwork⟩ := (atRest_iff q).1 h
  have hsp : ∀ i, (q.withoutPort p).sp i = (q.sp i).parted p := fun i => parted_sp i
  refine (atRest_iff _).2 ⟨fun i => ?_, fun i => ?_, fun ⟨hfree, hne⟩ => hgrant ⟨hfree, fun hnil => hne ?_⟩,
    fun i => ?_, hwork⟩
  · rw [hsp]; exact hsettle i
  · rw [hsp]; exact hwait i
  · show q.waiting.filter _ = []
    rw [hnil, List.filter_nil]
  · rw [hsp]; exact hselect i

end

/-! ## The link timer (R177) -/

section
variable {q : Lubran} {p : Port}

theorem linkExpiry_sync {n : Nat} (h : (q.port p).link = .sync) (ht : (q.port p).timer = some n) :
    q.linkExpiry p = q.modPort p fun r => { r with link := .lost, timer := none, idleCount := 0 } := by
  unfold Lubran.linkExpiry
  rw [h, ht]

theorem linkExpiry_up {n : Nat} (h : (q.port p).link = .up) (ht : (q.port p).timer = some n) :
    q.linkExpiry p = (q.teardown p).modPort p fun r => { r with link := .lost, timer := none } := by
  unfold Lubran.linkExpiry
  rw [h, ht]

theorem linkExpiry_idle (h : (q.port p).link = .down ∨ (q.port p).link = .lost ∨ (q.port p).timer = none) :
    q.linkExpiry p = q := by
  unfold Lubran.linkExpiry
  rcases h with h | h | h
  · rw [h]
  · rw [h]
  · rw [h]
    cases (q.port p).link <;> rfl

end

/-- Settles O39: SYNC, UP and the other states of the link, with the teardown as `teardown_unserved` gives it. -/
theorem linkTimerRunsOut : Obligations.LinkTimerRunsOut := by
  intro s p hrest
  refine ⟨fun n hsync ht => ?_, fun n hup ht hserved hengaged => ?_, fun hidle => ?_⟩
  · exact exec_atRest (linkExpiry_sync hsync ht) ((atRest_modPort _ _ _).trans hrest)
  · refine exec_atRest ?_ ((atRest_modPort _ _ _).trans (atRest_withoutPort hrest))
    simp only [effect]
    rw [linkExpiry_up hup ht, teardown_unserved hserved hengaged]
  · exact exec_atRest (linkExpiry_idle hidle) hrest

end Sys2Proof.Machine
end

section
/-!
RESET PORT (R178), and what becomes of an in-service entry of a port that is torn down (R64): its own spindle's
abandonment acts on it, and those of the other spindles keep aside.
-/

namespace Sys2Proof.Machine

/-! ## What a departure leaves (R64, R74) -/

section
variable {q : Lubran} {i j : Spindle} {o : Owner}

theorem foldl_freeSlot_slot (l : List (Fin 8)) (k : Fin 8) :
    (l.foldl Lubran.freeSlot q).slot k = if k ∈ l then (q.slot k).clear else q.slot k := by
  induction l generalizing q with
  | nil => exact (if_neg List.not_mem_nil).symm
  | cons x xs ih =>
    rw [List.foldl_cons, ih, freeSlot_slot]
    by_cases hk : k = x
    · subst hk
      rw [if_pos rfl, if_pos List.mem_cons_self]
      exact ite_self _
    · rw [if_neg hk]
      simp only [List.mem_cons, hk, false_or]

/-- The slots of the owner are cleared, and the others stay. -/
theorem freeSlotsOf_slot (k : Fin 8) : (q.freeSlotsOf o).slot k =
    if (q.slot k).owner = some o then (q.slot k).clear else q.slot k := by
  unfold Lubran.freeSlotsOf Lubran.slotsOf
  rw [foldl_freeSlot_slot]
  simp only [List.mem_filter, mem_allSlots, true_and, decide_eq_true_eq]

theorem releasePath_slots : q.releasePath.slots = q.slots := by
  unfold Lubran.releasePath
  cases q.path.spindle <;> rfl

theorem releaseHeld_slots : (q.releaseHeld i o).slots = q.slots := by
  unfold Lubran.releaseHeld
  split
  · exact releasePath_slots
  · rfl

/-- The entries of each spindle are as they were. -/
structure SameEntries (a b : Lubran) : Prop where
  queue : ∀ j, (b.sp j).queue = (a.sp j).queue
  internal : ∀ j, (b.sp j).internal = (a.sp j).internal

theorem SameEntries.findEntry {a b : Lubran} (h : SameEntries a b) (o : Owner) (j : Spindle) :
    (b.sp j).findEntry o = (a.sp j).findEntry o := by
  cases o with
  | internal => exact h.internal j
  | host p t =>
    unfold SpindleUnit.findEntry
    rw [h.queue]

theorem selectionEvent_entries : SameEntries q (q.selectionEvent i) := by
  have hsp : ∀ j, ((q.selectionEvent i).sp j).queue = (q.sp j).queue ∧
      ((q.selectionEvent i).sp j).internal = (q.sp j).internal := by
    intro j
    unfold Lubran.selectionEvent
    split
    · rw [sp_modSp]
      split <;> exact ⟨rfl, rfl⟩
    · exact ⟨rfl, rfl⟩
  exact ⟨fun j => (hsp j).1, fun j => (hsp j).2⟩

theorem releaseHeld_entries : SameEntries q (q.releaseHeld i o) := by
  have hsp : ∀ j, ((q.releaseHeld i o).sp j).queue = (q.sp j).queue ∧
      ((q.releaseHeld i o).sp j).internal = (q.sp j).internal := by
    intro j
    unfold Lubran.releaseHeld
    split
    · next h =>
      rw [releasePath_sp (of_decide_eq_true h).2, sp_modSp]
      split <;> exact ⟨rfl, rfl⟩
    · exact ⟨rfl, rfl⟩
  exact ⟨fun j => (hsp j).1, fun j => (hsp j).2⟩

theorem leaveQueue_entries : ((q.leaveQueue i o).sp i).queue = ((q.sp i).dropEntry o).queue ∧
    ((q.leaveQueue i o).sp i).internal = ((q.sp i).dropEntry o).internal := by
  have hheld : SameEntries q (q.releaseHeld i o) := releaseHeld_entries
  unfold Lubran.leaveQueue
  dsimp only
  rw [selectionEvent_entries.queue, selectionEvent_entries.internal, freeSlotsOf_keeps.2, departure_sp, sp_modSp_self]
  cases o with
  | internal => exact ⟨hheld.queue i, rfl⟩
  | host p t =>
    refine ⟨?_, hheld.internal i⟩
    show ((q.releaseHeld i (.host p t)).sp i).queue.filter _ = (q.sp i).queue.filter _
    rw [hheld.queue]

theorem leaveQueue_slot (k : Fin 8) : (q.leaveQueue i o).slot k =
    if (q.slot k).owner = some o then (q.slot k).clear else q.slot k := by
  have hevent : ∀ r : Lubran, (r.selectionEvent i).slot k = r.slot k := fun r => by
    unfold Lubran.slot
    rw [selectionEvent_frame.1]
  have hdepart : ∀ r : Lubran, ((r.leaveWaiting o).dropTransmit o).slot k = r.slot k := fun r => by
    cases o <;> rfl
  have hheld : (q.releaseHeld i o).slot k = q.slot k := by
    unfold Lubran.slot
    rw [releaseHeld_slots]
  unfold Lubran.leaveQueue
  dsimp only
  rw [hevent, freeSlotsOf_slot, hdepart, modSp_slot, hheld]

/-- An entry that the path is not held for leaves the path as it is. -/
theorem leaveQueue_path_other (h : q.pathHeldBy i (.entry o) = false) : (q.leaveQueue i o).path = q.path := by
  have hheld : q.releaseHeld i o = q := if_neg (by rw [h]; exact Bool.false_ne_true)
  unfold Lubran.leaveQueue
  dsimp only
  rw [selectionEvent_frame.2, freeSlotsOf_path, hheld]
  cases o <;> rfl

end

/-! ## Who bears a tag -/

/-- An entry of the owner is on a spindle. -/
def SpindleUnit.bears (u : SpindleUnit) (o : Owner) : Prop :=
  ∃ x, (x ∈ u.queue ∨ u.internal = some x) ∧ x.owner = o

section
variable {u v : SpindleUnit} {o w : Owner} {p : Port} {t : Tag}

theorem bears_of_subset (hq : ∀ x ∈ v.queue, x ∈ u.queue) (hi : ∀ x, v.internal = some x → u.internal = some x)
    (h : v.bears o) : u.bears o := by
  obtain ⟨x, hx, ho⟩ := h
  exact ⟨x, hx.imp (hq x) (hi x), ho⟩

theorem findEntry_bears {x : Entry} (h : u.findEntry (.host p t) = some x) : x.owner = .host p t := by
  exact of_decide_eq_true (List.find?_some (p := fun x : Entry => decide (x.owner = .host p t)) h)

theorem bears_of_findEntry (h : (u.findEntry (.host p t)).isSome) : u.bears (.host p t) := by
  obtain ⟨x, hx⟩ := Option.isSome_iff_exists.1 h
  exact ⟨x, .inl (List.mem_of_find?_eq_some hx), findEntry_bears hx⟩

theorem bears_dropEntry (h : (u.dropEntry w).bears o) : u.bears o := by
  cases w with
  | internal => exact bears_of_subset (v := u.dropEntry .internal) (fun _ hx => hx) (fun _ hx => by cases hx) h
  | host r t => exact bears_of_subset (v := u.dropEntry (.host r t)) (fun _ hx => (List.mem_filter.1 hx).1) (fun _ hx => hx) h

theorem bears_modEntry {f : Entry → Entry} (hf : ∀ e, (f e).owner = e.owner) (h : (u.modEntry w f).bears o) :
    u.bears o := by
  obtain ⟨x, hx, ho⟩ := h
  cases w with
  | internal =>
    rcases hx with hx | hx
    · exact ⟨x, .inl hx, ho⟩
    · obtain ⟨y, hy, rfl⟩ := Option.map_eq_some_iff.1 hx
      exact ⟨y, .inr hy, (hf y).symm.trans ho⟩
  | host r t =>
    rcases hx with hx | hx
    · obtain ⟨y, hy, rfl⟩ := List.mem_map.1 hx
      refine ⟨y, .inl hy, ?_⟩
      split at ho
      · exact (hf y).symm.trans ho
      · exact ho
    · exact ⟨x, .inr hx, ho⟩

end

/-- Where no other spindle bears a tag, it is looked for on one alone. -/
theorem findEntry_isSome_at {q : Lubran} {i : Spindle} {p : Port} {t : Tag}
    (h : ∀ j, j ≠ i → ¬ (q.sp j).bears (.host p t)) :
    (q.findEntry (.host p t)).isSome = ((q.sp i).findEntry (.host p t)).isSome := by
  refine Bool.eq_iff_iff.2 ⟨fun hs => ?_, fun hs => ?_⟩
  · obtain ⟨⟨j, e⟩, he⟩ := Option.isSome_iff_exists.1 hs
    obtain ⟨j', -, hj⟩ := List.exists_of_findSome?_eq_some he
    obtain ⟨x, hx, hpair⟩ := Option.map_eq_some_iff.1 hj
    have hsome : ((q.sp j').findEntry (.host p t)).isSome := Option.isSome_iff_exists.2 ⟨x, hx⟩
    by_cases hji : j' = i
    · exact hji ▸ hsome
    · exact absurd (bears_of_findEntry hsome) (h j' hji)
  · refine Option.isSome_iff_ne_none.2 fun hnone => ?_
    rw [findEntry_eq_none.1 hnone i] at hs
    cases hs

/-! ## The other spindles keep aside -/

/-- What the abandonment on other spindles leaves of an owner's entry: its spindle, its slots, the path of its spindle,
and that no other spindle comes to bear it. -/
structure Aside (i : Spindle) (o : Owner) (a b : Lubran) : Prop where
  sp : b.sp i = a.sp i
  bears : ∀ j, j ≠ i → (b.sp j).bears o → (a.sp j).bears o
  slots : ∀ k, b.slot k = a.slot k ∨ ((a.slot k).owner ≠ some o ∧ (b.slot k).owner ≠ some o)
  path : a.path.spindle = some i → b.path = a.path

section
variable {i j : Spindle} {o w : Owner} {a b c : Lubran} {p : Port}

theorem Aside.refl : Aside i o a a := ⟨rfl, fun _ _ => id, fun _ => .inl rfl, fun _ => rfl⟩

theorem Aside.trans (h : Aside i o a b) (g : Aside i o b c) : Aside i o a c where
  sp := g.sp.trans h.sp
  bears := fun j hj hb => h.bears j hj (g.bears j hj hb)
  slots := fun k => by
    rcases h.slots k with e | ⟨h1, h2⟩ <;> rcases g.slots k with e' | ⟨g1, g2⟩
    · exact .inl (e'.trans e)
    · exact .inr ⟨e ▸ g1, g2⟩
    · exact .inr ⟨h1, e' ▸ h2⟩
    · exact .inr ⟨h1, g2⟩
  path := fun hp => (g.path ((h.path hp).symm ▸ hp)).trans (h.path hp)

theorem aside_leaveQueue (hj : j ≠ i) (ho : w ≠ o) : Aside i o a (a.leaveQueue j w) where
  sp := leaveQueue_sp_ne hj.symm
  bears := fun x _ hb => by
    by_cases hx : x = j
    · subst hx
      obtain ⟨hq, hi⟩ := leaveQueue_entries (q := a) (i := x) (o := w)
      exact bears_dropEntry (bears_of_subset (fun _ he => hq ▸ he) (fun _ he => hi ▸ he) hb)
    · rw [leaveQueue_sp_ne hx] at hb
      exact hb
  slots := fun k => by
    rw [leaveQueue_slot]
    by_cases hk : (a.slot k).owner = some w
    · rw [if_pos hk, hk]
      exact .inr ⟨fun h => ho (Option.some.inj h), nofun⟩
    · rw [if_neg hk]
      exact .inl rfl
  path := fun hp => leaveQueue_path_other (decide_eq_false fun ⟨_, h⟩ => hj (Option.some.inj (h.symm.trans hp)))

theorem aside_depart {e : Entry} (hj : j ≠ i) (ho : e.owner ≠ o) (hp : a.path.spindle ≠ some i) :
    Aside i o a (a.depart j e) := by
  have hleave : ∀ x : PathRec, Aside i o a (Lubran.leaveQueue { a with path := x } j e.owner) := fun x =>
    have h : Aside i o { a with path := x } (Lubran.leaveQueue { a with path := x } j e.owner) := aside_leaveQueue hj ho
    ⟨h.sp, h.bears, h.slots, fun hpath => absurd hpath hp⟩
  unfold Lubran.depart
  split
  · exact hleave _
  · exact hleave a.path

/-- A TRANSFERRING entry whose port is torn down stays to the next block boundary (R64). -/
def Lubran.forsake (q : Lubran) (i : Spindle) (o : Owner) : Lubran :=
  (q.modEntry i o fun e => { e with abandoned := true }).leaveWaiting o

theorem forsake_sp_ne (h : j ≠ i) : (a.forsake i o).sp j = a.sp j :=
  sp_modSp_ne a i j (f := fun u => u.modEntry o fun e => { e with abandoned := true }) h

theorem forsake_sp : (a.forsake i o).sp i = (a.sp i).modEntry o fun e => { e with abandoned := true } :=
  sp_modSp_self a i fun u => u.modEntry o fun e => { e with abandoned := true }

theorem aside_forsake (hj : j ≠ i) : Aside i o a (a.forsake j w) where
  sp := forsake_sp_ne hj.symm
  bears := fun x _ hb => by
    by_cases hx : x = j
    · subst hx
      rw [forsake_sp] at hb
      exact bears_modEntry (f := fun e => { e with abandoned := true }) (fun _ => rfl) hb
    · rw [forsake_sp_ne hx] at hb
      exact hb
  slots := fun _ => .inl rfl
  path := fun _ => rfl

/-- The abandonment of another spindle's entry keeps aside. -/
theorem aside_abandon (hj : j ≠ i) (hbare : ¬ (a.sp j).bears o) : Aside i o a (a.abandon p j) := by
  unfold Lubran.abandon
  split
  · exact .refl
  · next e hcur =>
    have ho : e.owner ≠ o := fun h => hbare ⟨e, mem_of_current hcur, h⟩
    split
    · exact .refl
    · split
      · split
        · exact aside_forsake hj
        · split
          · next hc =>
            refine aside_depart hj ho fun hp => hj ?_
            have hheld := of_decide_eq_true (Bool.and_eq_true_iff.1 hc).1
            exact Option.some.inj (hheld.2.symm.trans hp)
          · exact aside_leaveQueue hj ho
        · exact aside_leaveQueue hj ho
        · exact aside_leaveQueue hj ho
        · exact aside_leaveQueue hj ho
        · exact aside_leaveQueue hj ho
      · exact .refl

theorem aside_fold {l : List Spindle} (hi : i ∉ l) (hbare : ∀ j, j ≠ i → ¬ (a.sp j).bears o) :
    Aside i o a (l.foldl (fun (x : Lubran) j => x.abandon p j) a) := by
  induction l generalizing a with
  | nil => exact .refl
  | cons x xs ih =>
    obtain ⟨hx, hxs⟩ := not_or.1 (fun hor => hi (List.mem_cons.2 hor))
    have hstep : Aside i o a (a.abandon p x) := aside_abandon (fun h => hx h.symm) (hbare x fun h => hx h.symm)
    exact hstep.trans (ih hxs fun j hj hb => hbare j hj (hstep.bears j hj hb))

/-- The abandonments of the spindles before one, its own, and those of the spindles after it. -/
theorem abandon_split (hbare : ∀ j, j ≠ i → ¬ (a.sp j).bears o)
    (hown : ∀ b : Lubran, ∀ j, j ≠ i → (b.abandon p i).sp j = b.sp j) : ∃ before, Aside i o a before ∧
    Aside i o (before.abandon p i) (allSpindles.foldl (fun (x : Lubran) j => x.abandon p j) a) := by
  obtain ⟨l, r, hsplit⟩ := List.append_of_mem (mem_allSpindles i)
  have hnodup : (l ++ i :: r).Nodup := hsplit ▸ (by decide : allSpindles.Nodup)
  obtain ⟨-, hcons, hdisjoint⟩ := List.nodup_append.1 hnodup
  have hbefore : Aside i o a (l.foldl (fun (x : Lubran) j => x.abandon p j) a) :=
    aside_fold (fun hi => hdisjoint i hi i List.mem_cons_self rfl) hbare
  refine ⟨_, hbefore, ?_⟩
  rw [hsplit, List.foldl_append, List.foldl_cons]
  refine aside_fold (List.nodup_cons.1 hcons).1 fun j hj hb => ?_
  rw [hown _ j hj] at hb
  exact hbare j hj (hbefore.bears j hj hb)

theorem depart_sp_ne {e : Entry} (h : j ≠ i) : (a.depart i e).sp j = a.sp j := by
  unfold Lubran.depart
  split <;> exact leaveQueue_sp_ne h

theorem abandon_sp_ne (h : j ≠ i) : (a.abandon p i).sp j = a.sp j := by
  unfold Lubran.abandon
  split
  · rfl
  · split
    · rfl
    · split
      · split
        · exact forsake_sp_ne h
        · split
          · exact depart_sp_ne h
          · exact leaveQueue_sp_ne h
        · exact leaveQueue_sp_ne h
        · exact leaveQueue_sp_ne h
        · exact leaveQueue_sp_ne h
        · exact leaveQueue_sp_ne h
      · rfl

end

/-! ## The whole teardown -/

section
variable {q : Lubran} {p : Port} {i : Spindle} {t : Tag}

theorem endAllegianceOf_entries (j : Spindle) : SameEntries q (q.endAllegianceOf p j) := by
  have hend : SameEntries q (q.endAllegiance j) := by
    have hfree : SameEntries q (q.modSp j fun u => { u with allegiance := none }) := by
      refine ⟨fun x => ?_, fun x => ?_⟩ <;>
      · rw [sp_modSp]
        split <;> rfl
    have hevent := selectionEvent_entries (q := q.modSp j fun u => { u with allegiance := none }) (i := j)
    exact ⟨fun x => (hevent.queue x).trans (hfree.queue x), fun x => (hevent.internal x).trans (hfree.internal x)⟩
  unfold Lubran.endAllegianceOf
  split
  · split
    · exact hend
    · exact ⟨fun _ => rfl, fun _ => rfl⟩
  · exact ⟨fun _ => rfl, fun _ => rfl⟩

theorem endAllegianceOf_frame (j : Spindle) :
    (q.endAllegianceOf p j).slots = q.slots ∧ (q.endAllegianceOf p j).path = q.path := by
  unfold Lubran.endAllegianceOf
  split
  · split
    · exact selectionEvent_frame
    · exact ⟨rfl, rfl⟩
  · exact ⟨rfl, rfl⟩

/-- What a teardown does after its abandonments keeps the entries, the slots and the path, and leaves of the port the
tags of the entries that stay (R167, R178). -/
theorem teardown_after {a : Lubran} (ha : a = allSpindles.foldl (fun (x : Lubran) j => x.abandon p j) (q.purged p)) :
    (∀ o j, ((q.teardown p).sp j).findEntry o = (a.sp j).findEntry o) ∧ (q.teardown p).slots = a.slots ∧
      (q.teardown p).path = a.path ∧ (∀ t, ((q.teardown p).port p).tags.get t = (a.findEntry (.host p t)).isSome) ∧
      ((q.teardown p).port p).replies = [] ∧ ((q.teardown p).port p).requests = [] ∧
      ((q.teardown p).port p).drains = [] := by
  generalize hb : allSpindles.foldl (fun (x : Lubran) j => x.endAllegianceOf p j) a = b
  have hfind : ∀ o j, (b.sp j).findEntry o = (a.sp j).findEntry o := fun o j => hb ▸
    foldl_keeps (fun x => (x.sp j).findEntry o) (fun (x : Lubran) k => x.endAllegianceOf p k)
      (fun x k => (endAllegianceOf_entries k).findEntry o j) allSpindles a
  have hslots : b.slots = a.slots := hb ▸ foldl_keeps (fun x => x.slots) (fun (x : Lubran) k => x.endAllegianceOf p k)
    (fun x k => (endAllegianceOf_frame k).1) allSpindles a
  have hpath : b.path = a.path := hb ▸ foldl_keeps (fun x => x.path) (fun (x : Lubran) k => x.endAllegianceOf p k)
    (fun x k => (endAllegianceOf_frame k).2) allSpindles a
  have hfound : ∀ o, b.findEntry o = a.findEntry o := fun o => by
    unfold Lubran.findEntry
    simp only [hfind]
  have htorn : q.teardown p = Lubran.modPort
      { b with waiting := b.waiting.filter fun w => decide (w.port ≠ some p)
               served := b.served.filter fun r => decide (r ≠ p) } p fun r =>
      { r.discardWaiting with tags := b.heldTags p, notices := [], sense := none } := by
    unfold Lubran.teardown
    rw [dropQueued_fold]
    dsimp only
    rw [← ha, hb]
    rfl
  rw [htorn]
  refine ⟨hfind, hslots, hpath, fun t => ?_, ?_, ?_, ?_⟩
  · rw [port_modPort_self, ← hfound]
    exact Vector.getElem_ofFn _
  · rw [port_modPort_self]; rfl
  · rw [port_modPort_self]; rfl
  · rw [port_modPort_self]; rfl

variable {e : Entry}

/-- Where an entry is found first, it is found first among those that stay. -/
theorem purged_finds {u : SpindleUnit} (h : u.findEntry (.host p t) = some e) (hs : e.inService = true) :
    (u.purged p).findEntry (.host p t) = some e := by
  obtain ⟨he, as, bs, hsplit, has⟩ := List.find?_eq_some_iff_append.1 h
  refine List.find?_filter.trans (List.find?_eq_some_iff_append.2 ⟨?_, as, bs, hsplit, fun a ha => ?_⟩)
  · exact decide_eq_true ⟨by rw [queuedOf_inService hs]; rfl, he⟩
  · have hother := has a ha
    rw [Bool.not_eq_true'] at hother ⊢
    exact decide_eq_false fun hb => Bool.false_ne_true (hother.symm.trans hb.2)

theorem abandon_waiting (hcur : q.current i = some e) (ho : e.owner = .host p t)
    (hs : e.state = .seeking ∨ e.state = .settling ∨ e.state = .rotating) :
    q.abandon p i = q.leaveQueue i (.host p t) := by
  unfold Lubran.abandon
  rw [hcur]
  dsimp only
  rw [ho]
  dsimp only
  rw [if_pos rfl]
  rcases hs with hs | hs | hs <;> rw [hs]

theorem abandon_transferring (hcur : q.current i = some e) (ho : e.owner = .host p t) (hs : e.state = .transferring) :
    q.abandon p i = q.forsake i (.host p t) := by
  unfold Lubran.abandon
  rw [hcur]
  dsimp only
  rw [ho]
  dsimp only
  rw [if_pos rfl, hs]
  rfl

theorem abandon_ending (hcur : q.current i = some e) (ho : e.owner = .host p t) (hs : e.state = .ending) :
    q.abandon p i = if q.carrying i (.host p t) then q.depart i e else q.leaveQueue i (.host p t) := by
  unfold Lubran.abandon
  rw [hcur]
  dsimp only
  rw [ho]
  dsimp only
  rw [if_pos rfl, hs]

/-- An entry that has left a part: found no more, and with no slot. -/
structure Gone (q : Lubran) (i : Spindle) (o : Owner) : Prop where
  find : (q.sp i).findEntry o = none
  slots : ∀ k, (q.slot k).owner ≠ some o

theorem gone_leaveQueue : Gone (q.leaveQueue i (.host p t)) i (.host p t) :=
  ⟨leaveQueue_find, fun _ => leaveQueue_slots⟩

theorem gone_depart (ho : e.owner = .host p t) : Gone (q.depart i e) i (.host p t) := by
  unfold Lubran.depart
  rw [ho]
  split
  · exact gone_leaveQueue
  · exact gone_leaveQueue

/-- The path carries the block of an entry that has left on, with what it needs of the entry (R68, R89). -/
theorem depart_path {nx : NextField} {b : Nat} (hnext : (q.sp i).xfer.next = some nx)
    (hfield : q.path.field = some (.block b)) :
    ∃ d : Departed, d.entry = e ∧ d.action = nx.action ∧
      (q.depart i e).path = { q.path with holder := some (.departed d) } := by
  unfold Lubran.depart
  rw [hnext, hfield]
  exact ⟨_, rfl, rfl, leaveQueue_path nofun⟩

/-- What is gone where its spindle abandoned it is gone after the teardown. -/
theorem gone_aside {a b : Lubran} (h : Aside i (.host p t) a b) (g : Gone a i (.host p t)) : Gone b i (.host p t) where
  find := by rw [h.sp]; exact g.find
  slots := fun k => by
    rcases h.slots k with e | ⟨-, e⟩
    · rw [e]; exact g.slots k
    · exact e

end

/-- The abandonments of a teardown, as one that acts on the entry's spindle and others that keep aside of it. -/
theorem teardown_split {q : Lubran} {p : Port} {i : Spindle} {e : Entry} {t : Tag} (hcur : q.current i = some e)
    (hfind : (q.sp i).findEntry (.host p t) = some e)
    (hbare : ∀ j x, j ≠ i → x ∈ (q.sp j).queue ∨ (q.sp j).internal = some x → x.owner ≠ .host p t) :
    ∃ before after : Lubran, Aside i (.host p t) (q.purged p) before ∧ Aside i (.host p t) (before.abandon p i) after ∧
      before.current i = some e ∧ (before.sp i).findEntry (.host p t) = some e ∧
      (before.sp i).xfer = (q.sp i).xfer ∧ after = allSpindles.foldl (fun (x : Lubran) j => x.abandon p j) (q.purged p) ∧
      (after.findEntry (.host p t)).isSome = ((after.sp i).findEntry (.host p t)).isSome := by
  have hpurged : ∀ j, j ≠ i → ¬ ((q.purged p).sp j).bears (.host p t) := by
    rintro j hj ⟨x, hx, ho⟩
    rw [purged_sp] at hx
    exact hbare j x hj (hx.imp_left fun hmem => (List.mem_filter.1 hmem).1) ho
  obtain ⟨before, hbefore, hafter⟩ := abandon_split (p := p) hpurged fun b j hj => abandon_sp_ne hj
  have hsp : before.sp i = (q.sp i).purged p := hbefore.sp.trans (purged_sp i)
  refine ⟨before, _, hbefore, hafter, ?_, ?_, ?_, rfl, findEntry_isSome_at fun j hj hb => ?_⟩
  · unfold Lubran.current
    rw [hsp, purged_current]
    exact hcur
  · rw [hsp]
    exact purged_finds hfind (inService_of_current hcur)
  · rw [hsp]
    rfl
  · have hstep := hafter.bears j hj hb
    rw [abandon_sp_ne hj] at hstep
    exact hpurged j hj (hbefore.bears j hj hstep)

theorem effect_resetPort {q : Lubran} {p : Port} {f : HostFrame} (hh : q.Hears p 80 f) (hp : f.payload = []) :
    effect (.resetPort p f) q = (q.modPort p LinkPort.reload).teardown p := by
  refine (receive_hears hh).trans ?_
  rw [hp]

/-- Settles O38: the frame, then the in-service entry, followed through the teardown (`teardown_split`). -/
theorem resetPortTearsThePortDown : Obligations.ResetPortTearsThePortDown := by
  refine ⟨fun s p f hrest hh hp hserved hengaged => ?_, fun s p f hh hp => ?_, ?_⟩
  · refine exec_atRest ((effect_resetPort hh hp).trans (teardown_unserved hserved hengaged)) ?_
    exact atRest_withoutPort ((atRest_modPort _ _ _).trans hrest)
  · rw [exec_effect]
    unfold State.run
    rw [effect_resetPort hh hp]
  intro q p i e t hcur ho hfind hbare torn gone
  obtain ⟨before, after, hbefore, hafter, hcur', hfind', hxfer, hfold, htag⟩ := teardown_split hcur hfind hbare
  obtain ⟨hfinds, hslots, hpath, htags, hreplies, hrequests, hdrains⟩ := teardown_after hfold
  have hslot : ∀ k, torn.slot k = after.slot k := fun k => congrArg (Vector.get · k) hslots
  have hgone : Gone (before.abandon p i) i (.host p t) → gone := fun g => by
    have hlast := gone_aside hafter g
    refine ⟨(hfinds (.host p t) i).trans hlast.find, ?_, fun k => ?_, hreplies, hrequests, hdrains⟩
    · rw [htags, htag, hlast.find]
      rfl
    · rw [hslot]
      exact hlast.slots k
  refine ⟨fun hs => hgone ?_, fun hs => ?_, fun hs => ⟨hgone ?_, ?_⟩⟩
  · rw [abandon_waiting hcur' ho hs]
    exact gone_leaveQueue
  · rw [abandon_transferring hcur' ho hs] at hafter
    have hmod : (after.sp i).findEntry (.host p t) = some { e with abandoned := true } := by
      rw [hafter.sp, forsake_sp]
      exact (findEntry_modEntry (f := fun e => { e with abandoned := true }) fun _ => rfl).trans
        (congrArg (Option.map _) hfind')
    refine ⟨(hfinds (.host p t) i).trans hmod, ?_, fun k hk => ?_, fun hp => ?_⟩
    · rw [htags, htag, hmod]
      rfl
    · rw [hslot]
      rcases hbefore.slots k with hb | ⟨hb, -⟩
      · rcases hafter.slots k with ha | ⟨ha, -⟩
        · exact ha.trans hb
        · exact absurd (hb ▸ hk) ha
      · exact absurd hk hb
    · have hb := hbefore.path hp
      exact hpath.trans ((hafter.path ((congrArg PathRec.spindle hb).trans hp)).trans hb)
  · rw [abandon_ending hcur' ho hs]
    split
    · exact gone_depart ho
    · exact gone_leaveQueue
  · intro b nx hstate hp hholder hfield hnext
    have hb : before.path = q.path := hbefore.path hp
    have hcarry : before.carrying i (.host p t) = true := by
      refine Bool.and_eq_true_iff.2 ⟨decide_eq_true ⟨?_, ?_⟩, decide_eq_true ?_⟩
      · rw [hb]; exact hholder
      · rw [hb]; exact hp
      · rw [hb]; exact hstate
    rw [abandon_ending hcur' ho hs, if_pos hcarry] at hafter
    obtain ⟨d, hd, haction, hdpath⟩ := depart_path (q := before) (i := i) (e := e) (by rw [hxfer]; exact hnext)
      (by rw [hb]; exact hfield)
    rw [hb] at hdpath
    refine ⟨d, hd, haction, hpath.trans ((hafter.path ?_).trans hdpath)⟩
    rw [hdpath]
    exact hp

end Sys2Proof.Machine
end

section
/-!
Rows of one drive that change its spindle alone: the lines, the end of a settle, the end of an allegiance (R6, R16, R21,
R148).
-/

namespace Sys2Proof.Machine

/-! ## A row that changes one spindle -/

/-- A spindle that leaves no settle, no motion and no selection to take. -/
structure SpindleUnit.Rests (u : SpindleUnit) : Prop where
  settle : u.settleReady = false
  wait : u.waitReady = false
  select : u.selectDue = false

theorem rests_of_atRest {q : Lubran} (h : q.atRest = true) (i : Spindle) : (q.sp i).Rests :=
  ⟨(sp_of_atRest h i).1, (sp_of_atRest h i).2.1, (sp_of_atRest h i).2.2⟩

theorem atRest_spindle {q : Lubran} {i : Spindle} {f : SpindleUnit → SpindleUnit} (h : q.atRest = true)
    (hf : (f (q.sp i)).Rests) : (q.modSp i f).atRest = true := atRest_modSp h hf.settle hf.wait hf.select

section
variable {u : SpindleUnit}

theorem atSpeed_of (h : u.life = .recalibrating ∨ u.life = .buildingMap ∨ u.life = .ready) : u.atSpeed = true := by
  unfold SpindleUnit.atSpeed
  rcases h with h | h | h <;> rw [h]

theorem not_atSpeed (h : u.life = .absent ∨ u.life = .stopped ∨ u.life = .spinningUp ∨ u.life = .faulted) :
    u.atSpeed = false := by
  unfold SpindleUnit.atSpeed
  rcases h with h | h | h | h <;> rw [h]

theorem moving_of {c : Channel} (h : c.state = .seeking ∨ c.state = .settling ∨ c.state = .recal) : c.moving = true := by
  unfold Channel.moving
  rcases h with h | h | h <;> rw [h]

theorem not_moving {c : Channel} (h : c.state = .idle ∨ c.state = .onTrack) : c.moving = false := by
  unfold Channel.moving
  rcases h with h | h <;> rw [h]

theorem not_seekRunning {c : Channel} (h : c.moving = false ∨ c.purpose = .recal) : c.seekRunning = false := by
  unfold Channel.moving at h
  unfold Channel.seekRunning
  cases hs : c.state <;> cases hp : c.purpose <;> simp_all

theorem seekRunning_of {c : Channel} (h : c.state = .seeking ∨ c.state = .settling) (hp : c.purpose = .normal) :
    c.seekRunning = true := by
  unfold Channel.seekRunning
  rcases h with h | h <;> rw [h, hp]

/-- A settle that still counts, or a channel that does not settle, completes nothing (R16). -/
theorem not_settleReady (h : u.chan.state = .settling → u.chan.settle ≠ 0) : u.settleReady = false :=
  settleReady_of_count h

/-- A motion is held back as before on a spindle whose channel runs as before. -/
theorem waitReady_congr {v : SpindleUnit} (hw : v.waitReq = u.waitReq) (ho : v.chan.orphan = u.chan.orphan)
    (hs : v.chan.seekRunning = u.chan.seekRunning) (hm : v.chan.moving = u.chan.moving) :
    v.waitReady = u.waitReady := by
  unfold SpindleUnit.waitReady
  rw [hw, ho, hs, hm]

end

/-! ## SPEED-OK (R6) -/

section
variable {q : Lubran} {i : Spindle}

theorem speedRise_other (h : (q.sp i).life ≠ .spinningUp) :
    q.speedRise i = q.modSp i fun u => { u with lines := { u.lines with speedOk := true } } := by
  unfold Lubran.speedRise Lubran.modLines
  rw [if_neg]
  rw [sp_modSp_self]
  exact h

/-- A spindle whose recalibration starts with GUARD low (R6, R21). -/
def SpindleUnit.spunUp (v w : Nat) (u : SpindleUnit) : SpindleUnit :=
  { u with life := .recalibrating, spinTimer := none, missing := 0, lines := { u.lines with speedOk := true }
           chan := { u.chan with
             sVmax := v, sSettle := w, purpose := .recal, state := .recal
             recalLimit := 1536, direction := .outward, demand := min 8 v } }

theorem speedRise_spinningUp (h : (q.sp i).life = .spinningUp) (hcur : q.current i = none)
    (hg : (q.sp i).lines.guard = false) :
    q.speedRise i = q.modSp i (SpindleUnit.spunUp q.params.vmax q.params.settle) := by
  unfold Lubran.speedRise Lubran.modLines Lubran.spunUp Lubran.enterRecalibrating
  rw [if_pos (by rw [sp_modSp_self]; exact h), modSp_modSp, modSp_modSp]
  have hnone : (q.modSp i fun u => { u with
      life := .recalibrating, spinTimer := none, missing := 0, lines := { u.lines with speedOk := true } }).current i =
      none := by
    unfold Lubran.current
    rw [sp_modSp_self]
    exact hcur
  refine (startRecal_none hnone).trans ((modSp_modSp _ _ _ _).trans (modSp_congr_at ?_))
  unfold Channel.beginRecal
  dsimp only
  rw [if_neg (by rw [hg]; exact Bool.false_ne_true)]
  rfl

end

/-- Settles O55: SPINNING_UP (`speedRise_spinningUp`), and every other spindle. -/
theorem speedOkStartsTheRecalibration : Obligations.SpeedOkStartsTheRecalibration := by
  intro s i hrest
  obtain ⟨hsettle, hwait, hselect⟩ := rests_of_atRest hrest i
  refine ⟨fun hlife hcur hw hg => ?_, fun hlife => ?_⟩
  · refine exec_atRest (speedRise_spinningUp hlife hcur hg) (atRest_spindle hrest ⟨?_, waitReady_none hw, hselect⟩)
    exact not_settleReady nofun
  · exact exec_atRest (speedRise_other hlife) (atRest_spindle hrest ⟨hsettle, hwait, hselect⟩)

/-! ## GUARD (R21, R22) -/

section
variable {q : Lubran} {i : Spindle}

theorem atRest_syncEntry (h : q.atRest = true) : (q.syncEntry i).atRest = true := by
  unfold Lubran.syncEntry
  split
  · exact h
  · split
    · exact atRest_modEntry h
    · exact atRest_modEntry h
    · exact h

theorem guardRise_recal (hs : (q.sp i).atSpeed = true) (hm : (q.sp i).chan.moving = true)
    (hp : (q.sp i).chan.purpose = .recal) : q.guardRise i = (q.modSp i fun u =>
      { u with lines := { u.lines with guard := true }
               chan := { u.chan with cyl := 0, demand := 0, remaining := 0, state := .settling
                                     settle := u.chan.sSettle } }).syncEntry i := by
  unfold Lubran.guardRise Lubran.modLines
  simp only [sp_modSp_self]
  rw [if_pos ⟨hs, hm⟩, hp]
  dsimp only
  rw [modChan_eq, modSp_modSp]
  rfl

theorem guardRise_still (hm : (q.sp i).chan.moving = false) :
    q.guardRise i = q.modSp i fun u => { u with lines := { u.lines with guard := true } } := by
  unfold Lubran.guardRise Lubran.modLines
  simp only [sp_modSp_self]
  rw [if_neg]
  exact fun h => Bool.false_ne_true (hm.symm.trans h.2)

end

/-- Settles O52: a recalibration that runs, and a channel that does not move. -/
theorem guardEndsTheOutwardMotion : Obligations.GuardEndsTheOutwardMotion := by
  intro s i hrest u
  obtain ⟨hsettle, hwait, hselect⟩ := rests_of_atRest hrest i
  refine ⟨fun hlife hp hpos hstate => ?_, fun hstate => ?_⟩
  · have hm : u.chan.moving = true := by
      refine moving_of ?_
      rcases hstate with h | h | h
      · exact .inr (.inr h)
      · exact .inr (.inl h)
      · exact .inl h
    refine exec_atRest (guardRise_recal (atSpeed_of hlife) hm hp)
      (atRest_syncEntry (atRest_spindle hrest ⟨not_settleReady fun _ => ?_, ?_, hselect⟩))
    · exact Nat.pos_iff_ne_zero.1 hpos
    · refine Eq.trans (b := u.waitReady) (waitReady_congr ?_ ?_ ?_ ?_) hwait
      · rfl
      · rfl
      · rw [not_seekRunning (c := u.chan) (.inr hp)]
        exact not_seekRunning (.inr hp)
      · exact (moving_of (.inr (.inl rfl))).trans hm.symm
  · exact exec_atRest (guardRise_still (not_moving hstate)) (atRest_spindle hrest ⟨hsettle, hwait, hselect⟩)

/-! ## The end of an allegiance (R148, R150) -/

/-- Settles O56: nothing is selected on an Engaged spindle (`endAllegiance_engaged`). -/
theorem allegianceExpires : Obligations.AllegianceExpires := by
  intro s i p n hrest hall hn hengaged hlife
  obtain ⟨hsettle, hwait, hselect⟩ := rests_of_atRest hrest i
  have heff : s.part.allegianceEnd i = s.part.modSp i fun u => { u with allegiance := none } := by
    unfold Lubran.allegianceEnd
    rw [hall]
    exact (if_pos ⟨atSpeed_of hlife, hn⟩).trans (endAllegiance_engaged hengaged)
  exact exec_atRest heff (atRest_spindle hrest ⟨hsettle, hwait, hselect⟩)

/-! ## The end of a settle (R16, R54) -/

theorem allSpindles_find_some {f : Spindle → Bool} {i : Spindle} (h : f i = true) (hne : ∀ j, j ≠ i → f j = false) :
    allSpindles.find? f = some i := by
  obtain ⟨j, hj⟩ := Option.isSome_iff_exists.1 (List.find?_isSome.2 ⟨i, mem_allSpindles i, h⟩)
  by_cases hji : j = i
  · exact hji ▸ hj
  · have hf := List.find?_some hj
    rw [hne j hji] at hf
    cases hf

section
variable {q : Lubran} {i : Spindle} {e : Entry} {p : Port} {t : Tag}

/-- A settle that can complete on one spindle of a part at rest is the next thing taken. -/
theorem nextTask_settle {f : SpindleUnit → SpindleUnit} (h : q.atRest = true)
    (hf : (f (q.sp i)).settleReady = true) : (q.modSp i f).nextTask = some ((q.modSp i f).completeSettle i) := by
  unfold Lubran.nextTask
  rw [allSpindles_find_some (i := i) (by rw [sp_modSp_self]; exact hf)
    fun j hj => by rw [sp_modSp_ne _ _ _ hj]; exact (sp_of_atRest h j).1]

/-- The settle of a host entry's own seek completes: the entry is ROTATING (R16, R54). -/
theorem completeSettle_host (hlife : (q.sp i).life = .ready) (hp : (q.sp i).chan.purpose = .normal)
    (horphan : (q.sp i).chan.orphan = false) (hcur : q.current i = some e) (ho : e.owner = .host p t)
    (hs : e.state = .settling) : q.completeSettle i = q.modSp i fun u =>
      { u.modEntry (.host p t) (fun x => { x with state := .rotating }) with
        chan := { u.chan with state := .onTrack, overshoots := 0, target := none } } := by
  unfold Lubran.completeSettle Lubran.seekDone
  rw [hp]
  dsimp only
  rw [modChan_eq, sp_modSp_self]
  dsimp only
  have hcur' : (q.modSp i fun u => { u with chan := { u.chan with
      state := .onTrack, overshoots := 0, target := none } }).current i = some e := by
    unfold Lubran.current
    rw [sp_modSp_self]
    exact hcur
  rw [horphan, if_neg Bool.false_ne_true, hlife, if_neg nofun, hcur']
  dsimp only
  rw [hs, ho]
  dsimp only
  rw [if_neg nofun, modEntry_eq, modSp_modSp]
  rfl

/-- A host entry's own seek is ready on a spindle: it completes at once. -/
theorem settle_completes {f : SpindleUnit → SpindleUnit} (h : q.atRest = true)
    (hready : (f (q.sp i)).settleReady = true) (hlife : (f (q.sp i)).life = .ready)
    (hp : (f (q.sp i)).chan.purpose = .normal) (horphan : (f (q.sp i)).chan.orphan = false)
    (hcur : (f (q.sp i)).current = some e) (ho : e.owner = .host p t) (hs : e.state = .settling) :
    (q.modSp i f).nextTask = some (q.modSp i fun u =>
      { (f u).modEntry (.host p t) (fun x => { x with state := .rotating }) with
        chan := { (f u).chan with state := .onTrack, overshoots := 0, target := none } }) := by
  have hsp : (q.modSp i f).sp i = f (q.sp i) := sp_modSp_self q i f
  rw [← hsp] at hlife hp horphan hcur
  rw [nextTask_settle h hready, completeSettle_host hlife hp horphan hcur ho hs, modSp_modSp]

end

/-- Settles O53: either row makes the settle ready, and it completes before the step ends. -/
theorem settleCompletesTheSeek : Obligations.SettleCompletesTheSeek := by
  intro s i e p t hrest hlife hstate hp horphan hw hcur ho hs done
  have hselect := (rests_of_atRest hrest i).select
  have hdone : ∀ lines, (done lines).atRest = true := fun lines =>
    atRest_spindle hrest ⟨not_settleReady nofun, waitReady_none hw, hselect⟩
  refine ⟨fun hzero => ?_, fun hone hon => ?_⟩
  · have hnext := settle_completes (f := fun u => { u with lines := { u.lines with onTrack := true } }) hrest
      (Bool.and_eq_true_iff.2 ⟨decide_eq_true ⟨hstate, hzero⟩, rfl⟩) hlife hp horphan hcur ho hs
    refine exec_one rfl (hnext.trans (congrArg some (modSp_congr_at ?_))) (hdone _)
    rw [← hzero]
    rfl
  · have heff : s.part.settleExpiry i = s.part.modSp i fun u => { u with chan := { u.chan with settle := 0 } } :=
      if_pos ⟨hstate, Nat.le_of_eq hone⟩
    have hnext := settle_completes (f := fun u => { u with chan := { u.chan with settle := 0 } }) hrest
      (Bool.and_eq_true_iff.2 ⟨decide_eq_true ⟨hstate, rfl⟩, hon⟩) hlife hp horphan hcur ho hs
    exact exec_one heff (hnext.trans (congrArg some (modSp_congr_at rfl))) (hdone _)

end Sys2Proof.Machine
end

section
/-!
The marks of the angular tracker (R23 to R25, R46) and what a slot boundary counts for the channel (R16, R18, R21).
-/

namespace Sys2Proof.Machine

/-! ## The lines that fell before a mark -/

section
variable {q : Lubran} {i : Spindle}

/-- A mark that brings no falls leaves the lines (log entry 6). -/
theorem takeFalls_none : q.takeFalls i { onTrack := false, guard := false, fault := false } = q := by
  refine modSp_id q i ?_
  simp [Lines.fall]

/-- A line that falls makes no settle ready. -/
theorem settleReady_fall {u : SpindleUnit} {f : Falls} (h : u.settleReady = false) :
    ({ u with lines := u.lines.fall f } : SpindleUnit).settleReady = false := by
  unfold SpindleUnit.settleReady Lines.fall at *
  dsimp only
  rw [← Bool.and_assoc, h, Bool.false_and]

/-! ## A mark as a change of the tracker -/

theorem sectorMark_atSpeed {f : Falls} (h : (q.sp i).atSpeed = true) :
    q.sectorMark i f = (q.takeFalls i f).sector i := by
  unfold Lubran.sectorMark
  exact if_pos (by unfold Lubran.takeFalls; rw [sp_modSp_self]; exact h)

theorem indexMark_atSpeed {f : Falls} (h : (q.sp i).atSpeed = true) :
    q.indexMark i f = (q.takeFalls i f).index i := by
  unfold Lubran.indexMark
  exact if_pos (by unfold Lubran.takeFalls; rw [sp_modSp_self]; exact h)

/-- A SPINNING_UP spindle moves its slot number alone (R6). -/
theorem marks_spinningUp {f : Falls} (h : (q.sp i).life = .spinningUp) :
    q.sectorMark i f = (q.modSp i fun u => { u with
      lines := u.lines.fall f, slot := if u.slot < 95 then u.slot + 1 else 0 }) ∧
    q.indexMark i f = q.modSp i fun u => { u with lines := u.lines.fall f, slot := 0 } := by
  have hs : ((q.takeFalls i f).sp i).atSpeed ≠ true := by
    unfold Lubran.takeFalls
    rw [sp_modSp_self]
    exact fun hs => Bool.false_ne_true ((not_atSpeed (.inr (.inr (.inl h)))).symm.trans hs)
  have hl : ((q.takeFalls i f).sp i).life = .spinningUp := by
    unfold Lubran.takeFalls
    rw [sp_modSp_self]
    exact h
  unfold Lubran.sectorMark Lubran.indexMark
  dsimp only
  rw [if_neg hs, if_pos hl, if_neg hs, if_pos hl]
  unfold Lubran.takeFalls Lubran.setSlot
  rw [modSp_modSp, modSp_modSp, sp_modSp_self]
  exact ⟨modSp_congr_at rfl, rfl⟩

/-- A spindle that does not turn takes no mark. -/
theorem marks_stopped {f : Falls} (h : (q.sp i).life = .absent ∨ (q.sp i).life = .stopped ∨ (q.sp i).life = .faulted) :
    q.sectorMark i f = q.takeFalls i f ∧ q.indexMark i f = q.takeFalls i f := by
  have hs : ((q.takeFalls i f).sp i).atSpeed ≠ true := by
    unfold Lubran.takeFalls
    rw [sp_modSp_self]
    refine fun hs => Bool.false_ne_true ((not_atSpeed ?_).symm.trans hs)
    rcases h with h | h | h
    · exact .inl h
    · exact .inr (.inl h)
    · exact .inr (.inr (.inr h))
  have hl : ((q.takeFalls i f).sp i).life ≠ .spinningUp := by
    unfold Lubran.takeFalls
    rw [sp_modSp_self]
    intro hl
    rw [show (q.sp i).life = .spinningUp from hl] at h
    rcases h with h | h | h <;> cases h
  unfold Lubran.sectorMark Lubran.indexMark
  exact ⟨(if_neg hs).trans (if_neg hl), (if_neg hs).trans (if_neg hl)⟩

/-! ## A slot boundary -/

theorem beginField_other (h : q.path.spindle ≠ some i) : q.beginField i = q := by
  unfold Lubran.beginField
  split
  · next j f nx hj _ _ => exact if_neg fun hand => h (hj.trans (congrArg some hand.1))
  · rfl

theorem beginField_none (h : (q.sp i).xfer.next = none) : q.beginField i = q := by
  unfold Lubran.beginField
  rw [h]
  split
  · next hnx => cases hnx
  · rfl

theorem windowAt_none (h : (q.sp i).xfer.next = none) : q.windowAt i = none := by
  unfold Lubran.windowAt
  dsimp only
  rw [h]
  cases (q.sp i).life <;> rfl

theorem takeWindow_none (h : q.windowAt i = none) : q.takeWindow i = q := by
  unfold Lubran.takeWindow
  rw [h]

theorem countSlot_still (h : (q.sp i).chan.moving = false) : q.countSlot i = q :=
  if_neg fun hm => Bool.false_ne_true (h.symm.trans hm)

/-- At the boundary of a spindle without a field, whose channel does not move, nothing happens. -/
theorem boundary_still (hnext : (q.sp i).xfer.next = none) (hm : (q.sp i).chan.moving = false) : q.boundary i = q := by
  unfold Lubran.boundary
  rw [beginField_none hnext, takeWindow_none (windowAt_none hnext), countSlot_still hm]

theorem sector_next (h : (q.sp i).slot < 95) :
    q.sector i = (q.modSp i fun u => { u with slot := u.slot + 1 }).boundary i := by
  unfold Lubran.sector
  exact if_pos h

theorem sector_wrap (h : 95 ≤ (q.sp i).slot) (hm : (q.sp i).missing = 0) :
    q.sector i = (((q.setSlot i 0).revolution i).setMissing i 1).boundary i := by
  unfold Lubran.sector
  exact (if_neg (Nat.not_lt.2 h)).trans (if_neg (by rw [hm]; decide))

/-- A spindle after a revolution event (R46). -/
def SpindleUnit.turned (u : SpindleUnit) : SpindleUnit := { u with revs := (u.revs + 1) % 65536 }

theorem revolution_free (h : (q.sp i).allegiance = none) : q.revolution i = q.modSp i SpindleUnit.turned := by
  unfold Lubran.revolution
  dsimp only
  rw [sp_modSp_self]
  dsimp only
  rw [h]
  rfl

theorem revolution_held {p : Port} {n : Nat} (h : (q.sp i).allegiance = some (p, n)) (hn : 1 < n) :
    q.revolution i = q.modSp i fun u => { u.turned with allegiance := some (p, n - 1) } := by
  unfold Lubran.revolution
  dsimp only
  rw [sp_modSp_self]
  dsimp only
  rw [h]
  dsimp only
  rw [if_neg (Nat.not_le.2 hn)]
  exact modSp_modSp _ _ _ _

theorem cutField_other (h : q.path.spindle ≠ some i) : q.cutField i = q := if_neg h

/-- A spindle at a SECTOR mark or an INDEX mark that wraps: slot 0, with its missing-index count (R23 to R25). -/
def SpindleUnit.wrapped (f : Falls) (n : Nat) (u : SpindleUnit) : SpindleUnit :=
  { u with lines := u.lines.fall f, slot := 0, missing := n, revs := (u.revs + 1) % 65536 }

section
variable {f : Falls}

theorem sectorMark_next (hs : (q.sp i).atSpeed = true) (h : (q.sp i).slot < 95) :
    q.sectorMark i f =
      (q.modSp i fun u => { u with lines := u.lines.fall f, slot := u.slot + 1 }).boundary i := by
  have hslot : ((q.takeFalls i f).sp i).slot < 95 := by
    unfold Lubran.takeFalls
    rw [sp_modSp_self]
    exact h
  rw [sectorMark_atSpeed hs, sector_next hslot]
  unfold Lubran.takeFalls
  rw [modSp_modSp]

theorem sectorMark_wrap (hs : (q.sp i).atSpeed = true) (h : 95 ≤ (q.sp i).slot) (hm : (q.sp i).missing = 0) :
    q.sectorMark i f =
      ((((q.takeFalls i f).setSlot i 0).revolution i).setMissing i 1).boundary i := by
  rw [sectorMark_atSpeed hs]
  refine sector_wrap ?_ ?_
  · unfold Lubran.takeFalls
    rw [sp_modSp_self]
    exact h
  · unfold Lubran.takeFalls
    rw [sp_modSp_self]
    exact hm

theorem sectorMark_wrap_free (hs : (q.sp i).atSpeed = true) (h : 95 ≤ (q.sp i).slot) (hm : (q.sp i).missing = 0)
    (ha : (q.sp i).allegiance = none) :
    q.sectorMark i f = (q.modSp i (SpindleUnit.wrapped f 1)).boundary i := by
  rw [sectorMark_wrap hs h hm]
  unfold Lubran.takeFalls Lubran.setSlot Lubran.setMissing
  rw [modSp_modSp, revolution_free (by rw [sp_modSp_self]; exact ha), modSp_modSp, modSp_modSp]
  rfl

theorem sectorMark_wrap_held {p : Port} {n : Nat} (hs : (q.sp i).atSpeed = true) (h : 95 ≤ (q.sp i).slot)
    (hm : (q.sp i).missing = 0) (ha : (q.sp i).allegiance = some (p, n)) (hn : 1 < n) :
    q.sectorMark i f =
      (q.modSp i fun u => { u.wrapped f 1 with allegiance := some (p, n - 1) }).boundary i := by
  rw [sectorMark_wrap hs h hm]
  unfold Lubran.takeFalls Lubran.setSlot Lubran.setMissing
  rw [modSp_modSp, revolution_held (by rw [sp_modSp_self]; exact ha) hn, modSp_modSp, modSp_modSp]
  rfl

theorem indexMark_zero (hs : (q.sp i).atSpeed = true) (h : (q.sp i).slot = 0) (hp : q.path.spindle ≠ some i) :
    q.indexMark i f = q.modSp i fun u => { u with lines := u.lines.fall f, slot := 0, missing := 0 } := by
  rw [indexMark_atSpeed hs]
  unfold Lubran.index Lubran.takeFalls Lubran.setSlot Lubran.setMissing
  dsimp only
  rw [sp_modSp_self, modSp_modSp, modSp_modSp]
  dsimp only
  rw [h, if_pos rfl, if_neg (by decide)]
  exact cutField_other hp

theorem indexMark_away (hs : (q.sp i).atSpeed = true) (h : (q.sp i).slot ≠ 0) (ha : (q.sp i).allegiance = none) :
    q.indexMark i f = if (q.sp i).slot = 95 then (q.modSp i (SpindleUnit.wrapped f 0)).boundary i
      else ((q.modSp i (SpindleUnit.wrapped f 0)).boundary i).cutField i := by
  rw [indexMark_atSpeed hs]
  unfold Lubran.index Lubran.takeFalls Lubran.setSlot Lubran.setMissing
  dsimp only
  rw [sp_modSp_self, modSp_modSp, modSp_modSp]
  dsimp only
  rw [if_neg h, revolution_free (by rw [sp_modSp_self]; exact ha), modSp_modSp]
  rfl

end

end

section
variable {s : State} {i : Spindle}

/-- A mark on a spindle that has no field to wait for and whose channel does not move (R23). -/
theorem exec_mark {c : Instr} {g : SpindleUnit → SpindleUnit} {x : SpindleUnit}
    (he : effect c s.part = (s.part.modSp i g).boundary i) (hx : g (s.part.sp i) = x) (hnext : x.xfer.next = none) (hm : x.chan.moving = false)
    (hr : x.Rests) (hrest : s.part.atRest = true) :
    exec c s = .next { s with part := (s.part.modSp i fun _ => x).kickAll } := by
  rw [modSp_congr_at (g := fun _ => x) hx] at he
  refine exec_atRest (he.trans (boundary_still ?_ ?_)) (atRest_spindle hrest hr)
  · rw [sp_modSp_self]; exact hnext
  · rw [sp_modSp_self]; exact hm

end

/-- Settles O46: a spindle at speed by the kind of mark and the slot, then SPINNING_UP, and the spindles that do not
turn. -/
theorem marksMoveTheSlot : Obligations.MarksMoveTheSlot := by
  intro s i f hrest u fallen gives
  obtain ⟨hsettle, hwait, hselect⟩ := rests_of_atRest hrest i
  have hfall := settleReady_fall (f := f) hsettle
  refine ⟨fun hlife hnext hstate => ?_, fun hlife => ?_, fun hlife => ?_⟩
  · have hs := atSpeed_of hlife
    have hm := not_moving hstate
    refine ⟨fun hslot => ?_, fun hslot hmiss ha => ?_, fun p n hslot hmiss ha hn => ?_, fun hpath => ⟨fun hzero => ?_,
      fun haway ha => ?_⟩⟩
    · exact exec_mark (sectorMark_next hs hslot) rfl hnext hm ⟨hfall, hwait, hselect⟩ hrest
    · exact exec_mark (sectorMark_wrap_free hs hslot hmiss ha) rfl hnext hm ⟨hfall, hwait, hselect⟩ hrest
    · exact exec_mark (sectorMark_wrap_held hs hslot hmiss ha hn) rfl hnext hm ⟨hfall, hwait, hselect⟩ hrest
    · refine exec_atRest ((indexMark_zero hs hzero hpath).trans (modSp_congr_at ?_))
        (atRest_spindle hrest ⟨hfall, hwait, hselect⟩)
      rw [← hzero]
      rfl
    · have hstill : (s.part.modSp i (SpindleUnit.wrapped f 0)).boundary i = s.part.modSp i (SpindleUnit.wrapped f 0) :=
        boundary_still (by rw [sp_modSp_self]; exact hnext) (by rw [sp_modSp_self]; exact hm)
      refine exec_atRest (q := s.part.modSp i (SpindleUnit.wrapped f 0)) ((indexMark_away hs haway ha).trans ?_)
        (atRest_spindle hrest ⟨hfall, hwait, hselect⟩)
      rw [hstill, cutField_other (q := s.part.modSp i (SpindleUnit.wrapped f 0)) hpath, ite_self]
  · obtain ⟨hsector, hindex⟩ := marks_spinningUp (f := f) hlife
    exact ⟨exec_atRest hsector (atRest_spindle hrest ⟨hfall, hwait, hselect⟩),
      exec_atRest hindex (atRest_spindle hrest ⟨hfall, hwait, hselect⟩)⟩
  · obtain ⟨hsector, hindex⟩ := marks_stopped (f := f) hlife
    exact ⟨exec_atRest hsector (atRest_spindle hrest ⟨hfall, hwait, hselect⟩),
      exec_atRest hindex (atRest_spindle hrest ⟨hfall, hwait, hselect⟩)⟩

/-! ## The counts of the channel -/

section
variable {q : Lubran} {i : Spindle}

/-- A moving channel at a slot boundary (R16, R18, R21). -/
def Channel.counted (c : Channel) : Channel :=
  { c with
    settle := if c.state = .settling then c.settle - 1 else c.settle
    deadline := if c.purpose = .normal then c.deadline - 1 else c.deadline
    recalLimit := if c.purpose = .recal then c.recalLimit - 1 else c.recalLimit }

theorem counted_settle {c : Channel} (h : c.state = .settling) : c.counted.settle = c.settle - 1 := if_pos h

theorem counted_deadline {c : Channel} (h : c.purpose = .normal) : c.counted.deadline = c.deadline - 1 := if_pos h

theorem counted_recalLimit {c : Channel} (h : c.purpose = .recal) : c.counted.recalLimit = c.recalLimit - 1 := if_pos h

/-- While none of its counts reaches 0, a moving channel is counted and no more. -/
theorem countSlot_moving (hm : (q.sp i).chan.moving = true)
    (hs : (q.sp i).chan.state = .settling → 1 < (q.sp i).chan.settle)
    (hn : (q.sp i).chan.purpose = .normal → 1 < (q.sp i).chan.deadline)
    (hr : (q.sp i).chan.purpose = .recal → 1 < (q.sp i).chan.recalLimit) :
    q.countSlot i = q.modSp i fun u => { u with chan := u.chan.counted } := by
  have hchan : ((q.modChan i Channel.counted).sp i).chan = (q.sp i).chan.counted := by
    rw [modChan_eq, sp_modSp_self]
  have hready : ((q.modChan i Channel.counted).sp i).settleReady = false := by
    refine not_settleReady fun hst => ?_
    rw [hchan] at hst ⊢
    have := hs hst
    rw [counted_settle (c := (q.sp i).chan) hst]
    omega
  unfold Lubran.countSlot
  dsimp only
  rw [if_pos hm]
  refine (if_neg (fun h => Bool.false_ne_true (hready.symm.trans h))).trans ?_
  cases hp : (q.sp i).chan.purpose with
  | normal =>
    have := hn hp
    have hdeadline : ((q.modChan i Channel.counted).sp i).chan.deadline ≠ 0 := by
      rw [hchan, counted_deadline hp]
      omega
    exact if_neg hdeadline
  | recal =>
    have := hr hp
    have hlimit : ((q.modChan i Channel.counted).sp i).chan.recalLimit ≠ 0 := by
      rw [hchan, counted_recalLimit hp]
      omega
    exact if_neg hlimit

end

/-- Settles O47: neither a field begins nor a window opens, and the boundary is counted for the channel
(`countSlot_moving`). -/
theorem slotBoundaryCountsForTheChannel : Obligations.SlotBoundaryCountsForTheChannel := by
  intro s i hrest u none_ gives hlife hslot hwindow hpath
  obtain ⟨hsettle, hwait, hselect⟩ := rests_of_atRest hrest i
  have hcount : ∀ c : Channel, u.chan.counted = c → u.chan.moving = true →
      (u.chan.state = .settling → 1 < u.chan.settle) → (u.chan.purpose = .normal → 1 < u.chan.deadline) →
      (u.chan.purpose = .recal → 1 < u.chan.recalLimit) → gives { u with slot := u.slot + 1, chan := c } := by
    intro c hc hm hs hn hr
    have hsp : ∀ g : SpindleUnit → SpindleUnit, (s.part.modSp i g).sp i = g u := fun g => sp_modSp_self s.part i g
    have hmark : effect (.sectorMark i none_) s.part =
        (s.part.modSp i fun u => { u with slot := u.slot + 1 }).countSlot i := by
      have hpulse := sectorMark_next (f := none_) (atSpeed_of hlife) hslot
      rw [modSp_congr_at (g := fun u => { u with slot := u.slot + 1 }) ?_] at hpulse
      · refine hpulse.trans ?_
        unfold Lubran.boundary
        rw [beginField_other (q := s.part.modSp i fun u => { u with slot := u.slot + 1 }) hpath,
          takeWindow_none hwindow]
      · simp [Lines.fall, none_]
    rw [countSlot_moving (by rw [hsp]; exact hm) (by rw [hsp]; exact hs) (by rw [hsp]; exact hn)
      (by rw [hsp]; exact hr), modSp_modSp,
      modSp_congr_at (g := fun _ => { u with slot := u.slot + 1, chan := c }) (by rw [← hc])] at hmark
    refine exec_atRest hmark (atRest_spindle hrest ⟨not_settleReady fun hst => ?_, ?_, hselect⟩)
    · rw [← hc] at hst ⊢
      have := hs hst
      rw [counted_settle (c := u.chan) hst]
      omega
    · rw [← hc]
      exact hwait
  refine ⟨fun hst hp hd => ?_, fun hst hp hd hcnt => ?_, fun hst hp hl => ?_⟩
  · refine hcount _ ?_ (moving_of (.inl hst)) (fun h => ?_) (fun _ => hd) (fun h => ?_)
    · simp [Channel.counted, hst, hp]
    · rw [hst] at h; cases h
    · rw [hp] at h; cases h
  · refine hcount _ ?_ (moving_of (.inr (.inl hst))) (fun _ => hcnt) (fun _ => hd) (fun h => ?_)
    · simp [Channel.counted, hst, hp]
    · rw [hp] at h; cases h
  · refine hcount _ ?_ (moving_of (.inr (.inr hst))) (fun h => ?_) (fun h => ?_) (fun _ => hl)
    · simp [Channel.counted, hst, hp]
    · rw [hst] at h; cases h
    · rw [hp] at h; cases h

end Sys2Proof.Machine
end

section
/-!
CROSSING (R15, R17, R22) and the first seek check of a seek (R19, R20).
-/

namespace Sys2Proof.Machine

/-! ## CROSSING -/

section
variable {q : Lubran} {i : Spindle} {u : SpindleUnit}

/-- A step in the direction of travel stays on the disk (R15, R17). -/
theorem not_atEdge {c : Channel} (hout : c.direction = .outward → 0 < c.cyl) (hin : c.direction = .inward → c.cyl < 559) :
    c.atEdge = false := by
  unfold Channel.atEdge
  cases hd : c.direction with
  | outward => exact decide_eq_false (Nat.pos_iff_ne_zero.1 (hout hd))
  | inward =>
    refine decide_eq_false (Nat.not_le.2 ?_)
    exact hin hd

theorem cross_on {c : Channel} (h : 1 < c.remaining) : c.cross = { c with
    cyl := c.stepCyl, remaining := c.remaining - 1, demand := demandCode c.sAcc c.sVmax (c.remaining - 1) } :=
  if_pos (by omega)

theorem cross_arrives {c : Channel} (h : c.remaining = 1) : c.cross = { c with
    cyl := c.stepCyl, remaining := 0, demand := 0, state := .settling, settle := c.sSettle } :=
  if_neg (by omega)

theorem crossing_seeking (hs : (q.sp i).atSpeed = true) (h : (q.sp i).chan.state = .seeking)
    (hedge : (q.sp i).chan.atEdge = false) :
    q.crossingPulse i { onTrack := false, guard := false, fault := false } =
      (q.modSp i fun u => { u with chan := u.chan.cross }).syncEntry i := by
  unfold Lubran.crossingPulse
  rw [takeFalls_none]
  dsimp only
  rw [if_pos hs, h]
  exact if_neg (by rw [hedge]; exact Bool.false_ne_true)

theorem crossing_settling (hs : (q.sp i).atSpeed = true) (h : (q.sp i).chan.state = .settling)
    (hp : (q.sp i).chan.purpose = .normal) (hover : (q.sp i).chan.overshoots < 2)
    (hedge : (q.sp i).chan.atEdge = false) :
    q.crossingPulse i { onTrack := false, guard := false, fault := false } =
      (q.modSp i fun u =>
        { u with chan := { u.chan.overshoot with overshoots := u.chan.overshoots + 1 } }).syncEntry i := by
  unfold Lubran.crossingPulse
  rw [takeFalls_none]
  dsimp only
  rw [if_pos hs, h]
  unfold Lubran.crossSettling
  dsimp only
  rw [hp]
  refine if_neg ?_
  rintro (htwo | htrue)
  · omega
  · exact Bool.false_ne_true (hedge.symm.trans htrue)

theorem keptTrack_none (hlife : (q.sp i).life ≠ .buildingMap) (hcur : q.current i = none) : q.keptTrack i = none := by
  unfold Lubran.keptTrack
  rw [hcur]
  split
  · next hbuild _ _ => exact absurd hbuild hlife
  · rfl
  · rfl

theorem crossing_onTrack (hs : (q.sp i).atSpeed = true) (h : (q.sp i).chan.state = .onTrack)
    (hcur : q.current i = none) (hlife : (q.sp i).life ≠ .buildingMap) (hpath : q.path.spindle ≠ some i)
    (hg : (q.sp i).lines.guard = false) :
    q.crossingPulse i { onTrack := false, guard := false, fault := false } = q.modSp i fun u => { u with chan := { u.chan with
      posKnown := false, purpose := .recal, state := .recal, recalLimit := 1536, direction := .outward
      demand := min 8 q.params.vmax, sVmax := q.params.vmax, sSettle := q.params.settle } } := by
  unfold Lubran.crossingPulse
  rw [takeFalls_none]
  dsimp only
  rw [if_pos hs, h]
  dsimp only
  generalize hr : (q.modSp i fun u => { u with chan := { u.chan with posKnown := false, demand := 0 } }) = r
  have hsp : r.sp i = { q.sp i with chan := { (q.sp i).chan with posKnown := false, demand := 0 } } := by
    rw [← hr, sp_modSp_self]
  have hnone : r.current i = none := by
    unfold Lubran.current
    rw [hsp]
    exact hcur
  have hcut : r.cutField i = r := cutField_other (by rw [← hr]; exact hpath)
  unfold Lubran.offTrack
  rw [modChan_eq, hr]
  dsimp only
  rw [hcut, keptTrack_none (by rw [hsp]; exact hlife) hnone]
  dsimp only
  have hstill : (q.sp i).chan.moving = false := not_moving (.inr h)
  rw [if_neg (by rw [hsp]; exact fun hm => Bool.false_ne_true (hstill.symm.trans hm)), startRecal_none hnone, ← hr, modSp_modSp]
  refine modSp_congr_at ?_
  dsimp only
  rw [hg]
  rfl

theorem crossing_other (h : (q.sp i).atSpeed = false ∨ (q.sp i).chan.state = .idle ∨ (q.sp i).chan.state = .recal) :
    q.crossingPulse i { onTrack := false, guard := false, fault := false } = q := by
  unfold Lubran.crossingPulse
  rw [takeFalls_none]
  dsimp only
  rcases h with h | h | h
  · exact if_neg (by rw [h]; exact Bool.false_ne_true)
  · rw [h]
    exact ite_self _
  · rw [h]
    exact ite_self _

/-- The channel of a motion that goes on keeps a motion back as before. -/
theorem waitReady_running {v : SpindleUnit} (hw : v.waitReq = u.waitReq) (ho : v.chan.orphan = u.chan.orphan)
    (hu : u.chan.state = .seeking ∨ u.chan.state = .settling) (hup : u.chan.purpose = .normal)
    (hv : v.chan.state = .seeking ∨ v.chan.state = .settling) (hvp : v.chan.purpose = .normal) :
    v.waitReady = u.waitReady := by
  refine waitReady_congr hw ho ?_ ?_
  · rw [seekRunning_of hv hvp, seekRunning_of hu hup]
  · rw [moving_of (hv.imp_right .inl), moving_of (hu.imp_right .inl)]

end

/-- Settles O50: the channel by its state, at speed and off it. -/
theorem crossingMovesTheHeads : Obligations.CrossingMovesTheHeads := by
  intro s i hrest u c none_ stepped gives
  obtain ⟨hsettle, hwait, hselect⟩ := rests_of_atRest hrest i
  refine ⟨fun hlife => ⟨fun hp hout hin => ?_, fun hst hcur hbuild hpath hg hw => ?_⟩, fun hst => ?_, fun hlife => ?_⟩
  · have hs := atSpeed_of hlife
    have hedge : c.atEdge = false := not_atEdge hout hin
    have hstep : c.stepCyl = stepped := rfl
    refine ⟨fun hst hr => ?_, fun hst hr hset => ?_, fun hst hover => ?_⟩
    · have heff := crossing_seeking hs hst hedge
      rw [modSp_congr_at (g := fun u => { u with chan := { c with
        cyl := stepped, remaining := c.remaining - 1
        demand := demandCode c.sAcc c.sVmax (c.remaining - 1) } }) (by rw [cross_on hr, hstep])] at heff
      refine exec_atRest heff (atRest_syncEntry (atRest_spindle hrest ⟨?_, ?_, hselect⟩))
      · exact not_settleReady fun h => by cases hst.symm.trans h
      · exact Eq.trans (b := u.waitReady) (waitReady_running rfl rfl (.inl hst) hp (.inl hst) hp) hwait
    · have heff := crossing_seeking hs hst hedge
      rw [modSp_congr_at (g := fun u => { u with chan := { c with
        cyl := stepped, remaining := 0, demand := 0, state := .settling, settle := c.sSettle } })
        (by rw [cross_arrives hr, hstep])] at heff
      refine exec_atRest heff (atRest_syncEntry (atRest_spindle hrest ⟨?_, ?_, hselect⟩))
      · exact not_settleReady fun _ => Nat.pos_iff_ne_zero.1 hset
      · exact Eq.trans (b := u.waitReady) (waitReady_running rfl rfl (.inl hst) hp (.inr rfl) hp) hwait
    · have heff := crossing_settling hs hst hp hover hedge
      rw [modSp_congr_at (g := fun u => { u with chan := { c with
        cyl := stepped, remaining := 1, state := .seeking, overshoots := c.overshoots + 1
        direction := match c.direction with | .outward => .inward | .inward => .outward
        demand := demandCode c.sAcc c.sVmax 1 } }) rfl] at heff
      refine exec_atRest heff (atRest_syncEntry (atRest_spindle hrest ⟨not_settleReady nofun, ?_, hselect⟩))
      exact Eq.trans (b := u.waitReady) (waitReady_running rfl rfl (.inr hst) hp (.inl rfl) hp) hwait
  · exact exec_atRest (crossing_onTrack (atSpeed_of hlife) hst hcur hbuild hpath hg)
      (atRest_spindle hrest ⟨not_settleReady nofun, waitReady_none hw, hselect⟩)
  · exact exec_atRest (crossing_other (.inr hst)) hrest
  · exact exec_atRest (crossing_other (.inl (not_atSpeed hlife))) hrest

/-! ## The first seek check -/

section
variable {q : Lubran} {i : Spindle}

/-- A motion held back behind a motion of the channel waits for its end, unless it is a seek (R59). -/
theorem waitReady_moving {u : SpindleUnit} (hw : ∀ t, u.waitReq ≠ some (.seek t)) (hm : u.chan.moving = true) :
    u.waitReady = false := by
  unfold SpindleUnit.waitReady
  split
  · next t h => exact absurd h (hw t)
  · rw [hm]; rfl
  · rfl

/-- A channel whose seek is checked for the first time: the seek is kept (R19). -/
def Channel.checked (c : Channel) : Channel :=
  { c with demand := 0, posKnown := false, overshoots := 0, reissued := true }

theorem seekCheck_first (h : (q.sp i).chan.reissued = false) : q.seekCheck i = (q.modSp i fun u =>
    { u with chan := u.chan.checked.beginRecal q.params.vmax q.params.settle u.lines.guard }).syncEntry i := by
  unfold Lubran.seekCheck
  dsimp only
  rw [h]
  simp only [Bool.false_eq_true, if_false]
  unfold Lubran.startRecal
  rw [modChan_eq, modSp_modSp]
  rfl

theorem deadlineExpiry_check (hrun : (q.sp i).chan.seekRunning = true) (hd : (q.sp i).chan.deadline ≤ 1)
    (h : (q.sp i).chan.reissued = false) : q.deadlineExpiry i = (q.modSp i fun u => { u with
      chan := { u.chan with deadline := 0 }.checked.beginRecal q.params.vmax q.params.settle u.lines.guard }).syncEntry i := by
  unfold Lubran.deadlineExpiry
  rw [if_pos ⟨hrun, hd⟩, modChan_eq, seekCheck_first (by rw [sp_modSp_self]; exact h), modSp_modSp]
  rfl

theorem faultRise_check (hs : (q.sp i).atSpeed = true) (hrun : (q.sp i).chan.seekRunning = true)
    (hpath : q.path.spindle ≠ some i) (h : (q.sp i).chan.reissued = false) :
    q.faultRise i = (q.modSp i fun u => { u with
      lines := { u.lines with fault := true }
      chan := u.chan.checked.beginRecal q.params.vmax q.params.settle u.lines.guard }).syncEntry i := by
  generalize hr : (q.modSp i fun u => { u with lines := { u.lines with fault := true } }) = r
  have hsp : r.sp i = { q.sp i with lines := { (q.sp i).lines with fault := true } } := by
    rw [← hr, sp_modSp_self]
  have hfault : r.pathFault i = r := if_neg (by rw [← hr]; exact hpath)
  unfold Lubran.faultRise Lubran.modLines
  rw [hr]
  dsimp only
  rw [if_pos (by rw [hsp]; exact hs), hfault, if_pos (by rw [hsp]; exact hrun),
    seekCheck_first (by rw [hsp]; exact h), ← hr, modSp_modSp]
  rfl

theorem guardRise_check (hs : (q.sp i).atSpeed = true) (hm : (q.sp i).chan.moving = true)
    (hp : (q.sp i).chan.purpose = .normal) (hc : 0 < (q.sp i).chan.cyl) (h : (q.sp i).chan.reissued = false) :
    q.guardRise i = (q.modSp i fun u => { u with
      lines := { u.lines with guard := true }
      chan := u.chan.checked.beginRecal q.params.vmax q.params.settle true }).syncEntry i := by
  unfold Lubran.guardRise Lubran.modLines
  simp only [sp_modSp_self]
  rw [if_pos ⟨hs, hm⟩, hp]
  dsimp only
  rw [if_pos hc, seekCheck_first (by rw [sp_modSp_self]; exact h), modSp_modSp]
  rfl

/-- The channel of a checked seek, which recalibrates, moves, and has no settle that could complete. -/
theorem checked_moves {c : Channel} {v w : Nat} {g : Bool} (hw : 0 < w) :
    (c.checked.beginRecal v w g).moving = true ∧
      ((c.checked.beginRecal v w g).state = .settling → (c.checked.beginRecal v w g).settle ≠ 0) := by
  cases g with
  | false => exact ⟨rfl, nofun⟩
  | true => exact ⟨rfl, fun _ => Nat.pos_iff_ne_zero.1 hw⟩

end

/-- Settles O51: the three rows take the same check (`seekCheck_first`), each with its own change of the spindle. -/
theorem firstSeekCheckKeepsTheSeek : Obligations.FirstSeekCheckKeepsTheSeek := by
  intro s i hrest hre hlife hst hp hset hw checked u
  have hselect := (rests_of_atRest hrest i).select
  have hs := atSpeed_of hlife
  have hrun := seekRunning_of hst hp
  have hchecked : ∀ (lines : Lines) (d : Nat), checked lines d = (s.part.modSp i fun u => { u with
      lines := lines
      chan := { u.chan with deadline := d }.checked.beginRecal s.part.params.vmax s.part.params.settle
        lines.guard }).syncEntry i := by
    intro lines d
    refine congrArg (Lubran.syncEntry · i) (modSp_congr_at ?_)
    cases hg : lines.guard <;> rfl
  have hrests : ∀ (lines : Lines) (d : Nat), (checked lines d).atRest = true := by
    intro lines d
    rw [hchecked]
    obtain ⟨hm, hc⟩ := checked_moves (c := { u.chan with deadline := d }) (v := s.part.params.vmax)
      (g := lines.guard) hset
    exact atRest_syncEntry (atRest_spindle hrest ⟨not_settleReady hc, waitReady_moving hw hm, hselect⟩)
  refine ⟨fun hd => ?_, fun hpath => ?_, fun hc => ?_⟩
  · exact exec_atRest ((deadlineExpiry_check hrun hd hre).trans ((hchecked _ _).symm)) (hrests _ _)
  · exact exec_atRest ((faultRise_check hs hrun hpath hre).trans ((hchecked _ _).symm)) (hrests _ _)
  · exact exec_atRest ((guardRise_check hs (moving_of (hst.imp_right .inl)) hp hc hre).trans ((hchecked _ _).symm))
      (hrests _ _)

end Sys2Proof.Machine
end

section
/-!
Windows (R70, R73) and the start of a field at the end of its lead slot (R70, R92).
-/

namespace Sys2Proof.Machine

/-! ## Windows -/

section
variable {q : Lubran} {i : Spindle} {e : Entry} {nx : NextField}

theorem sectorMark_plain (hs : (q.sp i).atSpeed = true) (h : (q.sp i).slot < 95) :
    q.sectorMark i { onTrack := false, guard := false, fault := false } =
      (q.modSp i fun u => { u with slot := u.slot + 1 }).boundary i := by
  refine (sectorMark_next hs h).trans (congrArg (Lubran.boundary · i) (modSp_congr_at ?_))
  simp [Lines.fall]

/-- The window of a ROTATING entry opens at the lead slot of its next field (R70). -/
theorem windowAt_rotating (hlife : (q.sp i).life = .ready) (hnext : (q.sp i).xfer.next = some nx)
    (hcur : q.current i = some e) (hs : e.state = .rotating) (hslot : (q.sp i).slot = leadSlot nx.field) :
    q.windowAt i = some (.waiting e nx) := by
  unfold Lubran.windowAt
  dsimp only
  rw [hlife, hnext]
  dsimp only
  rw [show (q.sp i).current = some e from hcur]
  dsimp only
  rw [hs]
  exact if_pos (decide_eq_true hslot.symm)

/-- An idle path is granted to an entry whose staging condition holds (R70). -/
theorem takeWindow_granted (hw : q.windowAt i = some (.waiting e nx)) (hfree : q.path.holder = none)
    (hst : q.staged e nx = true) : q.takeWindow i =
      { q.modSp i (fun u => u.modEntry e.owner fun e => { e with state := .transferring }) with
        path := { state := .idle, holder := some (.entry e.owner), spindle := some i, field := some nx.field
                  id := none, faulted := false } } := by
  unfold Lubran.takeWindow
  rw [hw]
  exact if_pos ⟨hfree, hst⟩

/-- A missed window counts a lost revolution, within the limit or for the internal entry no more (R73). -/
theorem takeWindow_missed (hw : q.windowAt i = some (.waiting e nx))
    (hst : q.path.holder ≠ none ∨ q.staged e nx = false)
    (hlimit : e.owner = .internal ∨ min 64 (e.lost + 1) ≤ q.params.lostRevLimit) : q.takeWindow i =
      q.modSp i fun u => u.modEntry e.owner fun e' => { e' with lost := min 64 (e.lost + 1) } := by
  unfold Lubran.takeWindow
  rw [hw]
  refine (if_neg ?_).trans (if_neg ?_)
  · rintro ⟨hfree, htrue⟩
    rcases hst with h | h
    · exact h hfree
    · exact Bool.false_ne_true (h.symm.trans htrue)
  · rintro ⟨hhost, hpast⟩
    rcases hlimit with h | h
    · exact hhost h
    · exact Nat.not_le.2 hpast h

end

/-- A path granted or released is no consequence to take. -/
theorem atRest_with_path {q : Lubran} {x : PathRec} (h : q.atRest = true) : Lubran.atRest { q with path := x } = true :=
  atRest_congr (a := q) (fun _ => ⟨rfl, rfl, rfl⟩) (fun _ => id) rfl rfl rfl h

/-- Settles O48: the boundary begins no field and counts for no motion, so that the window alone is taken. -/
theorem windowIsGrantedOrMissed : Obligations.WindowIsGrantedOrMissed := by
  intro s i e nx hrest hlife hslot hst hcur hstate hnext hlead hpath none_ marked
  have hsp : marked.sp i = { s.part.sp i with slot := (s.part.sp i).slot + 1 } := sp_modSp_self _ _ _
  have hmarked : marked.atRest = true := by
    obtain ⟨hsettle, hwait, hselect⟩ := rests_of_atRest hrest i
    exact atRest_spindle hrest ⟨hsettle, hwait, hselect⟩
  have hwindow : marked.windowAt i = some (.waiting e nx) := by
    refine windowAt_rotating ?_ ?_ ?_ hstate ?_
    · rw [hsp]; exact hlife
    · rw [hsp]; exact hnext
    · unfold Lubran.current
      rw [hsp]
      exact hcur
    · rw [hsp]; exact hlead
  have hbound : ∀ r : Lubran, marked.takeWindow i = r → (r.sp i).chan = (s.part.sp i).chan →
      effect (.sectorMark i none_) s.part = r := by
    intro r hr hchan
    refine (sectorMark_plain (atSpeed_of (.inr (.inr hlife))) hslot).trans ?_
    unfold Lubran.boundary
    rw [beginField_other (q := marked) hpath, hr]
    exact countSlot_still (by rw [hchan]; exact not_moving (.inr hst))
  refine ⟨fun hfree hstaged => ?_, fun hfail hlimit => ?_⟩
  · refine exec_atRest (hbound _ (takeWindow_granted hwindow hfree hstaged) ?_) (atRest_with_path (atRest_modEntry hmarked))
    rw [sp_with_path, sp_modSp_self, modEntry_chan, hsp]
  · refine exec_atRest (hbound _ (takeWindow_missed hwindow hfail hlimit) ?_) (atRest_modEntry hmarked)
    rw [sp_modSp_self, modEntry_chan, hsp]

/-! ## The start of a field -/

section
variable {q : Lubran} {i : Spindle} {e : Entry} {nx fx : NextField}

theorem leadSlot_ne_firstSlot (f : FieldRef) : leadSlot f ≠ firstSlot f := by
  cases f with
  | header => decide
  | block b =>
    show 1 + 6 * b ≠ 2 + 6 * b
    omega

/-- The field that follows without a break is the next block (R72). -/
theorem follower_field (h : q.follower e nx = some fx) : ∃ b, nx.field = .block b ∧ fx.field = .block (b + 1) := by
  unfold Lubran.follower at h
  split at h
  · cases h
  · next b hb =>
    refine ⟨b, hb, ?_⟩
    split at h
    · split at h
      · rw [← Option.some.inj h]
      · rw [← Option.some.inj h]
      · split at h
        · cases h
        · rw [← Option.some.inj h]
      · rw [← Option.some.inj h]
      · cases h
    · cases h

/-- No window opens at the first slot of the field that a spindle has next (R70). -/
theorem windowAt_begun (hlife : (q.sp i).life = .ready ∨ (q.sp i).life = .buildingMap)
    (hnext : (q.sp i).xfer.next = some nx) (hslot : (q.sp i).slot = firstSlot nx.field) : q.windowAt i = none := by
  have hlead : ¬ decide (leadSlot nx.field = (q.sp i).slot) = true :=
    fun h => leadSlot_ne_firstSlot nx.field ((of_decide_eq_true h).trans hslot)
  unfold Lubran.windowAt
  dsimp only
  rw [hnext]
  rcases hlife with h | h
  · rw [h]
    dsimp only
    split
    · rfl
    · next e he =>
      split
      · exact if_neg hlead
      · split
        · split
          · next fx hfx =>
            obtain ⟨b, hb, hb'⟩ := follower_field hfx
            refine if_neg fun hdue => ?_
            have hdue' := of_decide_eq_true hdue
            rw [hslot, hb, hb'] at hdue'
            simp only [leadSlot, firstSlot] at hdue'
            omega
          · rfl
        · rfl
      · rfl
  · rw [h]
    exact if_neg hlead

/-- The granted field begins (R68, R70). -/
theorem beginField_granted (hspindle : q.path.spindle = some i) (hidle : q.path.state = .idle)
    (hfield : q.path.field = some nx.field) (hnext : (q.sp i).xfer.next = some nx)
    (hslot : (q.sp i).slot = firstSlot nx.field) :
    (q.abandonedEntry i = none → q.beginField i =
      { q.modSp i fun u => u.openGate nx.action with path := { q.path with state := pathStateFor nx.action } }) ∧
    (∀ e, q.abandonedEntry i = some e → q.beginField i = q.leaveAbandoned i e) := by
  unfold Lubran.beginField
  rw [hspindle, hfield, hnext]
  dsimp only
  rw [if_pos ⟨rfl, hidle, hslot⟩]
  refine ⟨fun h => ?_, fun e h => ?_⟩
  · rw [h, hspindle, hfield]
  · rw [h]

/-- The gates of a spindle whose field begins: WRITE GATE alone for a header write (R86, R92). -/
def SpindleUnit.begun (a : Action) (u : SpindleUnit) : SpindleUnit :=
  { u with readGate := u.readGate || decide (a ≠ .headerWrite), writeGate := u.writeGate || decide (a = .headerWrite) }

theorem openGate_eq (u : SpindleUnit) (a : Action) : u.openGate a = u.begun a := by
  unfold SpindleUnit.openGate SpindleUnit.begun
  by_cases h : a = .headerWrite
  · rw [if_pos h, h]
    simp
  · rw [if_neg h]
    simp [h]

theorem abandonedEntry_none (h : ∀ e, q.current i = some e → e.abandoned = false) : q.abandonedEntry i = none :=
  Option.filter_eq_none_iff.2 fun e he hb => Bool.false_ne_true ((h e he).symm.trans hb)

end

end Sys2Proof.Machine
end

section
/-!
The departure of an entry (R42, R56, R64) field by field, and the entry that is abandoned in its lead slot (R156).
-/

namespace Sys2Proof.Machine

/-! ## What a departure keeps -/

section
variable {q : Lubran} {i : Spindle} {o : Owner} {k : Fin 8} {p : Port}

theorem joinIfShort_none (h : q.findEntry o = none) : q.joinIfShort o = q := by
  unfold Lubran.joinIfShort Lubran.need
  rw [h]
  exact if_neg fun hshort => Nat.not_lt_zero _ hshort.1

theorem joinIfShort_spindles {r : Lubran} (hs : r.spindles = q.spindles) (h : q.findEntry o = none) :
    r.joinIfShort o = r := by
  refine joinIfShort_none ?_
  unfold Lubran.findEntry Lubran.sp at *
  rw [hs]
  exact h

/-- What an operation leaves of the records that belong to no spindle, port or slot. -/
structure SameLists (a b : Lubran) : Prop where
  straps : b.straps = a.straps
  params : b.params = a.params
  served : b.served = a.served
  spareMap : b.spareMap = a.spareMap
  suspects : b.suspects = a.suspects
  sparing : b.sparing = a.sparing
  seq : b.seq = a.seq
  writeOut : b.writeOut = a.writeOut

theorem SameLists.trans {a b c : Lubran} (h : SameLists a b) (g : SameLists b c) : SameLists a c where
  straps := g.straps.trans h.straps
  params := g.params.trans h.params
  served := g.served.trans h.served
  spareMap := g.spareMap.trans h.spareMap
  suspects := g.suspects.trans h.suspects
  sparing := g.sparing.trans h.sparing
  seq := g.seq.trans h.seq
  writeOut := g.writeOut.trans h.writeOut

theorem SameLists.refl : SameLists q q := ⟨rfl, rfl, rfl, rfl, rfl, rfl, rfl, rfl⟩

theorem freeSlot_lists : SameLists q (q.freeSlot k) := by
  unfold Lubran.freeSlot
  dsimp only
  split
  · exact ⟨rfl, rfl, rfl, rfl, rfl, rfl, rfl, rfl⟩
  · unfold Lubran.joinIfShort Lubran.withdrawRequest
    split <;> split <;> exact ⟨rfl, rfl, rfl, rfl, rfl, rfl, rfl, rfl⟩

theorem freeSlotsOf_lists : SameLists q (q.freeSlotsOf o) := by
  have hfold : ∀ (l : List (Fin 8)) (r : Lubran), SameLists r (l.foldl Lubran.freeSlot r) := by
    intro l
    induction l with
    | nil => exact fun r => .refl
    | cons x xs ih => exact fun r => freeSlot_lists.trans (ih _)
  exact hfold _ q

theorem selectionEvent_lists : SameLists q (q.selectionEvent i) := by
  unfold Lubran.selectionEvent
  split <;> exact ⟨rfl, rfl, rfl, rfl, rfl, rfl, rfl, rfl⟩

theorem releaseHeld_lists : SameLists q (q.releaseHeld i o) := by
  unfold Lubran.releaseHeld Lubran.releasePath
  split
  · cases q.path.spindle <;> exact ⟨rfl, rfl, rfl, rfl, rfl, rfl, rfl, rfl⟩
  · exact .refl

theorem dropTransmit_lists : SameLists q ((q.leaveWaiting o).dropTransmit o) := by
  cases o <;> exact ⟨rfl, rfl, rfl, rfl, rfl, rfl, rfl, rfl⟩

theorem leaveQueue_lists : SameLists q (q.leaveQueue i o) := by
  refine (releaseHeld_lists (i := i) (o := o)).trans (SameLists.trans ?_
    (dropTransmit_lists.trans (freeSlotsOf_lists.trans selectionEvent_lists)))
  exact ⟨rfl, rfl, rfl, rfl, rfl, rfl, rfl, rfl⟩

theorem setTag_lists {t : Tag} {b : Bool} : SameLists q (q.setTag p t b) :=
  ⟨rfl, rfl, rfl, rfl, rfl, rfl, rfl, rfl⟩

/-! ## The waiting list -/

/-- A slot freed of an owner who is found no more puts no one on the waiting list (R76). -/
theorem freeSlot_waiting (h : ∀ o, (q.slot k).owner = some o → q.findEntry o = none) :
    (q.freeSlot k).waiting = q.waiting := by
  unfold Lubran.freeSlot
  dsimp only
  split
  · rfl
  · next w hw =>
    split
    · rw [joinIfShort_spindles (q := q) ?_ (h _ hw)]
      · rfl
      · rfl
    · rw [joinIfShort_spindles (q := q) ?_ (h _ hw)]
      · rfl
      · rfl

theorem findEntry_freeSlot (w : Owner) : (q.freeSlot k).findEntry w = q.findEntry w := by
  unfold Lubran.findEntry
  simp only [freeSlot_sp]

theorem foldl_freeSlot_waiting {l : List (Fin 8)} (hl : ∀ x ∈ l, ∀ w, (q.slot x).owner = some w → w = o)
    (h : q.findEntry o = none) : (l.foldl Lubran.freeSlot q).waiting = q.waiting := by
  induction l generalizing q with
  | nil => rfl
  | cons x xs ih =>
    rw [List.foldl_cons, ih (fun y hy w hw => ?_) ((findEntry_freeSlot o).trans h)]
    · exact freeSlot_waiting fun w hw => hl x List.mem_cons_self w hw ▸ h
    · rw [freeSlot_slot] at hw
      split at hw
      · cases hw
      · exact hl y (List.mem_cons_of_mem _ hy) w hw

theorem freeSlotsOf_waiting (h : q.findEntry o = none) : (q.freeSlotsOf o).waiting = q.waiting :=
  foldl_freeSlot_waiting (fun x hx w hw => by
    have hx' := of_decide_eq_true (List.mem_filter.1 hx).2
    exact Option.some.inj (hw.symm.trans hx')) h

/-! ## The spindle that is left -/

theorem selectionEvent_own : ∃ d, (q.selectionEvent i).sp i = { q.sp i with selectDue := d } := by
  unfold Lubran.selectionEvent
  split
  · exact ⟨true, sp_modSp_self _ _ _⟩
  · exact ⟨(q.sp i).selectDue, rfl⟩

theorem releaseHeld_own : ∃ g w, (q.releaseHeld i o).sp i = { q.sp i with readGate := g, writeGate := w } := by
  unfold Lubran.releaseHeld
  split
  · next h =>
    refine ⟨false, false, ?_⟩
    rw [releasePath_sp (of_decide_eq_true h).2, sp_modSp_self]
  · exact ⟨(q.sp i).readGate, (q.sp i).writeGate, rfl⟩

/-- A spindle that its entry has left, but for its gates and its selection event. -/
def SpindleUnit.departed (u : SpindleUnit) (o : Owner) : SpindleUnit :=
  { u.dropEntry o with
    xfer := u.entryXfer fun _ => XferRec.clear, waitReq := none
    chan := { u.chan with orphan := decide (u.life = .ready) && (u.chan.target.isSome || u.chan.held.isSome) } }

theorem departed_gates (u : SpindleUnit) (g w : Bool) :
    ({ u with readGate := g, writeGate := w } : SpindleUnit).departed o =
      { u.departed o with readGate := g, writeGate := w } := by
  cases o <;> rfl

theorem leaveQueue_own : ∃ g w d, (q.leaveQueue i o).sp i =
    { (q.sp i).departed o with readGate := g, writeGate := w, selectDue := d } := by
  obtain ⟨g, w, hheld⟩ := releaseHeld_own (q := q) (i := i) (o := o)
  unfold Lubran.leaveQueue
  dsimp only
  obtain ⟨d, hd⟩ := selectionEvent_own (i := i) (q := ((((q.releaseHeld i o).modSp i fun u =>
    u.departed o).leaveWaiting o).dropTransmit o).freeSlotsOf o)
  refine ⟨g, w, d, hd.trans ?_⟩
  rw [freeSlotsOf_keeps.2, departure_sp, sp_modSp_self, hheld, departed_gates]

end

/-! ## The waiting list after a departure -/

section
variable {q : Lubran} {i : Spindle} {o : Owner} {p : Port} {t : Tag}

theorem departed_findEntry (u : SpindleUnit) : (u.departed (.host p t)).findEntry (.host p t) = none := by
  refine List.find?_eq_none.2 fun x hx => ?_
  have hother := of_decide_eq_true (List.mem_filter.1 hx).2
  exact fun ho => hother (of_decide_eq_true ho)

theorem releaseHeld_waiting : (q.releaseHeld i o).waiting = q.waiting := by
  unfold Lubran.releaseHeld Lubran.releasePath
  split
  · cases q.path.spindle <;> rfl
  · rfl

theorem selectionEvent_waiting : (q.selectionEvent i).waiting = q.waiting := by
  unfold Lubran.selectionEvent
  split <;> rfl

theorem dropTransmit_waiting : (q.dropTransmit o).waiting = q.waiting := by
  cases o <;> rfl

/-- No one waits for a slot after a departure that nobody waited before, where no other spindle bears the tag (R42). -/
theorem leaveQueue_waiting (hw : q.waiting = []) (h : ∀ j, j ≠ i → (q.sp j).findEntry (.host p t) = none) :
    (q.leaveQueue i (.host p t)).waiting = [] := by
  unfold Lubran.leaveQueue
  dsimp only
  rw [selectionEvent_waiting, freeSlotsOf_waiting, dropTransmit_waiting]
  · show List.filter _ (q.releaseHeld i (.host p t)).waiting = []
    rw [releaseHeld_waiting, hw, List.filter_nil]
  · refine findEntry_eq_none.2 fun j => ?_
    rw [departure_sp]
    by_cases hj : j = i
    · subst hj
      rw [sp_modSp_self]
      exact departed_findEntry _
    · rw [sp_modSp_ne _ _ _ hj, releaseHeld_sp_ne hj]
      exact h j hj

end

/-! ## A selection event on an empty queue -/

/-- A row whose effect leaves a spindle without entries, with a selection event or without one (R48). -/
theorem exec_event {c : Instr} {s : State} {q : Lubran} {i : Spindle} (he : effect c s.part = q)
    (hr : (q.modSp i fun u => { u with selectDue := false }).atRest = true) (hq : (q.sp i).queue = [])
    (hi : (q.sp i).internal = none) :
    exec c s = .next { s with part := (q.modSp i fun u => { u with selectDue := false }).kickAll } := by
  generalize hr' : (q.modSp i fun u => { u with selectDue := false }) = r at hr
  have hsp : r.sp i = { q.sp i with selectDue := false } := by rw [← hr', sp_modSp_self]
  cases hdue : (q.sp i).selectDue with
  | false =>
    have hsame : r = q := hr' ▸ modSp_id q i (by rw [← hdue])
    exact exec_atRest (he.trans hsame.symm) hr
  | true =>
    have hback : r.modSp i (fun u => { u with selectDue := true }) = q := by
      rw [← hr', modSp_modSp]
      exact modSp_id q i (by rw [← hdue])
    refine exec_drain 1 (by decide) (he.trans hback.symm) (drain_select_none hr ?_ ?_)
    · rw [hsp]; exact hq
    · rw [hsp]; exact hi

/-! ## The transmitters' choice keeps the tags -/

theorem kick_tags (q : Lubran) (p r : Port) : ((q.kick p).port r).tags = (q.port r).tags := by
  by_cases h : r = p
  · subst h
    unfold Lubran.kick
    dsimp only
    split
    · split
      · rw [port_modPort_self]; rfl
      · split
        · rw [port_modPort_self]; rfl
        · split
          · rw [modSlot_port, port_modPort_self]; rfl
          · split
            · rw [port_modPort_self]; rfl
            · rfl
    · rfl
  · rw [kick_port_ne _ _ _ h]

theorem kickAll_tags (q : Lubran) (r : Port) : (q.kickAll.port r).tags = (q.port r).tags := by
  rw [kickAll_eq]
  simp only [kick_tags]

/-- A slot that begins to drain keeps its owner. -/
theorem kickAll_slot_owner (q : Lubran) (k : Fin 8) : (q.kickAll.slot k).owner = (q.slot k).owner := by
  rcases (kickAll_same q).slots k with e | ⟨-, e⟩ <;> rw [e]
  rfl

/-! ## The start of a granted field, and an entry abandoned in its lead slot -/

section
variable {q : Lubran} {i : Spindle} {nx : NextField}

/-- At the first slot of a granted field of a spindle that is not abandoned, the boundary begins the field and does no
more (R68, R70). -/
theorem boundary_begins (hlife : (q.sp i).life = .ready ∨ (q.sp i).life = .buildingMap)
    (hst : (q.sp i).chan.state = .onTrack) (hspindle : q.path.spindle = some i) (hidle : q.path.state = .idle)
    (hfield : q.path.field = some nx.field) (hnext : (q.sp i).xfer.next = some nx)
    (hslot : (q.sp i).slot = firstSlot nx.field) (hstays : ∀ e, q.current i = some e → e.abandoned = false) :
    q.boundary i = { q.modSp i (SpindleUnit.begun nx.action) with
      path := { q.path with state := pathStateFor nx.action } } := by
  generalize hr : ({ q.modSp i (SpindleUnit.begun nx.action) with
    path := { q.path with state := pathStateFor nx.action } } : Lubran) = r
  have hsp : r.sp i = (q.sp i).begun nx.action := by
    rw [← hr, sp_with_path, sp_modSp_self]
  have hbegin : q.beginField i = r := by
    rw [(beginField_granted hspindle hidle hfield hnext hslot).1 (abandonedEntry_none hstays), ← hr,
      modSp_congr_at (g := SpindleUnit.begun nx.action) (openGate_eq (q.sp i) nx.action)]
  have hwindow : r.windowAt i = none := by
    refine windowAt_begun (nx := nx) ?_ ?_ ?_ <;> rw [hsp]
    · exact hlife
    · exact hnext
    · exact hslot
  unfold Lubran.boundary
  rw [hbegin, takeWindow_none hwindow]
  exact countSlot_still (by rw [hsp]; exact not_moving (.inr hst))

/-- An entry abandoned in its lead slot leaves at the boundary, before its field has begun (R64, R156). -/
theorem boundary_leaves {e : Entry} {p : Port} {t : Tag} (hlife : (q.sp i).life = .ready ∨ (q.sp i).life = .buildingMap)
    (hst : (q.sp i).chan.state = .onTrack) (hspindle : q.path.spindle = some i) (hidle : q.path.state = .idle)
    (hfield : q.path.field = some nx.field) (hnext : (q.sp i).xfer.next = some nx)
    (hslot : (q.sp i).slot = firstSlot nx.field) (hcur : q.current i = some e) (ho : e.owner = .host p t)
    (ha : e.abandoned = true) : q.boundary i = (q.leaveQueue i (.host p t)).setTag p t false := by
  have habandoned : q.abandonedEntry i = some e := by
    unfold Lubran.abandonedEntry
    rw [hcur]
    exact Option.filter_some_pos ha
  generalize hr : (q.leaveQueue i (.host p t)).setTag p t false = r
  have hbegin : q.beginField i = r := by
    rw [(beginField_granted hspindle hidle hfield hnext hslot).2 e habandoned, ← hr]
    unfold Lubran.leaveAbandoned
    rw [ho]
  obtain ⟨g, w, d, hleft⟩ := leaveQueue_own (q := q) (i := i) (o := .host p t)
  have hsp : r.sp i = { (q.sp i).departed (.host p t) with readGate := g, writeGate := w, selectDue := d } := by
    rw [← hr, setTag_eq, modPort_sp]
    exact hleft
  have hwindow : r.windowAt i = none := by
    rcases hlife with h | h
    · refine windowAt_none ?_
      rw [hsp]
      exact congrArg XferRec.next (entryXfer_own (by rw [h]; exact nofun))
    · refine windowAt_begun (nx := nx) (.inr ?_) ?_ ?_ <;> rw [hsp]
      · exact h
      · exact (congrArg XferRec.next (entryXfer_building h)).trans hnext
      · exact hslot
  unfold Lubran.boundary
  rw [hbegin, takeWindow_none hwindow]
  exact countSlot_still (by rw [hsp]; exact not_moving (.inr hst))

end

/-- An INDEX mark at slot 95 of a spindle without an allegiance (R23, R46). -/
theorem indexMark_plain {q : Lubran} {i : Spindle} (hs : (q.sp i).atSpeed = true) (h : (q.sp i).slot = 95)
    (ha : (q.sp i).allegiance = none) : q.indexMark i { onTrack := false, guard := false, fault := false } =
      (q.modSp i fun u => { u with slot := 0, missing := 0, revs := (u.revs + 1) % 65536 }).boundary i := by
  refine (indexMark_away hs (by omega) ha).trans ((if_pos h).trans ?_)
  refine congrArg (Lubran.boundary · i) (modSp_congr_at ?_)
  simp [SpindleUnit.wrapped, Lines.fall]

/-- A departure whose entry the path is held for gives the path back (R64, R68). -/
theorem leaveQueue_path_held {q : Lubran} {i : Spindle} {o : Owner} (h : q.pathHeldBy i (.entry o) = true) :
    (q.leaveQueue i o).path = PathRec.idle := by
  have hheld : q.releaseHeld i o = q.releasePath := if_pos h
  unfold Lubran.leaveQueue
  dsimp only
  rw [selectionEvent_frame.2, freeSlotsOf_path, hheld]
  unfold Lubran.releasePath
  cases o <;> rfl

/-- The SECTOR mark at the end of the lead slot of an entry that was abandoned there (R64, R156). -/
theorem exec_abandoned {s : State} {i : Spindle} {nx : NextField} {e : Entry} {p : Port} {t : Tag}
    (hrest : s.part.atRest = true) (hlife : (s.part.sp i).life = .ready ∨ (s.part.sp i).life = .buildingMap)
    (hst : (s.part.sp i).chan.state = .onTrack) (hspindle : s.part.path.spindle = some i)
    (hidle : s.part.path.state = .idle) (hholder : s.part.path.holder = some (.entry (.host p t)))
    (hfield : s.part.path.field = some nx.field) (hnext : (s.part.sp i).xfer.next = some nx)
    (hq : (s.part.sp i).queue = [e]) (hin : (s.part.sp i).internal = none) (ho : e.owner = .host p t)
    (hstate : e.state = .transferring) (ha : e.abandoned = true)
    (hothers : ∀ j, j ≠ i → (s.part.sp j).findEntry (.host p t) = none) (hwaiting : s.part.waiting = [])
    (hslot : (s.part.sp i).slot < 95) (hfirst : (s.part.sp i).slot + 1 = firstSlot nx.field) :
    ∃ u : State, exec (.sectorMark i { onTrack := false, guard := false, fault := false }) s = .next u ∧
      (u.part.sp i).queue = [] ∧ (u.part.port p).tags.get t = false ∧ u.part.path = PathRec.idle ∧
      u.part.writeOut = s.part.writeOut ∧ ∀ k, (u.part.slot k).owner ≠ some (.host p t) := by
  have hs : (s.part.sp i).atSpeed = true := atSpeed_of (.inr hlife.symm)
  generalize hm : (s.part.modSp i fun u => { u with slot := u.slot + 1 }) = m
  have hsp : m.sp i = { s.part.sp i with slot := (s.part.sp i).slot + 1 } := by rw [← hm, sp_modSp_self]
  have hspne : ∀ j, j ≠ i → m.sp j = s.part.sp j := fun j hj => by rw [← hm, sp_modSp_ne _ _ _ hj]
  have hcur : m.current i = some e := by
    have hservice : e.inService = true := by
      unfold Entry.inService
      rw [hstate]
      rfl
    unfold Lubran.current
    rw [hsp]
    exact (current_single hq hin).trans (if_pos hservice)
  have hleaves := boundary_leaves (q := m) (i := i) (nx := nx) (e := e) (p := p) (t := t) (by rw [hsp]; exact hlife)
    (by rw [hsp]; exact hst) (by rw [← hm]; exact hspindle) (by rw [← hm]; exact hidle) (by rw [← hm]; exact hfield)
    (by rw [hsp]; exact hnext) (by rw [hsp]; exact hfirst) hcur ho ha
  generalize hr : (m.leaveQueue i (.host p t)).setTag p t false = r at hleaves
  have heff : effect (.sectorMark i { onTrack := false, guard := false, fault := false }) s.part = r := by
    rw [← hleaves, ← hm]
    exact sectorMark_plain hs hslot
  obtain ⟨g, w, d, hleft⟩ := leaveQueue_own (q := m) (i := i) (o := .host p t)
  have hown : r.sp i = { (m.sp i).departed (.host p t) with readGate := g, writeGate := w, selectDue := d } := by
    rw [← hr, setTag_eq, modPort_sp]
    exact hleft
  have hne : ∀ j, j ≠ i → r.sp j = s.part.sp j := fun j hj => by
    rw [← hr, ← hspne j hj, setTag_eq, modPort_sp]
    exact leaveQueue_sp_ne hj
  have hqueue : (r.sp i).queue = [] := by
    rw [hown, hsp]
    show (s.part.sp i).queue.filter (fun x => decide (x.owner ≠ .host p t)) = []
    rw [hq]
    simp [ho]
  have hlists : SameLists m r := hr ▸ leaveQueue_lists.trans setTag_lists
  have hrests : (r.modSp i fun u => { u with selectDue := false }).atRest = true := by
    obtain ⟨hsettle, hwait, -, hselect, hwork⟩ := (atRest_iff _).1 hrest
    have hspindle : ∀ j, ((r.modSp i fun u => { u with selectDue := false }).sp j).Rests := fun j => by
      by_cases hj : j = i
      · subst hj
        rw [sp_modSp_self, hown, hsp]
        refine ⟨not_settleReady fun h => ?_, waitReady_none rfl, rfl⟩
        cases hst.symm.trans h
      · rw [sp_modSp_ne _ _ _ hj, hne j hj]
        exact ⟨hsettle j, hwait j, hselect j⟩
    refine (atRest_iff _).2 ⟨fun j => (hspindle j).settle, fun j => (hspindle j).wait, fun hgrant => hgrant.2 ?_,
      fun j => (hspindle j).select, ?_⟩
    · rw [modSp_waiting, ← hr, setTag_eq, modPort_waiting]
      refine leaveQueue_waiting ?_ fun j hj => ?_
      · rw [← hm]; exact hwaiting
      · rw [hspne j hj]; exact hothers j hj
    · show ¬ (r.seq.state = .idle ∧ r.sparing ≠ [])
      rw [hlists.seq, hlists.sparing, ← hm]
      exact hwork
  refine ⟨_, exec_event heff hrests hqueue (by rw [hown, hsp]; exact hin), ?_, ?_, ?_, ?_, fun k => ?_⟩
  · rw [kickAll_sp, sp_modSp_self]
    exact hqueue
  · rw [kickAll_tags, modSp_port, ← hr, setTag_eq, port_modPort_self]
    exact Vector.getElem_set_self _
  · rw [kickAll_path, modSp_path, ← hr, setTag_eq, modPort_path]
    refine leaveQueue_path_held (q := m) (decide_eq_true ?_)
    rw [← hm]
    exact ⟨hholder, hspindle⟩
  · rw [kickAll_writeOut, modSp_writeOut, hlists.writeOut, ← hm]
    rfl
  · rw [kickAll_slot_owner, modSp_slot, ← hr, setTag_eq, modPort_slot]
    exact leaveQueue_slots

/-- Settles O49: the boundary of a SECTOR mark or of the INDEX mark begins the field (`boundary_begins`), unless its
entry was abandoned in the lead slot (`boundary_leaves`). -/
theorem grantedFieldBegins : Obligations.GrantedFieldBegins := by
  intro s i h nx hrest hlife hst hspindle hidle hholder hfield hnext none_ begun
  have hs : (s.part.sp i).atSpeed = true := atSpeed_of (.inr hlife.symm)
  obtain ⟨hsettle, hwait, hselect⟩ := rests_of_atRest hrest i
  refine ⟨fun hstays => ⟨fun hslot hfirst => ?_, fun hslot hheader ha => ?_⟩, ?_⟩
  · have hsp : (s.part.modSp i fun u => { u with slot := u.slot + 1 }).sp i =
      { s.part.sp i with slot := (s.part.sp i).slot + 1 } := sp_modSp_self _ _ _
    have hbegins := boundary_begins (q := s.part.modSp i fun u => { u with slot := u.slot + 1 }) (i := i) (nx := nx)
      (by rw [hsp]; exact hlife) (by rw [hsp]; exact hst) hspindle hidle hfield (by rw [hsp]; exact hnext)
      (by rw [hsp]; exact hfirst) (by unfold Lubran.current; rw [hsp]; exact hstays)
    rw [modSp_modSp] at hbegins
    exact exec_atRest ((sectorMark_plain hs hslot).trans hbegins)
      (atRest_with_path (atRest_spindle hrest ⟨hsettle, hwait, hselect⟩))
  · have hsp : (s.part.modSp i fun u => { u with slot := 0, missing := 0, revs := (u.revs + 1) % 65536 }).sp i =
      { s.part.sp i with slot := 0, missing := 0, revs := ((s.part.sp i).revs + 1) % 65536 } := sp_modSp_self _ _ _
    have hbegins := boundary_begins (i := i) (nx := nx)
      (q := s.part.modSp i fun u => { u with slot := 0, missing := 0, revs := (u.revs + 1) % 65536 })
      (by rw [hsp]; exact hlife) (by rw [hsp]; exact hst) hspindle hidle hfield (by rw [hsp]; exact hnext)
      (by rw [hsp, hheader]; rfl) (by unfold Lubran.current; rw [hsp]; exact hstays)
    rw [modSp_modSp] at hbegins
    exact exec_atRest ((indexMark_plain hs hslot ha).trans hbegins)
      (atRest_with_path (atRest_spindle hrest ⟨hsettle, hwait, hselect⟩))
  · intro e p t hq hin ho hstate ha hh hothers hwaiting hslot hfirst
    exact exec_abandoned hrest hlife hst hspindle hidle (hh ▸ hholder) hfield hnext hq hin ho hstate ha hothers hwaiting
      hslot hfirst

end Sys2Proof.Machine
end

section
/-!
FAULTED on a spindle with no work (R6, R11, R12, R21, R25): what each of the four causes leaves.
-/

namespace Sys2Proof.Machine

section
variable {q : Lubran} {i : Spindle}

theorem raiseAt_sparing (p : Port) (key : NoticeKey) (d : Detail) : (q.raiseAt p key d).sparing = q.sparing := by
  unfold Lubran.raiseAt
  split <;> rfl

theorem raiseMasked_sparing (i : Spindle) (d : Detail) : (q.raiseMasked i d).sparing = q.sparing :=
  foldl_keeps Lubran.sparing _ (fun q p => raiseAt_sparing (q := q) p _ _) _ _

theorem failPending_nil (h : q.sparing = []) : q.failPending i = q := by
  unfold Lubran.failPending
  rw [h]
  dsimp only [List.filter_nil, List.foldl_nil]
  rw [← h]

/-- A spindle without work that enters FAULTED (R11). -/
def SpindleUnit.failed (r : FaultReason) (u : SpindleUnit) : SpindleUnit :=
  { u with life := .faulted, faultReason := r, spin := false, spinTimer := none, chan := u.chan.stop, waitReq := none
           pool := [], generation := 0, mapState := .notBuilt, build := none, selectDue := false
           xfer := { u.xfer with next := none, cont := none } }

theorem sp_current_none (hq : (q.sp i).queue = []) (hin : (q.sp i).internal = none) : q.current i = none := by
  unfold Lubran.current SpindleUnit.current
  rw [hq, hin]
  rfl

/-- A change of a spindle without an entry leaves no entry to end there (R65). -/
theorem faultWork_none {f : SpindleUnit → SpindleUnit} (hq : (f (q.sp i)).queue = [])
    (hin : (f (q.sp i)).internal = none) :
    ((q.modSp i f).faultCurrent i).endQueued i .spindleFault = q.modSp i f := by
  have hsp : (q.modSp i f).sp i = f (q.sp i) := sp_modSp_self q i f
  rw [← hsp] at hq hin
  unfold Lubran.faultCurrent
  rw [sp_current_none hq hin]
  exact endQueued_none fun e he => absurd (hq ▸ he) List.not_mem_nil

/-- A spindle whose map and pool are dropped (R115). -/
def SpindleUnit.unmapped (u : SpindleUnit) : SpindleUnit :=
  { u with pool := [], generation := 0, mapState := .notBuilt, build := none }

theorem dropMap_forgetSuspects : (q.dropMap i).forgetSuspects i = (q.forgotten i).modSp i SpindleUnit.unmapped := rfl

theorem modSp_forgotten {f : SpindleUnit → SpindleUnit} :
    (q.modSp i f).forgotten i = (q.forgotten i).modSp i f := rfl

/-- A spindle without work enters FAULTED: neither the path, nor the sequencer, nor an entry is on it. -/
theorem faultSpindle_idle {r : FaultReason}
    (hl : (q.sp i).life = .spinningUp ∨ (q.sp i).life = .recalibrating ∨ (q.sp i).life = .buildingMap ∨
      (q.sp i).life = .ready)
    (hq : (q.sp i).queue = []) (hin : (q.sp i).internal = none) (hp : q.path.spindle ≠ some i)
    (hseq : q.seq = Sequencer.initial) (hs : q.sparing = []) :
    q.faultSpindle i r =
      ((q.forgotten i).modSp i (SpindleUnit.failed r)).raiseMasked i (.spindleFault r) := by
  have hpath : q.dropPathOn i = q := if_neg hp
  have hmine : ¬ decide (Sequencer.initial.state ≠ .idle ∧ Sequencer.initial.spindle = some i) = true :=
    fun h => (of_decide_eq_true h).1 rfl
  have hraised : Lubran.sparing (((q.forgotten i).modSp i (SpindleUnit.failed r)).raiseMasked i (.spindleFault r)) = [] :=
    (raiseMasked_sparing _ _).trans hs
  refine Eq.trans ?_ (failPending_nil (i := i) hraised)
  unfold Lubran.faultSpindle
  rcases hl with h | h | h | h <;> rw [h]
  all_goals
    dsimp only
    rw [hpath, faultWork_none hq hin, modSp_seq, hseq, if_neg hmine, if_neg hmine]
    rw [dropMap_forgetSuspects, modSp_forgotten, modSp_modSp, modSp_modSp]
    exact congrArg (fun x => Lubran.failPending (Lubran.raiseMasked x i _) i) (modSp_congr_at rfl)

theorem atRest_failed {r : FaultReason} {g : SpindleUnit → SpindleUnit} (h : q.atRest = true) :
    (((q.forgotten i).modSp i fun u => (g u).failed r).raiseMasked i (.spindleFault r)).atRest = true := by
  rw [atRest_raiseMasked]
  exact atRest_spindle (atRest_forgotten h) ⟨not_settleReady nofun, waitReady_none rfl, rfl⟩

/-- A second missing index in succession faults the spindle (R25). -/
theorem sector_missing (h : 95 ≤ (q.sp i).slot) (hm : 1 ≤ (q.sp i).missing) :
    q.sector i = ((q.setSlot i 0).revolution i).faultSpindle i .missingIndex := by
  unfold Lubran.sector
  exact (if_neg (Nat.not_lt.2 h)).trans (if_pos hm)

theorem sectorMark_missing {f : Falls} (hs : (q.sp i).atSpeed = true) (h : 95 ≤ (q.sp i).slot)
    (hm : 1 ≤ (q.sp i).missing) (ha : (q.sp i).allegiance = none) :
    q.sectorMark i f = (q.modSp i fun u => u.wrapped f u.missing).faultSpindle i .missingIndex := by
  have hsp : (q.takeFalls i f).sp i = { q.sp i with lines := (q.sp i).lines.fall f } := sp_modSp_self q i _
  rw [sectorMark_atSpeed hs, sector_missing (by rw [hsp]; exact h) (by rw [hsp]; exact hm)]
  unfold Lubran.takeFalls Lubran.setSlot
  rw [modSp_modSp, revolution_free (by rw [sp_modSp_self]; exact ha), modSp_modSp]
  rfl

end

/-- A row of a spindle without work that faults it. -/
theorem exec_fault {c : Instr} {s : State} {i : Spindle} {g : SpindleUnit → SpindleUnit} {r : FaultReason}
    (hrest : s.part.atRest = true) (he : effect c s.part = (s.part.modSp i g).faultSpindle i r)
    (hl : (g (s.part.sp i)).life = .spinningUp ∨ (g (s.part.sp i)).life = .recalibrating ∨
      (g (s.part.sp i)).life = .buildingMap ∨ (g (s.part.sp i)).life = .ready)
    (hq : (g (s.part.sp i)).queue = []) (hin : (g (s.part.sp i)).internal = none)
    (hp : s.part.path.spindle ≠ some i) (hseq : s.part.seq = Sequencer.initial) (hs : s.part.sparing = []) :
    exec c s = .next { s with part :=
      (((s.part.forgotten i).modSp i fun u => (g u).failed r).raiseMasked i (.spindleFault r)).kickAll } := by
  refine exec_atRest (he.trans ?_) (atRest_failed hrest)
  have hsp : (s.part.modSp i g).sp i = g (s.part.sp i) := sp_modSp_self s.part i g
  rw [← hsp] at hl hq hin
  rw [faultSpindle_idle hl hq hin hp hseq hs]
  refine congrArg (fun x => Lubran.raiseMasked x i _) (Eq.trans ?_ (modSp_modSp (s.part.forgotten i) i g _))
  rfl

/-- Settles O54: each of the four rows changes its spindle and faults it (`exec_fault`). -/
theorem faultStopsTheSpindle : Obligations.FaultStopsTheSpindle := by
  intro s i hrest hq hin hp hseq hs u faulted
  have hturns : u.life = .recalibrating ∨ u.life = .buildingMap ∨ u.life = .ready →
      u.life = .spinningUp ∨ u.life = .recalibrating ∨ u.life = .buildingMap ∨ u.life = .ready := .inr
  refine ⟨fun hlife => ?_, fun hlife htimer => ?_, fun hlife hpur hstate hlimit => ?_, fun hlife hslot hmiss ha => ?_⟩
  · refine exec_fault (g := fun u => { u with lines := { u.lines with speedOk := false } }) hrest ?_ (hturns hlife)
      hq hin hp hseq hs
    exact if_pos (by unfold Lubran.modLines; rw [sp_modSp_self]; exact atSpeed_of hlife)
  · refine exec_fault (g := id) hrest ?_ (.inl hlife) hq hin hp hseq hs
    rw [modSp_id s.part i rfl]
    exact if_pos ⟨hlife, htimer⟩
  · refine exec_fault (g := fun u => { u with chan := { u.chan with recalLimit := 0 } }) hrest ?_ (hturns hlife)
      hq hin hp hseq hs
    refine if_pos ⟨moving_of ?_, hpur, hlimit⟩
    rcases hstate with h | h | h
    · exact .inr (.inr h)
    · exact .inr (.inl h)
    · exact .inl h
  · refine exec_fault (g := fun u => { u with slot := 0, revs := (u.revs + 1) % 65536 }) hrest ?_ (hturns hlife)
      hq hin hp hseq hs
    refine (sectorMark_missing (atSpeed_of hlife) hslot hmiss ha).trans ?_
    refine congrArg (fun x => Lubran.faultSpindle x i _) (modSp_congr_at ?_)
    simp [SpindleUnit.wrapped, Lines.fall]

end Sys2Proof.Machine
end

section
/-!
The end of a DATA frame (R81): the frames of a slot are counted, and the fourth drains it.
-/

namespace Sys2Proof.Machine

section
variable {q : Lubran} {i : Spindle} {o : Owner} {e e' : Entry} {k l : Fin 8} {p : Port} {t : Tag}

/-! ## The search for an entry -/

theorem findEntry_at (h : q.findEntry o = some (i, e)) : (q.sp i).findEntry o = some e := by
  unfold Lubran.findEntry at h
  obtain ⟨j, -, hj⟩ := List.exists_of_findSome?_eq_some h
  obtain ⟨x, hx, hpair⟩ := Option.map_eq_some_iff.1 hj
  cases hpair
  exact hx

/-- The search finds the same spindle after a change of its entry. -/
theorem findEntry_modSp {g : SpindleUnit → SpindleUnit} (h : q.findEntry o = some (i, e))
    (hg : (g (q.sp i)).findEntry o = some e') : (q.modSp i g).findEntry o = some (i, e') := by
  have hi := findEntry_at h
  unfold Lubran.findEntry at h ⊢
  obtain ⟨before, j, after, hsplit, hj, hbefore⟩ := List.findSome?_eq_some_iff.1 h
  obtain ⟨x, -, hpair⟩ := Option.map_eq_some_iff.1 hj
  cases hpair
  refine List.findSome?_eq_some_iff.2 ⟨before, i, after, hsplit, ?_, fun b hb => ?_⟩
  · rw [sp_modSp_self, hg]
    rfl
  · have hne : b ≠ i := by
      rintro rfl
      have hnone := hbefore b hb
      rw [hi] at hnone
      cases hnone
    rw [sp_modSp_ne _ _ _ hne]
    exact hbefore b hb

/-! ## A slot freed of an entry that holds enough -/

theorem slotsOf_freed : (q.slotsOf o).length ≤ ((q.modSlot k StagingSlot.clear).slotsOf o).length + 1 := by
  refine length_filter_le_succ (k := k) (by decide) fun x hxk hx => ?_
  rw [slot_modSlot, if_neg hxk]
  exact hx

/-- An entry that holds more than it needs does not wait when it loses a slot (R76). -/
theorem freeSlot_waiting_held (ho : (q.slot k).owner = some o) (h : q.need o < (q.slotsOf o).length) :
    (q.freeSlot k).waiting = q.waiting := by
  have hlen := slotsOf_freed (q := q) (o := o) (k := k)
  have hkeep : ∀ r : Lubran, r.slots = (q.modSlot k StagingSlot.clear).slots → r.spindles = q.spindles → r.seq = q.seq →
      r.waiting = q.waiting → (r.joinIfShort o).waiting = q.waiting := by
    intro r hslots hspindles hseq hw
    have hneed : r.need o = q.need o := by
      unfold Lubran.need Lubran.findEntry Lubran.sp
      rw [hspindles, hseq]
    have hheld : r.slotsOf o = (q.modSlot k StagingSlot.clear).slotsOf o := by
      unfold Lubran.slotsOf Lubran.slot
      rw [hslots]
    unfold Lubran.joinIfShort
    rw [if_neg, hw]
    rw [hneed, hheld]
    exact fun hshort => by omega
  unfold Lubran.freeSlot
  dsimp only
  rw [ho]
  dsimp only
  split <;> exact hkeep _ rfl rfl rfl rfl

theorem offer_frame : (∀ j, (q.offer p t).sp j = q.sp j) ∧ (q.offer p t).slots = q.slots ∧
    (q.offer p t).waiting = q.waiting ∧ (q.offer p t).seq = q.seq ∧ (q.offer p t).sparing = q.sparing := by
  unfold Lubran.offer
  split <;> exact ⟨fun _ => rfl, rfl, rfl, rfl, rfl⟩

/-! ## The rows -/

theorem dataEnds_detached {b n : Nat} {bytes : List Byte} (h : (q.port p).sending = some (.data t b n bytes none)) :
    q.dataEnds p = q.modPort p fun r => { r with sending := none } := by
  unfold Lubran.dataEnds
  rw [h]

theorem dataEnds_counted {b n : Nat} {bytes : List Byte} (h : (q.port p).sending = some (.data t b n bytes (some k)))
    (ho : (q.slot k).owner = some o) (hs : (q.slot k).sent < 3) :
    q.dataEnds p =
      (q.modPort p fun r => { r with sending := none }).modSlot k fun sl => { sl with sent := sl.sent + 1 } := by
  unfold Lubran.dataEnds
  rw [h]
  dsimp only
  rw [modPort_slot, ho]
  exact if_pos (Nat.succ_lt_succ hs)

/-- A READ's entry with one more block done (R81). -/
def Entry.drained (e : Entry) : Entry := { e with blocksDone := e.blocksDone + 1 }

/-- The part when the fourth DATA frame of a slot has ended: its transmitter idle, the block done (R81). -/
def Lubran.drained (q : Lubran) (p : Port) (i : Spindle) (o : Owner) : Lubran :=
  (q.modPort p fun r => { r with sending := none }).modEntry i o Entry.drained

theorem drained_sp : (q.drained p i (.host p t)).sp i = (q.sp i).modEntry (.host p t) Entry.drained :=
  sp_modSp_self (q.modPort p fun r => { r with sending := none }) i _

theorem drained_findEntry (h : q.findEntry (.host p t) = some (i, e)) :
    (q.drained p i (.host p t)).findEntry (.host p t) = some (i, e.drained) := by
  refine findEntry_modSp (q := q.modPort p fun r => { r with sending := none }) (g := fun u =>
    u.modEntry (.host p t) Entry.drained) h ?_
  rw [findEntry_modEntry (f := Entry.drained) fun _ => rfl]
  exact congrArg (Option.map Entry.drained) (findEntry_at h)

/-- A READ that holds more slots than its blocks still to drain take needs no more (R76). -/
theorem drained_need (h : q.findEntry (.host p t) = some (i, e)) (hk : e.kind = .read)
    (hneed : min 4 (e.count - (e.blocksDone + 1)) < (q.slotsOf (.host p t)).length) :
    (q.drained p i (.host p t)).need (.host p t) < (q.slotsOf (.host p t)).length := by
  unfold Lubran.need
  rw [drained_findEntry h]
  dsimp only
  split
  · rw [show e.drained.kind = .read from hk]
    exact hneed
  · exact Nat.zero_lt_of_lt hneed

/-- The fourth DATA frame of a slot (R81): the block is done and its slot freed. -/
theorem dataEnds_drained {b n : Nat} {bytes : List Byte} (h : (q.port p).sending = some (.data t b n bytes (some k)))
    (ho : (q.slot k).owner = some (.host p t)) (hs : (q.slot k).sent = 3) (he : q.findEntry (.host p t) = some (i, e))
    (hd : e.decided = none) : q.dataEnds p = ((q.drained p i (.host p t)).freeSlot k).offer p t := by
  have hafter : ((((q.drained p i (.host p t)).freeSlot k).offer p t).sp i).findEntry (.host p t) = some e.drained := by
    rw [offer_frame.1, freeSlot_sp]
    exact findEntry_at (drained_findEntry he)
  unfold Lubran.dataEnds
  rw [h]
  dsimp only
  rw [modPort_slot, ho]
  dsimp only
  rw [if_neg (by rw [hs]; decide)]
  unfold Lubran.slotDrained
  rw [show (q.modPort p fun r => { r with sending := none }).findEntry (.host p t) = some (i, e) from he]
  dsimp only
  rw [show (q.modPort p fun r => { r with sending := none }).modEntry i (.host p t) (fun e =>
    { e with blocksDone := e.blocksDone + 1 }) = q.drained p i (.host p t) from rfl, hafter]
  dsimp only
  rw [show e.drained.decided = none from hd]
  exact if_neg fun hand => Bool.false_ne_true hand.1

theorem atRest_drained (hrest : q.atRest = true) (hw : q.waiting = []) (ho : (q.slot k).owner = some (.host p t))
    (h : q.findEntry (.host p t) = some (i, e)) (hk : e.kind = .read)
    (hneed : min 4 (e.count - (e.blocksDone + 1)) < (q.slotsOf (.host p t)).length) :
    (((q.drained p i (.host p t)).freeSlot k).offer p t).atRest = true := by
  obtain ⟨hsp, -, hwaiting, hseq, hsparing⟩ := offer_frame (q := (q.drained p i (.host p t)).freeSlot k) (p := p) (t := t)
  have hdrained : (q.drained p i (.host p t)).atRest = true := atRest_modEntry ((atRest_modPort _ _ _).trans hrest)
  obtain ⟨hsettle, hwait, -, hdue, hidle⟩ := (atRest_iff _).1 hdrained
  have hlists := freeSlot_lists (q := q.drained p i (.host p t)) (k := k)
  refine (atRest_iff _).2 ⟨fun j => ?_, fun j => ?_, fun hgrant => hgrant.2 ?_, fun j => ?_, ?_⟩
  · rw [hsp, freeSlot_sp]; exact hsettle j
  · rw [hsp, freeSlot_sp]; exact hwait j
  · rw [hwaiting, freeSlot_waiting_held (q := q.drained p i (.host p t)) ho (drained_need h hk hneed)]
    exact hw
  · rw [hsp, freeSlot_sp]; exact hdue j
  · rw [hseq, hsparing, hlists.seq, hlists.sparing]
    exact hidle

theorem drained_slot (l : Fin 8) : (((q.drained p i (.host p t)).freeSlot k).offer p t).slot l =
    if l = k then (q.slot l).clear else q.slot l := by
  refine Eq.trans (congrArg (fun v => Vector.get v l) offer_frame.2.1) ?_
  exact freeSlot_slot

theorem kickAll_slot_bytes (q : Lubran) (k : Fin 8) : (q.kickAll.slot k).bytes = (q.slot k).bytes := by
  rcases (kickAll_same q).slots k with e | ⟨-, e⟩ <;> rw [e]
  rfl

/-- A FREE slot stays FREE when the transmitters choose. -/
theorem kickAll_slot_free (h : (q.slot k).state = .free) : (q.kickAll.slot k).state = .free := by
  rcases (kickAll_same q).slots k with e | ⟨hfull, -⟩
  · rw [e]
    exact h
  · rw [h] at hfull
    cases hfull

end

/-- Settles O45: a frame without its slot, one of the first three frames, and the fourth, after which the entry holds
enough, so that nothing is granted. -/
theorem dataFrameEndDrainsItsSlot : Obligations.DataFrameEndDrainsItsSlot := by
  intro s p t b n bytes hrest
  refine ⟨fun h => ?_, fun k o h ho hs => ?_, fun k i e h ho hs hsrc he hkind hd hw hneed => ?_⟩
  · exact exec_atRest (dataEnds_detached h) ((atRest_modPort _ _ _).trans hrest)
  · refine exec_atRest (dataEnds_counted h ho hs) ?_
    refine atRest_congr (a := s.part) (fun _ => ⟨rfl, rfl, rfl⟩) (fun l hl => ?_) rfl rfl rfl hrest
    rw [slot_modSlot] at hl
    split at hl
    · exact hl
    · exact hl
  · have hslot := drained_slot (q := s.part) (i := i) (k := k) (p := p) (t := t)
    have hown : (((s.part.drained p i (.host p t)).freeSlot k).offer p t).sp i =
        (s.part.sp i).modEntry (.host p t) Entry.drained := by
      rw [offer_frame.1, freeSlot_sp, drained_sp]
    have hother : ∀ j, j ≠ i → (((s.part.drained p i (.host p t)).freeSlot k).offer p t).sp j = s.part.sp j := by
      intro j hj
      rw [offer_frame.1, freeSlot_sp]
      exact sp_modSp_ne (s.part.modPort p _) _ _ hj
    have hexec := exec_atRest (c := .dataFrameSent p) (dataEnds_drained h ho hs he hd)
      (atRest_drained hrest hw ho he hkind hneed)
    generalize ((s.part.drained p i (.host p t)).freeSlot k).offer p t = r at hexec hslot hown hother
    refine ⟨_, hexec, ?_⟩
    dsimp only
    refine ⟨kickAll_slot_free ?_, ?_, fun j hj => ?_, ?_, fun l hl => ⟨?_, ?_⟩⟩
    · rw [hslot, if_pos rfl]
      rfl
    · rw [kickAll_slot_owner, hslot, if_pos rfl]
      rfl
    · rw [kickAll_sp, hother j hj]
    · rw [kickAll_sp, hown]
      rfl
    · rw [kickAll_slot_owner, hslot, if_neg hl]
    · rw [kickAll_slot_bytes, hslot, if_neg hl]

end Sys2Proof.Machine
end

section
/-!
The service start of a READ (R53, R69, R75): its track is resolved, its seek starts, and its slots are granted one by one.
-/

namespace Sys2Proof.Machine

/-! ## The grants of one entry -/

/-- A spindle whose transfer record has another next block to bind. -/
def SpindleUnit.bound (b : Nat) (u : SpindleUnit) : SpindleUnit := { u with xfer := { u.xfer with bind := b } }

/-- A part after m grants to one entry: the m slots of lowest number are its own. -/
structure Lubran.Fills (q r : Lubran) (i : Spindle) (o : Owner) (m : Nat) : Prop where
  own : ∃ b, r.sp i = (q.sp i).bound b
  other : ∀ j, j ≠ i → r.sp j = q.sp j
  ports : r.ports = q.ports
  seq : r.seq = q.seq
  sparing : r.sparing = q.sparing
  owner : ∀ k : Fin 8, (r.slot k).owner = if k.val < m then some o else none
  free : ∀ k : Fin 8, (r.slot k).state = .free ↔ m ≤ k.val

section
variable {q r : Lubran} {i : Spindle} {p : Port} {t : Tag} {e : Entry} {n m : Nat}

theorem slotsOf_below (hm : m ≤ 8) (h : ∀ k : Fin 8, (r.slot k).owner = if k.val < m then some (.host p t) else none) :
    (r.slotsOf (.host p t)).length = m := by
  have hcount : ∀ m : Fin 9, (allSlots.filter fun k => decide (k.val < m.val)).length = m.val := by decide
  refine Eq.trans (congrArg List.length (List.filter_congr fun k _ => ?_)) (hcount ⟨m, Nat.lt_succ_of_le hm⟩)
  rw [h k]
  by_cases hk : k.val < m <;> simp [hk]

theorem freeIndex_above (hm : m < 8) (h : ∀ k : Fin 8, (r.slot k).state = .free ↔ m ≤ k.val) :
    r.freeIndex = some ⟨m, hm⟩ := by
  have hfind : ∀ m : Fin 8, allSlots.find? (fun k => decide (m.val ≤ k.val)) = some m := by decide
  unfold Lubran.freeIndex
  rw [← hfind ⟨m, hm⟩]
  refine congrArg (fun f => allSlots.find? f) (funext fun k => ?_)
  exact decide_eq_decide.2 (h k)

/-- One entry that waits alone is the winner (R77, R78). -/
theorem winner_alone (h : r.waiting = [.host p t]) : ∃ served, r.winner = some (.host p t, served) := by
  have hport : ¬ (Owner.internal ∈ r.waiting) := by rw [h]; simp
  unfold Lubran.winner
  rw [if_neg hport, h]
  cases r.params.arbMode with
  | priority => exact ⟨_, rfl⟩
  | fair =>
    refine ⟨r.servedNow ++ [p], ?_⟩
    have hnot : p ∉ r.servedNow := by
      unfold Lubran.servedNow
      rw [h]
      by_cases hp : p ∈ r.served
      · rw [if_pos (by simp [Owner.port, hp])]
        exact List.not_mem_nil
      · rw [if_neg (by simp [Owner.port, hp])]
        exact hp
    simp [Owner.port, hnot]

theorem nextTask_grant (hs : ∀ j, (r.sp j).settleReady = false) (hw : ∀ j, (r.sp j).waitReady = false)
    (hg : r.canGrant = true) : r.nextTask = some r.grantOne := by
  unfold Lubran.nextTask
  rw [allSpindles_find_none.2 hs, allSpindles_find_none.2 hw]
  exact if_pos hg

theorem Lubran.Fills.findEntry (h : q.Fills r i (.host p t) m) (he : q.findEntry (.host p t) = some (i, e)) :
    r.findEntry (.host p t) = some (i, e) := by
  obtain ⟨b, hown⟩ := h.own
  rw [← he]
  unfold Lubran.findEntry
  refine congrArg (fun f => allSpindles.findSome? f) (funext fun j => ?_)
  by_cases hj : j = i
  · subst hj
    rw [hown]
    rfl
  · rw [h.other j hj]

/-- The entry of a READ in service needs four slots at most (R76). -/
theorem need_read (he : r.findEntry (.host p t) = some (i, e)) (hk : e.kind = .read) (hs : e.state = .seeking)
    (ha : e.abandoned = false) : r.need (.host p t) = min 4 (e.count - e.blocksDone) := by
  unfold Lubran.need
  rw [he]
  dsimp only
  rw [if_pos ⟨by unfold Entry.inService; rw [hs]; rfl, by rw [hs]; exact nofun, ha⟩, hk]

/-- A READ's slot is bound to the next block of its transfer record (R75). -/
theorem bindSlot_read (k : Fin 8) (hk : e.kind = .read) : r.bindSlot k i e =
    (r.modSlot k fun s => s.reserve e.owner (r.sp i).xfer.bind .disk).modSp i fun u => u.bound (u.xfer.bind + 1) := by
  unfold Lubran.bindSlot
  rw [hk]
  rfl

theorem Lubran.Fills.served {l : List Port} (h : q.Fills r i (.host p t) m) :
    q.Fills { r with served := l } i (.host p t) m := ⟨h.own, h.other, h.ports, h.seq, h.sparing, h.owner, h.free⟩

theorem Lubran.Fills.bind (h : q.Fills r i (.host p t) m) (hm : m < 8) (hk : e.kind = .read)
    (ho : e.owner = .host p t) : q.Fills (r.bindSlot ⟨m, hm⟩ i e) i (.host p t) (m + 1) := by
  rw [bindSlot_read _ hk]
  obtain ⟨b, hown⟩ := h.own
  refine ⟨⟨(r.sp i).xfer.bind + 1, ?_⟩, fun j hj => ?_, h.ports, h.seq, h.sparing, fun k => ?_, fun k => ?_⟩
  · rw [sp_modSp_self]
    show (r.sp i).bound ((r.sp i).xfer.bind + 1) = _
    rw [hown]
    rfl
  · rw [sp_modSp_ne _ _ _ hj]
    exact h.other j hj
  · rw [modSp_slot, slot_modSlot]
    have hval : k = ⟨m, hm⟩ ↔ k.val = m := Fin.ext_iff
    split
    · next hkm => rw [if_pos (by have := hval.1 hkm; omega), ← ho]; rfl
    · next hkm =>
      rw [h.owner k]
      have : k.val ≠ m := fun hv => hkm (hval.2 hv)
      exact ite_eq_of_iff (by omega) rfl rfl
  · rw [modSp_slot, slot_modSlot]
    have hval : k = ⟨m, hm⟩ ↔ k.val = m := Fin.ext_iff
    split
    · next hkm =>
      refine ⟨fun hfree => ?_, fun hle => ?_⟩
      · cases hfree
      · have := hval.1 hkm
        omega
    · next hkm =>
      rw [h.free k]
      have : k.val ≠ m := fun hv => hkm (hval.2 hv)
      omega

/-- One grant to the entry that waits alone (R75, R76). -/
theorem Lubran.Fills.grant (h : q.Fills r i (.host p t) m) (he : q.findEntry (.host p t) = some (i, e))
    (ho : e.owner = .host p t) (hk : e.kind = .read) (hs : e.state = .seeking) (ha : e.abandoned = false)
    (hw : r.waiting = [.host p t]) (hmn : m < min 4 (e.count - e.blocksDone)) :
    q.Fills r.grantOne i (.host p t) (m + 1) ∧
      r.grantOne.waiting = if m + 1 < min 4 (e.count - e.blocksDone) then [.host p t] else [] := by
  have hm : m < 8 := by omega
  obtain ⟨l, hwinner⟩ := winner_alone hw
  have hneed : ∀ {x : Lubran} {c : Nat}, q.Fills x i (.host p t) c → x.need (.host p t) = min 4 (e.count - e.blocksDone) :=
    fun hx => need_read (hx.findEntry he) hk hs ha
  have hserved := h.served (l := l)
  have hbound := hserved.bind hm hk ho
  have hfound : Lubran.findEntry { r with served := l } (.host p t) = some (i, e) := hserved.findEntry he
  have hbefore : (Lubran.slotsOf { r with served := l } (.host p t)).length <
      Lubran.need { r with served := l } (.host p t) := by
    rw [hneed hserved, slotsOf_below (Nat.le_of_lt hm) hserved.owner]
    exact hmn
  have hwaiting : (Lubran.bindSlot { r with served := l } ⟨m, hm⟩ i e).waiting = [.host p t] := by
    rw [bindSlot_read _ hk]
    exact hw
  have hgrant : r.grantOne = if m + 1 < min 4 (e.count - e.blocksDone) then
      Lubran.bindSlot { r with served := l } ⟨m, hm⟩ i e
      else (Lubran.bindSlot { r with served := l } ⟨m, hm⟩ i e).leaveWaiting (.host p t) := by
    unfold Lubran.grantOne
    rw [freeIndex_above hm h.free, hwinner]
    dsimp only
    rw [hfound]
    dsimp only
    rw [if_pos hbefore, slotsOf_below hm hbound.owner, hneed hbound]
  rw [hgrant]
  split
  · exact ⟨hbound, hwaiting⟩
  · refine ⟨⟨hbound.own, hbound.other, hbound.ports, hbound.seq, hbound.sparing, hbound.owner, hbound.free⟩, ?_⟩
    unfold Lubran.leaveWaiting
    rw [hwaiting]
    simp

theorem Lubran.Fills.rests (h : q.Fills r i (.host p t) m) (hq : ∀ j, (q.sp j).Rests) (j : Spindle) :
    (r.sp j).Rests := by
  by_cases hj : j = i
  · subst hj
    obtain ⟨b, hown⟩ := h.own
    rw [hown]
    exact ⟨(hq j).settle, (hq j).wait, (hq j).select⟩
  · rw [h.other j hj]
    exact hq j

/-- The grants go on until the need of the entry is met (R76). -/
theorem Lubran.Fills.drain (hq : ∀ j, (q.sp j).Rests) (hidle : ¬ (q.seq.state = .idle ∧ q.sparing ≠ []))
    (he : q.findEntry (.host p t) = some (i, e)) (ho : e.owner = .host p t) (hk : e.kind = .read)
    (hs : e.state = .seeking) (ha : e.abandoned = false) (hn : n = min 4 (e.count - e.blocksDone)) (d : Nat)
    (hd : m + d = n) (h : q.Fills r i (.host p t) m) (hw : r.waiting = if m < n then [.host p t] else []) :
    ∃ z, r.drain d = some z ∧ q.Fills z i (.host p t) n := by
  induction d generalizing r m with
  | zero =>
    have hmn : ¬ m < n := by omega
    refine ⟨r, drain_atRest ?_ 0, (show m = n by omega) ▸ h⟩
    refine (atRest_iff r).2 ⟨fun j => (h.rests hq j).settle, fun j => (h.rests hq j).wait, fun hgrant => hgrant.2 ?_,
      fun j => (h.rests hq j).select, by rw [h.seq, h.sparing]; exact hidle⟩
    rw [hw, if_neg hmn]
  | succ d ih =>
    have hmn : m < n := by omega
    rw [if_pos hmn] at hw
    obtain ⟨hnext, hwaiting⟩ := h.grant he ho hk hs ha hw (hn ▸ hmn)
    have hcan : r.canGrant = true :=
      (canGrant_iff r).2 ⟨⟨⟨m, by omega⟩, (h.free _).2 (Nat.le_refl m)⟩, by rw [hw]; exact List.cons_ne_nil _ _⟩
    rw [drain_step (nextTask_grant (fun j => (h.rests hq j).settle) (fun j => (h.rests hq j).wait) hcan)]
    exact ih (by omega) hnext (hn ▸ hwaiting)

end

/-! ## The start of a seek -/

/-- A channel on track that starts a seek to another cylinder (R14). -/
def Channel.seekTo (c : Channel) (r : Params) (t : Track) : Channel :=
  { c.beginSeek r t false with
    state := .seeking, remaining := distance t.cyl c.cyl
    direction := if c.cyl < t.cyl then .inward else .outward
    demand := demandCode r.acc r.vmax (distance t.cyl c.cyl) }

section
variable {q : Lubran} {p : Port} {i : Spindle} {t : Tag} {e : Entry} {tr : Track}

/-- A seek starts for the only entry of its spindle, which is SEEKING already (R14, R44). -/
theorem startSeek_seeking (hq : (q.sp i).queue = [e]) (hin : (q.sp i).internal = none) (ho : e.owner = .host p t)
    (hs : e.state = .seeking) (hd : distance tr.cyl (q.sp i).chan.cyl ≠ 0) :
    q.startSeek i tr false = q.modSp i fun u => { u with chan := u.chan.seekTo q.params tr } := by
  have hcur : Lubran.current (q.modSp i fun u => { u with chan := (q.sp i).chan.seekTo q.params tr }) i = some e := by
    unfold Lubran.current
    rw [sp_modSp_self]
    refine (current_single (u := { q.sp i with chan := (q.sp i).chan.seekTo q.params tr }) hq hin).trans ?_
    unfold Entry.inService
    rw [hs]
    rfl
  have hsync : (q.modSp i fun u => { u with chan := (q.sp i).chan.seekTo q.params tr }).syncEntry i =
      q.modSp i fun u => { u with chan := (q.sp i).chan.seekTo q.params tr } := by
    unfold Lubran.syncEntry
    rw [hcur]
    dsimp only
    rw [hs]
    dsimp only
    rw [if_neg (by rw [sp_modSp_self]; exact nofun)]
    rw [entry_mod (e' := e) ho (by rw [sp_modSp_self]; exact hq) ho (by rw [← hs])]
    refine modSp_id _ i ?_
    rw [sp_modSp_self]
    dsimp only
    rw [← hq]
  unfold Lubran.startSeek
  dsimp only
  rw [if_neg hd]
  exact hsync.trans (modSp_congr_at rfl)

/-- An entry alone in the queues of the part is found on its spindle. -/
theorem findEntry_only (hother : ∀ j, j ≠ i → (q.sp j).queue = []) (h : (q.sp i).findEntry (.host p t) = some e) :
    q.findEntry (.host p t) = some (i, e) := by
  cases hf : q.findEntry (.host p t) with
  | none =>
    rw [findEntry_eq_none.1 hf i] at h
    cases h
  | some found =>
    obtain ⟨j, e'⟩ := found
    have hj := findEntry_at hf
    by_cases hji : j = i
    · subst hji
      rw [hj] at h
      cases h
      rfl
    · unfold SpindleUnit.findEntry at hj
      rw [hother j hji] at hj
      cases hj

end

/-! ## The service start of a READ -/

/-- The entry of a READ whose service has started (R53). -/
def seekingRead (p : Port) (t : Tag) (x : TrackCmd) (revs : Nat) (target : Track) : Entry :=
  { newEntry (.host p t) .read x.cyl x.head x.first x.count x.writeVerify x.cmpOffset x.cmpBytes revs with
    state := .seeking, track := some target }

/-- The transfer record of a READ whose service has started (R69). -/
def readXfer (x : TrackCmd) : XferRec :=
  { next := some { action := .read, field := .block x.first }, bind := x.first, mismatch := false, cont := none }

/-- The part when the entry of a READ asks for its slots. -/
def Lubran.asking (q : Lubran) (p : Port) (i : Spindle) (t : Tag) (x : TrackCmd) (target : Track) : Lubran :=
  (q.modPort p fun r => { r with tags := r.tags.set t true }).modSp i fun u =>
    { u with queue := [seekingRead p t x u.revs target], xfer := readXfer x }

/-- The part when the entry of a READ seeks. -/
def Lubran.reading (q : Lubran) (p : Port) (i : Spindle) (t : Tag) (x : TrackCmd) (target : Track) : Lubran :=
  (q.asking p i t x target).modSp i fun u => { u with chan := u.chan.seekTo q.params target }

section
variable {q : Lubran} {p : Port} {i : Spindle} {t : Tag} {x : TrackCmd} {target : Track}

theorem asking_sp : (q.asking p i t x target).sp i =
    { q.sp i with queue := [seekingRead p t x (q.sp i).revs target], xfer := readXfer x } :=
  sp_modSp_self (q.modPort p fun r => { r with tags := r.tags.set t true }) i _

theorem asking_sp_ne {j : Spindle} (hj : j ≠ i) : (q.asking p i t x target).sp j = q.sp j :=
  sp_modSp_ne (q.modPort p fun r => { r with tags := r.tags.set t true }) _ _ hj

theorem asking_findEntry (hother : ∀ j, j ≠ i → (q.sp j).queue = []) :
    (q.asking p i t x target).findEntry (.host p t) = some (i, seekingRead p t x (q.sp i).revs target) := by
  refine findEntry_only (fun j hj => by rw [asking_sp_ne hj]; exact hother j hj) ?_
  rw [asking_sp]
  unfold SpindleUnit.findEntry
  exact List.find?_cons_of_pos (decide_eq_true rfl)

theorem asking_joins (h : Calm q p) (hother : ∀ j, j ≠ i → (q.sp j).queue = []) :
    (q.asking p i t x target).joinIfShort (.host p t) =
      { q.asking p i t x target with waiting := if 0 < min 4 x.count then [.host p t] else [] } := by
  have hslots : (q.asking p i t x target).slotsOf (.host p t) = [] :=
    calm_slotsOf (p := p) (calm_modSp (calm_modPort h h.requests h.drains)) _
  have hwaiting : (q.asking p i t x target).waiting = [] := h.waiting
  have hneed : (q.asking p i t x target).need (.host p t) = min 4 x.count :=
    need_read (asking_findEntry hother) rfl rfl rfl
  unfold Lubran.joinIfShort
  rw [hslots, hneed, hwaiting, List.length_nil]
  by_cases hn : 0 < min 4 x.count
  · rw [if_pos hn, if_pos ⟨hn, List.not_mem_nil⟩]
    rfl
  · rw [if_neg hn, if_neg fun hshort => hn hshort.1, ← hwaiting]

/-- The service start of a READ whose heads rest on track on another cylinder. -/
theorem serveTrack_read {e : Entry} (he : e = newEntry (.host p t) .read x.cyl x.head x.first x.count x.writeVerify
      x.cmpOffset x.cmpBytes (q.sp i).revs)
    (h : q.Serves p i t) (hother : ∀ j, j ≠ i → (q.sp j).queue = []) (htarget : q.targetOf i e = target)
    (hc : (q.sp i).chan.state = .onTrack) (hknown : (q.sp i).chan.posKnown = true)
    (horphan : (q.sp i).chan.orphan = false) (hd : distance target.cyl (q.sp i).chan.cyl ≠ 0) :
    (q.serving p i t e).serveTrack i e =
      { q.reading p i t x target with waiting := if 0 < min 4 x.count then [.host p t] else [] } := by
  have howner : e.owner = .host p t := by rw [he]; rfl
  have hasked : Lubran.modXfer ((q.serving p i t e).modEntry i e.owner
      (fun e => { e with state := .seeking, track := some target })) i (fun _ => readXfer x) =
      q.asking p i t x target := by
    rw [entry_mod (e' := seekingRead p t x (q.sp i).revs target) howner (by rw [serving_sp]) howner (by rw [he]; rfl),
      modXfer_eq]
    unfold Lubran.serving
    rw [modSp_modSp, modSp_modSp]
    exact modSp_congr_at rfl
  have hseek : ∀ w : List Owner, ({ q.asking p i t x target with waiting := w } : Lubran).queueSeek i target =
      { q.reading p i t x target with waiting := w } := by
    intro w
    have hsp : ({ q.asking p i t x target with waiting := w } : Lubran).sp i =
        { q.sp i with queue := [seekingRead p t x (q.sp i).revs target], xfer := readXfer x } := asking_sp
    have hstart := startSeek_seeking (q := { q.asking p i t x target with waiting := w }) (tr := target)
      (by rw [hsp]) (by rw [hsp]; exact h.internal) (e := seekingRead p t x (q.sp i).revs target) rfl rfl
      (by rw [hsp]; exact hd)
    unfold Lubran.queueSeek Lubran.seekRequest
    dsimp only
    rw [if_neg (by rw [hsp]; exact fun ho => Bool.false_ne_true (horphan.symm.trans ho)),
      if_pos (by rw [hsp]; exact ⟨hc, hknown⟩)]
    exact hstart
  have hxfer : ({ next := some { action := firstAction e.kind, field := .block e.first }
                  bind := e.first, mismatch := false, cont := none } : XferRec) = readXfer x := by
    rw [he]
    rfl
  unfold Lubran.serveTrack
  dsimp only
  rw [show (q.serving p i t e).targetOf i e = target from htarget, hxfer, hasked, howner, asking_joins h.calm hother]
  exact hseek _

/-- A part with a READ that has just been placed holds no slot for it. -/
theorem fills_reading (h : q.Serves p i t) (hfree : ∀ k, (q.slot k).state = .free) (w : List Owner) :
    (q.reading p i t x target).Fills { q.reading p i t x target with waiting := w } i (.host p t) 0 where
  own := ⟨((q.reading p i t x target).sp i).xfer.bind, rfl⟩
  other := fun _ _ => rfl
  ports := rfl
  seq := rfl
  sparing := rfl
  owner := fun k => h.calm.slots k
  free := fun k => ⟨fun _ => Nat.zero_le _, fun _ => hfree k⟩

theorem reading_sp : (q.reading p i t x target).sp i =
    { q.sp i with queue := [seekingRead p t x (q.sp i).revs target], xfer := readXfer x
                  chan := (q.sp i).chan.seekTo q.params target } := by
  unfold Lubran.reading
  rw [sp_modSp_self, asking_sp]

theorem reading_sp_ne {j : Spindle} (hj : j ≠ i) : (q.reading p i t x target).sp j = q.sp j :=
  (sp_modSp_ne _ _ _ hj).trans (asking_sp_ne hj)

theorem reading_rests (h : q.Serves p i t) (hw : (q.sp i).waitReq = none) (j : Spindle) :
    ((q.reading p i t x target).sp j).Rests := by
  by_cases hj : j = i
  · subst hj
    rw [reading_sp]
    exact ⟨not_settleReady nofun, waitReady_none hw, (rests_of_atRest h.rest j).select⟩
  · rw [reading_sp_ne hj]
    exact rests_of_atRest h.rest j

theorem reading_findEntry (hother : ∀ j, j ≠ i → (q.sp j).queue = []) :
    (q.reading p i t x target).findEntry (.host p t) = some (i, seekingRead p t x (q.sp i).revs target) := by
  refine findEntry_only (fun j hj => by rw [reading_sp_ne hj]; exact hother j hj) ?_
  rw [reading_sp]
  unfold SpindleUnit.findEntry
  exact List.find?_cons_of_pos (decide_eq_true rfl)

end

/-- Settles O24: the entry is served and its seek starts (`serveTrack_read`), and its slots are granted
(`Lubran.Fills.drain`). -/
theorem readStartsItsSeek : Obligations.ReadStartsItsSeek := by
  intro s p f a c i hf hu ha hquiet hl hall hc hknown horphan hw home target d r hd
  have hserves := serves_of_accepts ha hquiet hu hl hall
  have heff : effect (.read p f) s.part = (s.part.taking p a).place p i a.tag .read c := by
    simp only [effect]
    rw [hf]
    exact (accepted ha).trans (placeFor_eq hu)
  obtain ⟨hsparing, hseq, hslots, -, hmap, -, -, hparams, -⟩ := taking_frame (q := s.part) (p := p) (a := a)
  have hspindles : ∀ j, (s.part.taking p a).sp j = s.part.sp j := fun j => by
    unfold Lubran.sp
    rw [taking_same hu hall]
  have hfree : ∀ k, ((s.part.taking p a).slot k).state = .free := fun k => by
    unfold Lubran.slot
    rw [hslots]
    exact (hquiet.2.2.1 k).1
  have hother : ∀ j, j ≠ i → ((s.part.taking p a).sp j).queue = [] := fun j _ => by
    rw [hspindles]
    exact (hquiet.2.2.2.1 j).1
  have hserve := serveTrack_read (x := c) (target := target) rfl hserves hother
    (by unfold Lubran.targetOf Lubran.forward; rw [hmap]; rfl) (by rw [hspindles]; exact hc)
    (by rw [hspindles]; exact hknown) (by rw [hspindles]; exact horphan) (by rw [hspindles]; exact hd)
  have hidle : ¬ (((s.part.taking p a).reading p i a.tag c target).seq.state = .idle ∧
      ((s.part.taking p a).reading p i a.tag c target).sparing ≠ []) := fun hwork =>
    hwork.2 (hsparing.trans hquiet.2.2.2.2.2.1)
  obtain ⟨z, hdrain, hz⟩ := Lubran.Fills.drain (q := (s.part.taking p a).reading p i a.tag c target)
    (n := min 4 c.count)
    (reading_rests hserves (by rw [hspindles]; exact hw)) hidle (reading_findEntry hother) rfl rfl rfl rfl rfl
    (min 4 c.count) (Nat.zero_add _) (fills_reading hserves hfree _) rfl
  have hfuel : min 4 c.count + 1 ≤ Config.settleFuel :=
    Nat.le_trans (Nat.succ_le_succ (Nat.min_le_left _ _)) (by decide)
  have hexec := hserves.exec heff hfuel ((congrArg (Lubran.drain _) hserve).trans hdrain)
  obtain ⟨b, hown⟩ := hz.own
  rw [reading_sp, hspindles, hparams] at hown
  refine ⟨_, hexec, rfl, ?_⟩
  dsimp only
  rw [kickAll_sp, hown]
  refine ⟨?_, ⟨_, rfl, rfl, rfl, rfl, rfl, rfl, rfl, rfl, rfl, rfl⟩, rfl, ?_, fun j hj => ?_, ?_⟩
  · show (s.part.sp i).chan.seekTo s.part.params target = _
    unfold Channel.seekTo Channel.beginSeek estimate
    dsimp only
    rw [if_neg hd, Bool.and_false]
  · refine slotsOf_below (m := min 4 c.count) (by omega) fun k => ?_
    rw [kickAll_slot_owner]
    exact hz.owner k
  · rw [kickAll_sp, hz.other j hj, reading_sp_ne hj, hspindles]
  · rw [kickAll_tags]
    unfold Lubran.port
    rw [hz.ports]
    show (((s.part.taking p a).modPort p fun r => { r with tags := r.tags.set a.tag true }).port p).tags.get a.tag = true
    rw [port_modPort_self]
    exact Vector.getElem_set_self _

end Sys2Proof.Machine
end

section
/-!
The block ID at the start of a host entry's block (R79, R86).
-/

namespace Sys2Proof.Machine

section
variable {q : Lubran} {i : Spindle} {e : Entry} {p : Port} {t : Tag} {nx : NextField} {b : Nat} {tr : Track}
  {id : BlockId}

/-! ## The block that the path carries -/

theorem departedBlock_entry {o : Owner} (h : q.path.holder = some (.entry o)) : q.departedBlock = none := by
  unfold Lubran.departedBlock
  rw [h]
  cases q.path.state <;> cases q.path.spindle <;> cases q.path.field <;> rfl

/-- The path carries a block of an entry that is still there (R68). -/
structure Lubran.Carries (q : Lubran) (i : Spindle) (o : Owner) (e : Entry) (nx : NextField) (b : Nat) : Prop where
  state : q.path.state ≠ .idle
  spindle : q.path.spindle = some i
  holder : q.path.holder = some (.entry o)
  field : q.path.field = some (.block b)
  next : (q.sp i).xfer.next = some nx
  block : nx.field = .block b
  found : (q.sp i).findEntry o = some e

theorem pathBlock_entry {o : Owner} (h : q.Carries i o e nx b) : q.pathBlock = some (i, e, nx, b) := by
  unfold Lubran.pathBlock
  rw [h.spindle, h.holder, h.field]
  cases hst : q.path.state with
  | idle => exact absurd hst h.state
  | reading | verifying | writing | header =>
    dsimp only
    rw [h.found, h.next]
    exact if_pos h.block

/-- The ID of a host entry's block names it or not (R79). -/
theorem takeId_host (h : q.Carries i (.host p t) e nx b) (hid : q.path.id = none) (ho : e.owner = .host p t)
    (htr : e.track = some tr) :
    q.takeId id = if idNames id tr b then q.idMatch i e nx b id else q.idMismatch i e nx tr := by
  have hexpected : q.expectedTrack e = some tr := by
    unfold Lubran.expectedTrack
    rw [ho]
    exact htr
  unfold Lubran.takeId
  rw [hid, departedBlock_entry h.holder, pathBlock_entry h]
  dsimp only
  rw [hexpected]
  rfl

/-! ## The entry goes on after its field -/

theorem afterField_more {more : Lubran → Lubran} (ha : e.abandoned = false) (hd : e.decided = none) :
    q.afterField i e more = more q := by
  unfold Lubran.afterField
  rw [if_neg (by rw [ha]; exact Bool.false_ne_true), if_neg (by rw [hd]; exact Bool.false_ne_true)]

theorem not_internal (ho : e.owner = .host p t) : e.owner ≠ .internal := by
  rw [ho]
  exact nofun

/-! ## An ID that names the block -/

theorem idMatch_read (ho : e.owner = .host p t) (hl : idLost id = false)
    (hr : nx.action = .read ∨ nx.action = .verify ∨ nx.action = .compareRead) {k : Fin 8}
    (hk : q.slotFor (.host p t) b .disk = some k) :
    q.idMatch i e nx b id = { q.modSlot k fun sl => { sl with state := .filling } with
      path := { q.path with id := some id } } := by
  have hfill : Lubran.modBlockSlot { q with path := { q.path with id := some id } } e.owner b .disk
      (fun sl => { sl with state := .filling }) =
      { q.modSlot k fun sl => { sl with state := .filling } with path := { q.path with id := some id } } := by
    unfold Lubran.modBlockSlot
    rw [ho, show Lubran.slotFor { q with path := { q.path with id := some id } } (.host p t) b .disk = some k from hk]
    rfl
  unfold Lubran.idMatch
  rcases hr with h | h | h <;> rw [h] <;> dsimp only <;>
    rw [if_neg (not_internal ho), if_neg (by rw [hl]; exact Bool.false_ne_true)] <;> exact hfill

theorem idMatch_lost (hs : q.path.spindle = some i) (ho : e.owner = .host p t) (ha : e.abandoned = false) (hd : e.decided = none)
    (hl : idLost id = true) (hr : nx.action = .read ∨ nx.action = .verify ∨ nx.action = .compareRead) :
    q.idMatch i e nx b id = (q.releaseEntry i (.host p t)).decideEnding i .dataLost := by
  have hrelease : Lubran.releaseEntry { q with path := { q.path with id := some id } } i (.host p t) =
      q.releaseEntry i (.host p t) := by
    rw [releaseEntry_eq hs rfl]
    exact releaseEntry_eq (q := { q with path := { q.path with id := some id } }) hs rfl
  unfold Lubran.idMatch
  rcases hr with h | h | h <;> rw [h] <;> dsimp only <;>
    rw [if_neg (not_internal ho), if_pos hl, afterField_more ha hd, ho, hrelease]

theorem idMatch_write (hw : nx.action = .write) : q.idMatch i e nx b id =
    { q.modSp i fun u => { u with writeGate := true } with path := { q.path with id := some id } } := by
  unfold Lubran.idMatch
  rw [hw]
  rfl

/-! ## An ID that names another block -/

/-- The entry in service after a change that leaves it in service is one of the same owner. -/
theorem current_modEntry_owner {u : SpindleUnit} {f : Entry → Entry} (hf : ∀ x, (f x).owner = x.owner)
    (hs : ∀ x, (f x).inService = true) (h : u.current = some e) (ho : e.owner = .host p t) :
    ∃ e', (u.modEntry (.host p t) f).current = some e' ∧ e'.owner = .host p t := by
  have hqueue : ∀ l : List Entry, l.find? Entry.inService = some e →
      ∃ e', (l.map fun x => if x.owner = .host p t then f x else x).find? Entry.inService = some e' ∧
        e'.owner = .host p t := by
    intro l hl
    induction l with
    | nil => cases hl
    | cons x xs ih =>
      rw [List.map_cons]
      by_cases hx : x.owner = .host p t
      · rw [if_pos hx]
        exact ⟨f x, List.find?_cons_of_pos (hs x), (hf x).trans hx⟩
      · rw [if_neg hx]
        cases hin : x.inService with
        | true =>
          rw [List.find?_cons_of_pos hin] at hl
          cases hl
          exact absurd ho hx
        | false =>
          have hnot : ¬ x.inService = true := by rw [hin]; exact Bool.false_ne_true
          rw [List.find?_cons_of_neg hnot] at hl
          rw [List.find?_cons_of_neg hnot]
          exact ih hl
  unfold SpindleUnit.current at h ⊢
  cases hin : u.internal with
  | none =>
    rw [hin] at h
    rw [show (u.modEntry (.host p t) f).internal = none from hin]
    exact hqueue _ h
  | some n =>
    rw [hin] at h
    rw [show (u.modEntry (.host p t) f).internal = some n from hin]
    dsimp only at h ⊢
    split
    · next hserves =>
      rw [if_pos hserves] at h
      cases h
      exact ⟨_, rfl, ho⟩
    · next hserves =>
      rw [if_neg hserves] at h
      exact hqueue _ h

/-- Two changes of an entry make one. -/
theorem modEntry_comp {u : SpindleUnit} {f g : Entry → Entry} (hf : ∀ x, (f x).owner = x.owner) :
    (u.modEntry (.host p t) f).modEntry (.host p t) g = u.modEntry (.host p t) fun x => g (f x) := by
  unfold SpindleUnit.modEntry
  dsimp only
  rw [List.map_map]
  congr 1
  refine List.map_congr_left fun x _ => ?_
  by_cases hx : x.owner = .host p t
  · simp only [Function.comp, if_pos hx, hf x]
  · simp only [Function.comp, if_neg hx]

/-- An entry that seeks (R44). -/
def Entry.seeks (e : Entry) : Entry := { e with state := .seeking }

/-- The entry of a channel that starts to move seeks already: nothing changes (R44). -/
theorem syncEntry_seeking {g : SpindleUnit → SpindleUnit}
    (hcur : ∀ e, (g (q.sp i)).current = some e → e.owner = .host p t)
    (hst : (g (q.sp i)).chan.state ≠ .settling)
    (hg : (g (q.sp i)).modEntry (.host p t) Entry.seeks = g (q.sp i)) :
    (q.modSp i g).syncEntry i = q.modSp i g := by
  have hsp : (q.modSp i g).sp i = g (q.sp i) := sp_modSp_self q i g
  unfold Lubran.syncEntry Lubran.current
  rw [hsp]
  cases hc : (g (q.sp i)).current with
  | none => rfl
  | some e =>
    have hsame : (q.modSp i g).modEntry i e.owner Entry.seeks = q.modSp i g := by
      rw [hcur e hc, modEntry_eq]
      refine modSp_id _ i ?_
      rw [hsp]
      exact hg
    dsimp only
    rw [if_neg (fun h => hst h.1)]
    cases e.state with
    | seeking | settling => exact hsame
    | queued | rotating | transferring | ending => rfl

/-- A spindle whose channel recalibrates for a block that named another track, to seek this track again (R20, R79); its
queue as given. -/
def SpindleUnit.adrift (u : SpindleUnit) (l : List Entry) (tr : Track) (vmax settle : Nat) : SpindleUnit :=
  { u with
    queue := l, readGate := false, writeGate := false, xfer := { u.xfer with cont := none, mismatch := true }
    chan := { u.chan with
      held := some { track := tr, again := true }, sVmax := vmax, sSettle := settle, purpose := .recal, state := .recal
      recalLimit := 1536, direction := .outward, demand := min 8 vmax } }

/-- Such a spindle, with its entry SEEKING. -/
def SpindleUnit.mispositioned (u : SpindleUnit) (o : Owner) (tr : Track) (vmax settle : Nat) : SpindleUnit :=
  u.adrift (u.modEntry o Entry.seeks).queue tr vmax settle

theorem mispositioned_syncs (hcur : q.current i = some e) (ho : e.owner = .host p t) {v w : Nat} :
    (q.modSp i fun u => u.mispositioned (.host p t) tr v w).syncEntry i =
      q.modSp i fun u => u.mispositioned (.host p t) tr v w := by
  obtain ⟨e', he', ho'⟩ := current_modEntry_owner (f := Entry.seeks) (fun _ => rfl) (fun _ => rfl) hcur ho
  refine syncEntry_seeking (p := p) (t := t) (fun x hx => ?_) nofun ?_
  · have hsame : x = e' := Option.some.inj (hx.symm.trans he')
    rw [hsame]
    exact ho'
  · have hidem : ((q.sp i).modEntry (.host p t) Entry.seeks).modEntry (.host p t) Entry.seeks =
        (q.sp i).modEntry (.host p t) Entry.seeks := modEntry_comp fun _ => rfl
    exact congrArg (fun u : SpindleUnit => (q.sp i).adrift u.queue tr v w) hidem

/-- A spindle whose transfer record notes a mismatch (R79). -/
def SpindleUnit.mismatched (u : SpindleUnit) : SpindleUnit := { u with xfer := { u.xfer with mismatch := true } }

/-- A spindle whose channel is to seek a track again after its recalibration (R20). -/
def SpindleUnit.reseeks (tr : Track) (u : SpindleUnit) : SpindleUnit :=
  { u with chan := { u.chan with held := some { track := tr, again := true } } }

/-- A spindle whose recalibration starts (R21). -/
def SpindleUnit.recals (v w : Nat) (u : SpindleUnit) : SpindleUnit :=
  { u with chan := u.chan.beginRecal v w u.lines.guard }

theorem recals_of_low {u : SpindleUnit} {v w : Nat} (hg : u.lines.guard = false) :
    u.recals v w = { u with chan := u.chan.beginRecal v w false } := by
  unfold SpindleUnit.recals
  rw [hg]

/-- The steps that a first mismatch takes on its spindle. -/
theorem mispositioned_of_released {u : SpindleUnit} {v w : Nat} {x : Option NextField} (hn : u.xfer.next = x)
    (hg : u.lines.guard = false) :
    (((u.released (.host p t) x).mismatched.modEntry (.host p t) Entry.seeks).reseeks tr).recals v w =
      u.mispositioned (.host p t) tr v w := by
  have hcomp : (u.modEntry (.host p t) fun x =>
      { x with state := if x.state = .transferring then .rotating else x.state }).modEntry (.host p t) Entry.seeks =
      u.modEntry (.host p t) Entry.seeks := modEntry_comp fun _ => rfl
  have hseek : (u.released (.host p t) x).mismatched.modEntry (.host p t) Entry.seeks =
      { u with queue := (u.modEntry (.host p t) Entry.seeks).queue, readGate := false, writeGate := false
               xfer := { u.xfer with cont := none, mismatch := true } } := by
    rw [← hcomp, ← hn]
    rfl
  rw [hseek, recals_of_low (by exact hg)]
  rfl

/-- The first ID that names another block (R20, R79). -/
theorem idMismatch_first (hs : q.path.spindle = some i) (hcur : q.current i = some e) (ho : e.owner = .host p t)
    (ha : e.abandoned = false) (hd : e.decided = none) (hm : (q.sp i).xfer.mismatch = false)
    (hg : (q.sp i).lines.guard = false) :
    q.idMismatch i e nx tr =
      { q.modSp i fun u => u.mispositioned (.host p t) tr q.params.vmax q.params.settle with path := PathRec.idle } := by
  have hmm : ¬ ((q.releaseEntry i (.host p t)).sp i).xfer.mismatch = true := by
    rw [releaseEntry_eq hs rfl, released_sp]
    exact fun h => Bool.false_ne_true (hm.symm.trans h)
  have hreleased : q.releaseEntry i (.host p t) =
      Lubran.modSp { q with path := PathRec.idle } i (SpindleUnit.released (.host p t) (q.sp i).xfer.next) :=
    releaseEntry_eq hs rfl
  unfold Lubran.idMismatch
  dsimp only
  rw [afterField_more ha hd, if_neg (fun h => not_internal ho h.1), ho, if_neg hmm, hreleased]
  unfold Lubran.recalAndReseek Lubran.startRecal
  refine Eq.trans (congrArg (fun x => Lubran.syncEntry x i) ?_)
    (mispositioned_syncs (q := { q with path := PathRec.idle }) hcur ho)
  generalize hr : ({ q with path := PathRec.idle } : Lubran) = r
  have hsteps : Lubran.modSp (Lubran.modSp (Lubran.modSp (Lubran.modSp (r.modSp i
      (SpindleUnit.released (.host p t) (q.sp i).xfer.next)) i SpindleUnit.mismatched) i
      fun u => u.modEntry (.host p t) Entry.seeks) i (SpindleUnit.reseeks tr)) i
      (SpindleUnit.recals r.params.vmax r.params.settle) =
      r.modSp i fun u => u.mispositioned (.host p t) tr r.params.vmax r.params.settle := by
    rw [modSp_modSp, modSp_modSp, modSp_modSp, modSp_modSp]
    refine modSp_congr_at (mispositioned_of_released ?_ ?_)
    · rw [← hr]
      rfl
    · rw [← hr]
      exact hg
  rw [← hr] at hsteps ⊢
  exact hsteps

/-- The second ID that names another block (R79). -/
theorem idMismatch_second (hs : q.path.spindle = some i) (ho : e.owner = .host p t) (ha : e.abandoned = false)
    (hd : e.decided = none) (hm : (q.sp i).xfer.mismatch = true) :
    q.idMismatch i e nx tr = if isHomeCyl tr.cyl then (q.releaseEntry i (.host p t)).decideEnding i .seekError
      else ((q.releaseEntry i (.host p t)).decideEnding i .spareMismatch).faultSpindle i .spareMismatch := by
  have hmm : ((q.releaseEntry i (.host p t)).sp i).xfer.mismatch = true := by
    rw [releaseEntry_eq hs rfl, released_sp]
    exact hm
  unfold Lubran.idMismatch
  dsimp only
  rw [afterField_more ha hd, if_neg (fun h => not_internal ho h.1), ho, if_pos hmm]
  unfold Lubran.secondMismatch
  rw [ho]

end

/-- Settles O57: the ID names the block or not (`takeId_host`), for each action. -/
theorem blockIdDecidesTheBlock : Obligations.BlockIdDecidesTheBlock := by
  intro s i e p t nx b tr id hrest hst hspindle hholder hfield hid hnext hnx hfound hcur ho htr ha hd reads released
  have hcarries : s.part.Carries i (.host p t) e nx b := ⟨hst, hspindle, hholder, hfield, hnext, hnx, hfound⟩
  have htake := takeId_host (id := id) hcarries hid ho htr
  have hreleased : s.part.releaseEntry i (.host p t) = released := by
    rw [releaseEntry_eq hspindle rfl]
    exact congrArg (fun x : Lubran => { x with path := PathRec.idle }) (modSp_congr_at rfl)
  have hmatch : idNames id tr b = true → s.part.takeId id = s.part.idMatch i e nx b id := fun hnames =>
    htake.trans (if_pos hnames)
  have hother : idNames id tr b = false → s.part.takeId id = s.part.idMismatch i e nx tr := fun hnames =>
    htake.trans (if_neg (by rw [hnames]; exact Bool.false_ne_true))
  refine ⟨fun hnames hl hr k hk => ?_, fun hnames hl hr => ?_, fun hnames hw => ?_, fun hnames hm hg hwait => ?_,
    fun hnames hm => ⟨fun hhome => ?_, fun hhome => ?_⟩⟩
  · exact exec_atRest ((hmatch hnames).trans (idMatch_read ho hl hr hk)) (atRest_with_path (atRest_modSlot hrest nofun))
  · refine exec_eq_run ((hmatch hnames).trans ((idMatch_lost hspindle ho ha hd hl hr).trans ?_))
    rw [hreleased]
  · refine exec_atRest ((hmatch hnames).trans (idMatch_write hw)) (atRest_with_path ?_)
    obtain ⟨hsettle, hwait, hselect⟩ := rests_of_atRest hrest i
    exact atRest_spindle hrest ⟨hsettle, hwait, hselect⟩
  · refine exec_atRest ((hother hnames).trans (idMismatch_first hspindle hcur ho ha hd hm hg)) (atRest_with_path ?_)
    exact atRest_spindle hrest ⟨not_settleReady nofun, waitReady_none hwait, (rests_of_atRest hrest i).select⟩
  · refine exec_eq_run ((hother hnames).trans ((idMismatch_second hspindle ho ha hd hm).trans ?_))
    rw [if_pos hhome, hreleased]
  · refine exec_eq_run ((hother hnames).trans ((idMismatch_second hspindle ho ha hd hm).trans ?_))
    rw [if_neg (by rw [hhome]; exact Bool.false_ne_true), hreleased]

end Sys2Proof.Machine
end

section
/-!
RESET STRING (R176): what the string reset leaves of every record.
-/

namespace Sys2Proof.Machine

/-! ## A spindle position (R26, R66, R94, R116) -/

theorem toRecal_eq (u : SpindleUnit) : u.toRecal = { u with
    life := if u.atSpeed then .recalibrating else u.life, chan := if u.atSpeed then u.chan.stop else u.chan } := by
  unfold SpindleUnit.toRecal
  split <;> rfl

theorem dropBuild_eq (u : SpindleUnit) : u.dropBuild = { u with
    mapState := if u.mapState = .building then .notBuilt else u.mapState
    pool := if u.mapState = .building then [] else u.pool
    generation := if u.mapState = .building then 0 else u.generation
    build := if u.mapState = .building then none else u.build } := by
  unfold SpindleUnit.dropBuild
  split
  · next h => simp only [h, if_true]
  · next h => simp only [h, reduceCtorEq, if_false]; rw [← h]
  · next h => simp only [h, reduceCtorEq, if_false]; rw [← h]

/-- A spindle whose recalibration starts, if it is RECALIBRATING (R26). -/
def SpindleUnit.restarted (v w : Nat) (u : SpindleUnit) : SpindleUnit :=
  { u with chan := if u.life = .recalibrating then u.chan.beginRecal v w u.lines.guard else u.chan }

/-- A spindle after the string reset. -/
def SpindleUnit.rebooted (v w : Nat) (u : SpindleUnit) : SpindleUnit := u.stringReset.restarted v w

section
variable {u : SpindleUnit} {v w : Nat}

theorem rebooted_eq : u.rebooted v w = { u.dropWork with
    life := if u.atSpeed then .recalibrating else u.life
    chan := if u.atSpeed then u.chan.stop.beginRecal v w u.lines.guard else u.chan
    mapState := if u.mapState = .building then .notBuilt else u.mapState
    pool := if u.mapState = .building then [] else u.pool
    generation := if u.mapState = .building then 0 else u.generation
    build := if u.mapState = .building then none else u.build } := by
  have hlife : u.atSpeed = false → u.life ≠ .recalibrating := fun hs h =>
    Bool.false_ne_true (hs.symm.trans (atSpeed_of (.inl h)))
  unfold SpindleUnit.rebooted SpindleUnit.restarted SpindleUnit.stringReset
  rw [dropBuild_eq, toRecal_eq, show u.dropWork.atSpeed = u.atSpeed from rfl]
  cases hs : u.atSpeed with
  | true => rfl
  | false =>
    have hnot : ¬ u.life = .recalibrating := hlife hs
    simp only [Bool.false_eq_true, if_false]
    rw [if_neg (by exact hnot)]
    rfl

theorem rebooted_rests (hg : u.atSpeed = true → u.lines.guard = false) (hr : u.Rests) : (u.rebooted v w).Rests := by
  rw [rebooted_eq]
  refine ⟨?_, rfl, rfl⟩
  cases hs : u.atSpeed with
  | true =>
    refine not_settleReady ?_
    rw [hg hs]
    exact nofun
  | false => exact hr.settle

end

/-! ## The part -/

section
variable {q : Lubran} {p : Port}

/-- A port record with STRING RESET raised, where its link is UP (R162, R176). -/
def LinkPort.rebooted (sender : Port) (r : LinkPort) : LinkPort :=
  { r.stringReset with
    notices := if r.link = .up then
      [{ key := .nothing, detail := .stringReset sender, sending := false, follow := none }] else [] }

theorem raiseAt_eq {r : Port} {key : NoticeKey} {d : Detail} : q.raiseAt r key d =
    q.modPort r fun r => { r with notices := if r.link = .up then raiseInto r.notices key d else r.notices } := by
  unfold Lubran.raiseAt
  split
  · next h => exact modPort_congr_at (by rw [if_pos h])
  · next h => exact (modPort_id _ _ (by rw [if_neg h])).symm

theorem raiseEach_all {key : NoticeKey} {d : Detail} : q.raiseEach allPorts key d =
    { q with ports := q.ports.map fun r =>
        { r with notices := if r.link = .up then raiseInto r.notices key d else r.notices } } := by
  unfold Lubran.raiseEach
  rw [← foldl_modPort_eq_map]
  exact congrArg (fun f => allPorts.foldl f q) (funext fun _ => funext fun _ => raiseAt_eq)

theorem noteCutWrite_frame : q.noteCutWrite.straps = q.straps ∧ q.noteCutWrite.params = q.params := by
  unfold Lubran.noteCutWrite
  split
  · split <;> exact ⟨rfl, rfl⟩
  · exact ⟨rfl, rfl⟩

/-- The recalibrations of a part without an entry start one by one (R26). -/
theorem foldl_restarted {l : List Spindle} {v w : Nat} (hcur : ∀ i, q.current i = none) (hv : q.params.vmax = v)
    (hw : q.params.settle = w) :
    l.foldl (fun q i => if (q.sp i).life = .recalibrating then q.startRecal i else q) q =
      l.foldl (fun q i => q.modSp i (SpindleUnit.restarted v w)) q := by
  induction l generalizing q with
  | nil => rfl
  | cons x xs ih =>
    have hstep : (if (q.sp x).life = .recalibrating then q.startRecal x else q) =
        q.modSp x (SpindleUnit.restarted v w) := by
      split
      · next hlife =>
        rw [startRecal_none (hcur x), hv, hw]
        refine modSp_congr_at ?_
        unfold SpindleUnit.restarted
        rw [if_pos hlife]
      · next hlife =>
        refine (modSp_id _ _ ?_).symm
        unfold SpindleUnit.restarted
        rw [if_neg hlife]
    rw [List.foldl_cons, List.foldl_cons, hstep]
    refine ih (fun i => ?_) hv hw
    have hi := hcur i
    unfold Lubran.current at hi ⊢
    rw [sp_modSp]
    split
    · exact hi
    · exact hi

theorem clearString_current (i : Spindle) : q.clearString.current i = none := by
  refine sp_current_none ?_ ?_
  · rw [clearString_sp]
    unfold SpindleUnit.stringReset
    rw [dropBuild_eq, toRecal_eq]
    rfl
  · rw [clearString_sp]
    unfold SpindleUnit.stringReset
    rw [dropBuild_eq, toRecal_eq]
    rfl

theorem stringReset_eq : q.stringReset p = { q.clearString with
    ports := q.ports.map (LinkPort.rebooted p)
    spindles := q.spindles.map (SpindleUnit.rebooted q.params.vmax q.params.settle) } := by
  have hvmax : q.clearString.params.vmax = q.params.vmax := congrArg Params.vmax noteCutWrite_frame.2
  have hsettle : q.clearString.params.settle = q.params.settle := congrArg Params.settle noteCutWrite_frame.2
  have hcur := clearString_current (q := q)
  have hspindles : q.clearString.spindles = q.spindles.map SpindleUnit.stringReset := rfl
  have hports : q.clearString.ports = q.ports.map LinkPort.stringReset := rfl
  unfold Lubran.stringReset
  generalize q.clearString = r at hvmax hsettle hcur hspindles hports
  dsimp only
  rw [raiseEach_all, foldl_restarted (by exact hcur) (by exact hvmax) (by exact hsettle), foldl_modSp_eq_map, hports,
    hspindles, Vector.map_map, Vector.map_map]
  rfl

end

theorem parseReset_unit {l : List Byte} {a : Ask} (h : parseReset l = some (a, ())) : a.unit = none := by
  unfold parseReset at h
  split at h
  · obtain ⟨tag, -, hpair⟩ := Option.map_eq_some_iff.1 h
    cases hpair
    rfl
  · cases h

section
variable {q : Lubran} {p : Port}

theorem stringReset_sp (i : Spindle) :
    (q.stringReset p).sp i = (q.sp i).rebooted q.params.vmax q.params.settle := by
  rw [stringReset_eq]
  exact Vector.getElem_map _ _

theorem stringReset_port (r : Port) : (q.stringReset p).port r = (q.port r).rebooted p := by
  rw [stringReset_eq]
  exact Vector.getElem_map _ _

theorem stringReset_slot (k : Fin 8) : (q.stringReset p).slot k = (q.slot k).clear := by
  rw [stringReset_eq]
  exact Vector.getElem_map _ _

theorem atRest_stringReset (h : q.atRest = true)
    (hg : ∀ i, (q.sp i).atSpeed = true → (q.sp i).lines.guard = false) : (q.stringReset p).atRest = true := by
  have hrests (i : Spindle) : ((q.stringReset p).sp i).Rests := by
    rw [stringReset_sp]
    exact rebooted_rests (hg i) (rests_of_atRest h i)
  refine (atRest_iff _).2 ⟨fun i => (hrests i).settle, fun i => (hrests i).wait, fun hgrant => hgrant.2 ?_,
    fun i => (hrests i).select, fun hwork => hwork.2 ?_⟩
  · rw [stringReset_eq]
    rfl
  · rw [stringReset_eq]
    rfl

end

/-- Settles O34: the part after the reset (`stringReset_eq`), read record by record. -/
theorem resetStringResetsEveryBlock : Obligations.ResetStringResetsEveryBlock := by
  intro s p f a hf ha hguard
  have htaking : s.part.taking p a = s.part.modPort p LinkPort.reload := taking_unnamed (parseReset_unit hf)
  have heff : effect (.resetString p f) s.part =
      ((s.part.modPort p LinkPort.reload).stringReset p).answer p a 50 .good [] := by
    simp only [effect]
    rw [hf, ← htaking]
    exact accepted ha
  have hrest : (s.part.modPort p LinkPort.reload).atRest = true := (atRest_modPort _ _ _).trans ha.1
  refine ⟨_, exec_replied heff (atRest_stringReset hrest hguard), ?_⟩
  have hlink (r : Port) : ((s.part.modPort p LinkPort.reload).port r).link = (s.part.port r).link := by
    rw [port_modPort]
    split <;> rfl
  refine ⟨?_, ?_, ?_, ?_, ?_, ?_, ?_, ?_, ?_, fun k => ?_, fun i => ?_, fun r => ?_⟩
  · rw [stringReset_eq]
    exact noteCutWrite_frame.1
  · rw [stringReset_eq]
    exact noteCutWrite_frame.2
  · rw [stringReset_eq]; rfl
  · rw [stringReset_eq]; rfl
  · rw [stringReset_eq]; rfl
  · rw [stringReset_eq]; rfl
  · rw [stringReset_eq]; rfl
  · rw [stringReset_eq]; rfl
  · rw [stringReset_eq]
    exact List.filter_congr fun m _ => (decide_not).symm
  · rw [stringReset_slot]
    exact ⟨rfl, rfl⟩
  · rw [stringReset_sp, rebooted_eq]
    refine ⟨rfl, rfl, rfl, rfl, rfl, rfl, rfl, rfl, rfl, rfl, rfl, rfl, rfl, rfl, fun hb => ?_, fun hb => ?_,
      fun hs => ?_, fun hs => ?_⟩
    · exact ⟨if_pos hb, if_pos hb, if_pos hb, if_pos hb⟩
    · exact ⟨if_neg hb, if_neg hb, if_neg hb⟩
    · have hns : ¬ (s.part.sp i).atSpeed = true := by rw [hs]; exact Bool.false_ne_true
      exact ⟨if_neg hns, if_neg hns⟩
    · dsimp only
      rw [show ((s.part.modPort p LinkPort.reload).sp i) = s.part.sp i from rfl, if_pos hs, if_pos hs, hguard i hs]
      exact ⟨rfl, rfl, rfl, rfl, rfl, rfl, rfl, rfl⟩
  · rw [stringReset_port, ← hlink]
    refine ⟨fun t => ?_, rfl, rfl, rfl, rfl, rfl, fun h => if_pos h, fun h => if_neg h⟩
    exact Vector.getElem_replicate _

end Sys2Proof.Machine
end

section
/-!
The reassignment sequencer: SELECT at the service start of the REASSIGN entry (R130, R131), and the two outcomes (R137).
-/

namespace Sys2Proof.Machine

section
variable {q : Lubran} {i : Spindle} {home source alt : Track} {trigger : Trigger} {reason : SpareReason}

/-! ## The outcomes -/

/-- The REASSIGN entry is off its spindle. -/
theorem removeReassign_internal : ((q.removeReassign i).sp i).internal = none := by
  unfold Lubran.removeReassign
  split
  · next h => exact h
  · split
    · obtain ⟨g, w, d, hown⟩ := leaveQueue_own (q := q) (i := i) (o := .internal)
      rw [hown]
      rfl
    · rw [sp_modSp_self]

theorem spareFailed_raises (hhome : q.seq.home = some home) (htrigger : q.seq.trigger = some trigger) :
    q.spareFailed i reason = { (q.removeReassign i).raiseMasked i (.spareFailed reason (logicalCyl home.cyl) home.head
      q.seq.tried (q.seq.lastAlt.map altIndex) trigger) with seq := Sequencer.initial } := by
  unfold Lubran.spareFailed Lubran.raiseSpareFailed
  dsimp only
  rw [hhome, htrigger]
  rfl

theorem spareDone_raises (hhome : q.seq.home = some home) (halt : q.seq.newAlt = some alt)
    (htrigger : q.seq.trigger = some trigger) :
    q.spareDone i = { (q.removeReassign i).raiseMasked i (.spareDone (logicalCyl home.cyl) home.head (altIndex alt)
      q.seq.lostCount (q.reassignLost i) trigger) with seq := Sequencer.initial } := by
  unfold Lubran.spareDone
  dsimp only
  rw [hhome, halt, htrigger]

/-! ## The start of a seek for whatever entry -/

theorem syncEntry_frame : (q.syncEntry i).seq = q.seq ∧ ((q.syncEntry i).sp i).xfer = (q.sp i).xfer ∧
    ((q.syncEntry i).sp i).chan = (q.sp i).chan := by
  unfold Lubran.syncEntry
  split
  · exact ⟨rfl, rfl, rfl⟩
  · dsimp only
    split
    · rw [modEntry_eq, sp_modSp_self]
      exact ⟨rfl, modEntry_xfer _ _ _, modEntry_chan _ _ _⟩
    · rw [modEntry_eq, sp_modSp_self]
      exact ⟨rfl, modEntry_xfer _ _ _, modEntry_chan _ _ _⟩
    · exact ⟨rfl, rfl, rfl⟩

theorem startSeek_moves (hd : distance source.cyl (q.sp i).chan.cyl ≠ 0) : q.startSeek i source false =
    (q.modSp i fun u => { u with chan := (q.sp i).chan.seekTo q.params source }).syncEntry i := by
  unfold Lubran.startSeek
  dsimp only
  rw [if_neg hd]
  rfl

theorem queueSeek_onTrack (hc : (q.sp i).chan.state = .onTrack) (hknown : (q.sp i).chan.posKnown = true)
    (horphan : (q.sp i).chan.orphan = false) : q.queueSeek i source = q.startSeek i source false := by
  unfold Lubran.queueSeek Lubran.seekRequest
  dsimp only
  rw [if_neg (fun h => Bool.false_ne_true (horphan.symm.trans h)), if_pos ⟨hc, hknown⟩]

theorem joinIfShort_eq (o : Owner) : ∃ w, q.joinIfShort o = { q with waiting := w } := by
  unfold Lubran.joinIfShort
  split
  · exact ⟨_, rfl⟩
  · exact ⟨q.waiting, rfl⟩

/-- A seek of the REASSIGN entry that starts at once (R60). -/
theorem seqSeek_moves (hc : (q.sp i).chan.state = .onTrack) (hknown : (q.sp i).chan.posKnown = true)
    (horphan : (q.sp i).chan.orphan = false) (hd : distance source.cyl (q.sp i).chan.cyl ≠ 0) :
    (q.seqSeek i source).seq = q.seq ∧
    ((q.seqSeek i source).sp i).xfer = { (q.sp i).xfer with next := none, cont := none } ∧
    ((q.seqSeek i source).sp i).chan = (q.sp i).chan.seekTo q.params source := by
  unfold Lubran.seqSeek
  generalize hr : Lubran.modEntry (q.modXfer i fun x => { x with next := none, cont := none }) i .internal
    (fun e => { e with state := .seeking }) = r
  have hxfer : (r.sp i).xfer = { (q.sp i).xfer with next := none, cont := none } := by
    rw [← hr, modEntry_eq, modXfer_eq, modSp_modSp, sp_modSp_self]
    rfl
  have hchan : (r.sp i).chan = (q.sp i).chan := by
    rw [← hr, modEntry_eq, modXfer_eq, modSp_modSp, sp_modSp_self]
    rfl
  have hseq : r.seq = q.seq := by rw [← hr]; rfl
  have hparams : r.params = q.params := by rw [← hr]; rfl
  rw [← hchan] at hc hknown horphan hd
  rw [queueSeek_onTrack hc hknown horphan, startSeek_moves hd, syncEntry_frame.1, syncEntry_frame.2.1,
    syncEntry_frame.2.2, sp_modSp_self, ← hxfer, ← hchan, ← hparams]
  exact ⟨hseq, rfl, rfl⟩

/-! ## SELECT (R130) -/

theorem startRound_first (hsource : q.seq.source = some source) (hc : (q.sp i).chan.state = .onTrack)
    (hknown : (q.sp i).chan.posKnown = true) (horphan : (q.sp i).chan.orphan = false)
    (hd : distance source.cyl (q.sp i).chan.cyl ≠ 0) :
    (q.startRound i 0).seq =
      { q.seq with state := .copy, roundFirst := 0, roundSize := 4, step := .sourceSeek, need := 4 } ∧
    ((q.startRound i 0).sp i).xfer = { (q.sp i).xfer with next := none, bind := 0, cont := none } ∧
    ((q.startRound i 0).sp i).chan = (q.sp i).chan.seekTo q.params source := by
  unfold Lubran.startRound
  rw [hsource]
  dsimp only
  generalize hr : Lubran.modXfer { q with seq := { q.seq with
    state := .copy, roundFirst := 0, roundSize := roundSizeFrom 0, step := .sourceSeek, need := roundSizeFrom 0 } } i
    (fun x => { x with bind := 0 }) = r
  have hsp : r.sp i = { q.sp i with xfer := { (q.sp i).xfer with bind := 0 } } := by
    rw [← hr, modXfer_eq, sp_modSp_self]
    rfl
  obtain ⟨w, hw⟩ := joinIfShort_eq (q := r) .internal
  rw [hw]
  obtain ⟨hseq, hxfer, hchan⟩ := seqSeek_moves (q := { r with waiting := w }) (i := i) (source := source)
    (by rw [show ({ r with waiting := w } : Lubran).sp i = r.sp i from rfl, hsp]; exact hc)
    (by rw [show ({ r with waiting := w } : Lubran).sp i = r.sp i from rfl, hsp]; exact hknown)
    (by rw [show ({ r with waiting := w } : Lubran).sp i = r.sp i from rfl, hsp]; exact horphan)
    (by rw [show ({ r with waiting := w } : Lubran).sp i = r.sp i from rfl, hsp]; exact hd)
  rw [hseq, hxfer, hchan, show ({ r with waiting := w } : Lubran).sp i = r.sp i from rfl, hsp]
  refine ⟨?_, rfl, ?_⟩
  · show r.seq = _
    rw [← hr]
    rfl
  · show (q.sp i).chan.seekTo r.params source = _
    rw [← hr]
    rfl

/-- SELECT with its source found (R130). -/
def Lubran.selecting (q : Lubran) (i : Spindle) (home : Track) : Lubran :=
  { q with seq := { q.seq with source := some ((q.forward i home).getD home), oldAlt := q.forward i home } }

theorem startReassign_eq (hhome : q.seq.home = some home) : q.startReassign i =
    if (q.sp i).generation = 65535 then (q.selecting i home).spareFailed i .generationLimit
    else (q.selecting i home).selectAlternate i := by
  unfold Lubran.startReassign
  rw [hhome]
  rfl

theorem selectAlternate_full (hhome : q.seq.home = some home) (hold : q.seq.oldAlt = none)
    (hfull : 384 ≤ q.spareMap.length) : q.selectAlternate i = q.spareFailed i .mapFull := by
  unfold Lubran.selectAlternate
  rw [hhome]
  exact if_pos ⟨hold, hfull⟩

theorem selectAlternate_room (hhome : q.seq.home = some home) (h : q.seq.oldAlt ≠ none ∨ q.spareMap.length < 384) :
    (q.allocate i home.cyl = none → q.selectAlternate i = q.spareFailed i .poolExhausted) ∧
    (∀ alt, q.allocate i home.cyl = some alt → q.selectAlternate i =
      Lubran.startRound { q with seq := { q.seq with
        newAlt := some alt, lastAlt := some alt, tried := q.seq.tried + 1, copied := 0, lostCount := 0 } } i 0) := by
  have hroom : ¬ (q.seq.oldAlt = none ∧ Config.mapCapacity ≤ q.spareMap.length) := by
    rintro ⟨hnone, hfull⟩
    rcases h with h | h
    · exact h hnone
    · exact Nat.not_lt.2 hfull h
  unfold Lubran.selectAlternate
  rw [hhome]
  dsimp only
  rw [if_neg hroom]
  refine ⟨fun hnone => ?_, fun alt halt => ?_⟩
  · rw [hnone]
  · rw [halt]

end

/-! ## SPARE TRACK (R126) -/

section
variable {s : State} {p : Port} {f : HostFrame} {a : Ask} {n cyl head : Nat} {i : Spindle}

theorem effect_spareTrack (hf : parseSpare f.payload = some (a, n, cyl, head)) (hu : a.unit = some i)
    (ha : s.part.Accepts p 21 f a) : effect (.spareTrack p f) s.part =
      if s.part.isSparing i { cyl := physicalCyl cyl, head := head } then (s.part.taking p a).withEnding p a.tag 21 .good []
      else if s.part.sparing.length < 8 then ((s.part.taking p a).withEnding p a.tag 21 .good []).admitSpare
        { spindle := i, home := { cyl := physicalCyl cyl, head := head }, trigger := .requested p }
      else (s.part.taking p a).withEnding p a.tag 21 .busy [] := by
  obtain ⟨hsparing, hseq, -⟩ := taking_frame (q := s.part) (p := p) (a := a)
  rw [← isSparing_congr hsparing hseq, ← hsparing]
  simp only [effect]
  rw [hf, accepted ha, hu]
  rfl

end

section
variable {q : Lubran} {i : Spindle} {r : SpareReq}

/-- A sequencer that works leaves the track on the pending list (R125). -/
theorem admitSpare_working (h : q.seq.state ≠ .idle) : q.admitSpare r = { q with sparing := q.sparing ++ [r] } :=
  if_neg h

theorem admitSpare_idle (h : q.seq.state = .idle) (hs : q.sparing = []) : q.admitSpare r =
    if (q.sp r.spindle).life = .ready then
      ({ q with seq := { Sequencer.initial with
          state := .select, spindle := some r.spindle, home := some r.home, trigger := some r.trigger } } :
            Lubran).placeReassign r.spindle
    else q.raiseMasked r.spindle (spareFailedDetail .notReady r.home 0 none r.trigger) :=
  (if_pos h).trans (takeWork_single hs)

/-- The REASSIGN entry as it is placed (R43, R49). -/
def reassignEntry (revs : Nat) : Entry := newEntry .internal .reassign 0 0 0 0 false 0 [] revs

/-- A REASSIGN entry behind an entry in service is no selection event (R48). -/
theorem placeReassign_busy (hcur : q.current i ≠ none) (hin : (q.sp i).internal = none) :
    q.placeReassign i = q.modSp i fun u => { u with internal := some (reassignEntry u.revs) } := by
  refine selectionEvent_engaged (.inr ?_)
  unfold Lubran.current at hcur ⊢
  rw [sp_modSp_self]
  unfold SpindleUnit.current at hcur ⊢
  rw [hin] at hcur
  exact hcur

theorem atRest_working (h : q.atRest = true) {x : Sequencer} {l : List SpareReq} (hx : x.state ≠ .idle) :
    Lubran.atRest { q with seq := x, sparing := l } = true := by
  obtain ⟨hsettle, hwait, hgrant, hselect, -⟩ := (atRest_iff q).1 h
  exact (atRest_iff _).2 ⟨hsettle, hwait, hgrant, hselect, fun hidle => hx hidle.1⟩

end

section
variable {s : State} {p : Port} {f : HostFrame} {a : Ask} {n cyl head : Nat} {i : Spindle}

theorem current_congr {u v : SpindleUnit} (hin : u.internal = v.internal) (hq : u.queue = v.queue) :
    u.current = v.current := by
  unfold SpindleUnit.current
  rw [hin, hq]

/-- A track that joins the pending list (R126). -/
theorem spareTrack_waits (hf : parseSpare f.payload = some (a, n, cyl, head)) (hu : a.unit = some i)
    (ha : s.part.Accepts p 21 f a) (hnew : s.part.isSparing i { cyl := physicalCyl cyl, head := head } = false)
    (hroom : s.part.sparing.length < 8) (hstate : s.part.seq.state ≠ .idle) :
    exec (.spareTrack p f) s = .next { s with part :=
      ({ (s.part.taking p a).withEnding p a.tag 21 .good [] with
          sparing := s.part.sparing ++ [{ spindle := i, home := { cyl := physicalCyl cyl, head := head }
                                          trigger := .requested p }] } : Lubran).kickAll } := by
  obtain ⟨hsparing, hseq, -⟩ := taking_frame (q := s.part) (p := p) (a := a)
  have hrest := atRest_withEnding (p := p) (t := a.tag) (k := 21) (c := .good) (l := []) (atRest_of_accepts ha)
  have heff := effect_spareTrack hf hu ha
  rw [if_neg (by rw [hnew]; exact Bool.false_ne_true), if_pos hroom, admitSpare_working (by exact hseq ▸ hstate)] at heff
  rw [← hsparing]
  refine exec_atRest heff ?_
  exact atRest_working hrest (x := (s.part.taking p a).seq) (by rw [hseq]; exact hstate)

/-- A track of a spindle that is not READY fails at once (R129). -/
theorem spareTrack_fails (hf : parseSpare f.payload = some (a, n, cyl, head)) (hu : a.unit = some i)
    (ha : s.part.Accepts p 21 f a) (hnew : s.part.isSparing i { cyl := physicalCyl cyl, head := head } = false)
    (hnone : s.part.sparing = []) (hstate : s.part.seq.state = .idle) (hlife : (s.part.sp i).life ≠ .ready) :
    exec (.spareTrack p f) s = .next { s with part :=
      (((s.part.taking p a).withEnding p a.tag 21 .good []).raiseMasked i
        (.spareFailed .notReady cyl head 0 none (.requested p))).kickAll } := by
  obtain ⟨hsparing, hseq, -⟩ := taking_frame (q := s.part) (p := p) (a := a)
  have hrest := atRest_withEnding (p := p) (t := a.tag) (k := 21) (c := .good) (l := []) (atRest_of_accepts ha)
  have heff := effect_spareTrack hf hu ha
  rw [if_neg (by rw [hnew]; exact Bool.false_ne_true), if_pos (by rw [hnone]; decide),
    admitSpare_idle (by exact hseq ▸ hstate) (by exact hsparing.trans hnone)] at heff
  rw [if_neg (by exact (taking_life ha.2.2.1 i).1 ▸ hlife)] at heff
  unfold spareFailedDetail at heff
  rw [logical_physical] at heff
  exact exec_atRest heff (atRest_raiseMasked.trans hrest)

/-- A track of a READY spindle that has an entry in service gets its REASSIGN entry (R129). -/
theorem spareTrack_placed (hf : parseSpare f.payload = some (a, n, cyl, head)) (hu : a.unit = some i)
    (ha : s.part.Accepts p 21 f a) (hnew : s.part.isSparing i { cyl := physicalCyl cyl, head := head } = false)
    (hnone : s.part.sparing = []) (hstate : s.part.seq.state = .idle) (hlife : (s.part.sp i).life = .ready)
    (hcur : s.part.current i ≠ none) (hin : (s.part.sp i).internal = none) :
    exec (.spareTrack p f) s = .next { s with part :=
      ({ ((s.part.taking p a).withEnding p a.tag 21 .good []).modSp i fun u =>
          { u with internal := some (reassignEntry u.revs) } with
          seq := { Sequencer.initial with
            state := .select, spindle := some i, home := some { cyl := physicalCyl cyl, head := head }
            trigger := some (.requested p) } } : Lubran).kickAll } := by
  obtain ⟨hsparing, hseq, -⟩ := taking_frame (q := s.part) (p := p) (a := a)
  obtain ⟨hl, -, -, -, hinternal, hqueue⟩ := taking_life (q := s.part) (p := p) (a := a) ha.2.2.1 i
  have hrest := atRest_withEnding (p := p) (t := a.tag) (k := 21) (c := .good) (l := []) (atRest_of_accepts ha)
  obtain ⟨hsettle, hwait, hselect⟩ := rests_of_atRest hrest i
  have heff := effect_spareTrack hf hu ha
  rw [if_neg (by rw [hnew]; exact Bool.false_ne_true), if_pos (by rw [hnone]; decide),
    admitSpare_idle (by exact hseq ▸ hstate) (by exact hsparing.trans hnone), if_pos (by exact hl ▸ hlife),
    placeReassign_busy ?_ (by exact hinternal.trans hin)] at heff
  · exact exec_atRest heff (atRest_working (atRest_spindle (q := (s.part.taking p a).withEnding p a.tag 21 .good []) hrest
      ⟨hsettle, hwait, hselect⟩) nofun)
  · exact fun hnone => hcur ((current_congr hinternal hqueue).symm.trans hnone)

/-- What SPARE TRACK ends with, by the tests of its admission (R126). -/
theorem spareTrack_full (hf : parseSpare f.payload = some (a, n, cyl, head)) (hu : a.unit = some i)
    (ha : s.part.Accepts p 21 f a) :
    (s.part.isSparing i { cyl := physicalCyl cyl, head := head } = true → exec (.spareTrack p f) s =
      .next { s with part := ((s.part.taking p a).withEnding p a.tag 21 .good []).kickAll }) ∧
    (s.part.isSparing i { cyl := physicalCyl cyl, head := head } = false → 8 ≤ s.part.sparing.length →
      exec (.spareTrack p f) s =
        .next { s with part := ((s.part.taking p a).withEnding p a.tag 21 .busy []).kickAll }) := by
  have hrest := atRest_of_accepts ha
  have heff := effect_spareTrack hf hu ha
  refine ⟨fun hsparing => ?_, fun hnew hfull => ?_⟩
  · exact exec_atRest (heff.trans (if_pos hsparing)) (atRest_withEnding hrest)
  · refine exec_atRest (heff.trans ?_) (atRest_withEnding hrest)
    rw [if_neg (by rw [hnew]; exact Bool.false_ne_true), if_neg (Nat.not_lt.2 hfull)]

end

/-! ## The start of a reassignment (R130, R131) -/

section
variable {q : Lubran} {i : Spindle} {home alt : Track}

/-- SELECT takes the alternate and enters COPY at block 0. -/
theorem startReassign_copies (hhome : q.seq.home = some home) (hgen : (q.sp i).generation < 65535)
    (hroom : q.forward i home ≠ none ∨ q.spareMap.length < 384) (halt : q.allocate i home.cyl = some alt)
    (hc : (q.sp i).chan.state = .onTrack) (hknown : (q.sp i).chan.posKnown = true)
    (horphan : (q.sp i).chan.orphan = false) (hcyl : (q.sp i).chan.cyl ≠ ((q.forward i home).getD home).cyl) :
    (q.startReassign i).seq = { q.seq with
      state := .copy, source := some ((q.forward i home).getD home), oldAlt := q.forward i home, newAlt := some alt
      lastAlt := some alt, tried := q.seq.tried + 1, copied := 0, lostCount := 0, roundFirst := 0, roundSize := 4
      step := .sourceSeek, need := 4 } ∧
    ((q.startReassign i).sp i).xfer = { (q.sp i).xfer with next := none, bind := 0, cont := none } ∧
    ((q.startReassign i).sp i).chan.state = .seeking ∧
    ((q.startReassign i).sp i).chan.target = some ((q.forward i home).getD home) := by
  have hd : distance ((q.forward i home).getD home).cyl (q.sp i).chan.cyl ≠ 0 := by
    unfold distance
    omega
  have hstart : q.startReassign i = Lubran.startRound { q.selecting i home with seq := { (q.selecting i home).seq with
      newAlt := some alt, lastAlt := some alt, tried := q.seq.tried + 1, copied := 0, lostCount := 0 } } i 0 := by
    rw [startReassign_eq hhome, if_neg (Nat.ne_of_lt hgen)]
    exact (selectAlternate_room (q := q.selecting i home) hhome hroom).2 alt halt
  obtain ⟨hseq, hxfer, hchan⟩ := startRound_first (q := { q.selecting i home with seq := { (q.selecting i home).seq with
      newAlt := some alt, lastAlt := some alt, tried := q.seq.tried + 1, copied := 0, lostCount := 0 } }) (i := i)
    rfl hc hknown horphan hd
  rw [hstart, hseq, hxfer, hchan]
  exact ⟨rfl, rfl, rfl, rfl⟩

end

end Sys2Proof.Machine
end

section
/-!
The end of a block field of a host entry (R72, R80 to R91), and a field cut short (R83).
-/

namespace Sys2Proof.Machine

/-! ## How an entry goes on -/

/-- The entry goes on to the block after `b`, or its last block is done (R72, R80). -/
def Lubran.goOn (q : Lubran) (i : Spindle) (e : Entry) (b : Nat) (a : Action) : Lubran :=
  if b < e.first + e.count - 1 then
    (Lubran.released i e.owner q (some { action := a, field := .block (b + 1) })).afterField i e fun q => q
  else (Lubran.released i e.owner q none).afterField i e fun q => q.decideEnding i .good

/-- A SOFT report, when attempts had failed (R80, R87). -/
def Lubran.softly (q : Lubran) (i : Spindle) (e : Entry) (tr : Track) : Lubran :=
  if 0 < e.retries then q.report i tr .soft else q

/-- A block past its limit: a HARD report, and DATA CHECK for an entry that is not ending (R80, R87). -/
def Lubran.hardly (q : Lubran) (i : Spindle) (e : Entry) (tr : Track) : Lubran :=
  (q.report i tr .hard).afterField i e fun q => q.decideEnding i .dataCheck

section
variable {q r : Lubran} {i : Spindle} {e : Entry} {p : Port} {t : Tag} {b : Nat} {tr : Track}

theorem afterField_host {more : Lubran → Lubran} (ho : e.owner = .host p t) : q.afterField i e more =
    if e.abandoned then (q.leaveQueue i (.host p t)).setTag p t false
    else if e.decided.isSome then q.conclude i else more q := by
  unfold Lubran.afterField Lubran.leaveAbandoned
  rw [ho]

theorem reportEntry_track {k : ReportKind} (htr : e.track = some tr) : q.reportEntry i e k = q.report i tr k := by
  unfold Lubran.reportEntry
  rw [htr]

theorem passed_eq (htr : e.track = some tr) :
    q.passed i e = (q.softly i e tr).modEntry i e.owner fun x => { x with retries := 0 } := by
  unfold Lubran.passed Lubran.setRetries Lubran.softly
  dsimp only
  rw [reportEntry_track htr]

theorem samePath_softly : SamePath q (q.softly i e tr) := by
  unfold Lubran.softly
  split
  · exact SamePath.of sameWork_report
  · exact SamePath.refl

theorem softly_slotFor (o : Owner) (n : Nat) (x : SlotSource) : (q.softly i e tr).slotFor o n x = q.slotFor o n x := by
  unfold Lubran.softly
  split
  · exact sameWork_report.slotFor o n x
  · rfl

theorem hardError_eq (htr : e.track = some tr) {n : Nat} :
    (if e.decided.isSome ∨ e.abandoned then (q.reportEntry i e .hard).afterField i e id
      else q.hardError i { e with retries := n }) = q.hardly i e tr := by
  unfold Lubran.hardly Lubran.hardError Lubran.afterField
  rw [reportEntry_track htr, reportEntry_track (e := { e with retries := n }) htr]
  cases e.abandoned with
  | true => rw [if_pos (.inr rfl)]; rfl
  | false => cases e.decided <;> rfl

theorem release_same {x : Option NextField} {o : Owner} (h : SamePath r q) (hs : r.path.spindle = some i)
    (hn : (r.sp i).xfer.next = x) : q.releaseEntry i o = Lubran.released i o q x :=
  releaseEntry_eq (h.path ▸ hs) ((congrArg XferRec.next (h.xfer i)).trans hn)

theorem release_load {x : Option NextField} {o : Owner} (h : SamePath r q) (hs : r.path.spindle = some i) :
    (q.releaseEntry i o).loadNext i x = Lubran.released i o q x := releaseEntry_loadNext (h.path ▸ hs)

/-- A path that has no continuing grant is released when its field has ended, with the next field loaded (R72). -/
theorem released_after {fx next : Option NextField} {ok : Bool} (h : SamePath r q) (hs : r.path.spindle = some i)
    (hc : (r.sp i).xfer.cont = none) :
    (q.pathAfter i e ok fx).loadNext i next = Lubran.released i e.owner q next := by
  rw [pathAfter_none ((congrArg XferRec.cont (h.xfer i)).trans hc), release_load h hs]

/-- A block that ended well: the next block, or the end of the entry. -/
theorem goOn_after {fx : Option NextField} {ok : Bool} {a : Action} {last : Nat} (h : SamePath r q)
    (hs : r.path.spindle = some i) (hc : (r.sp i).xfer.cont = none) (hlast : last = e.first + e.count - 1) :
    ((q.pathAfter i e ok fx).loadNext i
      (if b < last then some { action := a, field := .block (b + 1) } else none)).afterField i e
        (fun q => if (if b < last then some ({ action := a, field := .block (b + 1) } : NextField) else none) = none
          then q.decideEnding i .good else q) = q.goOn i e b a := by
  rw [released_after h hs hc, hlast]
  unfold Lubran.goOn
  split <;> rfl

theorem modBlockSlot_some {o : Owner} {src : SlotSource} {k : Fin 8} {f : StagingSlot → StagingSlot}
    (h : q.slotFor o b src = some k) : q.modBlockSlot o b src f = q.modSlot k f := by
  unfold Lubran.modBlockSlot
  rw [h]

theorem slotBytes_some {o : Owner} {src : SlotSource} {k : Fin 8} (h : q.slotFor o b src = some k) :
    q.slotBytes o b src = (q.slot k).bytes := by
  unfold Lubran.slotBytes
  rw [h]

end

/-! ## The end of a block -/

section
variable {q : Lubran} {i : Spindle} {e : Entry} {p : Port} {t : Tag} {b : Nat} {tr : Track} {id : BlockId} {k : Fin 8}
  {act : Action} {o : Owner} {bytes : List Byte} {check : Word32}

/-- A path that carries a block of an entry ends it as the entry's. -/
theorem endField_entry {nx : NextField} (h : q.Carries i o e nx b) : q.endField bytes check = q.endBlock bytes check := by
  unfold Lubran.endField
  rw [departedBlock_entry h.holder]

/-- The bytes that READ DATA brought go to the slot of the block (R80). -/
def Lubran.filled (q : Lubran) (k : Fin 8) (bytes : List Byte) : Lubran :=
  q.modSlot k fun sl => { sl with bytes := bytes }

theorem filled_slotFor (n : Nat) (x : SlotSource) : (q.filled k bytes).slotFor o n x = q.slotFor o n x :=
  slotFor_modSlot ⟨rfl, rfl, rfl⟩

/-- The end of a block that is being read. -/
theorem endBlock_read (h : q.Carries i (.host p t) e { action := act, field := .block b } b) (hid : q.path.id = some id)
    (ho : e.owner = .host p t) (hk : q.slotFor (.host p t) b .disk = some k) (fx : Option NextField)
    (hfx : fx = q.follower e { action := act, field := .block b }) :
    (act = .read → crc32 (idBytes id ++ bytes) = check →
      q.endField bytes check = (q.filled k bytes).readPassed i e b fx) ∧
    (act = .verify → crc32 (idBytes id ++ bytes) = check →
      q.endField bytes check = (q.filled k bytes).verifyPassed i e b fx) ∧
    (act = .compareRead → crc32 (idBytes id ++ bytes) = check →
      q.endField bytes check = (q.filled k bytes).comparePassed i e b) ∧
    (act = .read ∨ act = .verify ∨ act = .compareRead → ¬ crc32 (idBytes id ++ bytes) = check →
      q.endField bytes check = (q.filled k bytes).readFailed i e b) := by
  have hfill : q.modBlockSlot e.owner b .disk (fun s => { s with bytes := bytes }) = q.filled k bytes := by
    rw [ho]
    exact modBlockSlot_some hk
  rw [endField_entry h]
  unfold Lubran.endBlock
  rw [pathBlock_entry h, hid]
  dsimp only
  rw [hfill, ← hfx]
  refine ⟨fun ha hg => ?_, fun ha hg => ?_, fun ha hg => ?_, fun ha hg => ?_⟩
  · subst ha
    dsimp only
    rw [if_neg (not_internal ho), if_pos (decide_eq_true hg)]
  · subst ha
    dsimp only
    rw [if_neg (not_internal ho), if_pos (decide_eq_true hg)]
  · subst ha
    dsimp only
    rw [if_neg (not_internal ho), if_pos (decide_eq_true hg)]
  · rcases ha with ha | ha | ha <;> subst ha <;> dsimp only <;>
      rw [if_neg (not_internal ho), if_neg (fun hd => hg (of_decide_eq_true hd))]

end

/-! ## What becomes of a block that was read -/

section
variable {q : Lubran} {i : Spindle} {e : Entry} {p : Port} {t : Tag} {b : Nat} {tr : Track} {k : Fin 8}
  {fx : Option NextField}

theorem lastBlock_host (ho : e.owner = .host p t) : q.lastBlock e = e.first + e.count - 1 := by
  unfold Lubran.lastBlock
  rw [ho]

theorem readPassed_eq (hs : q.path.spindle = some i) (hc : (q.sp i).xfer.cont = none) (ho : e.owner = .host p t)
    (htr : e.track = some tr) (hk : q.slotFor (.host p t) b .disk = some k) :
    q.readPassed i e b fx =
      ((((q.modSlot k fun sl => { sl with state := .full }).softly i e tr).modEntry i (.host p t) fun x =>
        { x with retries := 0 }).offer p t).goOn i e b .read := by
  have hpath : SamePath q ((((q.modSlot k fun sl => { sl with state := .full }).softly i e tr).modEntry i (.host p t)
      fun x => { x with retries := 0 }).offer p t) :=
    samePath_modSlot.trans (samePath_softly.trans (samePath_modEntry.trans samePath_offer))
  unfold Lubran.readPassed
  dsimp only
  rw [passed_eq htr, ho, modBlockSlot_some hk]
  exact goOn_after hpath hs hc (lastBlock_host ho)

theorem verifyPassed_eq (hs : q.path.spindle = some i) (hc : (q.sp i).xfer.cont = none) (ho : e.owner = .host p t)
    (htr : e.track = some tr) (hk : q.slotFor (.host p t) b .disk = some k) :
    q.verifyPassed i e b fx =
      (((q.softly i e tr).modEntry i (.host p t) fun x =>
        { x with retries := 0, blocksDone := x.blocksDone + 1 }).freeSlot k).goOn i e b .verify := by
  have hpath : SamePath q (((q.softly i e tr).modEntry i (.host p t) fun x =>
      { x with retries := 0, blocksDone := x.blocksDone + 1 }).freeSlot k) :=
    samePath_softly.trans (samePath_modEntry.trans samePath_freeSlot)
  have hdone : (((q.passed i e).blockDone i e.owner).freeBlockSlot e.owner b .disk) =
      ((q.softly i e tr).modEntry i (.host p t) fun x =>
        { x with retries := 0, blocksDone := x.blocksDone + 1 }).freeSlot k := by
    unfold Lubran.blockDone
    rw [passed_eq htr, ho, modEntry_modEntry (by exact fun _ => rfl), freeBlockSlot_some]
    exact (softly_slotFor _ _ _).trans hk
  unfold Lubran.verifyPassed
  dsimp only
  rw [hdone]
  exact goOn_after hpath hs hc (lastBlock_host ho)

theorem comparePassed_eq (hs : q.path.spindle = some i) (ho : e.owner = .host p t)
    (htr : e.track = some tr) (hk : q.slotFor (.host p t) b .disk = some k) :
    q.comparePassed i e b =
      (Lubran.released i (.host p t) (((q.softly i e tr).modEntry i (.host p t) fun x =>
        { x with retries := 0, compared := true }).freeSlot k) (some { action := .write, field := .block b })).afterField
        i e fun r => if ((q.slot k).bytes.drop e.cmpOffset).take e.cmpBytes.length = e.cmpBytes then r
          else r.decideEnding i .conditionNotMet (byteOf e.cmpBytes.length ::
            ((q.slot k).bytes.drop e.cmpOffset).take e.cmpBytes.length) := by
  have hpath : SamePath q (((q.softly i e tr).modEntry i (.host p t) fun x =>
      { x with retries := 0, compared := true }).freeSlot k) :=
    samePath_softly.trans (samePath_modEntry.trans samePath_freeSlot)
  unfold Lubran.comparePassed
  dsimp only
  rw [passed_eq htr, ho, modEntry_modEntry (by exact fun _ => rfl), freeBlockSlot_some, release_load hpath hs,
    slotBytes_some hk]
  exact (softly_slotFor _ _ _).trans hk

/-- A failed read that is tried again (R80). -/
theorem readFailed_again (hs : q.path.spindle = some i) {x : Option NextField} (hn : (q.sp i).xfer.next = x)
    (ho : e.owner = .host p t) (hk : q.slotFor (.host p t) b .disk = some k) (hr : e.retries < 8) :
    q.readFailed i e b = (Lubran.released i (.host p t) ((q.modSlot k fun sl => { sl with state := .reserved }).modEntry i
      (.host p t) fun x => { x with retries := e.retries + 1 }) x).afterField i e id := by
  unfold Lubran.readFailed Lubran.setRetries
  rw [if_pos hr, ho, modBlockSlot_some hk]
  exact congrArg (fun r => Lubran.afterField r i e id)
    (release_same (samePath_modSlot.trans samePath_modEntry) hs hn)

/-- A failed read past the limit (R80). -/
theorem readFailed_hard (hs : q.path.spindle = some i) (ho : e.owner = .host p t) (htr : e.track = some tr)
    (hk : q.slotFor (.host p t) b .disk = some k) (hr : 8 ≤ e.retries) :
    q.readFailed i e b = (Lubran.released i (.host p t) (q.freeSlot k) none).hardly i e tr := by
  unfold Lubran.readFailed
  rw [if_neg (Nat.not_lt.2 hr), ho, freeBlockSlot_some hk]
  dsimp only
  rw [release_load samePath_freeSlot hs]
  exact hardError_eq (n := e.retries) htr

end

/-! ## What becomes of a block that was written -/

section
variable {q : Lubran} {i : Spindle} {e : Entry} {p : Port} {t : Tag} {b : Nat} {tr : Track} {k : Fin 8}
  {fx : Option NextField} {id : BlockId} {bytes : List Byte} {check : Word32}

theorem writeSource_host {x : EntryKind} (h : x ≠ .reassign) : writeSource x = .host := if_neg h

/-- A written block of a host entry, with LOST clear (R86). -/
theorem writtenBlock_host (ho : e.owner = .host p t) (hkind : e.kind ≠ .reassign)
    (hk : q.slotFor (.host p t) b .host = some k) :
    q.writtenBlock i e b id tr = diskBlock i tr b { id with flags := 0 } (q.slot k).bytes := by
  unfold Lubran.writtenBlock
  dsimp only
  rw [if_neg hkind, writeSource_host hkind, ho, slotBytes_some hk]

theorem endField_write (h : q.Carries i (.host p t) e { action := .write, field := .block b } b)
    (hid : q.path.id = some id) (ho : e.owner = .host p t) (hkind : e.kind ≠ .reassign) (htr : e.track = some tr)
    (hk : q.slotFor (.host p t) b .host = some k) :
    q.endField bytes check = Lubran.hostWritten
      { q with writeOut := some (diskBlock i tr b { id with flags := 0 } (q.slot k).bytes) } i e b
      (q.follower e { action := .write, field := .block b }) := by
  have hexpected : q.expectedTrack e = some tr := by
    unfold Lubran.expectedTrack
    rw [ho]
    exact htr
  rw [endField_entry h]
  unfold Lubran.endBlock
  rw [pathBlock_entry h, hid]
  dsimp only
  rw [if_neg (not_internal ho), hexpected]
  dsimp only [Option.getD]
  rw [writtenBlock_host ho hkind hk]

theorem hostWritten_verified (hs : q.path.spindle = some i) (ho : e.owner = .host p t)
    (hv : e.kind = .write ∧ e.writeVerify = true) : q.hostWritten i e b fx =
      (Lubran.released i (.host p t) q (some { action := .reread, field := .block b })).afterField i e fun r => r := by
  unfold Lubran.hostWritten
  dsimp only
  rw [if_pos hv, ho, releaseEntry_loadNext hs]
  rfl

theorem hostWritten_done (hs : q.path.spindle = some i) (hc : (q.sp i).xfer.cont = none) (ho : e.owner = .host p t)
    (hk : q.slotFor (.host p t) b .host = some k) (hv : e.kind ≠ .write ∨ e.writeVerify = false) :
    q.hostWritten i e b fx =
      ((q.modEntry i (.host p t) fun x => { x with blocksDone := x.blocksDone + 1, retries := 0 }).freeSlot k).goOn i e b
        .write := by
  have hnot : ¬ (e.kind = .write ∧ e.writeVerify = true) := by
    rintro ⟨hw, hv'⟩
    rcases hv with hv | hv
    · exact hv hw
    · exact Bool.false_ne_true (hv.symm.trans hv')
  have hdone : (((q.blockDone i e.owner).setRetries i e.owner 0).freeBlockSlot e.owner b .host) =
      (q.modEntry i (.host p t) fun x => { x with blocksDone := x.blocksDone + 1, retries := 0 }).freeSlot k := by
    unfold Lubran.blockDone Lubran.setRetries
    rw [ho, modEntry_modEntry (by exact fun _ => rfl), freeBlockSlot_some]
    exact hk
  unfold Lubran.hostWritten
  dsimp only
  rw [if_neg hnot, hdone]
  exact goOn_after (samePath_modEntry.trans samePath_freeSlot) hs hc (lastBlock_host ho)

/-! ## What becomes of a block that was reread -/

theorem endField_reread (h : q.Carries i (.host p t) e { action := .reread, field := .block b } b)
    (hid : q.path.id = some id) (ho : e.owner = .host p t) (hkind : e.kind ≠ .reassign)
    (hk : q.slotFor (.host p t) b .host = some k) :
    q.endField bytes check = if crc32 (idBytes id ++ bytes) = check ∧ bytes = (q.slot k).bytes
      then q.rereadPassed i e b (q.follower e { action := .reread, field := .block b }) else q.rereadFailed i e b := by
  rw [endField_entry h]
  unfold Lubran.endBlock
  rw [pathBlock_entry h, hid]
  dsimp only
  rw [if_neg (not_internal ho), writeSource_host hkind, ho, slotBytes_some hk]
  refine ite_eq_of_iff ?_ rfl rfl
  rw [Bool.and_eq_true, decide_eq_true_iff, decide_eq_true_iff]

theorem rereadPassed_eq (hs : q.path.spindle = some i) (hc : (q.sp i).xfer.cont = none) (ho : e.owner = .host p t)
    (htr : e.track = some tr) (hk : q.slotFor (.host p t) b .host = some k) :
    q.rereadPassed i e b fx =
      (((q.softly i e tr).modEntry i (.host p t) fun x =>
        { x with retries := 0, blocksDone := x.blocksDone + 1 }).freeSlot k).goOn i e b .write := by
  have hpath : SamePath q (((q.softly i e tr).modEntry i (.host p t) fun x =>
      { x with retries := 0, blocksDone := x.blocksDone + 1 }).freeSlot k) :=
    samePath_softly.trans (samePath_modEntry.trans samePath_freeSlot)
  have hdone : (((q.passed i e).blockDone i e.owner).freeBlockSlot e.owner b .host) =
      ((q.softly i e tr).modEntry i (.host p t) fun x =>
        { x with retries := 0, blocksDone := x.blocksDone + 1 }).freeSlot k := by
    unfold Lubran.blockDone
    rw [passed_eq htr, ho, modEntry_modEntry (by exact fun _ => rfl), freeBlockSlot_some]
    exact (softly_slotFor _ _ _).trans hk
  unfold Lubran.rereadPassed
  dsimp only
  rw [hdone]
  exact goOn_after hpath hs hc (lastBlock_host ho)

theorem rereadFailed_eq (hs : q.path.spindle = some i) (ho : e.owner = .host p t) (htr : e.track = some tr)
    {r : Lubran} (hr : r = Lubran.released i (.host p t) (q.modEntry i (.host p t) fun x =>
      { x with retries := e.retries + 1 }) (some { action := .write, field := .block b })) :
    q.rereadFailed i e b = if e.retries < 2 then r.afterField i e (fun r => r) else r.hardly i e tr := by
  have hfail : ((q.setRetries i e.owner (e.retries + 1)).releaseEntry i e.owner).loadNext i
      (some { action := .write, field := .block b }) = r := by
    unfold Lubran.setRetries
    rw [ho, release_load samePath_modEntry hs, hr]
  unfold Lubran.rereadFailed
  dsimp only
  rw [hfail]
  exact ite_eq_of_iff Iff.rfl rfl (hardError_eq (n := e.retries + 1) htr)

end

/-! ## A field cut short -/

section
variable {q : Lubran} {i : Spindle} {e : Entry} {p : Port} {t : Tag} {b : Nat} {tr : Track} {k : Fin 8} {act : Action}
  {nx : NextField}

/-- The part when the block that the path carries is cut: a write leaves a partial field (R83, R88). -/
def Lubran.cutShort (q : Lubran) (i : Spindle) (b : Nat) (tr : Track) : Lubran :=
  if (q.sp i).writeGate then
    { q with writeOut := some { spindle := i, track := tr, field := .block b, bytes := [], whole := false } }
  else q

theorem noteCutWrite_carried (h : q.Carries i (.host p t) e nx b) (htr : e.track = some tr) :
    q.noteCutWrite = q.cutShort i b tr := by
  unfold Lubran.noteCutWrite Lubran.cutShort
  rw [h.spindle, h.field, h.holder]
  dsimp only
  rw [h.found]
  dsimp only [Option.bind]
  rw [htr]
  rfl

theorem samePath_cutShort : SamePath q (q.cutShort i b tr) := by
  unfold Lubran.cutShort
  split
  · exact ⟨rfl, fun _ => rfl⟩
  · exact SamePath.refl

theorem cutShort_slotFor (o : Owner) (n : Nat) (x : SlotSource) : (q.cutShort i b tr).slotFor o n x = q.slotFor o n x := by
  unfold Lubran.cutShort
  split <;> rfl

/-- The part when a cut block has given the path back, to be tried again. -/
def Lubran.cutBack (q : Lubran) (i : Spindle) (o : Owner) (b : Nat) (tr : Track) (nx : NextField) : Lubran :=
  Lubran.released i o (q.cutShort i b tr) (some nx)

theorem release_cut (h : q.Carries i (.host p t) e nx b) (htr : e.track = some tr) :
    q.noteCutWrite.releaseEntry i (.host p t) = q.cutBack i (.host p t) b tr nx := by
  rw [noteCutWrite_carried h htr]
  exact release_same samePath_cutShort h.spindle h.next

theorem cutBack_slotFor (o' o : Owner) (n : Nat) (x : SlotSource) :
    (q.cutBack i o' b tr nx).slotFor o n x = q.slotFor o n x :=
  (slotFor_frame rfl).trans (cutShort_slotFor o n x)

theorem cutField_host (h : q.Carries i (.host p t) e nx b) (htr : e.track = some tr) :
    q.cutField i = (q.cutBack i (.host p t) b tr nx).hostCut i e nx b := by
  have hbegun : ¬ q.pathBegun = false := by
    unfold Lubran.pathBegun
    rw [decide_eq_true h.state]
    exact Bool.noConfusion
  unfold Lubran.cutField
  rw [if_pos h.spindle, h.holder]
  unfold Lubran.cutEntry
  dsimp only
  rw [h.found, h.next]
  dsimp only
  rw [if_neg hbegun, h.block, release_cut h htr]
  exact if_neg nofun

/-- A cut block of a read: its slot is RESERVED again if it was FILLING, and past its limit it is freed (R83). -/
theorem hostCut_read (ho : e.owner = .host p t) (htr : e.track = some tr) (hk : q.slotFor (.host p t) b .disk = some k)
    (hr : nx.action = .read ∨ nx.action = .verify ∨ nx.action = .compareRead) : q.hostCut i e nx b =
      if e.retries < e.retryLimit then
        ((q.modSlot k StagingSlot.refill).modEntry i (.host p t) fun x => { x with retries := e.retries + 1 }).afterField
          i e fun r => r
      else (((q.modSlot k StagingSlot.refill).modEntry i (.host p t) fun x =>
        { x with retries := min 8 e.retries }).freeSlot k).hardly i e tr := by
  have hrefill : (q.modSlot k StagingSlot.refill).slotFor (.host p t) b .disk = some k := by
    refine (slotFor_modSlot ?_).trans hk
    unfold StagingSlot.refill
    split <;> exact ⟨rfl, rfl, rfl⟩
  have hfree : Lubran.freeBlockSlot ((q.modSlot k StagingSlot.refill).modEntry i (.host p t) fun x =>
      { x with retries := min 8 e.retries }) (.host p t) b .disk = Lubran.freeSlot ((q.modSlot k StagingSlot.refill).modEntry
        i (.host p t) fun x => { x with retries := min 8 e.retries }) k := freeBlockSlot_some hrefill
  unfold Lubran.hostCut Lubran.setRetries
  dsimp only
  rw [ho, modBlockSlot_some hk]
  refine ite_eq_of_iff Iff.rfl rfl ?_
  have hnot : ¬ (nx.action = .write ∨ nx.action = .reread) := by
    rintro (hw | hw) <;> rw [hw] at hr <;> simp at hr
  rw [if_neg hnot]
  rcases hr with h | h | h <;> rw [h] <;> dsimp only <;> rw [hfree] <;> exact hardError_eq (n := e.retries) htr

/-- A cut block of a write or a reread (R83). -/
theorem hostCut_write (ho : e.owner = .host p t) (htr : e.track = some tr) (hk : q.slotFor (.host p t) b .disk = none)
    (hw : nx.action = .write ∨ nx.action = .reread) : q.hostCut i e nx b =
      if e.retries < e.retryLimit then
        (q.modEntry i (.host p t) fun x => { x with retries := e.retries + 1 }).afterField i e fun r => r
      else (q.modEntry i (.host p t) fun x => { x with retries := min 8 (e.retries + 1) }).hardly i e tr := by
  have hsame : q.modBlockSlot (.host p t) b .disk StagingSlot.refill = q := by
    unfold Lubran.modBlockSlot
    rw [hk]
  unfold Lubran.hostCut Lubran.setRetries
  dsimp only
  rw [ho, hsame]
  refine ite_eq_of_iff Iff.rfl rfl ?_
  rw [if_pos hw]
  rcases hw with h | h <;> rw [h] <;> exact hardError_eq (n := e.retries) htr

/-- FAULT while a block is being written (R88). -/
theorem pathFault_write (h : q.Carries i (.host p t) e nx b) (hst : q.path.state = .writing) (htr : e.track = some tr) :
    q.pathFault i = ((q.cutBack i (.host p t) b tr nx).report i tr .hard).afterField i e fun q =>
      q.decideEnding i .writeFault := by
  unfold Lubran.pathFault
  rw [if_pos h.spindle, hst, h.holder]
  unfold Lubran.faultWrite
  dsimp only
  rw [h.found]
  dsimp only
  rw [if_neg nofun, release_cut h htr, reportEntry_track htr]

end

end Sys2Proof.Machine
end

section
/-!
A READ's block offered to its port when it has passed (R81), and the ends of the blocks of a host entry together.
-/

namespace Sys2Proof.Machine

section
variable {q : Lubran} {i : Spindle} {p : Port} {t : Tag} {n : Option NextField} {k : Fin 8}

/-- An entry whose path has been released (R72). -/
def Entry.givenBack (e : Entry) : Entry :=
  { e with state := if e.state = .transferring then .rotating else e.state }

theorem findEntry_released : (Lubran.released i (.host p t) q n).findEntry (.host p t) =
    (q.findEntry (.host p t)).map fun x => (x.1, if x.1 = i then x.2.givenBack else x.2) := by
  unfold Lubran.findEntry
  rw [List.map_findSome?]
  refine congrArg (fun f => allSpindles.findSome? f) (funext fun j => ?_)
  by_cases hj : j = i
  · subst hj
    have hown : ((q.sp j).released (.host p t) n).findEntry (.host p t) =
        ((q.sp j).findEntry (.host p t)).map Entry.givenBack := findEntry_modEntry (f := Entry.givenBack) fun _ => rfl
    rw [released_sp, hown]
    dsimp only [Function.comp]
    cases (q.sp j).findEntry (.host p t) with
    | none => rfl
    | some e =>
      dsimp only [Option.map]
      rw [if_pos rfl]
  · rw [released_sp_ne hj]
    dsimp only [Function.comp]
    cases (q.sp j).findEntry (.host p t) with
    | none => rfl
    | some e =>
      dsimp only [Option.map]
      rw [if_neg hj]

/-- What a READ offers does not change when its path is released (R81). -/
theorem offeredSlot_released :
    (Lubran.released i (.host p t) q n).offeredSlot p t = q.offeredSlot p t := by
  unfold Lubran.offeredSlot
  rw [findEntry_released]
  cases q.findEntry (.host p t) with
  | none => rfl
  | some x =>
    obtain ⟨j, e⟩ := x
    dsimp only [Option.map]
    by_cases hj : j = i
    · rw [if_pos hj]
      rfl
    · rw [if_neg hj]
      rfl

theorem offer_released : (Lubran.released i (.host p t) q n).offer p t =
    Lubran.released i (.host p t) (q.offer p t) n := by
  unfold Lubran.offer
  rw [offeredSlot_released, show (Lubran.released i (.host p t) q n).port p = q.port p from rfl]
  by_cases h : (q.offeredSlot p t).isSome ∧ t ∉ (q.port p).drains
  · rw [if_pos h, if_pos h]
    rfl
  · rw [if_neg h, if_neg h]

end

section
variable {q : Lubran} {i : Spindle} {e : Entry} {p : Port} {t : Tag} {b : Nat} {tr : Track} {k : Fin 8} {act : Action}
  {nx : NextField} {bytes : List Byte} {check : Word32}

/-! ## A READ that goes on, and a read tried again -/

theorem softly_none (hr : e.retries = 0) : q.softly i e tr = q := by
  unfold Lubran.softly
  rw [hr]
  rfl

/-- The next block of a READ whose block has passed at once (R80, R81). -/
theorem readPassed_next {fx : Option NextField} (hs : q.path.spindle = some i) (hc : (q.sp i).xfer.cont = none)
    (ho : e.owner = .host p t) (htr : e.track = some tr) (hk : q.slotFor (.host p t) b .disk = some k)
    (ha : e.abandoned = false) (hd : e.decided = none) (hr : e.retries = 0) (hb : b < e.first + e.count - 1) :
    (q.filled k bytes).readPassed i e b fx =
      Lubran.offer ((Lubran.released i (.host p t) (q.modEntry i (.host p t) fun x => { x with retries := 0 })
        (some { action := .read, field := .block (b + 1) })).modSlot k fun sl =>
          { sl with bytes := bytes, state := .full }) p t := by
  have hspindle : (q.filled k bytes).path.spindle = some i := hs
  have hcont : ((q.filled k bytes).sp i).xfer.cont = none := hc
  rw [readPassed_eq hspindle hcont ho htr ((filled_slotFor _ _).trans hk)]
  unfold Lubran.goOn Lubran.filled
  rw [if_pos hb, softly_none hr, afterField_more ha hd, modSlot_modSlot, ho, ← offer_released]
  rfl

/-- A read that is tried again, of an entry that is neither abandoned nor ending (R80). -/
theorem readFailed_next (hs : q.path.spindle = some i) (hn : (q.sp i).xfer.next = some nx)
    (ho : e.owner = .host p t) (ha : e.abandoned = false) (hd : e.decided = none)
    (hk : q.slotFor (.host p t) b .disk = some k) (hr : e.retries < 8) :
    (q.filled k bytes).readFailed i e b =
      (Lubran.released i (.host p t) (q.modEntry i (.host p t) fun x => { x with retries := e.retries + 1 })
        (some nx)).modSlot k fun sl => { sl with bytes := bytes, state := .reserved } := by
  have hspindle : (q.filled k bytes).path.spindle = some i := hs
  have hnext : ((q.filled k bytes).sp i).xfer.next = some nx := hn
  rw [readFailed_again hspindle hnext ho ((filled_slotFor _ _).trans hk) hr, afterField_more ha hd]
  unfold Lubran.filled
  rw [modSlot_modSlot]
  rfl

/-! ## The bytes that a compare finds -/

theorem filled_bytes : ((q.filled k bytes).slot k).bytes = bytes := by
  unfold Lubran.filled
  rw [slot_modSlot_self]

theorem comparePassed_filled (hs : q.path.spindle = some i) (ho : e.owner = .host p t) (htr : e.track = some tr)
    (hk : q.slotFor (.host p t) b .disk = some k) : (q.filled k bytes).comparePassed i e b =
      (Lubran.released i (.host p t) ((((q.filled k bytes).softly i e tr).modEntry i (.host p t) fun x =>
        { x with retries := 0, compared := true }).freeSlot k) (some { action := .write, field := .block b })).afterField
        i e fun r => if (bytes.drop e.cmpOffset).take e.cmpBytes.length = e.cmpBytes then r
          else r.decideEnding i .conditionNotMet (byteOf e.cmpBytes.length ::
            (bytes.drop e.cmpOffset).take e.cmpBytes.length) := by
  have hspindle : (q.filled k bytes).path.spindle = some i := hs
  rw [comparePassed_eq hspindle ho htr ((filled_slotFor _ _).trans hk), filled_bytes]

/-! ## A block that was cut short -/

theorem refill_eq : StagingSlot.refill = fun sl =>
    { sl with state := if sl.state = .filling then .reserved else sl.state } := by
  funext sl
  unfold StagingSlot.refill
  split <;> rfl

theorem cutField_read (h : q.Carries i (.host p t) e nx b) (ho : e.owner = .host p t) (htr : e.track = some tr)
    (hk : q.slotFor (.host p t) b .disk = some k)
    (hr : nx.action = .read ∨ nx.action = .verify ∨ nx.action = .compareRead) : q.cutField i =
      if e.retries < e.retryLimit then
        (((q.cutBack i (.host p t) b tr nx).modSlot k StagingSlot.refill).modEntry i (.host p t) fun x =>
          { x with retries := e.retries + 1 }).afterField i e fun r => r
      else ((((q.cutBack i (.host p t) b tr nx).modSlot k StagingSlot.refill).modEntry i (.host p t) fun x =>
        { x with retries := min 8 e.retries }).freeSlot k).hardly i e tr :=
  (cutField_host h htr).trans (hostCut_read ho htr ((cutBack_slotFor _ _ _ _).trans hk) hr)

theorem cutField_write (h : q.Carries i (.host p t) e nx b) (ho : e.owner = .host p t) (htr : e.track = some tr)
    (hk : q.slotFor (.host p t) b .disk = none) (hw : nx.action = .write ∨ nx.action = .reread) : q.cutField i =
      if e.retries < e.retryLimit then
        ((q.cutBack i (.host p t) b tr nx).modEntry i (.host p t) fun x => { x with retries := e.retries + 1 }).afterField
          i e fun r => r
      else ((q.cutBack i (.host p t) b tr nx).modEntry i (.host p t) fun x =>
        { x with retries := min 8 (e.retries + 1) }).hardly i e tr :=
  (cutField_host h htr).trans (hostCut_write ho htr ((cutBack_slotFor _ _ _ _).trans hk) hw)

end



/-- Settles O58: the end of a block by its action and its outcome, and a block cut short by a mark or by FAULT. -/
theorem fieldEndPassesOrFailsARead : Obligations.FieldEndPassesOrFailsARead := by
  intro s i e p t b id k act tr bytes check hrest hst hspindle hholder hfield hid hnext hcont hfound ho hkind htr o writes
    reads hkw hkr upd released finish goOn hard soft again filled good same found cut ends
  have hcarries : s.part.Carries i (.host p t) e { action := act, field := .block b } b :=
    ⟨hst, hspindle, hholder, hfield, hnext, rfl, hfound⟩
  have hfinish (q : Lubran) (more : Lubran → Lubran) : q.afterField i e more = finish q more := afterField_host ho
  have hgoOn (q : Lubran) (a : Action) : q.goOn i e b a = goOn q a := by
    unfold Lubran.goOn
    rw [ho]
    exact ite_eq_of_iff Iff.rfl (hfinish _ _) (hfinish _ _)
  have hhard (q : Lubran) : q.hardly i e tr = hard q := hfinish _ _
  have hdisk (hread : reads) : filled.slotFor (.host p t) b .disk = some k := (filled_slotFor _ _).trans (hkr hread)
  have hread_end (hread : reads) := endBlock_read (bytes := bytes.toList) (check := check) hcarries hid ho (hkr hread) _ rfl
  refine ⟨fun ha hd => ⟨fun hact hgood hr hb => ?_, fun hread hbad hr => ?_⟩, fun hact hgood => ?_, fun hact hgood => ?_,
    fun hact hgood => ?_, fun hread hbad hr => ?_, fun hact => ?_, fun hact => ⟨fun hpass => ?_, fun hfail => ?_⟩, ?_⟩
  · refine exec_atRest (((hread_end (.inl hact)).1 hact hgood).trans (readPassed_next hspindle
      hcont ho htr (hkr (.inl hact)) ha hd hr hb)) (atRest_offer (atRest_modSlot ?_ nofun))
    exact atRest_released (atRest_modEntry hrest)
  · refine exec_atRest (((hread_end hread).2.2.2 hread hbad).trans
      (readFailed_next hspindle hnext ho ha hd (hkr hread) hr)) (atRest_modSlot ?_ nofun)
    exact atRest_released (atRest_modEntry hrest)
  · refine exec_eq_run (((hread_end (.inl hact)).1 hact hgood).trans ?_)
    rw [← hgoOn]
    exact readPassed_eq hspindle hcont ho htr (hdisk (.inl hact))
  · refine exec_eq_run (((hread_end (.inr (.inl hact))).2.1 hact hgood).trans ?_)
    rw [← hgoOn]
    exact verifyPassed_eq hspindle hcont ho htr (hdisk (.inr (.inl hact)))
  · refine exec_eq_run (((hread_end (.inr (.inr hact))).2.2.1 hact hgood).trans ?_)
    exact (comparePassed_filled hspindle ho htr (hkr (.inr (.inr hact)))).trans (hfinish _ _)
  · refine exec_eq_run (((hread_end hread).2.2.2 hread hbad).trans ?_)
    rw [← hhard]
    exact readFailed_hard hspindle ho htr (hdisk hread) hr
  · intro block out
    obtain ⟨hk, -⟩ := hkw (.inl hact)
    have hend := endField_write (bytes := bytes.toList) (check := check) (hact ▸ hcarries) hid ho hkind htr hk
    refine ⟨fun hv => exec_eq_run (hend.trans ?_), fun hv => exec_eq_run (hend.trans ?_)⟩
    · exact (hostWritten_verified (q := out) hspindle ho hv).trans (hfinish _ _)
    · rw [← hgoOn]
      exact hostWritten_done (q := out) hspindle hcont ho hk hv
  · obtain ⟨hk, -⟩ := hkw (.inr hact)
    refine exec_eq_run ((endField_reread (hact ▸ hcarries) hid ho hkind hk).trans ((if_pos hpass).trans ?_))
    rw [← hgoOn]
    exact rereadPassed_eq hspindle hcont ho htr hk
  · intro failed
    obtain ⟨hk, -⟩ := hkw (.inr hact)
    have hend := ((endField_reread (bytes := bytes.toList) (check := check) (hact ▸ hcarries) hid ho hkind hk).trans
      (if_neg hfail)).trans (rereadFailed_eq (r := failed) hspindle ho htr rfl)
    refine ⟨fun hr => exec_eq_run (hend.trans ((if_pos hr).trans ?_)), fun hr => exec_eq_run (hend.trans
      ((if_neg (Nat.not_lt.2 hr)).trans ?_))⟩
    · exact hfinish _ _
    · exact hhard _
  · intro limit back refilled
    have hrefilled : (s.part.cutBack i (.host p t) b tr { action := act, field := .block b }).modSlot k StagingSlot.refill =
        refilled := by
      rw [refill_eq]
      rfl
    refine ⟨fun hread hr => ?_, fun hread hr => ?_, fun hw hr => ?_, fun hw hr => ?_, fun hact hst' => ?_⟩
    · refine (cutField_read hcarries ho htr (hkr hread) hread).trans ((if_pos hr).trans ?_)
      rw [hrefilled]
      exact hfinish _ _
    · refine (cutField_read hcarries ho htr (hkr hread) hread).trans ((if_neg (Nat.not_lt.2 hr)).trans ?_)
      rw [hrefilled]
      exact hhard _
    · exact (cutField_write hcarries ho htr (hkw hw).2 hw).trans ((if_pos hr).trans (hfinish _ _))
    · exact (cutField_write hcarries ho htr (hkw hw).2 hw).trans ((if_neg (Nat.not_lt.2 hr)).trans (hhard _))
    · exact (pathFault_write hcarries hst' htr).trans (hfinish _ _)

end Sys2Proof.Machine
end

section
/-!
The end of a block of a copy (R93, R131, R132), and SPARE TRACK with what its reassignment does.
-/

namespace Sys2Proof.Machine

/-! ## The path given back by the internal entry -/

/-- A spindle whose internal entry has been changed and has given the path back (R72). -/
def SpindleUnit.relinquished (f : Entry → Entry) (u : SpindleUnit) : SpindleUnit :=
  { u with
    internal := u.internal.map fun x => (f x).givenBack
    readGate := false, writeGate := false, xfer := { u.xfer with cont := none } }

/-- The part when a spindle's internal entry has been changed and has given the path back (R72). -/
def Lubran.relinquished (q : Lubran) (i : Spindle) (f : Entry → Entry) : Lubran :=
  { q.modSp i (SpindleUnit.relinquished f) with path := PathRec.idle }

theorem released_relinquished {u : SpindleUnit} {f : Entry → Entry} :
    SpindleUnit.released .internal u.xfer.next (u.modEntry .internal f) = u.relinquished f := by
  have hentry : (u.internal.map f).map Entry.givenBack = u.internal.map fun x => (f x).givenBack := Option.map_map ..
  unfold SpindleUnit.relinquished
  rw [← hentry]
  rfl

section
variable {q : Lubran} {i : Spindle} {e : Entry} {b : Nat} {tr : Track} {id : BlockId} {k : Fin 8} {act : Action}
  {bytes : List Byte} {check : Word32} {fx : Option NextField} {f : Entry → Entry}

theorem release_relinquished (hs : q.path.spindle = some i) :
    (q.modEntry i .internal f).releaseEntry i .internal = q.relinquished i f := by
  have hspindle : (q.modEntry i .internal f).path.spindle = some i := hs
  rw [releaseEntry_eq hspindle rfl]
  unfold Lubran.released Lubran.relinquished Lubran.modEntry
  rw [modSp_modSp, sp_modSp_self]
  refine congrArg (fun r : Lubran => { r with path := PathRec.idle }) (modSp_congr_at ?_)
  exact released_relinquished (u := q.sp i)

theorem modEntry_internal_id : q.modEntry i .internal (fun x => x) = q := by
  refine modSp_id _ _ ?_
  unfold SpindleUnit.modEntry
  dsimp only
  rw [Option.map_id']

theorem release_internal (hs : q.path.spindle = some i) :
    q.releaseEntry i .internal = q.relinquished i fun x => x :=
  (congrArg (fun r => Lubran.releaseEntry r i .internal) modEntry_internal_id.symm).trans
    (release_relinquished hs)

/-! ## A block of COPY that was read -/

theorem slotLost_some {o : Owner} {src : SlotSource} (h : q.slotFor o b src = some k) :
    q.slotLost o b src = (q.slot k).lost := by
  unfold Lubran.slotLost
  rw [h]

/-- The end of a block that the copy read (R131). -/
theorem endField_copyRead (h : q.Carries i .internal e { action := .read, field := .block b } b)
    (hid : q.path.id = some id) (ho : e.owner = .internal) (hk : q.slotFor .internal b .disk = some k) :
    q.endField bytes check = (q.filled k bytes).copyReadEnd i e b (decide (crc32 (idBytes id ++ bytes) = check))
      (q.follower e { action := .read, field := .block b }) := by
  have hfill : q.modBlockSlot e.owner b .disk (fun s => { s with bytes := bytes }) = q.filled k bytes := by
    rw [ho]
    exact modBlockSlot_some hk
  rw [endField_entry h]
  unfold Lubran.endBlock
  rw [pathBlock_entry h, hid]
  dsimp only
  rw [hfill, if_pos ho]

/-- A block of the copy that is FULL, with its own data or carried LOST, and its entry off the path (R93, R131). -/
def Lubran.copied (q : Lubran) (i : Spindle) (k : Fin 8) (bytes : List Byte) (state : SlotState) (lost : Bool) (n : Nat) :
    Lubran :=
  (q.modSlot k fun sl => { sl with bytes := bytes, state := state, lost := lost }).relinquished i fun x =>
    { x with retries := n }

theorem copied_release {state : SlotState} {lost : Bool} {n : Nat} (hs : q.path.spindle = some i) :
    Lubran.releaseEntry (((q.filled k bytes).modSlot k fun sl => { sl with state := state, lost := lost }).setRetries i
      .internal n) i .internal = q.copied i k bytes state lost n := by
  unfold Lubran.filled Lubran.copied Lubran.setRetries
  rw [modSlot_modSlot]
  exact release_relinquished hs

theorem filled_slotLost (hk : q.slotFor .internal b .disk = some k) :
    (q.filled k bytes).slotLost .internal b .disk = (q.slot k).lost := by
  rw [slotLost_some ((filled_slotFor _ _).trans hk)]
  unfold Lubran.filled
  rw [slot_modSlot_self]

theorem pathAfter_copied (hs : q.path.spindle = some i) (hc : (q.sp i).xfer.cont = none) (ho : e.owner = .internal)
    {state : SlotState} {lost ok : Bool} {n : Nat} :
    (((q.filled k bytes).modSlot k fun sl => { sl with state := state, lost := lost }).setRetries i .internal n).pathAfter i
      e ok fx = q.copied i k bytes state lost n := by
  have hpath : SamePath q (((q.filled k bytes).modSlot k fun sl => { sl with state := state, lost := lost }).setRetries i
      .internal n) := samePath_modSlot.trans (samePath_modSlot.trans samePath_modEntry)
  rw [pathAfter_none ((congrArg XferRec.cont (hpath.xfer i)).trans hc), ho]
  exact copied_release hs

/-- The path is given back whatever the sequencer holds (R72). -/
theorem pathAfter_seq {z : Sequencer} {ok : Bool} (hs : q.path.spindle = some i) (hc : (q.sp i).xfer.cont = none) :
    Lubran.pathAfter { q with seq := z } i e ok fx = { q.pathAfter i e ok fx with seq := z } := by
  have hspindle : ({ q with seq := z } : Lubran).path.spindle = some i := hs
  have hcont : (({ q with seq := z } : Lubran).sp i).xfer.cont = none := hc
  rw [pathAfter_none hc, pathAfter_none hcont, releaseEntry_eq hs rfl, releaseEntry_eq hspindle rfl]
  rfl

section
variable (hs : q.path.spindle = some i) (hc : (q.sp i).xfer.cont = none) (ho : e.owner = .internal)
  (hk : q.slotFor .internal b .disk = some k)
include hs ho hk

/-- A block that failed, tried again. -/
theorem copyReadEnd_again (hlost : (q.slot k).lost = false) (hr : e.retries < 8) :
    (q.filled k bytes).copyReadEnd i e b false fx = q.copied i k bytes .reserved false (e.retries + 1) := by
  have hnot : ¬ (false = true ∨ (q.slot k).lost = true ∨ Config.maxRetries ≤ e.retries) := by
    rw [hlost]
    rintro (h | h | h)
    · cases h
    · cases h
    · exact absurd hr (Nat.not_lt.2 h)
  unfold Lubran.copyReadEnd
  dsimp only
  rw [ho, filled_slotLost hk, if_neg hnot, modBlockSlot_some ((filled_slotFor _ _).trans hk)]
  exact copied_release hs

include hc

/-- A block read well, whose ID does not carry LOST. -/
theorem copyReadEnd_good (hlost : (q.slot k).lost = false) :
    (q.filled k bytes).copyReadEnd i e b true fx = (q.copied i k bytes .full false 0).seqReadDone i b := by
  unfold Lubran.copyReadEnd
  dsimp only
  rw [ho, filled_slotLost hk, hlost, modBlockSlot_some ((filled_slotFor _ _).trans hk), if_pos (.inl rfl), if_neg nofun]
  exact congrArg (fun r => Lubran.seqReadDone r i b) (pathAfter_copied hs hc ho)

/-- A block carried LOST: its ID says so, or its ninth attempt failed. -/
theorem copyReadEnd_lost {good : Bool} (h : (q.slot k).lost = true ∨ good = false ∧ 8 ≤ e.retries) :
    (q.filled k bytes).copyReadEnd i e b good fx = Lubran.seqReadDone
      { q.copied i k bytes .full true 0 with seq := { q.seq with lostCount := q.seq.lostCount + 1 } } i b := by
  have hends : good = true ∨ (q.slot k).lost = true ∨ Config.maxRetries ≤ e.retries :=
    h.elim (fun hl => .inr (.inl hl)) fun hf => .inr (.inr hf.2)
  have hcarried : ((q.slot k).lost || !good) = true := by
    rcases h with hl | ⟨hg, -⟩
    · rw [hl]; rfl
    · rw [hg]; exact Bool.or_true _
  unfold Lubran.copyReadEnd
  dsimp only
  rw [ho, filled_slotLost hk, hcarried, modBlockSlot_some ((filled_slotFor _ _).trans hk), if_pos hends, if_pos rfl]
  generalize hr : Lubran.setRetries _ i .internal 0 = r
  have hseq : r.seq = q.seq := by rw [← hr]; rfl
  have hpath : SamePath q r := by
    rw [← hr]
    exact samePath_modSlot.trans (samePath_modSlot.trans samePath_modEntry)
  have hcopied : r.pathAfter i e true fx = q.copied i k bytes .full true 0 := by
    rw [← hr]
    exact pathAfter_copied hs hc ho
  rw [pathAfter_seq (hpath.path ▸ hs) ((congrArg XferRec.cont (hpath.xfer i)).trans hc), hseq, hcopied]

end

/-- How a block that the copy read ends (R93, R131). -/
theorem endField_copyRead_ends (h : q.Carries i .internal e { action := .read, field := .block b } b)
    (hid : q.path.id = some id) (hc : (q.sp i).xfer.cont = none) (ho : e.owner = .internal)
    (hk : q.slotFor .internal b .disk = some k) :
    (crc32 (idBytes id ++ bytes) = check → (q.slot k).lost = false →
      q.endField bytes check = (q.copied i k bytes .full false 0).seqReadDone i b) ∧
    (¬ crc32 (idBytes id ++ bytes) = check → (q.slot k).lost = false → e.retries < 8 →
      q.endField bytes check = q.copied i k bytes .reserved false (e.retries + 1)) ∧
    ((q.slot k).lost = true ∨ ¬ crc32 (idBytes id ++ bytes) = check ∧ 8 ≤ e.retries →
      q.endField bytes check = Lubran.seqReadDone
        { q.copied i k bytes .full true 0 with seq := { q.seq with lostCount := q.seq.lostCount + 1 } } i b) := by
  rw [endField_copyRead h hid ho hk]
  refine ⟨fun hgood hlost => ?_, fun hbad hlost hr => ?_, fun hcarried => ?_⟩
  · rw [decide_eq_true hgood]
    exact copyReadEnd_good h.spindle hc ho hk hlost
  · rw [decide_eq_false hbad]
    exact copyReadEnd_again h.spindle ho hk hlost hr
  · exact copyReadEnd_lost h.spindle hc ho hk (hcarried.imp_right fun hf => ⟨decide_eq_false hf.1, hf.2⟩)

/-! ## A block of COPY that was written, or reread -/

section
variable (hid : q.path.id = some id) (hc : (q.sp i).xfer.cont = none) (ho : e.owner = .internal)
  (hkind : e.kind = .reassign) (hk : q.slotFor .internal b .disk = some k)
include hid hc ho hkind hk

theorem endField_copyWrite (h : q.Carries i .internal e { action := .write, field := .block b } b)
    (htr : q.seq.track = some tr) : q.endField bytes check = Lubran.seqWriteDone (Lubran.relinquished { q with
      writeOut := some (diskBlock i tr b (blockIdOf tr b (q.slot k).lost) (q.slot k).bytes) } i fun x => x) i b := by
  have hexpected : q.expectedTrack e = some tr := by
    unfold Lubran.expectedTrack
    rw [ho]
    exact htr
  have hwritten : q.writtenBlock i e b id tr = diskBlock i tr b (blockIdOf tr b (q.slot k).lost) (q.slot k).bytes := by
    have hsrc : writeSource e.kind = .disk := if_pos hkind
    unfold Lubran.writtenBlock
    dsimp only
    rw [if_pos hkind, hsrc, ho, slotLost_some hk, slotBytes_some hk]
  rw [endField_entry h]
  unfold Lubran.endBlock
  rw [pathBlock_entry h, hid]
  dsimp only
  rw [if_pos ho, hexpected]
  dsimp only [Option.getD]
  rw [hwritten]
  generalize diskBlock i tr b (blockIdOf tr b (q.slot k).lost) (q.slot k).bytes = w
  have hcont : (({ q with writeOut := some w } : Lubran).sp i).xfer.cont = none := hc
  rw [pathAfter_none hcont, ho, release_internal (q := { q with writeOut := some w }) h.spindle]

theorem endField_copyReread (h : q.Carries i .internal e { action := .reread, field := .block b } b) :
    q.endField bytes check = if crc32 (idBytes id ++ bytes) = check ∧ bytes = (q.slot k).bytes
      then ((q.freeSlot k).relinquished i fun x => x).seqVerifyDone i b
      else (q.relinquished i fun x => x).alternateFailure i := by
  have hsrc : writeSource e.kind = .disk := if_pos hkind
  have hspindle : (q.freeSlot k).path.spindle = some i := (congrArg PathRec.spindle samePath_freeSlot.path).trans h.spindle
  have hcont : ((q.freeSlot k).sp i).xfer.cont = none := (congrArg XferRec.cont (samePath_freeSlot.xfer i)).trans hc
  rw [endField_entry h]
  unfold Lubran.endBlock
  rw [pathBlock_entry h, hid]
  dsimp only
  rw [if_pos ho, hsrc, ho, slotBytes_some hk, freeBlockSlot_some hk, pathAfter_none hcont, ho,
    release_internal hspindle, release_internal h.spindle]
  refine ite_eq_of_iff ?_ rfl rfl
  rw [Bool.and_eq_true, decide_eq_true_iff, decide_eq_true_iff]

end

end

/-- Settles O29: the admission of a track, SELECT with its alternate, the blocks of COPY, and the two outcomes. -/
theorem spareTrackAdmits : Obligations.SpareTrackAdmits := by
  refine ⟨?_, ?_, ?_, ?_⟩
  · intro s p f a n cyl head i hf hu ha home q reassign
    obtain ⟨hsparing, hfull⟩ := spareTrack_full hf hu ha
    refine ⟨hsparing, hfull, fun hnew hroom hstate => spareTrack_waits hf hu ha hnew hroom hstate,
      fun hnew hnone hstate hlife => spareTrack_fails hf hu ha hnew hnone hstate hlife,
      fun hnew hnone hstate hlife hcur hin => spareTrack_placed hf hu ha hnew hnone hstate hlife hcur hin⟩
  · intro q i home hhome old source begun
    refine ⟨fun hgen => (startReassign_eq hhome).trans (if_pos hgen), fun hgen hold hfull => ?_, fun hgen hroom => ?_⟩
    · exact ((startReassign_eq hhome).trans (if_neg (Nat.ne_of_lt hgen))).trans
        (selectAlternate_full (q := q.selecting i home) hhome hold hfull)
    · have hselect := (startReassign_eq (i := i) hhome).trans (if_neg (Nat.ne_of_lt hgen))
      refine ⟨fun halt => hselect.trans ((selectAlternate_room (q := q.selecting i home) hhome hroom).1 halt), ?_⟩
      intro alt halt hc hknown horphan hcyl t
      exact startReassign_copies hhome hgen hroom halt hc hknown horphan hcyl
  · intro s i e b id k act tr bytes check hst hspindle hholder hfield hid hnext hcont hin ho hkind ha hd htr hk released
      ends good filled lost carried block
    have hcarries : s.part.Carries i .internal e { action := act, field := .block b } b :=
      ⟨hst, hspindle, hholder, hfield, hnext, rfl, hin⟩
    have hread (hact : act = .read) := endField_copyRead_ends (bytes := bytes.toList) (check := check) (hact ▸ hcarries) hid
      hcont ho hk
    refine ⟨fun hact hlost => ⟨fun hgood => ?_, fun hbad hr => ?_, fun hbad hr => ?_⟩, fun hact hlost => ?_, fun hact => ?_,
      fun hact hgood => ?_, fun hact hbad => ?_⟩
    · exact exec_eq_run ((hread hact).1 hgood hlost)
    · exact exec_eq_run ((hread hact).2.1 hbad hlost hr)
    · exact exec_eq_run ((hread hact).2.2 (.inr ⟨hbad, hr⟩))
    · exact exec_eq_run ((hread hact).2.2 (.inl hlost))
    · exact exec_eq_run (endField_copyWrite hid hcont ho hkind hk (hact ▸ hcarries) htr)
    · exact exec_eq_run ((endField_copyReread hid hcont ho hkind hk (hact ▸ hcarries)).trans (if_pos hgood))
    · exact exec_eq_run ((endField_copyReread hid hcont ho hkind hk (hact ▸ hcarries)).trans (if_neg hbad))
  · intro q i home trigger hhome htrigger left
    exact ⟨removeReassign_internal, fun reason => spareFailed_raises hhome htrigger,
      fun alt halt => spareDone_raises hhome halt htrigger⟩

end Sys2Proof.Machine
end

section
/-!
The end of a header field (R92): a header of a map build (R108, R109, R112), and the steps of a reassignment that end in
header writes (R132 to R135).
-/

namespace Sys2Proof.Machine

section
variable {q r : Lubran} {i : Spindle} {home alt old : Track} {gen b : Nat}

/-! ## An alternate failure -/

theorem retire_pool : ((q.retire i alt).sp i).pool =
    if (q.sp i).pool[altIndex alt]? = some .free then (q.sp i).pool.set (altIndex alt) .retired else (q.sp i).pool := by
  unfold Lubran.retire
  split
  · next h =>
    rw [if_pos h]
    unfold Lubran.poolLowTest Lubran.setPool
    dsimp only
    split
    · rw [raiseMasked_keeps.2.1, sp_modSp_self]
    · rw [sp_modSp_self]
  · next h => rw [if_neg fun hfree => h hfree]

/-- The part when the round of an alternate failure has ended and its new alternate is retired (R133). -/
def Lubran.roundFailed (q : Lubran) (i : Spindle) (alt : Track) : Lubran :=
  Lubran.retire (((({ q with seq := { q.seq with need := 0, hdr := some .retireFailed } } : Lubran).leaveWaiting
    .internal).freeSlotsOf .internal).modXfer i fun x => { x with next := none, cont := none }) i alt

theorem roundFailed_keeps : (q.roundFailed i alt).seq = { q.seq with need := 0, hdr := some .retireFailed } ∧
    (∀ k, ((q.roundFailed i alt).slot k).owner ≠ some .internal) ∧
    ((q.roundFailed i alt).sp i).pool = ((q.retire i alt).sp i).pool ∧
    ((q.roundFailed i alt).sp i).xfer.cont = none ∧
    ((q.roundFailed i alt).sp i).internal = (q.sp i).internal := by
  unfold Lubran.roundFailed
  obtain ⟨hseq, hslots, hxfer, hin⟩ := retire_keeps (i := i) (alt := alt) (q := ((({ q with seq := { q.seq with
    need := 0, hdr := some .retireFailed } } : Lubran).leaveWaiting .internal).freeSlotsOf .internal).modXfer i fun x =>
      { x with next := none, cont := none })
  obtain ⟨hfseq, hfsp⟩ := freeSlotsOf_keeps (o := .internal) (i := i) (q := ({ q with seq := { q.seq with
    need := 0, hdr := some .retireFailed } } : Lubran).leaveWaiting .internal)
  refine ⟨hseq.trans hfseq, fun k => ?_, ?_, ?_, ?_⟩
  · unfold Lubran.slot
    rw [hslots]
    exact freeSlotsOf_owner
  · rw [retire_pool, modXfer_eq, sp_modSp_self, hfsp, retire_pool]
    rfl
  · rw [hxfer, modXfer_eq, sp_modSp_self]
  · rw [hin, modXfer_eq, sp_modSp_self, hfsp]
    rfl

theorem alternateFailure_cases (halt : q.seq.newAlt = some alt) :
    (q.alternateFailure i = q.roundFailed i alt ∨
      q.alternateFailure i = (q.roundFailed i alt).setNext i .headerWrite .header) ∧
    (∀ e, (q.sp i).internal = some e → e.state = .rotating ∨ e.state = .transferring →
      q.alternateFailure i = (q.roundFailed i alt).setNext i .headerWrite .header) := by
  obtain ⟨-, -, -, -, hin⟩ := roundFailed_keeps (q := q) (i := i) (alt := alt)
  unfold Lubran.alternateFailure
  rw [halt]
  dsimp only
  generalize hr : Lubran.retire _ i alt = r
  have hfailed : r = q.roundFailed i alt := hr.symm
  rw [hfailed, hin]
  cases (q.sp i).internal with
  | none => exact ⟨.inl rfl, fun e he => absurd he.symm (Option.some_ne_none e)⟩
  | some e =>
    dsimp only
    refine ⟨?_, fun e' he hstate => ?_⟩
    · cases e.state with
      | rotating | transferring => exact .inr rfl
      | queued | seeking | settling | ending => exact .inl rfl
    · have hstate' := Option.some.inj he ▸ hstate
      rcases hstate' with h | h <;> rw [h]

/-- What an alternate failure leaves (R133). -/
theorem alternateFailure_leaves (halt : q.seq.newAlt = some alt) :
    (q.alternateFailure i).seq = { q.seq with need := 0, hdr := some .retireFailed } ∧
    (∀ k, ((q.alternateFailure i).slot k).owner ≠ some .internal) ∧
    ((q.alternateFailure i).sp i).pool = ((q.retire i alt).sp i).pool ∧
    ((q.alternateFailure i).sp i).xfer.cont = none ∧
    (∀ e, (q.sp i).internal = some e → e.state = .rotating ∨ e.state = .transferring →
      ((q.alternateFailure i).sp i).xfer.next = some { action := .headerWrite, field := .header }) := by
  obtain ⟨hseq, hslot, hpool, hcont, -⟩ := roundFailed_keeps (q := q) (i := i) (alt := alt)
  obtain ⟨heither, hnext⟩ := alternateFailure_cases (i := i) halt
  refine ⟨?_, fun k => ?_, ?_, ?_, fun e he hstate => ?_⟩
  · rcases heither with h | h <;> rw [h] <;> exact hseq
  · rcases heither with h | h <;> rw [h] <;> exact hslot k
  · rcases heither with h | h <;> rw [h]
    · exact hpool
    · unfold Lubran.setNext
      rw [modXfer_eq, sp_modSp_self]
      exact hpool
  · rcases heither with h | h <;> rw [h]
    · exact hcont
    · unfold Lubran.setNext
      rw [modXfer_eq, sp_modSp_self]
      exact hcont
  · rw [hnext e he hstate]
    unfold Lubran.setNext
    rw [modXfer_eq, sp_modSp_self]

/-! ## HEADER and COMMIT -/

theorem enterHeader_limit (h : (q.sp i).generation = 65535) :
    q.enterHeader i = Lubran.spareFailed { q with seq := { q.seq with state := .header } } i .generationLimit := by
  have hnone : Lubran.takeGeneration { q with seq := { q.seq with state := .header } } i = none :=
    if_neg fun hlt => absurd (show (q.sp i).generation < 65535 from hlt) (by omega)
  unfold Lubran.enterHeader
  dsimp only
  rw [hnone]

theorem enterHeader_claims (h : (q.sp i).generation < 65535) : q.enterHeader i =
    { q.modSp i fun u =>
        { u with generation := u.generation + 1
                 xfer := { u.xfer with next := some { action := .headerWrite, field := .header } } } with
      seq := { q.seq with state := .header, generation := some (q.sp i).generation, hdr := some .claim } } := by
  have htaken : Lubran.takeGeneration { q with seq := { q.seq with state := .header } } i = some ((q.sp i).generation,
      { q.modSp i fun u => { u with generation := u.generation + 1 } with seq := { q.seq with state := .header } }) :=
    if_pos h
  unfold Lubran.enterHeader
  dsimp only
  rw [htaken]
  dsimp only
  unfold Lubran.setNext
  rw [← modSp_modSp q i (fun u => { u with generation := u.generation + 1 }) fun u =>
    { u with xfer := { u.xfer with next := some { action := .headerWrite, field := .header } } }]
  rfl

theorem forgetTrack_eq {t : Track} : q.forgetTrack i t =
    { q with suspects := q.suspects.filter fun m => decide (¬ (m.spindle = i ∧ m.track = t)) } := by
  unfold Lubran.forgetTrack Suspect.isOf
  refine congrArg (fun f => { q with suspects := q.suspects.filter f }) (funext fun m => ?_)
  exact (decide_not ..).symm

/-- COMMIT by the answer to its request (R135). -/
theorem enterCommit_answer (hhome : q.seq.home = some home) (halt : q.seq.newAlt = some alt)
    (hgen : q.seq.generation = some gen)
    (hr : r = (Lubran.commit { q with seq := { q.seq with state := .commit } } i home alt gen).1) {a : CommitAnswer}
    (ha : (Lubran.commit { q with seq := { q.seq with state := .commit } } i home alt gen).2 = a) :
    (a = .committed → q.enterCommit i = (r.forgetTrack i home).spareDone i) ∧
    (∀ old, a = .retargeted old → q.enterCommit i =
      Lubran.seqSeek { (r.forgetTrack i home).forgetTrack i old with seq := { r.seq with hdr := some .retireOld } } i
        old) ∧
    (a = .mapFull → q.enterCommit i =
      Lubran.setNext { r with seq := { r.seq with hdr := some .retireRefused } } i .headerWrite .header) := by
  have hcommit : Lubran.commit { q with seq := { q.seq with state := .commit } } i home alt gen = (r, a) := by
    rw [hr, ← ha]
  unfold Lubran.enterCommit
  rw [hhome, halt, hgen]
  dsimp only
  rw [hcommit]
  refine ⟨fun h => ?_, fun old h => ?_, fun h => ?_⟩ <;> subst h <;> rfl

/-! ## The blocks of a round -/

theorem seqReadDone_last (halt : q.seq.newAlt = some alt) (h : b = q.seq.roundFirst + q.seq.roundSize - 1) :
    q.seqReadDone i b = Lubran.seqSeek { q with seq := { q.seq with need := 0, step := .targetSeek } } i alt := by
  have hlast : b = q.seq.roundLast := h
  unfold Lubran.seqReadDone
  rw [if_pos hlast, halt]

/-- A round goes on after a block that is not its last (R131, R132). -/
theorem round_goes_on (h : b ≠ q.seq.roundFirst + q.seq.roundSize - 1) :
    q.seqReadDone i b = q.setNext i .read (.block (b + 1)) ∧ q.seqWriteDone i b = q.setNext i .write (.block (b + 1)) ∧
    q.seqVerifyDone i b =
      Lubran.setNext { q with seq := { q.seq with copied := q.seq.copied + 1 } } i .reread (.block (b + 1)) :=
  ⟨if_neg h, if_neg h, if_neg h⟩

theorem seqWriteDone_last (h : b = q.seq.roundFirst + q.seq.roundSize - 1) : q.seqWriteDone i b =
    Lubran.setNext { q with seq := { q.seq with step := .verify } } i .reread (.block q.seq.roundFirst) := if_pos h

theorem seqVerifyDone_last (h : b = q.seq.roundFirst + q.seq.roundSize - 1) : q.seqVerifyDone i b =
    if b + 1 < 15 then Lubran.startRound { q with seq := { q.seq with copied := q.seq.copied + 1 } } i (b + 1)
    else Lubran.enterHeader { q with seq := { q.seq with copied := q.seq.copied + 1 } } i := if_pos h

/-! ## The end of a header write -/

/-- A header that the sequencer wrote, and the path given back (R92). -/
theorem endHeader_written {bytes : List Byte} {written : Bool} (hst : q.path.state = .header)
    (hs : q.path.spindle = some i) (hholder : q.path.holder = some (.entry .internal)) {tr : Track}
    (htr : q.seq.track = some tr) : q.endHeader bytes written = Lubran.seqHeaderDone (Lubran.released i .internal { q with
      writeOut := some { spindle := i, track := tr, field := .header, bytes := q.seqHeaderBytes i, whole := written } } none)
      i (written && !q.path.faulted) := by
  unfold Lubran.endHeader
  rw [hst, hs, hholder]
  dsimp only
  rw [htr]
  dsimp only [Option.getD]
  generalize ({ spindle := i, track := tr, field := .header, bytes := q.seqHeaderBytes i, whole := written } : DiskWrite) = w
  have hspindle : ({ q with writeOut := some w } : Lubran).path.spindle = some i := hs
  rw [releaseEntry_loadNext hspindle]

theorem seqHeaderDone_claim {good : Bool} (h : q.seq.hdr = some .claim) :
    q.seqHeaderDone i good = if good then q.enterCommit i else q.alternateFailure i := by
  unfold Lubran.seqHeaderDone
  rw [h]

theorem seqHeaderDone_retireFailed {good : Bool} (h : q.seq.hdr = some .retireFailed) :
    q.seqHeaderDone i good = if 3 ≤ q.seq.tried then q.spareFailed i .alternatesFailed else q.reselect i := by
  unfold Lubran.seqHeaderDone
  rw [h]

theorem seqHeaderDone_retireOld {good : Bool} (h : q.seq.hdr = some .retireOld) :
    q.seqHeaderDone i good = q.spareDone i := by
  unfold Lubran.seqHeaderDone
  rw [h]

theorem seqHeaderDone_retireRefused {good : Bool} (h : q.seq.hdr = some .retireRefused) :
    q.seqHeaderDone i good = q.spareFailed i .mapFull := by
  unfold Lubran.seqHeaderDone
  rw [h]

/-! ## The end of a header read -/

section
variable {bytes : List Byte} {written : Bool} {c : BuildRec} {h : Header}

/-- A spindle whose gates have fallen. -/
def SpindleUnit.gated (u : SpindleUnit) : SpindleUnit := { u with readGate := false, writeGate := false }

theorem releasePath_eq (hs : q.path.spindle = some i) :
    q.releasePath = { q.modSp i SpindleUnit.gated with path := PathRec.idle } := by
  unfold Lubran.releasePath
  rw [hs]
  rfl

section
variable (hst : q.path.state = .header) (hs : q.path.spindle = some i) (hholder : q.path.holder = some .build)
include hst hs hholder

theorem endHeader_failed (hfail : q.path.faulted = true ∨ parseHeader bytes = none) :
    q.endHeader bytes written = q.releasePath.buildHeaderFailed i := by
  unfold Lubran.endHeader
  rw [hst, hs, hholder]
  dsimp only
  rcases hfail with hf | hp
  · rw [hf]
  · rw [hp]
    cases q.path.faulted <;> rfl

theorem endHeader_good (hfault : q.path.faulted = false) (hp : parseHeader bytes = some h) :
    q.endHeader bytes written = q.releasePath.buildHeaderGood i h := by
  unfold Lubran.endHeader
  rw [hst, hs, hholder]
  dsimp only
  rw [hfault, hp]

end

theorem buildHeaderFailed_again (hb : (q.sp i).build = some c) (hfailed : c.failed < 8) :
    q.buildHeaderFailed i = q.modBuild i fun c => { c with failed := c.failed + 1 } := by
  unfold Lubran.buildHeaderFailed
  rw [hb]
  exact if_pos hfailed

/-- An accepted FREE header (R109, R110). -/
theorem buildHeaderGood_free (hb : (q.sp i).build = some c) (hown : h.own = altTrack c.next) (hcls : h.cls = .free) :
    q.buildHeaderGood i h = (q.modBuild i fun c => c.accept h).recordDone i .free := by
  unfold Lubran.buildHeaderGood
  rw [hb]
  dsimp only
  rw [if_pos hown, hcls]

end

end

end Sys2Proof.Machine
end

section
/-!
A FREE header of a map build, and the ends of header fields together.
-/

namespace Sys2Proof.Machine

section
variable {q r : Lubran} {i : Spindle} {t : Track} {c : BuildRec} {x : PoolRec}

/-! ## The next record of a map build -/

theorem syncEntry_none (h : q.current i = none) : q.syncEntry i = q := by
  unfold Lubran.syncEntry
  rw [h]

/-- A channel that switches its heads (R14). -/
def Channel.switched (c : Channel) (p : Params) (t : Track) : Channel :=
  { c.beginSeek p t false with state := .settling, settle := 1 }

theorem startSeek_switches (hcyl : t.cyl = (q.sp i).chan.cyl) (hhead : t.head ≠ (q.sp i).chan.head)
    (hcur : q.current i = none) : q.startSeek i t false = q.modChan i fun c => c.switched q.params t := by
  have hd : distance t.cyl (q.sp i).chan.cyl = 0 := by
    unfold distance
    omega
  have hchan : q.modChan i (fun _ => (q.sp i).chan.switched q.params t) = q.modChan i fun c => c.switched q.params t := by
    rw [modChan_eq, modChan_eq]
    exact modSp_congr_at rfl
  have hnone : (q.modChan i fun c => c.switched q.params t).current i = none := by
    rw [modChan_eq]
    unfold Lubran.current
    rw [sp_modSp_self]
    exact (current_congr rfl rfl).trans hcur
  unfold Lubran.startSeek
  dsimp only
  rw [if_pos hd, if_neg hhead]
  refine Eq.trans ?_ (syncEntry_none hnone)
  exact congrArg (fun r => Lubran.syncEntry r i) hchan

theorem seekRequest_onTrack (hc : (q.sp i).chan.state = .onTrack) (hknown : (q.sp i).chan.posKnown = true) :
    q.seekRequest i t false = q.startSeek i t false := if_pos ⟨hc, hknown⟩

/-- Two records of one cylinder that follow each other are on neighbouring heads (R98). -/
theorem altTrack_next {n : Nat} (h : n % 12 < 11) :
    (altTrack (n + 1)).cyl = (altTrack n).cyl ∧ (altTrack (n + 1)).head ≠ (altTrack n).head := by
  unfold altTrack
  dsimp only
  refine ⟨congrArg spareCyl ?_, ?_⟩ <;> omega

/-- The spindle of a map build that goes on to the next record of a cylinder (R112). -/
def SpindleUnit.nextRecord (u : SpindleUnit) (p : Params) (c : BuildRec) (x : PoolRec) : SpindleUnit :=
  { u with
    pool := u.pool ++ [x], xfer := { u.xfer with next := none }
    build := some { next := c.next + 1, failed := 0, mismatch := false, highest := c.highest }
    chan := u.chan.switched p (altTrack (c.next + 1)) }

theorem recordDone_switches (hb : (q.sp i).build = some c) (hnext : c.next < 191) (hlast : c.next % 12 < 11)
    (hc : (q.sp i).chan.state = .onTrack) (hknown : (q.sp i).chan.posKnown = true)
    (hcyl : (q.sp i).chan.cyl = (altTrack c.next).cyl) (hhead : (q.sp i).chan.head = (altTrack c.next).head)
    (hcur : q.current i = none) : q.recordDone i x = q.modSp i fun u => u.nextRecord q.params c x := by
  obtain ⟨hsame, hother⟩ := altTrack_next hlast
  have hroom : c.next + 1 < Config.alternates := Nat.succ_lt_succ hnext
  unfold Lubran.recordDone
  rw [hb]
  dsimp only
  rw [if_pos hroom]
  unfold Lubran.buildSeek
  rw [modXfer_eq, modSp_modSp]
  generalize hr : q.modSp i _ = r
  have hsp : r.sp i = { q.sp i with
      pool := (q.sp i).pool ++ [x], xfer := { (q.sp i).xfer with next := none }
      build := some { next := c.next + 1, failed := 0, mismatch := false, highest := c.highest } } := by
    rw [← hr, sp_modSp_self]
  have hchan : (r.sp i).chan = (q.sp i).chan := by rw [hsp]
  have hidle : r.current i = none := by
    unfold Lubran.current
    rw [hsp]
    exact (current_congr rfl rfl).trans hcur
  rw [seekRequest_onTrack (by rw [hchan]; exact hc) (by rw [hchan]; exact hknown),
    startSeek_switches (by rw [hchan, hsame, hcyl]) (by rw [hchan, hhead]; exact hother) hidle, ← hr, modChan_eq, modSp_modSp]
  rfl

/-- A change of a spindle whose path has been given back (R72). -/
theorem releasePath_modSp (hs : q.path.spindle = some i) {f g : SpindleUnit → SpindleUnit}
    (h : f (q.sp i).gated = g (q.sp i)) : q.releasePath.modSp i f = { q.modSp i g with path := PathRec.idle } := by
  have hunit : (q.modSp i SpindleUnit.gated).modSp i f = q.modSp i g := by
    rw [modSp_modSp]
    exact modSp_congr_at h
  rw [releasePath_eq hs, ← hunit]
  rfl

theorem releasePath_sp_self (hs : q.path.spindle = some i) : q.releasePath.sp i = (q.sp i).gated := by
  rw [releasePath_eq hs, sp_with_path, sp_modSp_self]

/-- A FREE header of a map build goes on to the next record of its cylinder (R109, R112). -/
theorem buildHeaderGood_switches {h : Header} (hb : (q.sp i).build = some c) (hown : h.own = altTrack c.next)
    (hcls : h.cls = .free) (hnext : c.next < 191) (hlast : c.next % 12 < 11)
    (hc : (q.sp i).chan.state = .onTrack) (hknown : (q.sp i).chan.posKnown = true)
    (hcyl : (q.sp i).chan.cyl = (altTrack c.next).cyl) (hhead : (q.sp i).chan.head = (altTrack c.next).head)
    (hcur : q.current i = none) : q.buildHeaderGood i h =
      q.modSp i fun u => u.nextRecord q.params { c with highest := some (max h.gen (c.highest.getD 0)) } .free := by
  have haccept : c.accept h = { c with highest := some (max h.gen (c.highest.getD 0)) } := by
    unfold BuildRec.accept
    rw [hcls]
  rw [buildHeaderGood_free hb hown hcls]
  generalize hr : q.modBuild i (fun c => c.accept h) = r
  have hsp : r.sp i = { q.sp i with build := some { c with highest := some (max h.gen (c.highest.getD 0)) } } := by
    rw [← hr, ← haccept]
    unfold Lubran.modBuild
    rw [sp_modSp_self, hb]
    rfl
  have hchan : (r.sp i).chan = (q.sp i).chan := by rw [hsp]
  have hidle : r.current i = none := by
    unfold Lubran.current
    rw [hsp]
    exact (current_congr rfl rfl).trans hcur
  have hdone := recordDone_switches (q := r) (x := .free) (congrArg SpindleUnit.build hsp) hnext hlast (hchan ▸ hc)
    (hchan ▸ hknown) (hchan ▸ hcyl) (hchan ▸ hhead) hidle
  rw [hdone, ← hr]
  unfold Lubran.modBuild
  rw [modSp_modSp]
  rfl

end

/-- Settles O59: a header of a map build, a header of the sequencer, and the sequencer's steps. -/
theorem headerEndBuildsTheMap : Obligations.HeaderEndBuildsTheMap := by
  refine ⟨?_, ?_, ?_⟩
  · intro s i b bytes written hrest hst hs hholder hb
    have hbuild : (s.part.releasePath.sp i).build = some b := by
      rw [releasePath_sp_self hs]
      exact hb
    obtain ⟨hsettle, hwait, hselect⟩ := rests_of_atRest hrest i
    refine ⟨fun hfail hfailed => ?_, ?_⟩
    · refine exec_atRest ((endHeader_failed hst hs hholder hfail).trans ((buildHeaderFailed_again hbuild hfailed).trans
        (releasePath_modSp hs ?_))) (atRest_with_path (atRest_spindle hrest ⟨hsettle, hwait, hselect⟩))
      unfold SpindleUnit.gated
      dsimp only
      rw [hb]
      rfl
    · intro h hfault hp hown hcls hnext hlast hc hknown hcyl hhead hcur hreq
      have hchan : (s.part.releasePath.sp i).chan = (s.part.sp i).chan := by
        rw [releasePath_sp_self hs]
        rfl
      have hidle : s.part.releasePath.current i = none := by
        unfold Lubran.current
        rw [releasePath_sp_self hs]
        exact (current_congr rfl rfl).trans hcur
      have hgood := buildHeaderGood_switches hbuild hown hcls hnext hlast (hchan ▸ hc) (hchan ▸ hknown) (hchan ▸ hcyl)
        (hchan ▸ hhead) hidle
      have hparams : s.part.releasePath.params = s.part.params := by
        rw [releasePath_eq hs]
        rfl
      rw [hparams] at hgood
      refine exec_atRest ((endHeader_good hst hs hholder hfault hp).trans (hgood.trans (releasePath_modSp hs ?_)))
        (atRest_with_path (atRest_spindle hrest ⟨?_, ?_, hselect⟩))
      · rfl
      · rfl
      · unfold SpindleUnit.waitReady
        rw [hreq]
  · intro s i bytes written tr home alt use_ hst hs hholder htr hhome halt hhdr gen header out q ends
    have hbytes : s.part.seqHeaderBytes i = header.bytes := by
      unfold Lubran.seqHeaderBytes
      dsimp only
      rw [hhdr, hhome, halt]
      cases use_ <;> rfl
    have hend (x : Lubran) (hx : q.seqHeaderDone i (written && !s.part.path.faulted) = x) : ends x := by
      refine exec_eq_run ((endHeader_written hst hs hholder htr).trans ?_)
      rw [hbytes]
      exact hx
    have hq : q.seq.hdr = some use_ := hhdr
    refine ⟨fun hu hw hf => hend _ ?_, fun hu hw => hend _ ?_, fun hu ht => hend _ ?_, fun hu ht => hend _ ?_,
      fun hu => hend _ ?_, fun hu => hend _ ?_⟩
    · rw [hw, hf]
      exact seqHeaderDone_claim (hu ▸ hq)
    · refine (seqHeaderDone_claim (hu ▸ hq)).trans (if_neg ?_)
      rcases hw with hw | hf
      · rw [hw]; exact Bool.false_ne_true
      · rw [hf, Bool.not_true, Bool.and_false]; exact Bool.false_ne_true
    · exact (seqHeaderDone_retireFailed (hu ▸ hq)).trans (if_pos ht)
    · exact (seqHeaderDone_retireFailed (hu ▸ hq)).trans (if_neg (Nat.not_le.2 ht))
    · exact seqHeaderDone_retireOld (hu ▸ hq)
    · exact seqHeaderDone_retireRefused (hu ▸ hq)
  · intro q i home alt hhome halt failed
    refine ⟨alternateFailure_leaves halt, enterHeader_limit, enterHeader_claims, fun gen hgen => ?_,
      fun b => ⟨fun hb => round_goes_on hb, fun hb => ?_⟩⟩
    · intro r forgotten
      obtain ⟨hcommitted, hretargeted, hfull⟩ := enterCommit_answer (i := i) hhome halt hgen rfl rfl
      refine ⟨fun ha => (hcommitted ha).trans ?_, fun old ha => (hretargeted old ha).trans ?_, fun ha => hfull ha⟩
      · rw [forgetTrack_eq]
      · rw [forgetTrack_eq, forgetTrack_eq]
    · refine ⟨seqReadDone_last halt hb, seqWriteDone_last hb, fun hlt => ?_, fun hge => ?_⟩
      · exact (seqVerifyDone_last hb).trans (if_pos (Nat.succ_lt_succ hlt))
      · exact (seqVerifyDone_last hb).trans (if_neg (by omega))

end Sys2Proof.Machine
end
